-- ==== Sys2Proof/Word.lean ====
section
/-! DEFINITION. The word types of the block (rule R11: `u8`, `u32`, bit 0 the least significant bit). -/

namespace Sys2Proof

/-- A 32-bit word: a host register, a command word, a word of the GPIO register page (rules R8, R21, R90). -/
abbrev Word := BitVec 32

/-- An 8-bit value: a field of the command word, a byte on the line, the CRC accumulator (rules R11, R40, R90). -/
abbrev Byte := BitVec 8

end Sys2Proof
end

