-- ==== Sys2Proof/Syntax.lean ====
section
/-! DEFINITION. The commands of the block: one constructor for each of the 29 rows of `spec/opcode_table.json`
(30_encoding.md rule R95). Symbolic operands are the codes of rule R93 turned into names; pin operands stay the signed
8-bit fields they are (rule R92), because every value of them is legal (rule R103). -/

namespace Sys2Proof

/-- The mode operand `M` of `setMode` (rule R93: input 0, output 1), and the direction of a pin (rule R31). -/
inductive PinMode where
  | input
  | output
deriving DecidableEq, Repr, Inhabited

/-- The three pull states of a pin (rules R31, R93). -/
inductive Pull where
  | disable
  | up
  | down
deriving DecidableEq, Repr, Inhabited

/-- The commands of the block, in the order of the opcode table. -/
inductive Instr where
  /-- `initialize` (rule R124). -/
  | initGpio
  /-- `finalize` (rule R125). -/
  | finalize
  /-- `exportPin` (rule R126). -/
  | exportPin (p : Byte)
  /-- `unexportPin` (rule R129). -/
  | unexportPin (p : Byte)
  /-- `unexportAll` (rule R130). -/
  | unexportAll
  /-- `setMode` (rule R132). -/
  | setMode (p : Byte) (m : PinMode)
  /-- `setPullState.disable`, the row `V = 0` of `setPullState` (rule R134). -/
  | setPullDisable (p : Byte)
  /-- `setPullState.up`, the row `V = 1` of `setPullState` (rule R134). -/
  | setPullUp (p : Byte)
  /-- `setPullState.down`, the row `V = 2` of `setPullState` (rule R134). -/
  | setPullDown (p : Byte)
  /-- `setValue` (rule R136); the level `B` is `true` for 1. -/
  | setValue (p : Byte) (b : Bool)
  /-- `getValue` (rule R138). -/
  | getValue (p : Byte)
  /-- `delay` (rule R164); the anchor flag `F` is `true` when an anchor is given. -/
  | delay (f : Bool)
  /-- `clockRead` (rule R165). -/
  | clockRead
  /-- `busOpenLegacy` (rule R184). -/
  | busOpenLegacy (p : Byte)
  /-- `busOpenTunable` (rule R185). -/
  | busOpenTunable (p : Byte)
  /-- `busOpenBuffered` (rule R187): dedicated input pin, dedicated output pin. -/
  | busOpenBuffered (p q : Byte)
  /-- `busClose` (rule R188). -/
  | busClose
  /-- `setSlot` (rule R189); the slot number is legal up to 9. -/
  | setSlot (n : BitVec 4)
  /-- `getSlot` (rule R190); the slot number is legal up to 9. -/
  | getSlot (n : BitVec 4)
  /-- `pullUp` (rule R191). -/
  | pullUp
  /-- `pullDown` (rule R192). -/
  | pullDown
  /-- `reset`, the 1-Wire bus reset (rule R193). -/
  | reset
  /-- `writeBit` (rule R194). -/
  | writeBit (b : Bool)
  /-- `writeByte` (rule R195). -/
  | writeByte (v : Byte)
  /-- `readBit` (rule R196). -/
  | readBit
  /-- `readByte` (rule R197). -/
  | readByte
  /-- `crcReset` (rule R233). -/
  | crcReset
  /-- `crcUpdate` (rule R234). -/
  | crcUpdate (v : Byte)
  /-- `crcValid` (rule R235). -/
  | crcValid
deriving DecidableEq, Repr

end Sys2Proof
end

