-- ==== Sys2Proof/WellFormed.lean ====
section
/-! DEFINITION. Which terms of `Instr` are commands of the table: the one constraint a row of rule R95 puts on an
operand beyond its width is the slot number's (`S <= 9`, rule R93). Pin operands have none (rule R103). -/

namespace Sys2Proof

/-- The constraint `S <= 9` of `setSlot` and `getSlot` (rules R93, R95, R103). -/
def slotOk (n : BitVec 4) : Bool := decide (n.toNat ≤ 9)

/-- A command of the opcode table: every operand has a code and obeys its row's constraint (rules R91, R95). -/
def Instr.wf : Instr → Bool
  | .initGpio => true
  | .finalize => true
  | .exportPin _ => true
  | .unexportPin _ => true
  | .unexportAll => true
  | .setMode _ _ => true
  | .setPullDisable _ => true
  | .setPullUp _ => true
  | .setPullDown _ => true
  | .setValue _ _ => true
  | .getValue _ => true
  | .delay _ => true
  | .clockRead => true
  | .busOpenLegacy _ => true
  | .busOpenTunable _ => true
  | .busOpenBuffered _ _ => true
  | .busClose => true
  | .setSlot n => slotOk n
  | .getSlot n => slotOk n
  | .pullUp => true
  | .pullDown => true
  | .reset => true
  | .writeBit _ => true
  | .writeByte _ => true
  | .readBit => true
  | .readByte => true
  | .crcReset => true
  | .crcUpdate _ => true
  | .crcValid => true

end Sys2Proof
end

