-- ==== Sys2Proof/Decode.lean ====
section
/-! DEFINITION. Decoding and encoding of command words (30_encoding.md). Decoding is total on 32-bit words and rejects
by name; the opcode table of rule R95 stands beside it as data, so that the two can be compared. -/

namespace Sys2Proof

/-- Why a word is no command. Every one of them leads to the same refusal step, `STATUS.ERR = 0x80` (rule R105). -/
inductive Reject where
  /-- An `OPC` value that no row has (rule R102). -/
  | reservedOpcode
  /-- A nonzero bit that the opcode's row does not list as a field (rule R91). -/
  | mustBeZero
  /-- `setPullState` with `V >= 3` (rule R103). -/
  | pullCode
  /-- `setSlot` or `getSlot` with `S >= 10` (rule R103). -/
  | slotNumber
deriving DecidableEq, Repr

/-- The field `OPC`, bits 31:24 (rule R90). -/
def opcField (w : Word) : Byte := w.extractLsb' 24 8

/-- The field `P`, bits 23:16 (rule R90). -/
def pField (w : Word) : Byte := w.extractLsb' 16 8

/-- The field `Q`, bits 15:8 (rule R90). -/
def qField (w : Word) : Byte := w.extractLsb' 8 8

/-- The field `V`, bits 7:0 (rule R90). -/
def vField (w : Word) : Byte := w.extractLsb' 0 8

/-- The one format `C` (rule R90): `OPC ++ P ++ Q ++ V`. -/
def formatC (opc p q v : Byte) : Word := opc ++ p ++ q ++ v

/-- A row whose fields allow the word, else the rejection of rule R91. -/
def allowIf (legal : Bool) (i : Instr) : Except Reject Instr :=
  if legal then .ok i else .error .mustBeZero

/-- A row with no field but the opcode. -/
def noFields (p q v : Byte) (i : Instr) : Except Reject Instr := allowIf (p == 0 && q == 0 && v == 0) i

/-- A row with the one field `P`. -/
def onlyP (q v : Byte) (i : Instr) : Except Reject Instr := allowIf (q == 0 && v == 0) i

/-- Bit 0 of `V` as a level or flag (`B`, `F` of rule R90). -/
def bit0 (v : Byte) : Bool := v.getLsbD 0

/-- The mode operand `M` (rule R93). -/
def modeOf (v : Byte) : PinMode := if bit0 v then .output else .input

/-- The pull state that `V` names, by the code of rule R93. -/
def decodePull (p v : Byte) : Except Reject Instr :=
  match v.toNat with
  | 0 => .ok (.setPullDisable p)
  | 1 => .ok (.setPullUp p)
  | 2 => .ok (.setPullDown p)
  | _ => .error .pullCode

/-- The slot number `S = Q[3:0]` with `Q[7:4]` and the other fields zero (rules R90, R91, R103). -/
def decodeSlot (p q v : Byte) (mk : BitVec 4 → Instr) : Except Reject Instr :=
  if p == 0 && v == 0 && q.extractLsb' 4 4 == 0 then
    if slotOk (q.extractLsb' 0 4) then .ok (mk (q.extractLsb' 0 4)) else .error .slotNumber
  else .error .mustBeZero

/-- The opcode map of rule R95 over the four fields of a word. -/
def decodeFields (opc p q v : Byte) : Except Reject Instr :=
  match opc.toNat with
  | 0x10 => noFields p q v .initGpio
  | 0x11 => noFields p q v .finalize
  | 0x12 => onlyP q v (.exportPin p)
  | 0x13 => onlyP q v (.unexportPin p)
  | 0x14 => noFields p q v .unexportAll
  | 0x15 => allowIf (q == 0 && v >>> 1 == 0) (.setMode p (modeOf v))
  | 0x16 => if q == 0 then decodePull p v else .error .mustBeZero
  | 0x17 => allowIf (q == 0 && v >>> 1 == 0) (.setValue p (bit0 v))
  | 0x18 => onlyP q v (.getValue p)
  | 0x20 => allowIf (p == 0 && q == 0 && v >>> 1 == 0) (.delay (bit0 v))
  | 0x21 => noFields p q v .clockRead
  | 0x30 => onlyP q v (.busOpenLegacy p)
  | 0x31 => onlyP q v (.busOpenTunable p)
  | 0x32 => allowIf (v == 0) (.busOpenBuffered p q)
  | 0x33 => noFields p q v .busClose
  | 0x34 => decodeSlot p q v .setSlot
  | 0x35 => decodeSlot p q v .getSlot
  | 0x36 => noFields p q v .pullUp
  | 0x37 => noFields p q v .pullDown
  | 0x38 => noFields p q v .reset
  | 0x39 => allowIf (p == 0 && q == 0 && v >>> 1 == 0) (.writeBit (bit0 v))
  | 0x3A => allowIf (p == 0 && q == 0) (.writeByte v)
  | 0x3B => noFields p q v .readBit
  | 0x3C => noFields p q v .readByte
  | 0x40 => noFields p q v .crcReset
  | 0x41 => allowIf (p == 0 && q == 0) (.crcUpdate v)
  | 0x42 => noFields p q v .crcValid
  | _ => .error .reservedOpcode

/-- Decoding of a command word: the command it is, or why it is none (rules R91, R102, R103). -/
def decode (w : Word) : Except Reject Instr := decodeFields (opcField w) (pField w) (qField w) (vField w)

/-- A one-bit operand in the field `V`. -/
def bitV (b : Bool) : Byte := if b then 1 else 0

/-- The code of the mode operand in the field `V` (rule R93). -/
def modeV : PinMode → Byte
  | .input => 0
  | .output => 1

/-- A slot number in the field `Q` (rule R90). -/
def slotQ (n : BitVec 4) : Byte := n.setWidth 8

/-- The word of a command, written from the encodings of rules R124 to R235. -/
def encode : Instr → Word
  | .initGpio => formatC 0x10 0 0 0
  | .finalize => formatC 0x11 0 0 0
  | .exportPin p => formatC 0x12 p 0 0
  | .unexportPin p => formatC 0x13 p 0 0
  | .unexportAll => formatC 0x14 0 0 0
  | .setMode p m => formatC 0x15 p 0 (modeV m)
  | .setPullDisable p => formatC 0x16 p 0 0
  | .setPullUp p => formatC 0x16 p 0 1
  | .setPullDown p => formatC 0x16 p 0 2
  | .setValue p b => formatC 0x17 p 0 (bitV b)
  | .getValue p => formatC 0x18 p 0 0
  | .delay f => formatC 0x20 0 0 (bitV f)
  | .clockRead => formatC 0x21 0 0 0
  | .busOpenLegacy p => formatC 0x30 p 0 0
  | .busOpenTunable p => formatC 0x31 p 0 0
  | .busOpenBuffered p q => formatC 0x32 p q 0
  | .busClose => formatC 0x33 0 0 0
  | .setSlot n => formatC 0x34 0 (slotQ n) 0
  | .getSlot n => formatC 0x35 0 (slotQ n) 0
  | .pullUp => formatC 0x36 0 0 0
  | .pullDown => formatC 0x37 0 0 0
  | .reset => formatC 0x38 0 0 0
  | .writeBit b => formatC 0x39 0 0 (bitV b)
  | .writeByte v => formatC 0x3A 0 0 v
  | .readBit => formatC 0x3B 0 0 0
  | .readByte => formatC 0x3C 0 0 0
  | .crcReset => formatC 0x40 0 0 0
  | .crcUpdate v => formatC 0x41 0 0 v
  | .crcValid => formatC 0x42 0 0 0

/-- The mnemonic of a command, as the opcode table spells it (rules R95, R100). -/
def Instr.mnemonic : Instr → String
  | .initGpio => "initialize"
  | .finalize => "finalize"
  | .exportPin _ => "exportPin"
  | .unexportPin _ => "unexportPin"
  | .unexportAll => "unexportAll"
  | .setMode _ _ => "setMode"
  | .setPullDisable _ => "setPullState.disable"
  | .setPullUp _ => "setPullState.up"
  | .setPullDown _ => "setPullState.down"
  | .setValue _ _ => "setValue"
  | .getValue _ => "getValue"
  | .delay _ => "delay"
  | .clockRead => "clockRead"
  | .busOpenLegacy _ => "busOpenLegacy"
  | .busOpenTunable _ => "busOpenTunable"
  | .busOpenBuffered _ _ => "busOpenBuffered"
  | .busClose => "busClose"
  | .setSlot _ => "setSlot"
  | .getSlot _ => "getSlot"
  | .pullUp => "pullUp"
  | .pullDown => "pullDown"
  | .reset => "reset"
  | .writeBit _ => "writeBit"
  | .writeByte _ => "writeByte"
  | .readBit => "readBit"
  | .readByte => "readByte"
  | .crcReset => "crcReset"
  | .crcUpdate _ => "crcUpdate"
  | .crcValid => "crcValid"

/-- A row of the opcode table: `w` is its command exactly when `w AND mask = value` and, where `slotBound` is set, the
slot field satisfies `S <= 9` (rules R91, R95). -/
structure OpRow where
  mnemonic  : String
  mask      : Word
  value     : Word
  slotBound : Bool
deriving DecidableEq, Repr

/-- The rows of the GPIOController unit (rule R95). -/
def gpioRows : List OpRow :=
  [ { mnemonic := "initialize", mask := 0xFFFFFFFF#32, value := 0x10000000#32, slotBound := false },
    { mnemonic := "finalize", mask := 0xFFFFFFFF#32, value := 0x11000000#32, slotBound := false },
    { mnemonic := "exportPin", mask := 0xFF00FFFF#32, value := 0x12000000#32, slotBound := false },
    { mnemonic := "unexportPin", mask := 0xFF00FFFF#32, value := 0x13000000#32, slotBound := false },
    { mnemonic := "unexportAll", mask := 0xFFFFFFFF#32, value := 0x14000000#32, slotBound := false },
    { mnemonic := "setMode", mask := 0xFF00FFFE#32, value := 0x15000000#32, slotBound := false },
    { mnemonic := "setPullState.disable", mask := 0xFF00FFFF#32, value := 0x16000000#32, slotBound := false },
    { mnemonic := "setPullState.up", mask := 0xFF00FFFF#32, value := 0x16000001#32, slotBound := false },
    { mnemonic := "setPullState.down", mask := 0xFF00FFFF#32, value := 0x16000002#32, slotBound := false },
    { mnemonic := "setValue", mask := 0xFF00FFFE#32, value := 0x17000000#32, slotBound := false },
    { mnemonic := "getValue", mask := 0xFF00FFFF#32, value := 0x18000000#32, slotBound := false } ]

/-- The rows of the BusyWaitClock unit (rule R95). -/
def clockRows : List OpRow :=
  [ { mnemonic := "delay", mask := 0xFFFFFFFE#32, value := 0x20000000#32, slotBound := false },
    { mnemonic := "clockRead", mask := 0xFFFFFFFF#32, value := 0x21000000#32, slotBound := false } ]

/-- The rows of the OneWireBus unit (rule R95). -/
def busRows : List OpRow :=
  [ { mnemonic := "busOpenLegacy", mask := 0xFF00FFFF#32, value := 0x30000000#32, slotBound := false },
    { mnemonic := "busOpenTunable", mask := 0xFF00FFFF#32, value := 0x31000000#32, slotBound := false },
    { mnemonic := "busOpenBuffered", mask := 0xFF0000FF#32, value := 0x32000000#32, slotBound := false },
    { mnemonic := "busClose", mask := 0xFFFFFFFF#32, value := 0x33000000#32, slotBound := false },
    { mnemonic := "setSlot", mask := 0xFFFFF0FF#32, value := 0x34000000#32, slotBound := true },
    { mnemonic := "getSlot", mask := 0xFFFFF0FF#32, value := 0x35000000#32, slotBound := true },
    { mnemonic := "pullUp", mask := 0xFFFFFFFF#32, value := 0x36000000#32, slotBound := false },
    { mnemonic := "pullDown", mask := 0xFFFFFFFF#32, value := 0x37000000#32, slotBound := false },
    { mnemonic := "reset", mask := 0xFFFFFFFF#32, value := 0x38000000#32, slotBound := false },
    { mnemonic := "writeBit", mask := 0xFFFFFFFE#32, value := 0x39000000#32, slotBound := false },
    { mnemonic := "writeByte", mask := 0xFFFFFF00#32, value := 0x3A000000#32, slotBound := false },
    { mnemonic := "readBit", mask := 0xFFFFFFFF#32, value := 0x3B000000#32, slotBound := false },
    { mnemonic := "readByte", mask := 0xFFFFFFFF#32, value := 0x3C000000#32, slotBound := false } ]

/-- The rows of the CRC unit (rule R95). -/
def crcRows : List OpRow :=
  [ { mnemonic := "crcReset", mask := 0xFFFFFFFF#32, value := 0x40000000#32, slotBound := false },
    { mnemonic := "crcUpdate", mask := 0xFFFFFF00#32, value := 0x41000000#32, slotBound := false },
    { mnemonic := "crcValid", mask := 0xFFFFFFFF#32, value := 0x42000000#32, slotBound := false } ]

/-- The opcode table of rule R95. -/
def opTable : List OpRow := gpioRows ++ clockRows ++ busRows ++ crcRows

/-- Rule R91: when a word is the command of a row. -/
def OpRow.covers (r : OpRow) (w : Word) : Bool :=
  w &&& r.mask == r.value && (!r.slotBound || slotOk (w.extractLsb' 8 4))

/-- The instruction the decoder reads from a command of `nbits` bits whose value is `w`, the bits above `nbits` zero.
A command is one 32-bit word and is written to `CMD` as a word, so no byte order enters (rules R74, R90). -/
def decodeTableWord (nbits w : Nat) : Option Instr :=
  match decode (BitVec.ofNat 32 (w % 2 ^ nbits)) with
  | .ok i => some i
  | .error _ => none

end Sys2Proof
end

