-- ==== Sys2Proof/Config.lean ====
section
/-! DEFINITION. What an implementation fixes (00_scope.md rules R5, R8 to R10) and the free values the environment
supplies (10_state.md rule R47). The parameters are data of type `Config`, carried by the state and changed by no step
(rule R45), so that a statement about every state is a statement about every board, every polarity and every value of
the source's numbers. A free value is an `opaque` constant with no body: nothing can be proved about what it is. -/

namespace Sys2Proof

/-- One mapped entry of the board pin table `BOARD` (rule R28): the hardware number and six absolute bit offsets in the
register page (rule R61). `inp` is the table's `in`. -/
structure PinEntry where
  hw   : Nat
  out  : Nat
  inp  : Nat
  pen  : Nat
  pdir : Nat
  fsel : Nat
  mux  : Nat
deriving DecidableEq, Repr

/-- One column of rule R186: the durations in nanoseconds that a `busOpen*` command loads into the slots a to j. -/
structure SlotSet where
  a : Word
  b : Word
  c : Word
  d : Word
  e : Word
  f : Word
  g : Word
  h : Word
  i : Word
  j : Word
deriving DecidableEq, Repr

/-- The parameters that a model takes as arguments: those of rule R10, and the numbers the source gives (rules R8 and R9),
which rule R5 makes named parameters with the source's value as default. -/
structure Config where
  /-- `BOARD`: 64 entries, `none` where the source's table holds the sentinel −1 (rules R10, R28; decision D10, OPEN). -/
  board            : List (Option PinEntry)
  /-- `REG_WORDS`: the number of words of the mapped page (decision D11, OPEN). -/
  regWords         : Nat
  /-- `FSEL_OUTPUT_LEVEL` (decision D13). -/
  fselOutputLevel  : Bool := true
  /-- `MUX_GPIO_LEVEL` (decision D14). -/
  muxGpioLevel     : Bool := false
  /-- `OUT_HIGH_LEVEL` (decision D15). -/
  outHighLevel     : Bool := true
  /-- `PEN_ENABLE_LEVEL` (decision D15). -/
  penEnableLevel   : Bool := true
  /-- `PDIR_UP_LEVEL` (decision D15). -/
  pdirUpLevel      : Bool := true
  /-- `BUF_ASSERT_LEVEL` (decision D16). -/
  bufAssertLevel   : Bool := true
  /-- `DELAY_MAX_NS`, the clamp of a busy wait (decision D20). -/
  delayMaxNs       : Nat := 999999999
  /-- `OVERRUN_MAX_NS`: `none` is the default, unbounded (decision D21). -/
  overrunMaxNs     : Option Nat := none
  /-- `SEC_W`, the width of the clock's seconds field (decision D22). -/
  secW             : Nat := 32
  /-- `NBUS` (decision D26). The block of this spec holds one bus context (rule R35) and no command names a context, so
  that no step reads this parameter, as none reads `HOST_BASE`. -/
  nbus             : Nat := 1
  /-- `EXPORT_ATTEMPTS` (rule R8). -/
  exportAttempts   : Nat := 5
  /-- `EXPORT_BACKOFF` in nanoseconds, one second (rule R8). -/
  exportBackoffNs  : Nat := 1000000000
  /-- `T_SETTLE` in nanoseconds (rules R8, R37). -/
  settleNs         : Nat := 100000
  /-- The legacy column of rule R186; its e, f and g are `LEGACY_E_NS`, `LEGACY_F_NS` and `LEGACY_G_NS` (decision D25). -/
  legacyNs         : SlotSet :=
    { a := 1000, b := 60000, c := 60000, d := 1000, e := 0, f := 60000, g := 0, h := 480000, i := 60000, j := 420000 }
  /-- The tunable column of rule R186 (rule R9). -/
  tunableNs        : SlotSet :=
    { a := 6000, b := 64000, c := 60000, d := 10000, e := 9000, f := 55000, g := 0, h := 480000, i := 70000, j := 410000 }
deriving DecidableEq, Repr

/-- What one read of a `value` file delivers: the draw `env.read1` of rule R47. -/
inductive ReadChar where
  | zero
  | one
  | other
deriving DecidableEq, Repr, Inhabited

namespace Config

/-- `BOARD` is OPEN (decision D10): the table of the machine after reset is free. -/
opaque freeBoard : List (Option PinEntry)

/-- `REG_WORDS` is OPEN (decision D11). -/
opaque freeRegWords : Nat

/-- `FS_ROOT` is OPEN (decision D12). -/
opaque fsRoot : String

/-- `FS_PINDIR` is OPEN (decision D12): the directory name of the pin with a hardware number. -/
opaque fsPinDir : Nat → String

/-- `HOST_BASE` is OPEN (decision D1): the model gives host accesses by their offset from it, and nothing depends on it. -/
opaque hostBase : Nat

/-- The physical address of the register page is left to the platform (rule R76): the model gives page accesses by their
word, as rule R62 does, and nothing depends on the address. -/
opaque pageBase : Nat

/-- The draw `env.regAccess` (rule R47) where no answer is queued; `true` is `ok`. -/
opaque freeRegAccess : Nat → Bool

/-- The draw `env.open(path)` (rule R47) where no answer is queued; `true` is a handle. -/
opaque freeOpen : Nat → Bool

/-- The draw `env.read1(h)` (rule R47) where no answer is queued. -/
opaque freeChar : Nat → ReadChar

/-- The draw `env.in(word)` (rule R47) where no answer is queued. -/
opaque freeIn : Nat → Word

/-- How far the clock has advanced, in nanoseconds, when it is next read (rules R33, R34), where no answer is queued. -/
opaque freeAdvance : Nat → Nat

/-- The clock's advance before each of the reads a busy wait makes (rule R163), any number of them, where no answers are
queued. -/
opaque freePolls : Nat → List Nat

/-- How much longer than asked a wait lasts (rules R168, R169). -/
opaque freeOverrun : Nat → Nat

/-- The clock's advance before each further read of a wait whose anchor is not a recent timestamp: the spec leaves the
length of that wait unspecified (rule R164 corner case (d), entry U3). -/
opaque freeOddPolls : Nat → List Nat

end Config

end Sys2Proof
end

