-- ==== Sys2Proof/Machine/State.lean ====
section
/-! DEFINITION. The state of the block and of what it reaches (10_state.md), as plain data, and its value after reset
(rule R49). The state has four layers: the host registers and the sequencer; the units (`Dev`), which hold the
GPIOController, the bus context and the CRC accumulator; the environment (`Env`), which holds the register page, the
pin settings behind the control files, the clock, the queued draws and the history of external actions; and the agenda,
the plain data that says which agent of rule R20 moves next. -/

namespace Sys2Proof.Machine

open Sys2Proof

/-! ## Names -/

/-- The backend tag (rule R26). -/
inductive Backend where
  | none
  | register
  | filesystem
deriving DecidableEq, Repr

/-- The configuration of the bus context (rule R35). -/
inductive BusCfg where
  | legacy
  | tunable
  | buffered
deriving DecidableEq, Repr

/-- A handle on a control file (rules R29, R30, R66). Which handle it is cannot be observed. -/
inductive Handle where
  | invalid
  | opened
deriving DecidableEq, Repr

/-- The outcome codes of rule R290. `busContention` and `unsupportedDevice` are set aside for host software. -/
inductive ErrCode where
  | ok
  | resourceUnavailable
  | noPresence
  | busContention
  | integrityFailure
  | unsupportedDevice
  | illegalCommand
  | busState
deriving DecidableEq, Repr

/-- The value of `getValue` and of a sample of the line: 0, 1 or the sentinel −1 (rules R138, R183). -/
inductive Level where
  | low
  | high
  | unreadable
deriving DecidableEq, Repr

/-- The three files of an exported pin (rule R67). -/
inductive PinFile where
  | direction
  | pull
  | value
deriving DecidableEq, Repr

/-- The files of the control namespace (rule R67); `CtlFile.path` gives their names. -/
inductive CtlFile where
  | exportFile
  | unexportFile
  | pinFile (p : Fin 64) (k : PinFile)
deriving DecidableEq, Repr

/-- The external actions of rule R13, with the value read or written. -/
inductive Action where
  /-- `MemRead(word, 4)` returned `v` (rule R62). -/
  | pageRead (word : Nat) (v : Word)
  /-- `MemWrite(word, 4, v)` (rule R62). -/
  | pageWrite (word : Nat) (v : Word)
  /-- `FileOpen` of a file, and whether it gave a handle (rule R66). -/
  | fileOpen (f : CtlFile) (ok : Bool)
  /-- `FileWrite` of a string (rules R66, R68). -/
  | fileWrite (f : CtlFile) (text : String)
  /-- `FileSeek0` (rule R66). -/
  | fileSeek (f : CtlFile)
  /-- `FileRead1` returned `c` (rule R66). -/
  | fileRead (f : CtlFile) (c : ReadChar)
  /-- `FileClose` (rule R66). -/
  | fileClose (f : CtlFile)
  /-- One read of the clock, in nanoseconds (rule R161). -/
  | clockRead (t : Nat)
  /-- A busy wait of clamped duration `d` ends here (rule R163); the reads before it show the time that passed. -/
  | wait (d : Nat)
  /-- A coarse wait of `d` ends here, at clock time `endNs` (rule R168). -/
  | sleep (d endNs : Nat)
  /-- `STATUS` is written at acceptance of a command: `BUSY` becomes 1 (rule R41). -/
  | status (w : Word)
  /-- The end of an operation: the values written to `R0`, `R1`, if any, and `STATUS` (rule R41). -/
  | result (r0 r1 : Option Word) (status : Word)
deriving DecidableEq, Repr

/-! ## The units -/

/-- Filesystem backend, per-pin state (rule R30). -/
structure PinFiles where
  exported : Bool := false
  hDir     : Handle := .invalid
  hPull    : Handle := .invalid
  hValue   : Handle := .invalid
deriving DecidableEq, Repr

/-- GPIOController state (rules R26, R29, R30). -/
structure Gpio where
  backend   : Backend := .none
  hExport   : Handle := .invalid
  hUnexport : Handle := .invalid
  pins      : Vector PinFiles 64 := Vector.replicate 64 { }
  /-- The backend that was in use last, while none is: the model's own field. The settings the pins were given through
  that backend stay (rule R125), and the views of rules R31 and R38 read it; no operation does. -/
  last      : Backend := .none
deriving DecidableEq, Repr

/-- Bus context and slots (rules R35, R36). `pinIo` and `pinOut` are signed 8-bit indices; `slots` holds a to j. -/
structure Bus where
  bound  : Bool := false
  cfg    : BusCfg := .legacy
  pinIo  : Byte := 0xFF
  pinOut : Byte := 0xFF
  slots  : Vector Word 10 := Vector.replicate 10 0
deriving DecidableEq, Repr

/-! ## The environment -/

/-- The register page as memory: address and byte pairs in one canonical form (rules R27, R62, R74). -/
abbrev Memory := List Host.Cell

/-- The settings of a pin under the filesystem backend, held by the agent behind the control files (rule R31). -/
structure PinSettings where
  mode  : PinMode := .input
  pull  : Pull := .disable
  level : Bool := false
deriving DecidableEq, Repr

/-- The draws of rule R47: answers queued by the environment, each kind in the order it will be drawn, and the counter
of the draws taken from the free values of `Config` because nothing was queued. -/
structure Draws where
  regAccess : List Bool := []
  opens     : List Bool := []
  chars     : List ReadChar := []
  ins       : List Word := []
  times     : List Nat := []
  count     : Nat := 0
deriving DecidableEq, Repr

/-- What the block reaches but does not own, and the history of its external actions. -/
structure Env where
  /-- `PAGE`, the SoC's register page (rule R27). -/
  page     : Memory := []
  /-- The pin settings behind the control files (rules R31, R49). -/
  settings : Vector PinSettings 64 := Vector.replicate 64 { }
  /-- The read position of each pin's `value` file (rule R48 (a)). -/
  valuePos : Vector Nat 64 := Vector.replicate 64 0
  /-- The clock `CLK = (SEC, NSEC)` as a count of nanoseconds (rules R33, R162). -/
  clk      : Nat := 0
  draws    : Draws := { }
  /-- The external actions so far, oldest first (rules R13, R70). -/
  log      : List Action := []
deriving DecidableEq, Repr

/-- The block's units together with the parameters and the environment: what the operations of section 4 act on. -/
structure Dev where
  cfg  : Config
  gpio : Gpio := { }
  bus  : Bus := { }
  /-- The CRC accumulator (rule R40). -/
  crc  : Byte := 0
  env  : Env := { }
deriving DecidableEq, Repr

/-! ## The sequencer -/

/-- The record of rule R24 that `SEQ` holds while an operation runs. The last three fields are the values a rule's
pseudocode carries from one numbered line to the next: the outcome recorded by `fail` (rule R291), the sample `v`, the
clock read `t0`. -/
structure Seq where
  cmd    : Word
  l0     : Word
  l1     : Word
  l2     : Word
  step   : Nat := 0
  k      : Nat := 0
  acc    : Byte := 0
  att    : Nat := 1
  pi     : Nat := 0
  out    : ErrCode := .ok
  sample : Level := .unreadable
  t0     : Nat := 0
deriving DecidableEq, Repr

/-! ## Who moves next -/

/-- One move of an agent of rule R20. -/
inductive Turn where
  /-- The host issues a command and waits for its end, the blocking call of rules R64 and R331. -/
  | command (w : Word)
  /-- The host writes `v` at a byte offset of the host window, with an access of `width` bytes (rules R64, R65). -/
  | hostWrite (width off : Nat) (v : Word)
  /-- The host reads at a byte offset of the host window (rules R64, R65). -/
  | hostRead (width off : Nat)
  /-- The block's sequencer runs one numbered line of the operation (rule R24). -/
  | sequencer
  /-- The reset input is asserted (rule R320). -/
  | hardReset
  /-- The reset input is asserted when the sequencer has made `n` external actions of its next line (rule R321). -/
  | hardResetDuring (n : Nat)
  /-- Another agent of the SoC writes a word of the page (rules R27, R62). -/
  | socWrite (word : Nat) (v : Word)
  /-- Time passes on the free-running clock (rule R33). -/
  | time (ns : Nat)
deriving DecidableEq, Repr

/-- The whole machine. -/
structure State where
  /-- Operand registers (rule R21). -/
  a0       : Word := 0
  a1       : Word := 0
  a2       : Word := 0
  /-- Result registers (rule R21). -/
  r0       : Word := 0
  r1       : Word := 0
  /-- `STATUS.ERR` (rules R23, R290); the other fields of `STATUS` are views (rule R23). -/
  err      : ErrCode := .ok
  /-- `SEQ`: `none` is `IDLE` (rule R24). -/
  seq      : Option Seq := none
  dev      : Dev
  /-- Which agent moves next: the model's own field. -/
  agenda   : List Turn := []
  /-- What the host's last read of the window returned: the model's own field. -/
  hostData : Word := 0
deriving DecidableEq, Repr

/-- Why the machine stops. There is no constructor: no rule of the spec stops the block ("All failures are local and
recoverable; the core has no fatal path", rules R123, R291, R341); a failure is an outcome code in `STATUS.ERR`. -/
inductive Fault where
deriving DecidableEq, Repr

/-- Why an instruction has no meaning. -/
inductive Refusal where
  /-- Raised by an arm of `exec` for an instruction that has no meaning yet; safe, since nothing can be proved of a run
  past it. No arm raises it: every command of the table has its meaning. -/
  | notModelled (mnemonic : String)
deriving DecidableEq, Repr

/-- The parameters of the machine after reset: the OPEN ones free, the others at the defaults of rules R8 to R10. -/
def resetConfig : Config := { board := Config.freeBoard, regWords := Config.freeRegWords }

/-- The machine right after reset (rule R49): every piece of block-owned state at the value of the table. `CLK`, `PAGE`
and the pin settings behind the control files are "unspecified" there; their values here are the model's choice. -/
def State.reset : State := { dev := { cfg := resetConfig } }

end Sys2Proof.Machine
end

