-- ==== Sys2Proof/Machine/Operands.lean ====
section
/-! DEFINITION. Operands and results of the commands: the default slots (rules R9, R186), pin operands and the board
table (rules R28, R121, R122), latched operands (rules R41, R92), result encoding (rule R97),
the control files' names and strings (rules R67, R68). -/

/-! ## The board table -/

namespace Sys2Proof

/-- Every bit offset of an entry lies in the page (rule R61). -/
def PinEntry.inPage (regWords : Nat) (e : PinEntry) : Bool :=
  decide (e.out / 32 < regWords) && decide (e.inp / 32 < regWords) && decide (e.pen / 32 < regWords) &&
  decide (e.pdir / 32 < regWords) && decide (e.fsel / 32 < regWords) && decide (e.mux / 32 < regWords)

/-- `BOARD[i]` (rule R28). Rule R61 requires every offset of a mapped pin to lie in the page; an entry that breaks this
counts as unmapped, so that no word outside the page is ever reached. -/
def Config.entry (c : Config) (i : Nat) : Option PinEntry :=
  match c.board[i]? with
  | some (some e) => if e.inPage c.regWords then some e else none
  | _ => none

/-- The bits of a page word that are `in` bits of some mapped pin: a read of them is a draw (rules R47, R62). -/
def Config.inMask (c : Config) (word : Nat) : Word :=
  (List.range 64).foldl (fun m i =>
    match c.entry i with
    | some e => if e.inp / 32 = word then m ||| (1#32 <<< (e.inp % 32)) else m
    | none => m) 0

end Sys2Proof

namespace Sys2Proof.Machine

open Sys2Proof

/-! ## Numbered state -/

/-- The files of pin `i` (rule R30). -/
def Gpio.pin (g : Gpio) (i : Fin 64) : PinFiles := g.pins[i]

/-- The files of pin `i` take new values. -/
def Gpio.setPin (g : Gpio) (i : Fin 64) (x : PinFiles) : Gpio := { g with pins := g.pins.set i x }

/-- `SLOT[i]` (rule R36). -/
def Bus.slot (b : Bus) (i : Fin 10) : Word := b.slots[i]

/-- `SLOT[i] <- v`. -/
def Bus.setSlot (b : Bus) (i : Fin 10) (v : Word) : Bus := { b with slots := b.slots.set i v }

/-- The settings of pin `i` behind the control files (rule R31). -/
def Env.setting (e : Env) (i : Fin 64) : PinSettings := e.settings[i]

/-- The settings of pin `i` behind the control files take new values. -/
def Env.setSetting (e : Env) (i : Fin 64) (x : PinSettings) : Env := { e with settings := e.settings.set i x }

/-- The read position of the `value` file of pin `i` (rule R48 (a)). -/
def Env.position (e : Env) (i : Fin 64) : Nat := e.valuePos[i]

/-- The read position of the `value` file of pin `i` takes a new value. -/
def Env.setPosition (e : Env) (i : Fin 64) (n : Nat) : Env := { e with valuePos := e.valuePos.set i n }

/-- Where the views look for the settings of the pins (rule R31): behind the backend in use, and while none is behind the
last one, whose settings stay (rule R125). That `initialize` moves the views of every pin to the backend it selects, a
pin that was last set through the other backend included, is the model's choice: no step touches the pin there, and rule
R31 does not say what such a pin is configured to (assumption log, entry 23). -/
def Gpio.medium (g : Gpio) : Backend := if g.backend = .none then g.last else g.backend

/-! ## Durations -/

/-- Nanoseconds of one second (rule R11). -/
def nsPerSec : Nat := 1000000000

/-- A set of default durations as the ten slots a to j (rules R36, R186). -/
def slotsOf (x : SlotSet) : Vector Word 10 := #v[x.a, x.b, x.c, x.d, x.e, x.f, x.g, x.h, x.i, x.j]

/-- The slots a to j by their numbers (rule R36). -/
def slotA : Fin 10 := 0
/-- Slot b. -/
def slotB : Fin 10 := 1
/-- Slot c. -/
def slotC : Fin 10 := 2
/-- Slot d. -/
def slotD : Fin 10 := 3
/-- Slot e. -/
def slotE : Fin 10 := 4
/-- Slot f. -/
def slotF : Fin 10 := 5
/-- Slot g. -/
def slotG : Fin 10 := 6
/-- Slot h. -/
def slotH : Fin 10 := 7
/-- Slot i. -/
def slotI : Fin 10 := 8
/-- Slot j. -/
def slotJ : Fin 10 := 9

/-- The slot that a legal slot operand names (rule R93). Values above 9 do not reach it (rule R103). -/
def slotIndex (n : BitVec 4) : Fin 10 := Fin.ofNat 10 n.toNat

/-- The duration a bus has for a slot, in nanoseconds (rule R36). -/
def Bus.slotNs (b : Bus) (i : Fin 10) : Nat := (b.slot i).toNat

/-! ## Pins -/

/-- The logical pin that a pin operand names: the operand is signed, and only 0 to 63 are pins (rules R92, R121). -/
def pinIndex (p : Byte) : Option (Fin 64) :=
  if p.toInt < 0 ∨ 63 < p.toInt then none else some (Fin.ofNat 64 p.toNat)

/-- A valid pin, with its number and its board entry (rule R121). -/
def validPin (c : Config) (p : Byte) : Option (Fin 64 × PinEntry) :=
  match pinIndex p with
  | none => none
  | some i => (c.entry i.val).map fun e => (i, e)

/-- A usable pin, with its number and its board entry (rule R122). -/
def usablePin (d : Dev) (p : Byte) : Option (Fin 64 × PinEntry) :=
  match d.gpio.backend with
  | .none => none
  | .register => validPin d.cfg p
  | .filesystem =>
    match validPin d.cfg p with
    | none => none
    | some (i, e) => if (d.gpio.pin i).exported then some (i, e) else none

/-- The register value of a level `b` whose bit for "on" is `onLevel`: the polarity parameters of rule R10. -/
def polarity (onLevel b : Bool) : Bool := if b then onLevel else !onLevel

/-! ## Latched operands and results -/

/-- The latched operand `L0` of the command that runs; outside a command it is `A0`, which acceptance would latch
(rule R41). -/
def State.opL0 (s : State) : Word := match s.seq with | some q => q.l0 | none => s.a0

/-- The latched operand `L1` (rule R41). -/
def State.opL1 (s : State) : Word := match s.seq with | some q => q.l1 | none => s.a1

/-- The latched operand `L2` (rule R41). -/
def State.opL2 (s : State) : Word := match s.seq with | some q => q.l2 | none => s.a2

/-- The result of `getValue`: 0, 1, and −1 sign-extended (rule R97). -/
def Level.word : Level → Word
  | .low => 0
  | .high => 1
  | .unreadable => 0xFFFFFFFF

/-- A boolean or a bit as a result (rule R97). -/
def boolWord (b : Bool) : Word := if b then 1 else 0

/-- A byte as a result, zero-extended (rule R97). -/
def byteWord (b : Byte) : Word := b.setWidth 32

/-- The truth value of a sample: only 0 is low (rule R183). -/
def Level.isLow : Level → Bool
  | .low => true
  | .high => false
  | .unreadable => false

/-- The bit a sample stands for: 0 when low, else 1 (rules R183, R196). -/
def Level.bit (v : Level) : Bool := !v.isLow

/-- The level of one bit of a page word (rule R138). -/
def levelOfBit (b : Bool) : Level := if b then .high else .low

/-- The level a character of a `value` file stands for (rules R68, R138). -/
def levelOfChar : ReadChar → Level
  | .zero => .low
  | .one => .high
  | .other => .unreadable

/-! ## Control files -/

/-- `dec(hw)` followed by one newline (rule R68). -/
def decLine (hw : Nat) : String := hw.repr ++ "\n"

/-- What `setMode` writes to `direction` (rules R68, R132). -/
def modeText : PinMode → String
  | .input => "in"
  | .output => "out"

/-- What `setPullState` writes to `pull` (rules R68, R134). -/
def pullText : Pull → String
  | .disable => "disable"
  | .up => "up"
  | .down => "down"

/-- What `setValue` writes to `value` (rules R68, R136). -/
def valueText (b : Bool) : String := if b then "1" else "0"

/-- The name of a per-pin file (rule R67). -/
def PinFile.name : PinFile → String
  | .direction => "direction"
  | .pull => "pull"
  | .value => "value"

/-- The path of a file (rule R67). -/
def CtlFile.path (c : Config) : CtlFile → String
  | .exportFile => Config.fsRoot ++ "/export"
  | .unexportFile => Config.fsRoot ++ "/unexport"
  | .pinFile p k =>
    match c.entry p.val with
    | some e => Config.fsRoot ++ "/" ++ Config.fsPinDir e.hw ++ "/" ++ k.name
    | none => ""

end Sys2Proof.Machine
end

