-- ==== Sys2Proof/Machine/Flags.lean ====
section
/-! DEFINITION. The status register (rule R23) and the outcome codes (rule R290). The block has no condition codes
(rule R25); `BACKEND`, `BOUND`, `CFG` and `BUSY` are views of other state and are computed here. -/

namespace Sys2Proof.Machine

open Sys2Proof

/-- The number of an outcome code (rule R290). -/
def ErrCode.code : ErrCode → Byte
  | .ok => 0x00
  | .resourceUnavailable => 0x01
  | .noPresence => 0x02
  | .busContention => 0x03
  | .integrityFailure => 0x04
  | .unsupportedDevice => 0x05
  | .illegalCommand => 0x80
  | .busState => 0x81

/-- The field `STATUS.BACKEND` (rule R23). -/
def Backend.code : Backend → BitVec 2
  | .none => 0
  | .register => 1
  | .filesystem => 2

/-- The field `STATUS.CFG` of a bound bus (rule R23). -/
def BusCfg.code : BusCfg → BitVec 2
  | .legacy => 0
  | .tunable => 1
  | .buffered => 2

/-- The field `STATUS.CFG`: 0 while no bus is bound (rule R23). -/
def Bus.cfgField (b : Bus) : BitVec 2 := if b.bound then b.cfg.code else 0

/-- `STATUS` of given contents (rule R23): `ERR` in 15:8, `CFG` in 5:4, `BOUND` in 3, `BACKEND` in 2:1, `BUSY` in 0, the
other bits 0. -/
def packStatus (err : ErrCode) (bus : Bus) (backend : Backend) (busy : Bool) : Word :=
  0#16 ++ err.code ++ 0#2 ++ bus.cfgField ++ BitVec.ofBool bus.bound ++ backend.code ++ BitVec.ofBool busy

/-- `STATUS.BUSY`: 1 exactly when `SEQ` is not `IDLE` (rules R23, R24). -/
def State.busy (s : State) : Bool := s.seq.isSome

/-- The status register as the host reads it (rule R23). -/
def State.statusWord (s : State) : Word := packStatus s.err s.dev.bus s.dev.gpio.backend s.busy

end Sys2Proof.Machine
end

