-- ==== Sys2Proof/Machine/Ops.lean ====
section
/-! DEFINITION. The shared operations: memory, external actions and draws (rules R13, R47), the register page (rules
R61 to R63), the control files (rule R66), the clock and the waits (41_clock.md), acceptance and end of an operation
(rule R41), what `fail` and a refusal do (rules R105, R291), and hardware reset (rules R320, R321). -/

namespace Sys2Proof.Machine

open Sys2Proof

/-! ## Memory -/

/-- What an address of the page that nothing has written reads as. The spec gives the page no contents at reset (rule
R49); the byte is the model's choice. -/
def unlistedByte (_ : Nat) : Byte := 0

/-- The byte at an address. -/
def Memory.read : Memory → Nat → Byte
  | [], a => unlistedByte a
  | (b, v) :: m, a => if b = a then v else Memory.read m a

/-- One cell, or none if the value is what the address reads as anyway. -/
def Memory.cell (a : Nat) (v : Byte) : Memory := if v = unlistedByte a then [] else [(a, v)]

/-- Writing a byte keeps the addresses rising and lists no byte that equals the unlisted one. -/
def Memory.write : Memory → Nat → Byte → Memory
  | [], a, v => Memory.cell a v
  | (b, u) :: m, a, v =>
    if a < b then Memory.cell a v ++ (b, u) :: m
    else if a = b then Memory.cell a v ++ m
    else (b, u) :: Memory.write m a v

/-- The canonical form from an address on: strictly rising addresses, no entry equal to what an unlisted address reads
as. -/
def Memory.wfFrom : Memory → Nat → Bool
  | [], _ => true
  | (a, v) :: m, lo => decide (lo ≤ a) && v != unlistedByte a && Memory.wfFrom m (a + 1)

/-- The canonical form of a memory. -/
def Memory.wf (m : Memory) : Bool := Memory.wfFrom m 0

/-- `PAGE[word]`: four bytes, the byte with bits 7:0 at the lowest address (rules R62, R74). -/
def Memory.readWord (m : Memory) (word : Nat) : Word :=
  Memory.read m (4 * word + 3) ++ Memory.read m (4 * word + 2) ++ Memory.read m (4 * word + 1) ++ Memory.read m (4 * word)

/-- `PAGE[word] <- v` (rules R62, R74). -/
def Memory.writeWord (m : Memory) (word : Nat) (v : Word) : Memory :=
  Memory.write (Memory.write (Memory.write (Memory.write m
    (4 * word) (v.extractLsb' 0 8))
    (4 * word + 1) (v.extractLsb' 8 8))
    (4 * word + 2) (v.extractLsb' 16 8))
    (4 * word + 3) (v.extractLsb' 24 8)

/-! ## External actions -/

/-- What the agent behind a per-pin file holds after a string is written to it (rules R31, R68). -/
def PinSettings.written (k : PinFile) (text : String) (x : PinSettings) : PinSettings :=
  match k with
  | .direction => { x with mode := if text = "out" then .output else .input }
  | .pull => { x with pull := if text = "up" then .up else if text = "down" then .down else .disable }
  | .value => { x with level := decide (text = "1") }

/-- The effect of a `FileWrite` on the settings behind the control files (rule R31). That the read position of a `value`
file stays where it was is the model's choice: the spec names only the seek and the read as moving it (rules R48, R66;
assumption log, entry 26). That a write to `export` or `unexport`, by which the agent creates or removes the files of a
pin (rule R69), leaves the settings of the pin is the model's choice too (entry 27); only of `finalize` does the spec say
that they stay (rule R125). -/
def Env.fileWritten (f : CtlFile) (text : String) (e : Env) : Env :=
  match f with
  | .exportFile => e
  | .unexportFile => e
  | .pinFile p k => e.setSetting p (PinSettings.written k text (e.setting p))

/-- The read position of a `value` file moves to `g` of where it was (rule R48 (a)); the other files are not read. -/
def Env.moveValuePos (f : CtlFile) (g : Nat) (relative : Bool) (e : Env) : Env :=
  match f with
  | .pinFile p .value => e.setPosition p (if relative then e.position p + g else g)
  | .pinFile _ .direction => e
  | .pinFile _ .pull => e
  | .exportFile => e
  | .unexportFile => e

/-- The effect of an external action on what the block reaches but does not own (rules R13, R48, R62, R66). That the read
position of a `value` file is 0 after a `FileOpen` that gives a handle is the model's choice: the spec does not say where
it stands there (assumption log, entry 26). -/
def Env.effect (a : Action) (e : Env) : Env :=
  match a with
  | .pageRead _ _ => e
  | .pageWrite word v => { e with page := e.page.writeWord word v }
  | .fileOpen f ok => if ok then e.moveValuePos f 0 false else e
  | .fileWrite f text => e.fileWritten f text
  | .fileSeek f => e.moveValuePos f 0 false
  | .fileRead f _ => e.moveValuePos f 1 true
  | .fileClose _ => e
  | .clockRead t => { e with clk := t }
  | .wait _ => e
  | .sleep _ t => { e with clk := t }
  | .status _ => e
  | .result _ _ _ => e

/-- An external action happens and is recorded (rules R13, R70). -/
def Env.perform (a : Action) (e : Env) : Env := { e.effect a with log := e.log ++ [a] }

/-- An external action of the block. -/
def perform (a : Action) (d : Dev) : Dev := { d with env := d.env.perform a }

/-- The queued draws change. -/
def setDraws (x : Draws) (d : Dev) : Dev := { d with env := { d.env with draws := x } }

/-- One more draw was taken from the free values. -/
def countDraw (d : Dev) : Dev := setDraws { d.env.draws with count := d.env.draws.count + 1 } d

/-! ## Draws (rule R47) -/

/-- `env.regAccess`. -/
def drawRegAccess (d : Dev) : Bool × Dev :=
  match d.env.draws.regAccess with
  | b :: rest => (b, setDraws { d.env.draws with regAccess := rest } d)
  | [] => (Config.freeRegAccess d.env.draws.count, countDraw d)

/-- `env.open(path)`; `true` is a handle. -/
def drawOpen (d : Dev) : Bool × Dev :=
  match d.env.draws.opens with
  | b :: rest => (b, setDraws { d.env.draws with opens := rest } d)
  | [] => (Config.freeOpen d.env.draws.count, countDraw d)

/-- `env.read1(h)`. -/
def drawChar (d : Dev) : ReadChar × Dev :=
  match d.env.draws.chars with
  | c :: rest => (c, setDraws { d.env.draws with chars := rest } d)
  | [] => (Config.freeChar d.env.draws.count, countDraw d)

/-- `env.in(word)`. -/
def drawIn (d : Dev) : Word × Dev :=
  match d.env.draws.ins with
  | w :: rest => (w, setDraws { d.env.draws with ins := rest } d)
  | [] => (Config.freeIn d.env.draws.count, countDraw d)

/-- How far the clock has advanced when it is next read. -/
def drawAdvance (d : Dev) : Nat × Dev :=
  match d.env.draws.times with
  | n :: rest => (n, setDraws { d.env.draws with times := rest } d)
  | [] => (Config.freeAdvance d.env.draws.count, countDraw d)

/-! ## The register page -/

/-- A word with one bit replaced (rule R63). -/
def putBit (w : Word) (bit : Nat) (v : Bool) : Word :=
  if v then w ||| (1#32 <<< bit) else w &&& ~~~(1#32 <<< bit)

/-- The value a page word reads as: the `in` bits are drawn, every other bit is what was last written (rules R47, R62). -/
def mixIn (mask drawn stored : Word) : Word := (drawn &&& mask) ||| (stored &&& ~~~mask)

/-- `MemRead(word, 4)` (rule R62). -/
def memRead (word : Nat) (d : Dev) : Word × Dev :=
  let stored := d.env.page.readWord word
  let mask := d.cfg.inMask word
  if mask = 0 then (stored, perform (.pageRead word stored) d)
  else
    let r := drawIn d
    let v := mixIn mask r.1 stored
    (v, perform (.pageRead word v) r.2)

/-- `MemWrite(word, 4, v)` (rule R62). -/
def memWrite (word : Nat) (v : Word) (d : Dev) : Dev := perform (.pageWrite word v) d

/-- `RegBit(ba)` of the bit offset `off` (rules R61, R63). -/
def regBit (off : Nat) (d : Dev) : Bool × Dev :=
  let r := memRead (off / 32) d
  (r.1.getLsbD (off % 32), r.2)

/-- `RegBitWrite(ba, v)` of the bit offset `off`: read, then write (rules R61, R63). -/
def regBitWrite (off : Nat) (v : Bool) (d : Dev) : Dev :=
  let r := memRead (off / 32) d
  memWrite (off / 32) (putBit r.1 (off % 32) v) r.2

/-! ## Control files (rule R66) -/

/-- `FileOpen(path)`. -/
def fileOpen (f : CtlFile) (d : Dev) : Handle × Dev :=
  let r := drawOpen d
  (if r.1 then .opened else .invalid, perform (.fileOpen f r.1) r.2)

/-- `FileWrite(h, s)`: nothing on an invalid handle. -/
def fileWrite (h : Handle) (f : CtlFile) (text : String) (d : Dev) : Dev :=
  match h with
  | .invalid => d
  | .opened => perform (.fileWrite f text) d

/-- `FileSeek0(h)`: nothing on an invalid handle. -/
def fileSeek0 (h : Handle) (f : CtlFile) (d : Dev) : Dev :=
  match h with
  | .invalid => d
  | .opened => perform (.fileSeek f) d

/-- `FileRead1(h)`: `other` on an invalid handle. -/
def fileRead1 (h : Handle) (f : CtlFile) (d : Dev) : ReadChar × Dev :=
  match h with
  | .invalid => (.other, d)
  | .opened =>
    let r := drawChar d
    (r.1, perform (.fileRead f r.1) r.2)

/-- `FileClose(h)`: nothing on an invalid handle; the caller makes the handle `invalid`. -/
def fileClose (h : Handle) (f : CtlFile) (d : Dev) : Dev :=
  match h with
  | .invalid => d
  | .opened => perform (.fileClose f) d

/-! ## The clock and the waits (41_clock.md) -/

/-- `now()`: one read of the clock (rule R161), which never shows less than the read before it (rule R34). -/
def now (d : Dev) : Nat × Dev :=
  let r := drawAdvance d
  let t := r.2.env.clk + r.1
  (t, perform (.clockRead t) r.2)

/-- `elapsed(t0, t1)` in nanoseconds, over the integers (rule R162). -/
def elapsed (t0 t1 : Nat) : Int := (t1 : Int) - (t0 : Int)

/-- The wait from `t0` of clamped duration `dur` is over at a read that shows `t` (rule R163, step 3). -/
def isOver (t0 dur t : Nat) : Bool := decide ((dur : Int) ≤ elapsed t0 t)

/-- Where `OVERRUN_MAX_NS` is given, a wait ends at most that much after its deadline (rule R169): the read that ends it
shows no more than that, unless the clock stands later already. -/
def capOverrun (c : Config) (t0 dur clk t : Nat) : Nat :=
  match c.overrunMaxNs with
  | none => t
  | some m => if clk ≤ t0 + dur + m then min t (t0 + dur + m) else t

/-- The loop of rule R163 over a list of clock advances, one for each read: whether the wait ended, the advances left
over, and the block after the reads. -/
def spin (t0 dur : Nat) : List Nat → Dev → Bool × List Nat × Dev
  | [], d => (false, [], d)
  | n :: rest, d =>
    let t := d.env.clk + n
    if isOver t0 dur t then (true, rest, perform (.clockRead (capOverrun d.cfg t0 dur d.env.clk t)) d)
    else spin t0 dur rest (perform (.clockRead t) d)

/-- The read that ends a wait: it shows the deadline or a later time, by a free amount (rules R163, R169). -/
def lastPoll (t0 dur late : Nat) (d : Dev) : Dev :=
  perform (.clockRead (capOverrun d.cfg t0 dur d.env.clk (max d.env.clk (t0 + dur) + late))) d

/-- The loop of rule R163 where no clock advance is queued: any number of reads that show less than the duration, then
the read that ends the wait. -/
def spinFree (t0 dur : Nat) (d : Dev) : Dev :=
  let n := d.env.draws.count
  let r := spin t0 dur (Config.freePolls n) (countDraw d)
  if r.1 then r.2.2 else lastPoll t0 dur (Config.freeOverrun n) r.2.2

/-- The clamp (rule R166). -/
def clampNs (c : Config) (dur : Nat) : Nat := min dur c.delayMaxNs

/-- The loop of the busy wait from `t0` of a duration already clamped (rule R163, steps 2 to 4). -/
def spinUntil (t0 dur : Nat) (d : Dev) : Dev :=
  let r := spin t0 dur d.env.draws.times d
  let d1 := setDraws { r.2.2.env.draws with times := r.2.1 } r.2.2
  perform (.wait dur) (if r.1 then d1 else spinFree t0 dur d1)

/-- `BusyWait(D, t0)` (rule R163). -/
def busyWait (dur t0 : Nat) (d : Dev) : Dev := spinUntil t0 (clampNs d.cfg dur) d

/-- `Wait(D)`: the busy wait with no anchor (rule R163). -/
def waitNs (dur : Nat) (d : Dev) : Dev :=
  let r := now d
  busyWait dur r.1 r.2

/-- The wait `Wait(SLOT[i])` of the bus operations (42_onewire.md). -/
def waitSlot (i : Fin 10) (d : Dev) : Dev := waitNs (d.bus.slotNs i) d

/-- An anchor is a recent timestamp at a clock read that shows `t`: not later, less than one second old, its
nanoseconds in range (rules R164, R339). -/
def anchorFresh (sec nsec t : Nat) : Bool :=
  decide (nsec < nsPerSec) && decide (sec * nsPerSec + nsec ≤ t) && decide (t < sec * nsPerSec + nsec + nsPerSec)

/-- Reads of the clock whose advances are given, with no condition on when they end. -/
def readAll : List Nat → Dev → Dev
  | [], d => d
  | n :: rest, d => readAll rest (perform (.clockRead (d.env.clk + n)) d)

/-- The first read of a wait from an anchor less than a second old. Where it ends the wait it keeps the bound of rule
R169, as the last read of every other wait does. -/
def anchoredRead (dur sec nsec : Nat) (d : Dev) : Nat × Dev :=
  let t0 := sec * nsPerSec + nsec
  let r := drawAdvance d
  let raw := r.2.env.clk + r.1
  let t := if nsec < nsPerSec ∧ r.2.env.clk < t0 + nsPerSec ∧ isOver t0 dur raw = true
    then capOverrun d.cfg t0 dur r.2.env.clk raw else raw
  (t, perform (.clockRead t) r.2)

/-- `BusyWait(D, t0)` with the anchor `t0 = (sec, nsec)`: measured from the anchor (rule R164). With an anchor that is
not a recent timestamp the length of the wait is free (rule R164 corner case (d), entry U3). -/
def anchoredWait (dur sec nsec : Nat) (d : Dev) : Dev :=
  let dur' := clampNs d.cfg dur
  let t0 := sec * nsPerSec + nsec
  let r := anchoredRead dur' sec nsec d
  if anchorFresh sec nsec r.1 then
    if isOver t0 dur' r.1 then perform (.wait dur') r.2 else spinUntil t0 dur' r.2
  else
    perform (.wait dur') (readAll (Config.freeOddPolls r.2.env.draws.count) (countDraw r.2))

/-- `Sleep(D)`: at least `D`, no clamp, no upper bound (rule R168). -/
def sleepNs (dur : Nat) (d : Dev) : Dev :=
  let r := drawAdvance d
  perform (.sleep dur (r.2.env.clk + dur + r.1)) r.2

/-! ## Acceptance and end of an operation (rule R41) -/

/-- Acceptance of the command word `w` (rule R41). -/
def State.accept (w : Word) (s : State) : State :=
  let s1 : State := { s with seq := some { cmd := w, l0 := s.a0, l1 := s.a1, l2 := s.a2 } }
  { s1 with dev := perform (.status s1.statusWord) s1.dev }

/-- The end of an operation with an outcome code and the values written to `R0` and `R1`, if any: control goes nowhere
and the sequencer returns to `IDLE` (rules R41, R291, R295). This is the one way a failure is taken. -/
def State.finish (e : ErrCode) (r0 r1 : Option Word) (s : State) : State :=
  let s1 : State := { s with r0 := r0.getD s.r0, r1 := r1.getD s.r1, err := e, seq := none }
  { s1 with dev := perform (.result r0 r1 s1.statusWord) s1.dev }

/-- An operation that only acts on the units and returns nothing. -/
def State.run (f : Dev → Dev) (s : State) : State := State.finish .ok none none { s with dev := f s.dev }

/-- An operation that ends with an outcome and an optional result in `R0`. -/
def State.runWith (f : Dev → ErrCode × Option Word × Dev) (s : State) : State :=
  let r := f s.dev
  State.finish r.1 r.2.1 none { s with dev := r.2.2 }

/-- A refused command: nothing changes but `STATUS.ERR` (rule R105). -/
def State.refuse (e : ErrCode) (s : State) : State := State.finish e none none s

/-- A bus command in the wrong bound state is refused with `BusState` (rules R105, R180). -/
def State.ifBound (want : Bool) (f : State → State) (s : State) : State :=
  if s.dev.bus.bound = want then f s else s.refuse .busState

/-! ## Hardware reset (rules R320, R321) -/

/-- Every piece of block-owned state takes its reset value; what the block does not own stays (rules R49, R320), the
settings of the pins among it. -/
def State.hardReset (s : State) : State :=
  { dev := { cfg := s.dev.cfg, gpio := { last := s.dev.gpio.medium }, env := s.dev.env }
    agenda := s.agenda
    hostData := s.hostData }

/-- The environment after a number of external actions. -/
def Env.performAll : List Action → Env → Env
  | [], e => e
  | a :: rest, e => Env.performAll rest (e.perform a)

/-- The external actions that lead from one state of the block to a later one. -/
def Dev.actionsSince (old new : Dev) : List Action := new.env.log.drop old.env.log.length

/-- Reset while the sequencer is inside a line that would lead to `later`: the first `n` of the line's actions have
happened, no later one does, and the draws the line used are used up (rule R321). -/
def State.hardResetAfter (n : Nat) (later s : State) : State :=
  let env := Env.performAll ((s.dev.actionsSince later.dev).take n) s.dev.env
  State.hardReset { s with dev := { s.dev with env := { env with draws := later.dev.env.draws } } }

end Sys2Proof.Machine
end

