-- ==== Sys2Proof/Machine/Clock.lean ====
section
/-! DEFINITION. The BusyWaitClock operations (41_clock.md): `delay` and `clockRead`. The waits they are built on are
shared operations (`Machine/Ops.lean`). -/

namespace Sys2Proof.Machine

open Sys2Proof

/-- `delay` with its latched operands: the duration, and the anchor when `F = 1` (rule R164). -/
def clockDelay (f : Bool) (l0 l1 l2 : Word) (d : Dev) : Dev :=
  if f then anchoredWait l0.toNat l1.toNat l2.toNat d else waitNs l0.toNat d

/-- `SEC` of a clock value in nanoseconds: the `SEC_W`-bit count of seconds, of which `clockRead` returns `s[31:0]` (rules
R33, R165). -/
def secWord (c : Config) (t : Nat) : Word := BitVec.ofNat 32 (t / nsPerSec % 2 ^ c.secW)

/-- `NSEC` of a clock value in nanoseconds (rules R33, R165). -/
def nsecWord (t : Nat) : Word := BitVec.ofNat 32 (t % nsPerSec)

/-- `delay(durationNanos, fromTimestamp?)` (rule R164). -/
def execDelay (f : Bool) (s : State) : Host.Outcome State Fault Refusal :=
  .next (s.run (clockDelay f s.opL0 s.opL1 s.opL2))

/-- `clockRead()` (rule R165). -/
def execClockRead (s : State) : Host.Outcome State Fault Refusal :=
  let r := now s.dev
  .next (State.finish .ok (some (secWord s.dev.cfg r.1)) (some (nsecWord r.1)) { s with dev := r.2 })

end Sys2Proof.Machine
end

