-- ==== Sys2Proof/Machine/Gpio.lean ====
section
/-! DEFINITION. The GPIOController operations (40_gpio.md). The procedures named `gpio…` are the ones the bus operations
call too (rule R120); each dispatches on the backend tag. The meanings of the eleven commands stand at the end. -/

namespace Sys2Proof.Machine

open Sys2Proof

/-! ## Handles and the export state (rules R29, R30) -/

/-- The files of one pin take new values. -/
def setPinFiles (i : Fin 64) (x : PinFiles) (d : Dev) : Dev :=
  { d with gpio := d.gpio.setPin i x }

/-- The backend tag takes a new value. -/
def setBackend (b : Backend) (d : Dev) : Dev := { d with gpio := { d.gpio with backend := b } }

/-- `BACKEND <- NONE` (rule R125, step 4): the settings of the pins stay where they are. -/
def giveUpBackend (d : Dev) : Dev := { d with gpio := { d.gpio with backend := .none, last := d.gpio.medium } }

/-! ## Creation and destruction -/

/-- Step 3 of rule R124: `H_EXPORT <- FileOpen(FS_ROOT/export)`. -/
def openGlobalExport (d : Dev) : Dev :=
  let r := fileOpen .exportFile d
  { r.2 with gpio := { r.2.gpio with hExport := r.1 } }

/-- Step 4 of rule R124: `H_UNEXPORT <- FileOpen(FS_ROOT/unexport)`. -/
def openGlobalUnexport (d : Dev) : Dev :=
  let r := fileOpen .unexportFile d
  { r.2 with gpio := { r.2.gpio with hUnexport := r.1 } }

/-- The outcome of the fallback: a failure when a global file did not open (rule R124, step 6). -/
def globalOutcome (d : Dev) : ErrCode :=
  if d.gpio.hExport = .invalid ∨ d.gpio.hUnexport = .invalid then .resourceUnavailable else .ok

/-- `initialize()` (rule R124). -/
def gpioInitialize (d : Dev) : ErrCode × Option Word × Dev :=
  if d.gpio.backend ≠ .none then (.ok, none, d)
  else
    let r := drawRegAccess d
    if r.1 then (.ok, none, setBackend .register r.2)
    else
      let d1 := setBackend .filesystem (openGlobalUnexport (openGlobalExport r.2))
      (globalOutcome d1, none, d1)

/-! ## Export -/

/-- The handles of a pin are closed, in the order direction, pull, value; an invalid one is no handle. -/
def closeHandles (i : Fin 64) (hd hp hv : Handle) (d : Dev) : Dev :=
  fileClose hv (.pinFile i .value) (fileClose hp (.pinFile i .pull) (fileClose hd (.pinFile i .direction) d))

/-- Step 4 of rule R129: the three handles of a pin are closed. -/
def closePinFiles (i : Fin 64) (d : Dev) : Dev :=
  let x := d.gpio.pin i
  setPinFiles i { x with hDir := .invalid, hPull := .invalid, hValue := .invalid }
    (closeHandles i x.hDir x.hPull x.hValue d)

/-- Step 5 of rule R129 and step 7 of rule R126: the hardware number is written to `unexport`. -/
def writeUnexport (e : PinEntry) (d : Dev) : Dev := fileWrite d.gpio.hUnexport .unexportFile (decLine e.hw) d

/-- Step 5 of rule R126: the hardware number is written to `export`. -/
def writeExport (e : PinEntry) (d : Dev) : Dev := fileWrite d.gpio.hExport .exportFile (decLine e.hw) d

/-- Step 6 of rule R129. -/
def clearExported (i : Fin 64) (d : Dev) : Dev := setPinFiles i { (d.gpio.pin i) with exported := false } d

/-- `unexportPin` of a pin number (rules R120, R129). Steps 1 to 3 all return with no effect, so their order is free. -/
def gpioUnexportPin (p : Byte) (d : Dev) : Dev :=
  if d.gpio.backend ≠ .filesystem then d
  else
    match validPin d.cfg p with
    | none => d
    | some (i, e) =>
      if (d.gpio.pin i).exported then clearExported i (writeUnexport e (closePinFiles i d)) else d

/-- `unexportPin` of every pin, in ascending order (rule R130). -/
def gpioUnexportAll (d : Dev) : Dev := (List.range 64).foldl (fun d i => gpioUnexportPin (BitVec.ofNat 8 i) d) d

/-- The two global handles are closed (rule R125, step 2). -/
def closeGlobals (d : Dev) : Dev :=
  let d1 := fileClose d.gpio.hExport .exportFile d
  let d2 := fileClose d.gpio.hUnexport .unexportFile d1
  { d2 with gpio := { d2.gpio with hExport := .invalid, hUnexport := .invalid } }

/-- `finalize()` (rule R125). Giving up the mapping of `PAGE` (step 3) reads and writes no word. -/
def gpioFinalize (d : Dev) : Dev :=
  match d.gpio.backend with
  | .none => d
  | .filesystem => giveUpBackend (closeGlobals (gpioUnexportAll d))
  | .register => giveUpBackend d

/-- One attempt of step 6 of rule R126: the three files are opened, in the order direction, pull, value; the pin is
exported when all three opened, else those that did are closed. -/
def exportAttempt (i : Fin 64) (d : Dev) : Bool × Dev :=
  let hd := fileOpen (.pinFile i .direction) d
  let hp := fileOpen (.pinFile i .pull) hd.2
  let hv := fileOpen (.pinFile i .value) hp.2
  if hd.1 = .opened ∧ hp.1 = .opened ∧ hv.1 = .opened then
    (true, setPinFiles i { exported := true, hDir := hd.1, hPull := hp.1, hValue := hv.1 } hv.2)
  else
    (false, closeHandles i hd.1 hp.1 hv.1 hv.2)

/-- The attempts left of step 6 of rule R126, with the backoff between them and none after the last (decision D19). -/
def exportLoop (i : Fin 64) : Nat → Dev → Bool × Dev
  | 0, d => (false, d)
  | n + 1, d =>
    let r := exportAttempt i d
    if r.1 then (true, r.2)
    else if n = 0 then (false, r.2)
    else exportLoop i n (sleepNs d.cfg.exportBackoffNs r.2)

/-- `exportPin` of a pin number, with its outcome (rules R120, R126). Steps 1 to 3 all return with no effect, so their
order is free. -/
def gpioExportPin (p : Byte) (d : Dev) : ErrCode × Dev :=
  if d.gpio.backend ≠ .filesystem then (.ok, d)
  else
    match validPin d.cfg p with
    | none => (.ok, d)
    | some (i, e) =>
      if (d.gpio.pin i).exported then (.ok, d)
      else
        let r := exportLoop i d.cfg.exportAttempts (writeExport e d)
        if r.1 then (.ok, r.2) else (.resourceUnavailable, writeUnexport e r.2)

/-! ## Pin configuration -/

/-- Step 2 of rule R132: the multiplexer bit, then the function bit. -/
def setModeRegister (e : PinEntry) (m : PinMode) (d : Dev) : Dev :=
  regBitWrite e.fsel (polarity d.cfg.fselOutputLevel (m == .output)) (regBitWrite e.mux d.cfg.muxGpioLevel d)

/-- Step 3 of rule R132. -/
def setModeFile (i : Fin 64) (m : PinMode) (d : Dev) : Dev :=
  fileWrite (d.gpio.pin i).hDir (.pinFile i .direction) (modeText m) d

/-- `setMode` of a pin number (rules R120, R132). -/
def gpioSetMode (p : Byte) (m : PinMode) (d : Dev) : Dev :=
  match usablePin d p with
  | none => d
  | some (i, e) =>
    match d.gpio.backend with
    | .none => d
    | .register => setModeRegister e m d
    | .filesystem => setModeFile i m d

/-- Step 2 of rule R134: direction before enable; `disable` leaves the direction bit alone. -/
def setPullRegister (e : PinEntry) (x : Pull) (d : Dev) : Dev :=
  match x with
  | .up => regBitWrite e.pen d.cfg.penEnableLevel (regBitWrite e.pdir d.cfg.pdirUpLevel d)
  | .down => regBitWrite e.pen d.cfg.penEnableLevel (regBitWrite e.pdir (!d.cfg.pdirUpLevel) d)
  | .disable => regBitWrite e.pen (!d.cfg.penEnableLevel) d

/-- Step 3 of rule R134. -/
def setPullFile (i : Fin 64) (x : Pull) (d : Dev) : Dev :=
  fileWrite (d.gpio.pin i).hPull (.pinFile i .pull) (pullText x) d

/-- `setPullState` of a pin number (rules R120, R134). -/
def gpioSetPullState (p : Byte) (x : Pull) (d : Dev) : Dev :=
  match usablePin d p with
  | none => d
  | some (i, e) =>
    match d.gpio.backend with
    | .none => d
    | .register => setPullRegister e x d
    | .filesystem => setPullFile i x d

/-- Step 2 of rule R136. -/
def setValueRegister (e : PinEntry) (b : Bool) (d : Dev) : Dev := regBitWrite e.out (polarity d.cfg.outHighLevel b) d

/-- Step 3 of rule R136. -/
def setValueFile (i : Fin 64) (b : Bool) (d : Dev) : Dev :=
  fileWrite (d.gpio.pin i).hValue (.pinFile i .value) (valueText b) d

/-- `setValue` of a pin number (rules R120, R136). -/
def gpioSetValue (p : Byte) (b : Bool) (d : Dev) : Dev :=
  match usablePin d p with
  | none => d
  | some (i, e) =>
    match d.gpio.backend with
    | .none => d
    | .register => setValueRegister e b d
    | .filesystem => setValueFile i b d

/-- Step 2 of rule R138. -/
def getValueRegister (e : PinEntry) (d : Dev) : Level × Dev :=
  let r := regBit e.inp d
  (levelOfBit r.1, r.2)

/-- Step 3 of rule R138: the seek, then the read (rule R140). -/
def getValueFile (i : Fin 64) (d : Dev) : Level × Dev :=
  let h := (d.gpio.pin i).hValue
  let r := fileRead1 h (.pinFile i .value) (fileSeek0 h (.pinFile i .value) d)
  (levelOfChar r.1, r.2)

/-- `getValue` of a pin number (rules R120, R138). -/
def gpioGetValue (p : Byte) (d : Dev) : Level × Dev :=
  match usablePin d p with
  | none => (.unreadable, d)
  | some (i, e) =>
    match d.gpio.backend with
    | .none => (.unreadable, d)
    | .register => getValueRegister e d
    | .filesystem => getValueFile i d

/-! ## The commands -/

/-- `initialize()` (rule R124). -/
def execInitialize (s : State) : Host.Outcome State Fault Refusal := .next (s.runWith gpioInitialize)

/-- `finalize()` (rule R125). -/
def execFinalize (s : State) : Host.Outcome State Fault Refusal := .next (s.run gpioFinalize)

/-- `exportPin(pin)` (rule R126). -/
def execExportPin (p : Byte) (s : State) : Host.Outcome State Fault Refusal :=
  .next (s.runWith fun d => let r := gpioExportPin p d; (r.1, none, r.2))

/-- `unexportPin(pin)` (rule R129). -/
def execUnexportPin (p : Byte) (s : State) : Host.Outcome State Fault Refusal := .next (s.run (gpioUnexportPin p))

/-- `unexportAll()` (rule R130). -/
def execUnexportAll (s : State) : Host.Outcome State Fault Refusal := .next (s.run gpioUnexportAll)

/-- `setMode(pin, input|output)` (rule R132). -/
def execSetMode (p : Byte) (m : PinMode) (s : State) : Host.Outcome State Fault Refusal := .next (s.run (gpioSetMode p m))

/-- `setPullState(pin, disable)` (rule R134). -/
def execSetPullDisable (p : Byte) (s : State) : Host.Outcome State Fault Refusal :=
  .next (s.run (gpioSetPullState p .disable))

/-- `setPullState(pin, up)` (rule R134). -/
def execSetPullUp (p : Byte) (s : State) : Host.Outcome State Fault Refusal := .next (s.run (gpioSetPullState p .up))

/-- `setPullState(pin, down)` (rule R134). -/
def execSetPullDown (p : Byte) (s : State) : Host.Outcome State Fault Refusal := .next (s.run (gpioSetPullState p .down))

/-- `setValue(pin, 0|1)` (rule R136). -/
def execSetValue (p : Byte) (b : Bool) (s : State) : Host.Outcome State Fault Refusal := .next (s.run (gpioSetValue p b))

/-- `getValue(pin)` (rule R138). -/
def execGetValue (p : Byte) (s : State) : Host.Outcome State Fault Refusal :=
  .next (s.runWith fun d => let r := gpioGetValue p d; (.ok, some r.1.word, r.2))

end Sys2Proof.Machine
end

