-- ==== Sys2Proof/Machine/OneWire.lean ====
section
/-! DEFINITION. The OneWireBus operations (42_onewire.md). The procedures named `ow…` are those of rules R181 to R183;
the meanings of the thirteen commands stand at the end, each behind the bound-state check of rule R180. -/

namespace Sys2Proof.Machine

open Sys2Proof

/-! ## The line -/

/-- `ow_pullUp()`: release the line (rule R181). -/
def owPullUp (d : Dev) : Dev :=
  match d.bus.cfg with
  | .legacy => gpioSetMode d.bus.pinIo .input d
  | .tunable => gpioSetMode d.bus.pinIo .input d
  | .buffered => gpioSetValue d.bus.pinOut (!d.cfg.bufAssertLevel) d

/-- The assert of simple mode: direction first, level second (rule R182). -/
def assertSimple (d : Dev) : Dev := gpioSetValue d.bus.pinIo false (gpioSetMode d.bus.pinIo .output d)

/-- `ow_pullDown()`: assert the line (rule R182). -/
def owPullDown (d : Dev) : Dev :=
  match d.bus.cfg with
  | .legacy => assertSimple d
  | .tunable => assertSimple d
  | .buffered => gpioSetValue d.bus.pinOut d.cfg.bufAssertLevel d

/-- `ow_sample()`: read the line (rule R183). -/
def owSample (d : Dev) : Level × Dev := gpioGetValue d.bus.pinIo d

/-! ## Creation, destruction, configuration -/

/-- The bus context takes a new value. -/
def setBus (b : Bus) (d : Dev) : Dev := { d with bus := b }

/-- `BOUND` takes a new value. -/
def setBound (b : Bool) (d : Dev) : Dev := setBus { d.bus with bound := b } d

/-- Steps 2 and 3 of rules R184, R185 and R187: configuration, pins and default slots. -/
def bindBus (c : BusCfg) (pio pout : Byte) (slots : Vector Word 10) (d : Dev) : Dev :=
  setBus { d.bus with cfg := c, pinIo := pio, pinOut := pout, slots := slots } d

/-- The simple-mode bus creation of rules R184 and R185, with its outcome. -/
def owOpenSimple (c : BusCfg) (p : Byte) (slots : Vector Word 10) (d : Dev) : ErrCode × Option Word × Dev :=
  let r := gpioExportPin p (bindBus c p 0xFF slots d)
  (r.1, none, setBound true (owPullUp r.2))

/-- The outcome of two exports: a failure when either failed, both being attempted (rules R187, R291). -/
def worse (a b : ErrCode) : ErrCode := if a = .ok then b else a

/-- The buffered bus creation of rule R187, with its outcome. -/
def owOpenBuffered (p q : Byte) (d : Dev) : ErrCode × Option Word × Dev :=
  let r1 := gpioExportPin p (bindBus .buffered p q (slotsOf d.cfg.tunableNs) d)
  let r2 := gpioExportPin q r1.2
  let d1 := gpioSetMode q .output (gpioSetMode p .input r2.2)
  (worse r1.1 r2.1, none, setBound true (owPullUp d1))

/-- Step 3 of rule R188. -/
def unexportOut (d : Dev) : Dev := if d.bus.cfg = .buffered then gpioUnexportPin d.bus.pinOut d else d

/-- Step 4 of rule R188: nothing is bound; the slots keep their values. -/
def unbind (d : Dev) : Dev := setBus { d.bus with bound := false, cfg := .legacy, pinIo := 0xFF, pinOut := 0xFF } d

/-- `busClose()` of a bound bus (rule R188). -/
def owClose (d : Dev) : Dev := unbind (unexportOut (gpioUnexportPin d.bus.pinIo d))

/-- `SLOT[i] <- v` (rule R189). -/
def setSlotTo (i : Fin 10) (v : Word) (d : Dev) : Dev := setBus (d.bus.setSlot i v) d

/-! ## Protocol -/

/-- The low pulse, the release and the hold of a written bit, after the assert (rule R194, steps 3 and 4). -/
def slotTail (b : Bool) (d : Dev) : Dev :=
  if b then waitSlot slotB (owPullUp (waitSlot slotA d)) else waitSlot slotD (owPullUp (waitSlot slotC d))

/-- One write slot (rule R194, steps 2 to 4). -/
def writeSlot (b : Bool) (d : Dev) : Dev := slotTail b (owPullDown d)

/-- One read slot and its sample (rule R196, steps 2 to 7). -/
def readSlot (d : Dev) : Level × Dev :=
  let r := owSample (waitSlot slotE (owPullUp (waitSlot slotA (owPullDown d))))
  (r.1, waitSlot slotF r.2)

/-- `writeByte`: the eight write slots, bit 0 first, then the settle wait (rule R195). -/
def writeSlots (v : Byte) (d : Dev) : Dev :=
  waitNs d.cfg.settleNs ((List.range 8).foldl (fun d k => writeSlot (v.getLsbD k) d) d)

/-- `ACC[k] <- b` for an accumulator whose bit `k` is 0 (rule R197). -/
def putAcc (acc : Byte) (k : Nat) (b : Bool) : Byte := if b then acc ||| (1#8 <<< k) else acc

/-- One round of `readByte`: a read slot whose bit goes to place `k` of the accumulator (rule R197). -/
def readSlotInto (k : Nat) (x : Byte × Dev) : Byte × Dev :=
  let r := readSlot x.2
  (putAcc x.1 k r.1.bit, r.2)

/-- `readByte`: the eight read slots, the first bit sampled is bit 0 (rule R197). -/
def readSlots (d : Dev) : Byte × Dev := (List.range 8).foldl (fun x k => readSlotInto k x) (0, d)

/-- Steps 2 to 8 of rule R193: the reset pulse and the presence sample. -/
def resetPulse (d : Dev) : Level × Dev :=
  owSample (waitSlot slotI (owPullUp (waitSlot slotH (owPullDown (waitSlot slotG (owPullUp d))))))

/-- `reset()` of a bound bus (rule R193). -/
def owReset (d : Dev) : ErrCode × Option Word × Dev :=
  let r := resetPulse d
  if r.1.isLow then (.ok, some (boolWord true), waitSlot slotJ r.2)
  else (.noPresence, some (boolWord false), r.2)

/-- `readBit()` of a bound bus (rule R196). -/
def owReadBit (d : Dev) : ErrCode × Option Word × Dev :=
  let r := readSlot d
  (.ok, some (boolWord r.1.bit), r.2)

/-- `readByte()` of a bound bus (rule R197). -/
def owReadByte (d : Dev) : ErrCode × Option Word × Dev :=
  let r := readSlots d
  (.ok, some (byteWord r.1), r.2)

/-! ## The commands -/

/-- `busOpenLegacy(pin)` (rule R184). -/
def execBusOpenLegacy (p : Byte) (s : State) : Host.Outcome State Fault Refusal :=
  .next (s.ifBound false fun s => s.runWith (owOpenSimple .legacy p (slotsOf s.dev.cfg.legacyNs)))

/-- `busOpenTunable(pin)` (rule R185). -/
def execBusOpenTunable (p : Byte) (s : State) : Host.Outcome State Fault Refusal :=
  .next (s.ifBound false fun s => s.runWith (owOpenSimple .tunable p (slotsOf s.dev.cfg.tunableNs)))

/-- `busOpenBuffered(inputPin, outputPin)` (rule R187). -/
def execBusOpenBuffered (p q : Byte) (s : State) : Host.Outcome State Fault Refusal :=
  .next (s.ifBound false fun s => s.runWith (owOpenBuffered p q))

/-- `busClose()` (rule R188). -/
def execBusClose (s : State) : Host.Outcome State Fault Refusal := .next (s.ifBound true fun s => s.run owClose)

/-- `setSlot(slot, durationNanos)` (rule R189). -/
def execSetSlot (n : BitVec 4) (s : State) : Host.Outcome State Fault Refusal :=
  .next (s.ifBound true fun s => s.run (setSlotTo (slotIndex n) s.opL0))

/-- `getSlot(slot)` (rule R190). -/
def execGetSlot (n : BitVec 4) (s : State) : Host.Outcome State Fault Refusal :=
  .next (s.ifBound true fun s => s.runWith fun d => (.ok, some (d.bus.slot (slotIndex n)), d))

/-- `pullUp()` (rule R191). -/
def execPullUp (s : State) : Host.Outcome State Fault Refusal := .next (s.ifBound true fun s => s.run owPullUp)

/-- `pullDown()` (rule R192). -/
def execPullDown (s : State) : Host.Outcome State Fault Refusal := .next (s.ifBound true fun s => s.run owPullDown)

/-- `reset()` (rule R193). -/
def execReset (s : State) : Host.Outcome State Fault Refusal := .next (s.ifBound true fun s => s.runWith owReset)

/-- `writeBit(bit)` (rule R194). -/
def execWriteBit (b : Bool) (s : State) : Host.Outcome State Fault Refusal :=
  .next (s.ifBound true fun s => s.run (writeSlot b))

/-- `writeByte(value)` (rule R195). -/
def execWriteByte (v : Byte) (s : State) : Host.Outcome State Fault Refusal :=
  .next (s.ifBound true fun s => s.run (writeSlots v))

/-- `readBit()` (rule R196). -/
def execReadBit (s : State) : Host.Outcome State Fault Refusal := .next (s.ifBound true fun s => s.runWith owReadBit)

/-- `readByte()` (rule R197). -/
def execReadByte (s : State) : Host.Outcome State Fault Refusal := .next (s.ifBound true fun s => s.runWith owReadByte)

end Sys2Proof.Machine
end

