-- ==== Sys2Proof/Machine/Dispatch.lean ====
section
/-! DEFINITION. The meaning of every command: one arm for each constructor of `Instr`. -/

namespace Sys2Proof.Machine

open Sys2Proof

/-- The whole operation of an accepted command, in one step. -/
def exec (i : Instr) (s : State) : Host.Outcome State Fault Refusal :=
  match i with
  | .initGpio => Sys2Proof.Machine.execInitialize s
  | .finalize => Sys2Proof.Machine.execFinalize s
  | .exportPin p => Sys2Proof.Machine.execExportPin p s
  | .unexportPin p => Sys2Proof.Machine.execUnexportPin p s
  | .unexportAll => Sys2Proof.Machine.execUnexportAll s
  | .setMode p m => Sys2Proof.Machine.execSetMode p m s
  | .setPullDisable p => Sys2Proof.Machine.execSetPullDisable p s
  | .setPullUp p => Sys2Proof.Machine.execSetPullUp p s
  | .setPullDown p => Sys2Proof.Machine.execSetPullDown p s
  | .setValue p b => Sys2Proof.Machine.execSetValue p b s
  | .getValue p => Sys2Proof.Machine.execGetValue p s
  | .delay f => Sys2Proof.Machine.execDelay f s
  | .clockRead => Sys2Proof.Machine.execClockRead s
  | .busOpenLegacy p => Sys2Proof.Machine.execBusOpenLegacy p s
  | .busOpenTunable p => Sys2Proof.Machine.execBusOpenTunable p s
  | .busOpenBuffered p q => Sys2Proof.Machine.execBusOpenBuffered p q s
  | .busClose => Sys2Proof.Machine.execBusClose s
  | .setSlot n => Sys2Proof.Machine.execSetSlot n s
  | .getSlot n => Sys2Proof.Machine.execGetSlot n s
  | .pullUp => Sys2Proof.Machine.execPullUp s
  | .pullDown => Sys2Proof.Machine.execPullDown s
  | .reset => Sys2Proof.Machine.execReset s
  | .writeBit b => Sys2Proof.Machine.execWriteBit b s
  | .writeByte v => Sys2Proof.Machine.execWriteByte v s
  | .readBit => Sys2Proof.Machine.execReadBit s
  | .readByte => Sys2Proof.Machine.execReadByte s
  | .crcReset => Sys2Proof.Machine.execCrcReset s
  | .crcUpdate v => Sys2Proof.Machine.execCrcUpdate v s
  | .crcValid => Sys2Proof.Machine.execCrcValid s

end Sys2Proof.Machine
end

