-- ==== Sys2Proof/Machine/Hostwin.lean ====
section
/-! DEFINITION. The host register window (rules R21, R22, R64, R65) and the moves of the environment that no command
makes (rules R20, R27, R33). -/

namespace Sys2Proof.Machine

open Sys2Proof

/-- The seven registers of the window, and no register (rule R64). -/
inductive HostReg where
  | cmd
  | status
  | a0
  | a1
  | a2
  | r0
  | r1
deriving DecidableEq, Repr

/-- The map of the window: an access of four bytes at an aligned offset reaches a register, or none from `0x1C` up; any
other access is refused (rules R64, R65). -/
def hostReg (width off : Nat) : Option HostReg :=
  if width = 4 then
    match off with
    | 0x00 => some .cmd
    | 0x04 => some .status
    | 0x08 => some .a0
    | 0x0C => some .a1
    | 0x10 => some .a2
    | 0x14 => some .r0
    | 0x18 => some .r1
    | _ => none
  else none

/-- A write of `w` to `CMD`: accepted when the block is `IDLE`, else dropped (rules R22, R41). -/
def writeCmd (w : Word) (s : State) : State :=
  match s.seq with
  | some _ => s
  | none => s.accept w

/-- A host write (rules R21, R22, R23, R64, R65). -/
def hostStore (width off : Nat) (v : Word) (s : State) : State :=
  match hostReg width off with
  | some .cmd => writeCmd v s
  | some .status => s
  | some .a0 => { s with a0 := v }
  | some .a1 => { s with a1 := v }
  | some .a2 => { s with a2 := v }
  | some .r0 => s
  | some .r1 => s
  | none => s

/-- What a host read returns (rules R21, R22, R23, R64, R65). -/
def hostValue (width off : Nat) (s : State) : Word :=
  match hostReg width off with
  | some .cmd => 0
  | some .status => s.statusWord
  | some .a0 => s.a0
  | some .a1 => s.a1
  | some .a2 => s.a2
  | some .r0 => s.r0
  | some .r1 => s.r1
  | none => 0

/-- A host read: no register changes (rule R69). -/
def hostLoad (width off : Nat) (s : State) : State := { s with hostData := hostValue width off s }

/-- Another agent of the SoC writes a word of the page; outside the page there is nothing to write (rules R27, R62). -/
def socStore (word : Nat) (v : Word) (s : State) : State :=
  if word < s.dev.cfg.regWords then
    { s with dev := { s.dev with env := { s.dev.env with page := s.dev.env.page.writeWord word v } } }
  else s

/-- The free-running clock advances (rule R33). -/
def passTime (ns : Nat) (s : State) : State :=
  { s with dev := { s.dev with env := { s.dev.env with clk := s.dev.env.clk + ns } } }

end Sys2Proof.Machine
end

