-- ==== Sys2Proof/Machine/Sequencer.lean ====
section
/-! DEFINITION. The block's sequencer (rule R24): one tick runs one numbered line of the running operation's rule, or
one round of a line that is a loop (rule R106). `STEP` counts the lines of the rule from 0. The meanings of `exec` run a
whole operation in one step; here the same operation can be met by a host access or by the reset input between two of
its lines (rules R22, R41, R321). -/

namespace Sys2Proof.Machine

open Sys2Proof

/-! ## Moving through the lines -/

/-- The next line. -/
def Seq.next (q : Seq) : Seq := { q with step := q.step + 1 }

/-- `SEQ <- q`. -/
def State.goto (q : Seq) (s : State) : State := { s with seq := some q }

/-- A line that acts on the units and goes on to the next line. -/
def State.lineDo (q : Seq) (f : Dev → Dev) (s : State) : State := State.goto q.next { s with dev := f s.dev }

/-- A line that goes on to the next one when a condition holds and else returns. -/
def State.lineIf (q : Seq) (c : Bool) (s : State) : State := if c then s.goto q.next else s.finish .ok none none

/-- A line that returns. -/
def State.lineReturn (q : Seq) (r0 : Option Word) (s : State) : State := s.finish q.out r0 none

/-- The first line of a bus command: the bound-state check (rule R180). -/
def State.lineBound (q : Seq) (want : Bool) (s : State) : State :=
  if s.dev.bus.bound = want then s.goto q.next else s.refuse .busState

/-- An action on a valid pin's number and entry. -/
def onPin (p : Byte) (f : Fin 64 → PinEntry → Dev → Dev) (d : Dev) : Dev :=
  match validPin d.cfg p with
  | none => d
  | some (i, e) => f i e d

/-- `EXPORTED` of a pin operand, 0 where the pin is not valid. -/
def isExported (p : Byte) (d : Dev) : Bool :=
  match validPin d.cfg p with
  | none => false
  | some (i, _) => (d.gpio.pin i).exported

/-! ## GPIOController (40_gpio.md) -/

/-- The lines of rule R124. -/
def lineInitialize (q : Seq) (s : State) : State :=
  match q.step with
  | 0 => s.lineIf q (s.dev.gpio.backend == .none)
  | 1 =>
    let r := drawRegAccess s.dev
    if r.1 then State.finish .ok none none { s with dev := setBackend .register r.2 }
    else State.goto q.next { s with dev := r.2 }
  | 2 => s.lineDo q openGlobalExport
  | 3 => s.lineDo q openGlobalUnexport
  | 4 => s.lineDo q (setBackend .filesystem)
  | 5 => s.goto { q.next with out := globalOutcome s.dev }
  | _ => s.lineReturn q none

/-- One round of a loop over the 64 pins: the last round is followed by `last`. -/
def linePins (q : Seq) (last : Dev → Dev) (s : State) : State :=
  let d := gpioUnexportPin (BitVec.ofNat 8 q.pi) s.dev
  if q.pi < 63 then State.goto { q with pi := q.pi + 1 } { s with dev := d }
  else State.goto q.next { s with dev := last d }

/-- The lines of rule R125. -/
def lineFinalize (q : Seq) (s : State) : State :=
  match q.step with
  | 0 => s.lineIf q (s.dev.gpio.backend != .none)
  | 1 => if s.dev.gpio.backend = .filesystem then linePins q closeGlobals s else s.goto q.next
  | 2 => s.goto q.next
  | 3 => s.lineDo q giveUpBackend
  | _ => s.lineReturn q none

/-- The lines of rule R126; line 5 is one attempt, followed by the backoff when one more is left, and is left at once when
no attempt is due. -/
def lineExportPin (p : Byte) (q : Seq) (s : State) : State :=
  match q.step with
  | 0 => s.lineIf q (validPin s.dev.cfg p).isSome
  | 1 => s.lineIf q (s.dev.gpio.backend == .filesystem)
  | 2 => s.lineIf q (!isExported p s.dev)
  | 3 => s.goto q.next
  | 4 => s.lineDo q (onPin p fun _ e => writeExport e)
  | 5 =>
    match validPin s.dev.cfg p with
    | none => s.goto q.next
    | some (i, _) =>
      if s.dev.cfg.exportAttempts < q.att then s.goto q.next
      else
        let r := exportAttempt i s.dev
        if r.1 then State.finish .ok none none { s with dev := r.2 }
        else if q.att < s.dev.cfg.exportAttempts then
          State.goto { q with att := q.att + 1 } { s with dev := sleepNs s.dev.cfg.exportBackoffNs r.2 }
        else State.goto q.next { s with dev := r.2 }
  | 6 => s.lineDo q (onPin p fun _ e => writeUnexport e)
  | _ => s.finish .resourceUnavailable none none

/-- The lines of rule R129. -/
def lineUnexportPin (p : Byte) (q : Seq) (s : State) : State :=
  match q.step with
  | 0 => s.lineIf q (validPin s.dev.cfg p).isSome
  | 1 => s.lineIf q (s.dev.gpio.backend == .filesystem)
  | 2 => s.lineIf q (isExported p s.dev)
  | 3 => s.lineDo q (onPin p fun i _ => closePinFiles i)
  | 4 => s.lineDo q (onPin p fun _ e => writeUnexport e)
  | _ => State.lineReturn q none { s with dev := onPin p (fun i _ => clearExported i) s.dev }

/-- The lines of rule R130. -/
def lineUnexportAll (q : Seq) (s : State) : State :=
  match q.step with
  | 0 => linePins q id s
  | _ => s.lineReturn q none

/-- The lines of rules R132, R134 and R136: the usable test, the register body, the filesystem body, the return. -/
def linePinWrite (p : Byte) (reg : PinEntry → Dev → Dev) (file : Fin 64 → Dev → Dev) (q : Seq) (s : State) : State :=
  match q.step with
  | 0 => s.lineIf q (usablePin s.dev p).isSome
  | 1 => if s.dev.gpio.backend = .register then s.lineDo q (onPin p fun _ e => reg e) else s.goto q.next
  | 2 => if s.dev.gpio.backend = .filesystem then s.lineDo q (onPin p fun i _ => file i) else s.goto q.next
  | _ => s.lineReturn q none

/-- The lines of rule R138; each body returns. -/
def lineGetValue (p : Byte) (q : Seq) (s : State) : State :=
  match q.step with
  | 0 => if (usablePin s.dev p).isSome then s.goto q.next else s.lineReturn q (some Level.unreadable.word)
  | 1 =>
    if s.dev.gpio.backend = .register then
      let r := gpioGetValue p s.dev
      State.lineReturn q (some r.1.word) { s with dev := r.2 }
    else s.goto q.next
  | _ =>
    let r := gpioGetValue p s.dev
    State.lineReturn q (some r.1.word) { s with dev := r.2 }

/-! ## BusyWaitClock (41_clock.md) -/

/-- The lines of rule R164. With `F = 0` line 1 makes no action of its own: the read of `t0` and the loop that measures
from it are one tick, line 2, so that no other agent's move stretches the wait past the bound of rule R169 (assumption
log, entry 16). -/
def lineDelay (f : Bool) (q : Seq) (s : State) : State :=
  match q.step with
  | 0 => s.goto q.next
  | 1 => s.goto q.next
  | 2 => s.lineDo q (clockDelay f q.l0 q.l1 q.l2)
  | _ => s.lineReturn q none

/-- The lines of rule R165. -/
def lineClockRead (q : Seq) (s : State) : State :=
  match q.step with
  | 0 =>
    let r := now s.dev
    State.goto { q.next with t0 := r.1 } { s with dev := r.2 }
  | _ => s.finish .ok (some (secWord s.dev.cfg q.t0)) (some (nsecWord q.t0))

/-! ## OneWireBus (42_onewire.md) -/

/-- A line that exports a pin and records the outcome (rules R120, R291). -/
def lineExport (p : Byte) (q : Seq) (s : State) : State :=
  let r := gpioExportPin p s.dev
  State.goto { q.next with out := worse q.out r.1 } { s with dev := r.2 }

/-- The lines of rules R184 and R185. -/
def lineOpenSimple (c : BusCfg) (p : Byte) (slots : Vector Word 10) (q : Seq) (s : State) : State :=
  match q.step with
  | 0 => s.lineBound q false
  | 1 => s.lineDo q (bindBus c p 0xFF s.dev.bus.slots)
  | 2 => s.lineDo q (bindBus c p 0xFF slots)
  | 3 => lineExport p q s
  | 4 => s.lineDo q owPullUp
  | _ => State.lineReturn q none { s with dev := setBound true s.dev }

/-- The lines of rule R187; line 3 exports both pins. -/
def lineOpenBuffered (p o : Byte) (q : Seq) (s : State) : State :=
  match q.step with
  | 0 => s.lineBound q false
  | 1 => s.lineDo q (bindBus .buffered p o s.dev.bus.slots)
  | 2 => s.lineDo q (bindBus .buffered p o (slotsOf s.dev.cfg.tunableNs))
  | 3 =>
    let r1 := gpioExportPin p s.dev
    let r2 := gpioExportPin o r1.2
    State.goto { q.next with out := worse r1.1 r2.1 } { s with dev := r2.2 }
  | 4 => s.lineDo q (gpioSetMode p .input)
  | 5 => s.lineDo q (gpioSetMode o .output)
  | 6 => s.lineDo q owPullUp
  | _ => State.lineReturn q none { s with dev := setBound true s.dev }

/-- The lines of rule R188. -/
def lineBusClose (q : Seq) (s : State) : State :=
  match q.step with
  | 0 => s.lineBound q true
  | 1 => s.lineDo q (gpioUnexportPin s.dev.bus.pinIo)
  | 2 => s.lineDo q unexportOut
  | _ => State.lineReturn q none { s with dev := unbind s.dev }

/-- The lines of rule R189. -/
def lineSetSlot (n : BitVec 4) (q : Seq) (s : State) : State :=
  match q.step with
  | 0 => s.lineBound q true
  | _ => State.lineReturn q none { s with dev := setSlotTo (slotIndex n) q.l0 s.dev }

/-- The lines of rule R190. -/
def lineGetSlot (n : BitVec 4) (q : Seq) (s : State) : State :=
  match q.step with
  | 0 => s.lineBound q true
  | _ => s.lineReturn q (some (s.dev.bus.slot (slotIndex n)))

/-- The lines of rules R191 and R192. -/
def lineLine (f : Dev → Dev) (q : Seq) (s : State) : State :=
  match q.step with
  | 0 => s.lineBound q true
  | _ => State.lineReturn q none { s with dev := f s.dev }

/-- A line that samples the line. -/
def lineSample (q : Seq) (s : State) : State :=
  let r := owSample s.dev
  State.goto { q.next with sample := r.1 } { s with dev := r.2 }

/-- The lines of rule R193. -/
def lineReset (q : Seq) (s : State) : State :=
  match q.step with
  | 0 => s.lineBound q true
  | 1 => s.lineDo q owPullUp
  | 2 => s.lineDo q (waitSlot slotG)
  | 3 => s.lineDo q owPullDown
  | 4 => s.lineDo q (waitSlot slotH)
  | 5 => s.lineDo q owPullUp
  | 6 => s.lineDo q (waitSlot slotI)
  | 7 => lineSample q s
  | 8 =>
    if q.sample.isLow then State.lineReturn q (some (boolWord true)) { s with dev := waitSlot slotJ s.dev }
    else s.goto q.next
  | _ => s.finish .noPresence (some (boolWord false)) none

/-- The lines of rule R194. -/
def lineWriteBit (b : Bool) (q : Seq) (s : State) : State :=
  match q.step with
  | 0 => s.lineBound q true
  | 1 => s.lineDo q owPullDown
  | 2 => if b then s.lineDo q (slotTail true) else s.goto q.next
  | 3 => if b then s.goto q.next else s.lineDo q (slotTail false)
  | _ => s.lineReturn q none

/-- The lines of rule R195; line 1 is one write slot a round. -/
def lineWriteByte (v : Byte) (q : Seq) (s : State) : State :=
  match q.step with
  | 0 => s.lineBound q true
  | 1 =>
    let d := writeSlot (v.getLsbD q.k) s.dev
    if q.k < 7 then State.goto { q with k := q.k + 1 } { s with dev := d } else State.goto q.next { s with dev := d }
  | 2 => s.lineDo q (waitNs s.dev.cfg.settleNs)
  | _ => s.lineReturn q none

/-- The lines of rule R196. -/
def lineReadBit (q : Seq) (s : State) : State :=
  match q.step with
  | 0 => s.lineBound q true
  | 1 => s.lineDo q owPullDown
  | 2 => s.lineDo q (waitSlot slotA)
  | 3 => s.lineDo q owPullUp
  | 4 => s.lineDo q (waitSlot slotE)
  | 5 => lineSample q s
  | 6 => s.lineDo q (waitSlot slotF)
  | _ => s.lineReturn q (some (boolWord q.sample.bit))

/-- The lines of rule R197; line 2 is one read slot a round. -/
def lineReadByte (q : Seq) (s : State) : State :=
  match q.step with
  | 0 => s.lineBound q true
  | 1 => s.goto { q.next with acc := 0 }
  | 2 =>
    let r := readSlotInto q.k (q.acc, s.dev)
    if q.k < 7 then State.goto { q with k := q.k + 1, acc := r.1 } { s with dev := r.2 }
    else State.goto { q.next with acc := r.1 } { s with dev := r.2 }
  | _ => s.lineReturn q (some (byteWord q.acc))

/-! ## CRC unit (43_crc8.md) -/

/-- The line of rule R233. -/
def lineCrcReset (q : Seq) (s : State) : State := State.lineReturn q none { s with dev := setCrc 0 s.dev }

/-- The lines of rule R234. -/
def lineCrcUpdate (v : Byte) (q : Seq) (s : State) : State :=
  match q.step with
  | 0 => s.lineDo q (fun d => setCrc (crcStep d.crc v) d)
  | _ => s.lineReturn q (some (byteWord s.dev.crc))

/-- The lines of rule R235. -/
def lineCrcValid (q : Seq) (s : State) : State :=
  match q.step with
  | 0 => if s.dev.crc = 0 then s.lineReturn q (some (boolWord true)) else s.goto q.next
  | _ => s.finish .integrityFailure (some (boolWord false)) none

/-! ## The tick -/

/-- The next line of a command. -/
def line (i : Instr) (q : Seq) (s : State) : State :=
  match i with
  | .initGpio => lineInitialize q s
  | .finalize => lineFinalize q s
  | .exportPin p => lineExportPin p q s
  | .unexportPin p => lineUnexportPin p q s
  | .unexportAll => lineUnexportAll q s
  | .setMode p m => linePinWrite p (fun e => setModeRegister e m) (fun i => setModeFile i m) q s
  | .setPullDisable p => linePinWrite p (fun e => setPullRegister e .disable) (fun i => setPullFile i .disable) q s
  | .setPullUp p => linePinWrite p (fun e => setPullRegister e .up) (fun i => setPullFile i .up) q s
  | .setPullDown p => linePinWrite p (fun e => setPullRegister e .down) (fun i => setPullFile i .down) q s
  | .setValue p b => linePinWrite p (fun e => setValueRegister e b) (fun i => setValueFile i b) q s
  | .getValue p => lineGetValue p q s
  | .delay f => lineDelay f q s
  | .clockRead => lineClockRead q s
  | .busOpenLegacy p => lineOpenSimple .legacy p (slotsOf s.dev.cfg.legacyNs) q s
  | .busOpenTunable p => lineOpenSimple .tunable p (slotsOf s.dev.cfg.tunableNs) q s
  | .busOpenBuffered p o => lineOpenBuffered p o q s
  | .busClose => lineBusClose q s
  | .setSlot n => lineSetSlot n q s
  | .getSlot n => lineGetSlot n q s
  | .pullUp => lineLine owPullUp q s
  | .pullDown => lineLine owPullDown q s
  | .reset => lineReset q s
  | .writeBit b => lineWriteBit b q s
  | .writeByte v => lineWriteByte v q s
  | .readBit => lineReadBit q s
  | .readByte => lineReadByte q s
  | .crcReset => lineCrcReset q s
  | .crcUpdate v => lineCrcUpdate v q s
  | .crcValid => lineCrcValid q s

/-- One tick of the sequencer: nothing in `IDLE`, else the next line of the latched command; a word that decodes to no
command ends at once (rules R24, R105, R294). -/
def tick (s : State) : State :=
  match s.seq with
  | none => s
  | some q =>
    match decode q.cmd with
    | .error _ => s.refuse .illegalCommand
    | .ok i => line i q s

/-- A number of ticks. -/
def ticks : Nat → State → State
  | 0, s => s
  | n + 1, s => ticks n (tick s)

end Sys2Proof.Machine
end

