-- ==== Sys2Proof/Machine/Step.lean ====
section
/-! DEFINITION. One step of the machine: the next move of the agenda, or, when the agenda is empty, the sequencer's own
(rules R20, R24). A step never faults and never refuses: a refused command is a next state (rule R105). -/

namespace Sys2Proof.Machine

open Sys2Proof

/-- The host issues the command word `w` and waits for its end. While `BUSY = 1` the write is dropped (rules R22,
R331); else the command is accepted (rule R41) and runs whole, and a word that decodes to no command is refused (rule
R105). -/
def issue (w : Word) (s : State) : Host.Outcome State Fault Refusal :=
  match s.seq with
  | some _ => .next s
  | none =>
    match decode w with
    | .error _ => .next ((s.accept w).refuse .illegalCommand)
    | .ok i => exec i (s.accept w)

/-- One move of an agent. -/
def turn (t : Turn) (s : State) : Host.Outcome State Fault Refusal :=
  match t with
  | .command w => issue w s
  | .hostWrite width off v => .next (hostStore width off v s)
  | .hostRead width off => .next (hostLoad width off s)
  | .sequencer => .next (tick s)
  | .hardReset => .next s.hardReset
  | .hardResetDuring n => .next (State.hardResetAfter n (tick s) s)
  | .socWrite word v => .next (socStore word v s)
  | .time ns => .next (passTime ns s)

/-- One step: the next move of the agenda; with no move queued the sequencer goes on with a running operation, and an
idle block waits (rules R24, R322). -/
def step (s : State) : Host.Outcome State Fault Refusal :=
  match s.agenda with
  | [] => .next (tick s)
  | t :: rest => turn t { s with agenda := rest }

/-- The state whose next step runs the command word `w` of `nbits` bits, the bits above them zero: the block is `IDLE`
and the host's next move is to issue that word. -/
def State.withFetchWord (s : State) (nbits w : Nat) : State :=
  { s with seq := none, agenda := .command (BitVec.ofNat 32 (w % 2 ^ nbits)) :: s.agenda }

end Sys2Proof.Machine
end

