-- ==== Sys2Proof/Safety.lean ====
section
/-! DEFINITION. The terms claims are stated in: what the rules say of the commands as syntax (rules R96, R180), the views
of the pins and of the line (rules R31, R38), the history of a command (rule R13), what a command leaves alone, and what
holds of every state and of every idle state. -/

namespace Sys2Proof

/-! ## Register use (rule R96) -/

/-- The commands whose end writes `R0` where they are not refused. -/
def Instr.writesR0 : Instr → Bool
  | .getValue _ => true
  | .clockRead => true
  | .getSlot _ => true
  | .reset => true
  | .readBit => true
  | .readByte => true
  | .crcUpdate _ => true
  | .crcValid => true
  | .initGpio => false
  | .finalize => false
  | .exportPin _ => false
  | .unexportPin _ => false
  | .unexportAll => false
  | .setMode _ _ => false
  | .setPullDisable _ => false
  | .setPullUp _ => false
  | .setPullDown _ => false
  | .setValue _ _ => false
  | .delay _ => false
  | .busOpenLegacy _ => false
  | .busOpenTunable _ => false
  | .busOpenBuffered _ _ => false
  | .busClose => false
  | .setSlot _ => false
  | .pullUp => false
  | .pullDown => false
  | .writeBit _ => false
  | .writeByte _ => false
  | .crcReset => false

/-- The bound state a bus command needs: `none` for the commands of the other units (rule R180). -/
def Instr.wantsBound : Instr → Option Bool
  | .initGpio => none
  | .finalize => none
  | .exportPin _ => none
  | .unexportPin _ => none
  | .unexportAll => none
  | .setMode _ _ => none
  | .setPullDisable _ => none
  | .setPullUp _ => none
  | .setPullDown _ => none
  | .setValue _ _ => none
  | .getValue _ => none
  | .delay _ => none
  | .clockRead => none
  | .busOpenLegacy _ => some false
  | .busOpenTunable _ => some false
  | .busOpenBuffered _ _ => some false
  | .busClose => some true
  | .setSlot _ => some true
  | .getSlot _ => some true
  | .pullUp => some true
  | .pullDown => some true
  | .reset => some true
  | .writeBit _ => some true
  | .writeByte _ => some true
  | .readBit => some true
  | .readByte => some true
  | .crcReset => none
  | .crcUpdate _ => none
  | .crcValid => none

/-! ## When the line follows the pin -/

/-- The bits `setMode` and `setValue` write are three different ones, and none of them is an `in` bit. -/
def PinEntry.apart (c : Config) (e : PinEntry) : Bool :=
  e.mux != e.fsel && e.mux != e.out && e.fsel != e.out &&
  !(c.inMask (e.mux / 32)).getLsbD (e.mux % 32) && !(c.inMask (e.fsel / 32)).getLsbD (e.fsel % 32) &&
  !(c.inMask (e.out / 32)).getLsbD (e.out % 32)

/-- The words `setMode` and `setValue` read hold no `in` bits, so that they take no draw. -/
def PinEntry.quiet (c : Config) (e : PinEntry) : Bool :=
  c.inMask (e.mux / 32) == 0 && c.inMask (e.fsel / 32) == 0 && c.inMask (e.out / 32) == 0

end Sys2Proof

namespace Sys2Proof.Machine

open Sys2Proof

/-! ## Views of the pins and of the line -/

/-- The stored bit of the page at a bit offset (rule R61). -/
def Dev.pageBit (d : Dev) (off : Nat) : Bool := (d.env.page.readWord (off / 32)).getLsbD (off % 32)

/-- The direction a valid pin is configured to (rules R31, R132): a bit of the page, or what the agent behind the
control files holds. It outlasts the backend it was written through (rule R125; assumption log, entry 23). -/
def Dev.pinMode (d : Dev) (p : Byte) : Option PinMode :=
  match validPin d.cfg p with
  | none => none
  | some (i, e) =>
    match d.gpio.medium with
    | .none => none
    | .register => some (if d.pageBit e.fsel = d.cfg.fselOutputLevel then .output else .input)
    | .filesystem => some (d.env.setting i).mode

/-- The output level a valid pin is configured to (rules R31, R136). -/
def Dev.pinLevel (d : Dev) (p : Byte) : Option Bool :=
  match validPin d.cfg p with
  | none => none
  | some (i, e) =>
    match d.gpio.medium with
    | .none => none
    | .register => some (d.pageBit e.out == d.cfg.outHighLevel)
    | .filesystem => some (d.env.setting i).level

/-- The master has released the line (rule R38). -/
def Dev.released (d : Dev) : Bool :=
  match d.bus.cfg with
  | .legacy => d.pinMode d.bus.pinIo == some .input
  | .tunable => d.pinMode d.bus.pinIo == some .input
  | .buffered => d.pinLevel d.bus.pinOut == some (!d.cfg.bufAssertLevel)

/-- The master asserts the line (rule R38). -/
def Dev.asserted (d : Dev) : Bool :=
  match d.bus.cfg with
  | .legacy => d.pinMode d.bus.pinIo == some .output && d.pinLevel d.bus.pinIo == some false
  | .tunable => d.pinMode d.bus.pinIo == some .output && d.pinLevel d.bus.pinIo == some false
  | .buffered => d.pinLevel d.bus.pinOut == some d.cfg.bufAssertLevel

/-- The pin through which the master drives the line (rules R181, R182). -/
def Bus.drivePin (b : Bus) : Byte :=
  match b.cfg with
  | .legacy => b.pinIo
  | .tunable => b.pinIo
  | .buffered => b.pinOut

/-! ## The history of a command -/

/-- A clock read: the reads inside a wait are as many as the environment makes them (rule R169). -/
def Action.isClockRead : Action → Bool
  | .clockRead _ => true
  | .pageRead _ _ => false
  | .pageWrite _ _ => false
  | .fileOpen _ _ => false
  | .fileWrite _ _ => false
  | .fileSeek _ => false
  | .fileRead _ _ => false
  | .fileClose _ => false
  | .wait _ => false
  | .sleep _ _ => false
  | .status _ => false
  | .result _ _ _ => false

/-- A write of the block's own registers: what brackets every command, and no action on anything outside (rule R41). -/
def Action.isOwn : Action → Bool
  | .status _ => true
  | .result _ _ _ => true
  | .clockRead _ => false
  | .pageRead _ _ => false
  | .pageWrite _ _ => false
  | .fileOpen _ _ => false
  | .fileWrite _ _ => false
  | .fileSeek _ => false
  | .fileRead _ _ => false
  | .fileClose _ => false
  | .wait _ => false
  | .sleep _ _ => false

/-- The actions on the outside between two states of the block, clock reads left out: the traces of
95_test_vectors.md. -/
def Dev.traceSince (old new : Dev) : List Action :=
  (old.actionsSince new).filter fun a => !a.isClockRead && !a.isOwn

/-- The clock time an action shows (rules R34, R161, R168). -/
def Action.shows : Action → Option Nat
  | .clockRead t => some t
  | .sleep _ t => some t
  | _ => none

/-- The duration of a busy wait, after the clamp (rules R163, R166). -/
def Action.waited : Action → Option Nat
  | .wait n => some n
  | _ => none

/-- An access to the register page: whether it is a write, and the word (rule R62). -/
def Action.pageAccess : Action → Option (Bool × Nat)
  | .pageRead w _ => some (false, w)
  | .pageWrite w _ => some (true, w)
  | _ => none

/-- An action on a control file (rule R66). -/
def Action.isFile : Action → Bool
  | .fileOpen _ _ => true
  | .fileWrite _ _ => true
  | .fileSeek _ => true
  | .fileRead _ _ => true
  | .fileClose _ => true
  | _ => false

/-- The string an action hands to `unexport` (rule R68). -/
def Action.unexports : Action → Option String
  | .fileWrite .unexportFile x => some x
  | _ => none

/-- The string an action hands to `export` (rule R68). -/
def Action.exports : Action → Option String
  | .fileWrite .exportFile x => some x
  | _ => none

/-- The line `export` receives when the pin that an operand names needs an export: the pin is valid and not exported
(rule R126). -/
def Dev.exportLine (d : Dev) (p : Byte) : List String :=
  match validPin d.cfg p with
  | none => []
  | some (i, e) => if (d.gpio.pin i).exported then [] else [decLine e.hw]

/-- The busy waits of a list of actions, each with its duration and the times that its clock reads show, in order; `ts`
holds the times shown since the last action that is no clock read. -/
def waitReads (ts : List Nat) : List Action → List (Nat × List Nat)
  | [] => []
  | .clockRead t :: rest => waitReads (ts ++ [t]) rest
  | .wait n :: rest => (n, ts) :: waitReads [] rest
  | _ :: rest => waitReads [] rest

/-- The string an action writes to a file of a pin, with the pin and the file (rules R67, R68). -/
def Action.pinWrite : Action → Option (Fin 64 × PinFile × String)
  | .fileWrite (.pinFile i k) x => some (i, k, x)
  | _ => none

/-- An action without the clock time at which it ends: how much longer than asked a sleep lasts is free (rule R168). -/
def Action.untimed : Action → Action
  | .sleep n _ => .sleep n 0
  | a => a

/-- An action without the value it read or wrote on the page, or read from a file: what is done, where, and in which
order. -/
def Action.outline : Action → Action
  | .pageRead w _ => .pageRead w 0
  | .pageWrite w _ => .pageWrite w 0
  | .fileRead f _ => .fileRead f .other
  | a => a

/-- The outline of a bit write: a read and a write of its word (rule R63). -/
def bitWriteOutline (off : Nat) : List Action := [.pageRead (off / 32) 0, .pageWrite (off / 32) 0]

/-- Actions on the file of a handle: none where there is no handle (rule R66). -/
def Handle.acts (h : Handle) (l : List Action) : List Action :=
  match h with
  | .invalid => []
  | .opened => l

/-- The outline of an operation on a pin: nothing where the pin is not usable, else what it does under the backend in
use (rules R120, R122). -/
def Dev.pinOutline (d : Dev) (p : Byte) (reg : PinEntry → List Action) (files : Fin 64 → List Action) : List Action :=
  match usablePin d p with
  | none => []
  | some (i, e) =>
    match d.gpio.backend with
    | .none => []
    | .register => reg e
    | .filesystem => files i

/-- The outline of a release of the line (rule R181). -/
def Dev.releaseOutline (d : Dev) : List Action :=
  if d.bus.cfg = .buffered then
    d.pinOutline d.bus.pinOut (fun e => bitWriteOutline e.out)
      (fun i => (d.gpio.pin i).hValue.acts [.fileWrite (.pinFile i .value) (if d.cfg.bufAssertLevel then "0" else "1")])
  else
    d.pinOutline d.bus.pinIo (fun e => bitWriteOutline e.mux ++ bitWriteOutline e.fsel)
      (fun i => (d.gpio.pin i).hDir.acts [.fileWrite (.pinFile i .direction) "in"])

/-- The outline of an assert of the line (rule R182): in simple mode the direction, then the level. -/
def Dev.assertOutline (d : Dev) : List Action :=
  if d.bus.cfg = .buffered then
    d.pinOutline d.bus.pinOut (fun e => bitWriteOutline e.out)
      (fun i => (d.gpio.pin i).hValue.acts [.fileWrite (.pinFile i .value) (if d.cfg.bufAssertLevel then "1" else "0")])
  else
    d.pinOutline d.bus.pinIo (fun e => bitWriteOutline e.mux ++ bitWriteOutline e.fsel ++ bitWriteOutline e.out)
      (fun i => (d.gpio.pin i).hDir.acts [.fileWrite (.pinFile i .direction) "out"] ++
        (d.gpio.pin i).hValue.acts [.fileWrite (.pinFile i .value) "0"])

/-- The outline of a sample of the line (rules R138, R183): the read of the `in` word of `PIN_IO`, or the seek and the
read of its `value` file. -/
def Dev.sampleOutline (d : Dev) : List Action :=
  d.pinOutline d.bus.pinIo (fun e => [.pageRead (e.inp / 32) 0])
    (fun i => (d.gpio.pin i).hValue.acts [.fileSeek (.pinFile i .value), .fileRead (.pinFile i .value) .other])

/-- The actions by which the pin that an operand names is given back, where it is exported with its files open: the three
closes, then its line to `unexport` (rule R129). -/
def Dev.giveBack (d : Dev) (p : Byte) : List Action :=
  match validPin d.cfg p with
  | none => []
  | some (i, e) =>
    if (d.gpio.pin i).exported then
      [.fileClose (.pinFile i .direction), .fileClose (.pinFile i .pull), .fileClose (.pinFile i .value)] ++
      (if d.gpio.hUnexport = .opened then [.fileWrite .unexportFile (decLine e.hw)] else [])
    else []

/-- The actions by which every exported pin is given back, in ascending order (rule R130). -/
def Dev.giveBackAll (d : Dev) : List Action := (List.range 64).flatMap fun n => d.giveBack (BitVec.ofNat 8 n)

/-- The busy waits between two states of the block, in order. -/
def Dev.waitsSince (old new : Dev) : List Nat := (old.actionsSince new).filterMap Action.waited

/-- The master's line trace: for each busy wait of a list of actions, whether the master asserts the line during it,
whether it has released it, and the duration (rules R38, R199). The actions are replayed from the state before them. -/
def Dev.segments (d : Dev) : List Action → List (Bool × Bool × Nat)
  | [] => []
  | a :: rest =>
    match a.waited with
    | some n => (d.asserted, d.released, n) :: Dev.segments (perform a d) rest
    | none => Dev.segments (perform a d) rest

/-- Everything the environment holds but the queued draws and the history. -/
def Env.sameWorld (a b : Env) : Prop :=
  a.page = b.page ∧ a.settings = b.settings ∧ a.valuePos = b.valuePos ∧ a.clk = b.clk

/-! ## What a command leaves alone -/

/-- Nothing of a pin changed outside the block: every byte of the page, and the settings and read positions behind the
control files. -/
structure Env.SamePins (a b : Env) : Prop where
  page      : ∀ x, Memory.read b.page x = Memory.read a.page x
  settings  : b.settings = a.settings
  positions : b.valuePos = a.valuePos

/-- The units hold what they held. -/
structure Dev.SameUnits (a b : Dev) : Prop where
  gpio : b.gpio = a.gpio
  bus  : b.bus = a.bus
  crc  : b.crc = a.crc

/-- How a command ends: the outcome and the result registers as given, the sequencer `IDLE`, the operand registers, the
parameters and the model's own fields as they were, the clock not earlier, the history longer (rules R34, R41, R45). -/
structure State.EndsAs (s t : State) (e : ErrCode) (r0 r1 : Word) : Prop where
  idle     : t.seq = none
  err      : t.err = e
  r0       : t.r0 = r0
  r1       : t.r1 = r1
  a0       : t.a0 = s.a0
  a1       : t.a1 = s.a1
  a2       : t.a2 = s.a2
  agenda   : t.agenda = s.agenda
  hostData : t.hostData = s.hostData
  cfg      : t.dev.cfg = s.dev.cfg
  clk      : s.dev.env.clk ≤ t.dev.env.clk
  log      : s.dev.env.log <+: t.dev.env.log

/-- A command with no effect but its end: no external action, no change of a unit, of a pin or of the queued draws (rules
R105, R122), and none of the clock, since time passes where it is read (assumption log, entry 14). -/
structure State.NoEffect (s t : State) (e : ErrCode) (r0 r1 : Word) : Prop where
  ends  : s.EndsAs t e r0 r1
  units : s.dev.SameUnits t.dev
  pins  : s.dev.env.SamePins t.dev.env
  clk   : t.dev.env.clk = s.dev.env.clk
  draws : t.dev.env.draws = s.dev.env.draws
  own   : ∀ a ∈ s.dev.actionsSince t.dev, a.isOwn = true

/-- One bit after a list of bit writes, the first one first. -/
def bitAfter : List (Nat × Bool) → Nat → Bool → Bool
  | [], _, b => b
  | (off, v) :: rest, x, b => bitAfter rest x (if off = x then v else b)

/-- The only effect outside the block is a list of bit writes to the page, each a read and then a write of the word of
the bit (rule R63). Bits that are no `in` bits take the written values and no others (DEDUCED where their word holds `in`
bits too: assumption log, entry 7); every byte outside the words of the list reads as before. -/
structure State.StoresBits (ws : List (Nat × Bool)) (s t : State) : Prop where
  bits      : ∀ x, (s.dev.cfg.inMask (x / 32)).getLsbD (x % 32) = false →
                t.dev.pageBit x = bitAfter ws x (s.dev.pageBit x)
  bytes     : ∀ a, (∀ w ∈ ws, a / 4 ≠ w.1 / 32) → Memory.read t.dev.env.page a = Memory.read s.dev.env.page a
  accesses  : (s.dev.traceSince t.dev).map Action.pageAccess =
                ws.flatMap fun w => [some (false, w.1 / 32), some (true, w.1 / 32)]
  settings  : t.dev.env.settings = s.dev.env.settings
  positions : t.dev.env.valuePos = s.dev.env.valuePos

/-- The only effect outside the block is one string written to a file of pin `i` (rule R66), after which the agent behind
the files holds the settings `x` for that pin (rule R31; DEDUCED, assumption log, entry 12); the read positions stay (the
model's choice for the `value` file, entry 26). -/
structure State.WritesFile (i : Fin 64) (k : PinFile) (text : String) (x : PinSettings) (s t : State) : Prop where
  trace     : s.dev.traceSince t.dev = [.fileWrite (.pinFile i k) text]
  setting   : t.dev.env.setting i = x
  settings  : ∀ j, j ≠ i → t.dev.env.setting j = s.dev.env.setting j
  positions : t.dev.env.valuePos = s.dev.env.valuePos
  page      : ∀ a, Memory.read t.dev.env.page a = Memory.read s.dev.env.page a

/-! ## What holds of every state -/

/-- The outcome codes the block writes (rule R290): the two host codes are not among them. -/
def ErrCode.written : ErrCode → Bool
  | .busContention => false
  | .unsupportedDevice => false
  | .ok => true
  | .resourceUnavailable => true
  | .noPresence => true
  | .integrityFailure => true
  | .illegalCommand => true
  | .busState => true

/-- The counters of the sequencer stay in their ranges (rule R24); `ATT` starts at 1 and goes up to `EXPORT_ATTEMPTS`. -/
def Seq.inRange (c : Config) (q : Seq) : Bool :=
  decide (q.k ≤ 7) && decide (1 ≤ q.att ∧ q.att ≤ max 1 c.exportAttempts) && decide (q.pi ≤ 63) && q.out.written

/-- A pin's three handles are open or closed together, and open only while the pin is exported: rule R30 as it holds at
every moment, also while `unexportPin` is between its steps 4 and 6. -/
def PinFiles.coherent (x : PinFiles) : Bool :=
  x.hDir == x.hPull && x.hPull == x.hValue && (x.hValue == .invalid || x.exported)

/-- What holds of every state, at every moment. -/
structure State.Inv (s : State) : Prop where
  page    : s.dev.env.page.wf = true
  pins    : ∀ i : Fin 64, (s.dev.gpio.pin i).coherent = true
  board   : ∀ i : Fin 64, (s.dev.gpio.pin i).exported = true → (s.dev.cfg.entry i.val).isSome = true
  err     : s.err.written = true
  seq     : ∀ q, s.seq = some q → q.inRange s.dev.cfg = true
  /-- Once `unexportPin` has closed the handles of its pin they are closed (rule R129). -/
  handles : ∀ q p i, s.seq = some q → decode q.cmd = .ok (.unexportPin p) → 4 ≤ q.step → pinIndex p = some i →
    (s.dev.gpio.pin i).hDir = .invalid ∧ (s.dev.gpio.pin i).hPull = .invalid ∧ (s.dev.gpio.pin i).hValue = .invalid

/-! ## What holds of every idle state -/

/-- The files of an exported pin (rule R30). -/
def PinFiles.full : PinFiles := { exported := true, hDir := .opened, hPull := .opened, hValue := .opened }

/-- Rule R30: the three handles are open exactly when the pin is exported. -/
def PinFiles.settled (x : PinFiles) : Bool :=
  x == { } || x == PinFiles.full

/-- What holds whenever no operation runs: the handles and the export state agree (rules R29, R30), and an unbound bus
context is empty (rules R35, R49, R188). -/
structure Dev.Settled (d : Dev) : Prop where
  pins    : ∀ i : Fin 64, (d.gpio.pin i).settled = true
  board   : ∀ i : Fin 64, (d.gpio.pin i).exported = true → (d.cfg.entry i.val).isSome = true
  handles : d.gpio.backend ≠ .filesystem → d.gpio.hExport = .invalid ∧ d.gpio.hUnexport = .invalid
  exports : d.gpio.backend ≠ .filesystem → ∀ i : Fin 64, (d.gpio.pin i).exported = false
  unbound : d.bus.bound = false → d.bus.cfg = .legacy ∧ d.bus.pinIo = 0xFF ∧ d.bus.pinOut = 0xFF

/-! ## The pins of the line -/

/-- The pin can be driven, and its settings are what was last written to them: it is usable, and its bits of the page
are its own, or its files are open. -/
def Dev.Drivable (d : Dev) (p : Byte) : Prop :=
  ∃ i e, usablePin d p = some (i, e) ∧
    (d.gpio.backend = .register → d.env.page.wf = true ∧ e.apart d.cfg = true) ∧
    (d.gpio.backend = .filesystem → (d.gpio.pin i).settled = true)

/-- The pin operations of the drive pin take no draw. -/
def Dev.QuietDrive (d : Dev) : Prop := ∀ i e, usablePin d d.bus.drivePin = some (i, e) → e.quiet d.cfg = true

/-- What the line sample number `k` from here on gives: the level the environment has queued for it, or unreadable where
no sample can be taken (rules R138, R183); `none` where the environment has queued nothing. -/
def Dev.sampleAt (d : Dev) (k : Nat) : Option Level :=
  match usablePin d d.bus.pinIo with
  | none => some .unreadable
  | some (i, e) =>
    match d.gpio.backend with
    | .none => some .unreadable
    | .register => (d.env.draws.ins[k]?).map fun w => levelOfBit (w.getLsbD (e.inp % 32))
    | .filesystem =>
      match (d.gpio.pin i).hValue with
      | .invalid => some .unreadable
      | .opened => (d.env.draws.chars[k]?).map levelOfChar

/-- The lines `unexport` receives when every exported pin is given back, in ascending order (rules R68, R130). -/
def Dev.exportedLines (d : Dev) : List String :=
  (List.finRange 64).filterMap fun i =>
    if (d.gpio.pin i).exported then (d.cfg.entry i.val).map fun e => decLine e.hw else none

/-- The clamped duration a bus waits for a slot (rules R36, R166). -/
def Dev.slotWait (d : Dev) (i : Fin 10) : Nat := clampNs d.cfg (d.bus.slotNs i)

end Sys2Proof.Machine
end

