-- ==== Sys2Proof/Certificates/Slice0/Obligations.lean ====
section
/-! DEFINITION. The statements for the provers. Each says which rule of the spec it formalises. `clampNs` is the clamp of
rule R166 with the parameter `DELAY_MAX_NS`; `traceSince` and `waitsSince` read the history of external actions of rule
R13; `EndsAs`, `NoEffect`, `StoresBits` and `WritesFile` (Safety.lean) are the frames. -/

open Sys2Proof Sys2Proof.Machine

/-! ## Encoding -/

/-- Words of the encoding vectors (95_test_vectors.md section 3) decode as the vectors say. -/
def Obligations.VectorWordsDecode : Prop :=
  decode 0x10000000 = .ok .initGpio ∧ decode 0x12FF0000 = .ok (.exportPin 0xFF) ∧
  decode 0x15070001 = .ok (.setMode 7 .output) ∧ decode 0x16070002 = .ok (.setPullDown 7) ∧
  decode 0x18800000 = .ok (.getValue 0x80) ∧ decode 0x20000001 = .ok (.delay true) ∧
  decode 0x32040500 = .ok (.busOpenBuffered 4 5) ∧ decode 0x35000900 = .ok (.getSlot 9) ∧
  decode 0x3A0000CC = .ok (.writeByte 0xCC) ∧ decode 0x42000000 = .ok .crcValid ∧
  decode 0x34000A00 = .error .slotNumber ∧ decode 0x16070003 = .error .pullCode ∧
  decode 0x15070002 = .error .mustBeZero ∧ decode 0x3D000000 = .error .reservedOpcode

/-- The encodings of the operation rules (R124 to R235), each as the rule writes it. -/
def Obligations.EncodingsOfTheRules : Prop :=
  encode .initGpio = 0x10000000#32 ∧ encode .finalize = 0x11000000#32 ∧ encode .unexportAll = 0x14000000#32 ∧
  encode .clockRead = 0x21000000#32 ∧ encode .busClose = 0x33000000#32 ∧ encode .pullUp = 0x36000000#32 ∧
  encode .pullDown = 0x37000000#32 ∧ encode .reset = 0x38000000#32 ∧ encode .readBit = 0x3B000000#32 ∧
  encode .readByte = 0x3C000000#32 ∧ encode .crcReset = 0x40000000#32 ∧ encode .crcValid = 0x42000000#32 ∧
  (∀ p : Byte,
    encode (.exportPin p) = 0x12000000#32 ||| (p.setWidth 32 <<< 16) ∧
    encode (.unexportPin p) = 0x13000000#32 ||| (p.setWidth 32 <<< 16) ∧
    encode (.setMode p .input) = 0x15000000#32 ||| (p.setWidth 32 <<< 16) ∧
    encode (.setMode p .output) = 0x15000000#32 ||| (p.setWidth 32 <<< 16) ||| 1 ∧
    encode (.setPullDisable p) = 0x16000000#32 ||| (p.setWidth 32 <<< 16) ∧
    encode (.setPullUp p) = 0x16000000#32 ||| (p.setWidth 32 <<< 16) ||| 1 ∧
    encode (.setPullDown p) = 0x16000000#32 ||| (p.setWidth 32 <<< 16) ||| 2 ∧
    encode (.setValue p false) = 0x17000000#32 ||| (p.setWidth 32 <<< 16) ∧
    encode (.setValue p true) = 0x17000000#32 ||| (p.setWidth 32 <<< 16) ||| 1 ∧
    encode (.getValue p) = 0x18000000#32 ||| (p.setWidth 32 <<< 16) ∧
    encode (.busOpenLegacy p) = 0x30000000#32 ||| (p.setWidth 32 <<< 16) ∧
    encode (.busOpenTunable p) = 0x31000000#32 ||| (p.setWidth 32 <<< 16)) ∧
  (∀ p q : Byte,
    encode (.busOpenBuffered p q) = 0x32000000#32 ||| (p.setWidth 32 <<< 16) ||| (q.setWidth 32 <<< 8)) ∧
  encode (.delay false) = 0x20000000#32 ∧ encode (.delay true) = 0x20000001#32 ∧
  encode (.writeBit false) = 0x39000000#32 ∧ encode (.writeBit true) = 0x39000001#32 ∧
  (∀ n : BitVec 4,
    encode (.setSlot n) = 0x34000000#32 ||| (n.setWidth 32 <<< 8) ∧
    encode (.getSlot n) = 0x35000000#32 ||| (n.setWidth 32 <<< 8)) ∧
  (∀ v : Byte,
    encode (.writeByte v) = 0x3A000000#32 ||| v.setWidth 32 ∧ encode (.crcUpdate v) = 0x41000000#32 ||| v.setWidth 32)

/-- Decoding the word of a well-formed command gives the command back, for every command and every operand. -/
def Obligations.DecodeOfEncode : Prop := ∀ i : Instr, i.wf = true → decode (encode i) = .ok i

/-- A word that decodes is the word of the command it decodes to, and that command is well-formed: each word has one
meaning, and no bit of it is dropped. -/
def Obligations.EncodeOfDecode : Prop := ∀ (w : Word) (i : Instr), decode w = .ok i → encode i = w ∧ i.wf = true

/-- Rule R91: a word is the command of a row exactly when the mask, the match and the constraint of the row hold; no two
rows take the same word; a word that no row takes is no command. -/
def Obligations.DecoderIsTheTable : Prop :=
  (∀ r ∈ opTable, ∀ w : Word, r.covers w = true ↔ ∃ i, decode w = .ok i ∧ i.mnemonic = r.mnemonic) ∧
  (∀ r ∈ opTable, ∀ r' ∈ opTable, ∀ w : Word, r.covers w = true → r'.covers w = true → r = r') ∧
  (∀ w : Word, (∀ r ∈ opTable, r.covers w = false) → ∃ e, decode w = .error e) ∧
  (∀ (s : State) (w : Word), s.seq = none → (∀ r ∈ opTable, r.covers w = false) →
    issue w s = .next ((s.accept w).refuse .illegalCommand))

/-- Rule R102: the reserved values of `OPC` are those of no row, and a word with one of them is refused; the all-zero
word and the all-ones word are two of them. Of rule R103: pull codes from 3 and slot numbers from 10 are no command,
whatever the other fields hold; every value of a pin operand is one. -/
def Obligations.ReservedAndIllegalWords : Prop :=
  (∀ w : Word,
    ((opcField w).toNat ≤ 0x0F ∨ (0x19 ≤ (opcField w).toNat ∧ (opcField w).toNat ≤ 0x1F) ∨
      (0x22 ≤ (opcField w).toNat ∧ (opcField w).toNat ≤ 0x2F) ∨
      (0x3D ≤ (opcField w).toNat ∧ (opcField w).toNat ≤ 0x3F) ∨ 0x43 ≤ (opcField w).toNat) ↔
    ∀ r ∈ opTable, opcField r.value ≠ opcField w) ∧
  (∀ (s : State) (w : Word), s.seq = none → (∀ r ∈ opTable, opcField r.value ≠ opcField w) →
    decode w = .error .reservedOpcode ∧ issue w s = .next ((s.accept w).refuse .illegalCommand)) ∧
  (∀ r ∈ opTable, opcField r.value ≠ opcField 0) ∧ (∀ r ∈ opTable, opcField r.value ≠ opcField 0xFFFFFFFF) ∧
  (∀ p q v : Byte, 3 ≤ v.toNat → ∃ e, decode (formatC 0x16 p q v) = .error e) ∧
  (∀ o p q v : Byte, o = 0x34 ∨ o = 0x35 → 10 ≤ (q.extractLsb' 0 4).toNat →
    ∃ e, decode (formatC o p q v) = .error e) ∧
  (∀ p q : Byte, decode (formatC 0x12 p 0 0) = .ok (.exportPin p) ∧ decode (formatC 0x13 p 0 0) = .ok (.unexportPin p) ∧
    decode (formatC 0x15 p 0 1) = .ok (.setMode p .output) ∧ decode (formatC 0x16 p 0 1) = .ok (.setPullUp p) ∧
    decode (formatC 0x17 p 0 0) = .ok (.setValue p false) ∧ decode (formatC 0x18 p 0 0) = .ok (.getValue p) ∧
    decode (formatC 0x30 p 0 0) = .ok (.busOpenLegacy p) ∧ decode (formatC 0x31 p 0 0) = .ok (.busOpenTunable p) ∧
    decode (formatC 0x32 p q 0) = .ok (.busOpenBuffered p q))

/-! ## The host's side -/

/-- A step makes exactly the next move of the agenda (the model's own: assumption log, entry 15). A command word that
decodes runs exactly that command, accepted by rule R41, on an idle block, and so does a step from `withFetchWord`; the sequencer's turn, and an empty agenda, is one
tick; the turn `time` puts the clock forward and changes nothing else (rule R33); the turn `socWrite` gives one word of
the page the value another agent wrote and changes nothing else, and nothing at all outside the page (rules R27, R62). -/
def Obligations.StepRunsTheDecodedCommand : Prop :=
  (∀ (s : State) (w : Word) (rest : List Turn) (i : Instr), s.agenda = .command w :: rest → s.seq = none →
    decode w = .ok i → step s = exec i (State.accept w { s with agenda := rest })) ∧
  (∀ (s : State) (n : Nat) (i : Instr), decodeTableWord 32 n = some i →
    step (s.withFetchWord 32 n) = exec i (State.accept (BitVec.ofNat 32 (n % 2 ^ 32)) { s with seq := none })) ∧
  (∀ s : State, s.agenda = [] → step s = .next (tick s)) ∧
  (∀ (s : State) (rest : List Turn), s.agenda = .sequencer :: rest → step s = .next (tick { s with agenda := rest })) ∧
  (∀ (s : State) (n : Nat) (rest : List Turn), s.agenda = .time n :: rest →
    step s = .next { s with
      agenda := rest
      dev := { s.dev with env := { s.dev.env with clk := s.dev.env.clk + n } } }) ∧
  (∀ (s : State) (word : Nat) (v : Word) (rest : List Turn), s.agenda = .socWrite word v :: rest →
    word < s.dev.cfg.regWords → s.dev.env.page.wf = true →
    ∃ m : Memory, step s = .next { s with
        agenda := rest
        dev := { s.dev with env := { s.dev.env with page := m } } } ∧
      m.readWord word = v ∧ ∀ a, a / 4 ≠ word → Memory.read m a = Memory.read s.dev.env.page a) ∧
  (∀ (s : State) (word : Nat) (v : Word) (rest : List Turn), s.agenda = .socWrite word v :: rest →
    s.dev.cfg.regWords ≤ word → step s = .next { s with agenda := rest })

/-- Rule R105 for a word that decodes to no command: it is accepted, makes no external action, changes no unit, no pin
and no result, and ends with `STATUS.ERR = 0x80`, whatever the bound state (rule R294). -/
def Obligations.UndecodableWordEndsAtOnce : Prop :=
  ∀ (s : State) (w : Word) (e : Reject) (rest : List Turn), s.agenda = .command w :: rest → s.seq = none →
    decode w = .error e →
    ∃ t, step s = .next t ∧ State.NoEffect { s with agenda := rest } t .illegalCommand s.r0 s.r1 ∧
      t.err.code = 0x80

/-- Rule R180: a bus command in the wrong bound state is refused with `STATUS.ERR = 0x81`; no action, no change. -/
def Obligations.WrongBoundStateIsRefused : Prop :=
  ∀ (i : Instr) (s : State) (b : Bool), i.wantsBound = some b → s.dev.bus.bound ≠ b →
    ∃ t, exec i s = .next t ∧ s.NoEffect t .busState s.r0 s.r1 ∧ t.err.code = 0x81

/-- Rule R41: a write to `CMD` while `BUSY = 0` is acceptance, which latches the word and the three operand registers,
with the counters at their first values and `BUSY = 1`; a
later write to an operand register changes the register and not what the operation does; the end writes the results it
is given and the outcome, and the sequencer returns to `IDLE`. -/
def Obligations.AcceptanceLatchesTheOperands : Prop :=
  (∀ (s : State) (w : Word), (s.busy = false → hostStore 4 0x00 w s = s.accept w) ∧ (s.accept w).busy = true ∧
    ∃ q, (s.accept w).seq = some q ∧ q.cmd = w ∧ q.l0 = s.a0 ∧ q.l1 = s.a1 ∧ q.l2 = s.a2 ∧ q.step = 0 ∧ q.k = 0 ∧
      q.acc = 0 ∧ q.att = 1 ∧ q.pi = 0) ∧
  (∀ (s : State) (v : Word), (hostStore 4 0x08 v s).a0 = v ∧ (hostStore 4 0x0C v s).a1 = v ∧
    (hostStore 4 0x10 v s).a2 = v ∧
    tick (hostStore 4 0x08 v s) = hostStore 4 0x08 v (tick s) ∧
    tick (hostStore 4 0x0C v s) = hostStore 4 0x0C v (tick s) ∧
    tick (hostStore 4 0x10 v s) = hostStore 4 0x10 v (tick s)) ∧
  (∀ (s : State) (e : ErrCode) (x y : Option Word), (s.finish e x y).r0 = x.getD s.r0 ∧
    (s.finish e x y).r1 = y.getD s.r1 ∧ (s.finish e x y).err = e ∧ (s.finish e x y).seq = none ∧
    (s.finish e x y).busy = false)

/-- Rules R22, R64 and R65: the map of the host window, the issue of a command by a write to `CMD` while `BUSY = 0` and
its loss while `BUSY = 1`, and the refusal of other offsets, widths and alignments. A host access is one step, and
none stops the machine. -/
def Obligations.HostWindowMap : Prop :=
  ∀ (s : State) (v : Word),
    (hostValue 4 0x00 s = 0 ∧ hostValue 4 0x04 s = s.statusWord ∧ hostValue 4 0x08 s = s.a0 ∧
      hostValue 4 0x0C s = s.a1 ∧ hostValue 4 0x10 s = s.a2 ∧ hostValue 4 0x14 s = s.r0 ∧ hostValue 4 0x18 s = s.r1) ∧
    (s.busy = false → hostStore 4 0x00 v s = s.accept v) ∧
    (s.busy = true → hostStore 4 0x00 v s = s ∧ issue v s = .next s) ∧
    (hostStore 4 0x04 v s = s ∧ hostStore 4 0x08 v s = { s with a0 := v } ∧
      hostStore 4 0x0C v s = { s with a1 := v } ∧ hostStore 4 0x10 v s = { s with a2 := v } ∧
      hostStore 4 0x14 v s = s ∧ hostStore 4 0x18 v s = s) ∧
    (∀ off, 0x1C ≤ off → hostValue 4 off s = 0 ∧ hostStore 4 off v s = s) ∧
    (∀ width off, width ≠ 4 ∨ off % 4 ≠ 0 → hostValue width off s = 0 ∧ hostStore width off v s = s) ∧
    (∀ width off rest, s.agenda = .hostWrite width off v :: rest →
      step s = .next (hostStore width off v { s with agenda := rest })) ∧
    (∀ width off rest, s.agenda = .hostRead width off :: rest →
      step s = .next { s with agenda := rest, hostData := hostValue width off s })

/-- Rule R23: the fields of `STATUS`, which is read-only, with the number of each backend and each bus configuration, and
the numbers of the outcome codes (rule R290). -/
def Obligations.StatusFields : Prop :=
  ∀ s : State,
    s.statusWord.getLsbD 0 = s.seq.isSome ∧
    s.statusWord.extractLsb' 1 2 =
      (match s.dev.gpio.backend with | .none => 0 | .register => 1 | .filesystem => 2) ∧
    s.statusWord.getLsbD 3 = s.dev.bus.bound ∧
    s.statusWord.extractLsb' 4 2 =
      (if s.dev.bus.bound then (match s.dev.bus.cfg with | .legacy => 0 | .tunable => 1 | .buffered => 2) else 0) ∧
    s.statusWord.extractLsb' 6 2 = 0 ∧
    s.statusWord.extractLsb' 8 8 =
      (match s.err with
        | .ok => 0x00 | .resourceUnavailable => 0x01 | .noPresence => 0x02 | .busContention => 0x03
        | .integrityFailure => 0x04 | .unsupportedDevice => 0x05 | .illegalCommand => 0x80 | .busState => 0x81) ∧
    s.statusWord.extractLsb' 16 16 = 0 ∧ (∀ v, hostStore 4 0x04 v s = s)

/-! ## Reset -/

/-- Rules R320 and R49: whatever the block was doing, reset gives every piece of block-owned state its value of the
table in one step, makes no external action and leaves the clock, the page and the pin settings as they were. The state
right after reset is such a state. -/
def Obligations.HardwareReset : Prop :=
  (∀ s : State,
    (s.hardReset.a0 = 0 ∧ s.hardReset.a1 = 0 ∧ s.hardReset.a2 = 0 ∧ s.hardReset.r0 = 0 ∧ s.hardReset.r1 = 0) ∧
    s.hardReset.statusWord = 0 ∧ s.hardReset.seq = none ∧ s.hardReset.dev.gpio.backend = .none ∧
    s.hardReset.dev.gpio.hExport = .invalid ∧ s.hardReset.dev.gpio.hUnexport = .invalid ∧
    (∀ i, (s.hardReset.dev.gpio.pin i).exported = false ∧ (s.hardReset.dev.gpio.pin i).hDir = .invalid ∧
      (s.hardReset.dev.gpio.pin i).hPull = .invalid ∧ (s.hardReset.dev.gpio.pin i).hValue = .invalid) ∧
    s.hardReset.dev.bus.bound = false ∧ s.hardReset.dev.bus.cfg = .legacy ∧ s.hardReset.dev.bus.pinIo.toInt = -1 ∧
    s.hardReset.dev.bus.pinOut.toInt = -1 ∧ (∀ i, s.hardReset.dev.bus.slot i = 0) ∧ s.hardReset.dev.crc = 0 ∧
    s.hardReset.dev.env = s.dev.env ∧ s.hardReset.dev.cfg = s.dev.cfg) ∧
  (∀ (s : State) (rest : List Turn), s.agenda = .hardReset :: rest →
    step s = .next (State.hardReset { s with agenda := rest })) ∧
  State.reset.hardReset = State.reset

/-- Rule R321: reset while the sequencer is inside a line. The actions of the line that had completed have happened and
are recorded, no later one is, and the block is as after any reset; when all of them had completed the pins are as the
line leaves them. Where the settings of the pins are is no state of the block and stays (`Gpio.last`, assumption log,
entry 23). That a reset falls between two external actions of a line, and that the line's own change of the block is
lost, is the model's choice (entry 17). -/
def Obligations.ResetInsideALine : Prop :=
  ∀ (s : State) (n : Nat) (rest : List Turn), s.agenda = .hardResetDuring n :: rest →
    ∃ t, step s = .next t ∧ t.seq = none ∧ t.dev.gpio = { last := s.dev.gpio.medium } ∧ t.dev.bus = { } ∧
      t.dev.crc = 0 ∧ t.statusWord = 0 ∧ t.a0 = 0 ∧ t.a1 = 0 ∧ t.a2 = 0 ∧ t.r0 = 0 ∧ t.r1 = 0 ∧ t.err = .ok ∧
      t.dev.cfg = s.dev.cfg ∧ t.hostData = s.hostData ∧ t.agenda = rest ∧
      t.dev.env.log = s.dev.env.log ++ (s.dev.actionsSince (tick s).dev).take n ∧
      t.dev.env.sameWorld (Env.performAll ((s.dev.actionsSince (tick s).dev).take n) s.dev.env) ∧
      ((s.dev.actionsSince (tick s).dev).length ≤ n → t.dev.env.sameWorld (tick s).dev.env)

/-! ## All commands -/

/-- Rules R123, R201, R341, R96: every command, in every state, ends in a next state; the block is `IDLE` again, the
operand registers and the parameters are as they were, the outcome is one of the codes the block writes, the clock has
not run backwards and the history has only grown; a command that returns no value leaves the result registers alone. -/
def Obligations.EveryCommandEnds : Prop :=
  ∀ (i : Instr) (s : State), ∃ t, exec i s = .next t ∧ s.EndsAs t t.err t.r0 t.r1 ∧ t.err.written = true ∧
    (i.writesR0 = false → t.r0 = s.r0) ∧ (i ≠ .clockRead → t.r1 = s.r1)

/-- Rules R13 and R70: the history accounts for the whole effect of a command on the page, on the settings behind the
control files, on the read positions and on the clock: replaying its actions from the state before gives them. -/
def Obligations.HistoryAccountsForTheWorld : Prop :=
  ∀ (i : Instr) (s t : State), exec i s = .next t →
    t.dev.env.log = s.dev.env.log ++ s.dev.actionsSince t.dev ∧
    t.dev.env.sameWorld (Env.performAll (s.dev.actionsSince t.dev) s.dev.env)

/-- The sequencer, line by line, does what the command does in one step: from acceptance, 80 ticks and one for each
attempt to export reach the state in which `exec` ends. That a tick is one numbered line or one round of a loop is the
model's choice (assumption log, entry 16). -/
def Obligations.SequencerReachesExec : Prop :=
  ∀ (i : Instr) (w : Word) (s t : State), decode w = .ok i → exec i (s.accept w) = .next t →
    ticks (80 + s.dev.cfg.exportAttempts) (s.accept w) = t

/-- Rule R34 on the model's clock, which is one count that never wraps (assumption log, entry 5): no step, whoever moves,
puts the clock back; and the time before a command, the times the clock shows during it and the time after it never go
down. -/
def Obligations.ClockNeverRunsBackwards : Prop :=
  (∀ s t : State, step s = .next t → s.dev.env.clk ≤ t.dev.env.clk) ∧
  ∀ (i : Instr) (s t : State), exec i s = .next t →
    List.Pairwise (· ≤ ·) (s.dev.env.clk :: (s.dev.actionsSince t.dev).filterMap Action.shows ++ [t.dev.env.clk])

/-- Rules R25 and R96: what a command does depends neither on `STATUS.ERR` nor on the results of earlier commands, and,
but for `delay` and `setSlot`, not on the operand registers. -/
def Obligations.WhatCommandsDoNotRead : Prop :=
  (∀ (i : Instr) (s t : State) (e : ErrCode) (x y : Word), exec i s = .next t →
    ∃ u, exec i { s with err := e, r0 := x, r1 := y } = .next u ∧ u.dev.gpio = t.dev.gpio ∧ u.dev.bus = t.dev.bus ∧
      u.dev.crc = t.dev.crc ∧ u.dev.env = t.dev.env ∧ u.err = t.err) ∧
  (∀ (i : Instr) (s t : State) (w x y z : Word), (∀ f, i ≠ .delay f) → (∀ n, i ≠ .setSlot n) →
    exec i (s.accept w) = .next t →
    ∃ u, exec i (State.accept w { s with a0 := x, a1 := y, a2 := z }) = .next u ∧ u.dev = t.dev ∧ u.err = t.err ∧
      u.r0 = t.r0 ∧ u.r1 = t.r1)

/-- Which commands may change which unit: the accumulator, the bus context, the slots, the backend and the global
handles, the pins' export state (rules R23, R40, R124 to R130, R184 to R189, R233 to R235). -/
def Obligations.UnitsChangeOnlyByTheirCommands : Prop :=
  ∀ (i : Instr) (s t : State), exec i s = .next t →
    (i ≠ .crcReset → (∀ v, i ≠ .crcUpdate v) → t.dev.crc = s.dev.crc) ∧
    (i.wantsBound ≠ some false → i ≠ .busClose →
      t.dev.bus.bound = s.dev.bus.bound ∧ t.dev.bus.cfg = s.dev.bus.cfg ∧ t.dev.bus.pinIo = s.dev.bus.pinIo ∧
      t.dev.bus.pinOut = s.dev.bus.pinOut) ∧
    (i.wantsBound ≠ some false → (∀ n, i ≠ .setSlot n) → t.dev.bus.slots = s.dev.bus.slots) ∧
    (i ≠ .initGpio → i ≠ .finalize →
      t.dev.gpio.backend = s.dev.gpio.backend ∧ t.dev.gpio.hExport = s.dev.gpio.hExport ∧
      t.dev.gpio.hUnexport = s.dev.gpio.hUnexport) ∧
    (i.wantsBound ≠ some false → i ≠ .busClose → i ≠ .finalize → i ≠ .unexportAll → (∀ p, i ≠ .exportPin p) →
      (∀ p, i ≠ .unexportPin p) → t.dev.gpio.pins = s.dev.gpio.pins)

/-- Rule R60: the two backends are never both in use. Under the register backend no command acts on a control file;
under the other two no command accesses the page, and every byte of it stays. -/
def Obligations.BackendsAreExclusive : Prop :=
  ∀ (i : Instr) (s t : State), exec i s = .next t →
    (s.dev.gpio.backend = .register →
      (∀ a ∈ s.dev.actionsSince t.dev, a.isFile = false) ∧ t.dev.env.settings = s.dev.env.settings) ∧
    (s.dev.gpio.backend ≠ .register →
      (∀ a ∈ s.dev.actionsSince t.dev, a.pageAccess = none) ∧
      ∀ x, Memory.read t.dev.env.page x = Memory.read s.dev.env.page x)

/-! ## Invariants -/

/-- The two invariants hold right after reset. -/
def Obligations.InvariantsAtReset : Prop := State.reset.Inv ∧ State.reset.dev.Settled

/-- Every step keeps it: the page in its canonical form, a pin's handles open together and only while it is exported,
only mapped pins exported, `STATUS.ERR` a code the block writes, the sequencer's counters in their ranges (rules R24,
R30, R290). -/
def Obligations.StepKeepsInv : Prop := ∀ s t : State, s.Inv → step s = .next t → t.Inv

/-- Every command keeps it: the three handles of a pin open exactly when it is exported, nothing exported and no global
handle open outside the filesystem backend, an unbound bus context empty (rules R29, R30, R35). -/
def Obligations.CommandsKeepSettled : Prop :=
  ∀ (i : Instr) (s t : State), s.dev.Settled → exec i s = .next t → t.dev.Settled

/-! ## GPIOController -/

/-- Rules R121 and R122: when a pin operand is usable. That a board entry with an offset outside the page counts as
unmapped is the model's choice (assumption log, entry 2). -/
def Obligations.UsablePin : Prop :=
  ∀ (d : Dev) (p : Byte) (i : Fin 64) (e : PinEntry),
    usablePin d p = some (i, e) ↔
      (0 ≤ p.toInt ∧ p.toInt ≤ 63 ∧ p.toInt = i.val ∧ d.cfg.board[i.val]? = some (some e) ∧
        e.inPage d.cfg.regWords = true) ∧
      (d.gpio.backend = .register ∨ d.gpio.backend = .filesystem ∧ (d.gpio.pin i).exported = true)

/-- Rules R122 and R32: a pin operation on a pin that is not usable has no effect and ends with outcome OK; `getValue`
returns −1. -/
def Obligations.UnusablePinIsANoOp : Prop :=
  ∀ (s : State) (p : Byte), usablePin s.dev p = none →
    (∀ m, ∃ t, exec (.setMode p m) s = .next t ∧ s.NoEffect t .ok s.r0 s.r1) ∧
    (∃ t, exec (.setPullDisable p) s = .next t ∧ s.NoEffect t .ok s.r0 s.r1) ∧
    (∃ t, exec (.setPullUp p) s = .next t ∧ s.NoEffect t .ok s.r0 s.r1) ∧
    (∃ t, exec (.setPullDown p) s = .next t ∧ s.NoEffect t .ok s.r0 s.r1) ∧
    (∀ b, ∃ t, exec (.setValue p b) s = .next t ∧ s.NoEffect t .ok s.r0 s.r1) ∧
    (∃ t, exec (.getValue p) s = .next t ∧ s.NoEffect t .ok 0xFFFFFFFF s.r1)

/-- Rule R142: an invalid pin makes no external action and changes nothing, in the export operations too. -/
def Obligations.SentinelPin : Prop :=
  ∀ (s : State) (p : Byte), validPin s.dev.cfg p = none →
    (∀ m, ∃ t, exec (.setMode p m) s = .next t ∧ s.NoEffect t .ok s.r0 s.r1) ∧
    (∃ t, exec (.setPullDisable p) s = .next t ∧ s.NoEffect t .ok s.r0 s.r1) ∧
    (∃ t, exec (.setPullUp p) s = .next t ∧ s.NoEffect t .ok s.r0 s.r1) ∧
    (∃ t, exec (.setPullDown p) s = .next t ∧ s.NoEffect t .ok s.r0 s.r1) ∧
    (∀ b, ∃ t, exec (.setValue p b) s = .next t ∧ s.NoEffect t .ok s.r0 s.r1) ∧
    (∃ t, exec (.exportPin p) s = .next t ∧ s.NoEffect t .ok s.r0 s.r1) ∧
    (∃ t, exec (.unexportPin p) s = .next t ∧ s.NoEffect t .ok s.r0 s.r1) ∧
    (∃ t, exec (.getValue p) s = .next t ∧ s.NoEffect t .ok 0xFFFFFFFF s.r1)

/-- Rule R124: `initialize` returns at once when a backend is selected; takes the register backend when access is given,
touching no word and no file; else opens the two global files, takes the filesystem backend all the same, and fails when
either did not open. -/
def Obligations.InitializeSelectsTheBackend : Prop :=
  ∀ s : State,
    (s.dev.gpio.backend ≠ .none → ∃ t, exec .initGpio s = .next t ∧ s.NoEffect t .ok s.r0 s.r1) ∧
    (s.dev.gpio.backend = .none → (drawRegAccess s.dev).1 = true →
      ∃ t, exec .initGpio s = .next t ∧ s.EndsAs t .ok s.r0 s.r1 ∧
        t.dev.gpio = { s.dev.gpio with backend := .register } ∧ t.dev.bus = s.dev.bus ∧ t.dev.crc = s.dev.crc ∧
        s.dev.env.SamePins t.dev.env ∧ s.dev.traceSince t.dev = []) ∧
    (s.dev.gpio.backend = .none → (drawRegAccess s.dev).1 = false →
      ∃ t x y, exec .initGpio s = .next t ∧
        s.EndsAs t (if x && y then .ok else .resourceUnavailable) s.r0 s.r1 ∧
        t.dev.gpio = { s.dev.gpio with
          backend := .filesystem
          hExport := if x then .opened else .invalid
          hUnexport := if y then .opened else .invalid } ∧
        t.dev.bus = s.dev.bus ∧ t.dev.crc = s.dev.crc ∧ s.dev.env.SamePins t.dev.env ∧
        s.dev.traceSince t.dev = [.fileOpen .exportFile x, .fileOpen .unexportFile y] ∧
        (∀ x' y' rest, s.dev.env.draws.opens = x' :: y' :: rest → x = x' ∧ y = y'))

/-- Rule R125: `finalize` gives back every exported pin in ascending order, three closes and its number to `unexport`
each, closes both global handles, leaves pins, bus and accumulator alone, and ends with no backend. The settings of the
pins stay, and with them what the master does to the line (rule R337; assumption log, entry 23). That closing a global
handle that is invalid makes no action is DEDUCED (entry 10). -/
def Obligations.FinalizeReleasesEverything : Prop :=
  ∀ s : State, s.dev.Settled →
    ∃ t, exec .finalize s = .next t ∧ s.EndsAs t .ok s.r0 s.r1 ∧ t.dev.gpio.backend = .none ∧
      t.dev.gpio.hExport = .invalid ∧ t.dev.gpio.hUnexport = .invalid ∧ (∀ i, t.dev.gpio.pin i = { }) ∧
      t.dev.bus = s.dev.bus ∧ t.dev.crc = s.dev.crc ∧ s.dev.env.SamePins t.dev.env ∧
      (∀ p, t.dev.pinMode p = s.dev.pinMode p ∧ t.dev.pinLevel p = s.dev.pinLevel p) ∧
      t.dev.asserted = s.dev.asserted ∧ t.dev.released = s.dev.released ∧
      (s.dev.gpio.backend ≠ .filesystem → s.dev.traceSince t.dev = []) ∧
      (s.dev.gpio.backend = .filesystem →
        s.dev.traceSince t.dev = s.dev.giveBackAll ++
          (if s.dev.gpio.hExport = .opened then [.fileClose .exportFile] else []) ++
          (if s.dev.gpio.hUnexport = .opened then [.fileClose .unexportFile] else [])) ∧
      (s.dev.gpio.backend = .filesystem → s.dev.gpio.hUnexport = .opened →
        (s.dev.actionsSince t.dev).filterMap Action.unexports = s.dev.exportedLines)

/-- Rule R126 where the three files open at the first attempt: the number is written to `export`, the files are opened in
the order direction, pull, value, the pin is exported. That its settings stay when `export` is written is the model's
choice (assumption log, entry 27). -/
def Obligations.ExportAtTheFirstAttempt : Prop :=
  ∀ (s : State) (p : Byte) (i : Fin 64) (e : PinEntry) (rest : List Bool), s.dev.gpio.backend = .filesystem →
    validPin s.dev.cfg p = some (i, e) → (s.dev.gpio.pin i).exported = false → 0 < s.dev.cfg.exportAttempts →
    s.dev.env.draws.opens = true :: true :: true :: rest →
    ∃ t, exec (.exportPin p) s = .next t ∧ s.EndsAs t .ok s.r0 s.r1 ∧
      s.dev.traceSince t.dev =
        (if s.dev.gpio.hExport = .opened then [.fileWrite .exportFile (decLine e.hw)] else []) ++
        [.fileOpen (.pinFile i .direction) true, .fileOpen (.pinFile i .pull) true, .fileOpen (.pinFile i .value) true] ∧
      t.dev.gpio.pin i = PinFiles.full ∧ (∀ j, j ≠ i → t.dev.gpio.pin j = s.dev.gpio.pin j) ∧
      t.dev.gpio.backend = s.dev.gpio.backend ∧ t.dev.gpio.hExport = s.dev.gpio.hExport ∧
      t.dev.gpio.hUnexport = s.dev.gpio.hUnexport ∧ t.dev.bus = s.dev.bus ∧ t.dev.crc = s.dev.crc ∧
      (∀ a, Memory.read t.dev.env.page a = Memory.read s.dev.env.page a) ∧
      t.dev.env.settings = s.dev.env.settings

/-- Rule R126 where no file ever opens: `EXPORT_ATTEMPTS` attempts of three opens, a backoff of `EXPORT_BACKOFF` between
each two of them and none after the last, the number written to `unexport`, outcome `ResourceUnavailable`, the pin not
exported; after reset the attempts are five and the backoff is a second. A sleep stands in the trace without the time at
which it ended, which is free (rule R168). That the settings stay when `export` and `unexport` are written is the model's
choice (assumption log, entry 27). -/
def Obligations.ExportExhaustion : Prop :=
  (resetConfig.exportAttempts = 5 ∧ resetConfig.exportBackoffNs = 1000000000) ∧
  ∀ (s : State) (p : Byte) (i : Fin 64) (e : PinEntry) (rest : List Bool), s.dev.gpio.backend = .filesystem →
    validPin s.dev.cfg p = some (i, e) → (s.dev.gpio.pin i).exported = false →
    s.dev.env.draws.opens = List.replicate (3 * s.dev.cfg.exportAttempts) false ++ rest →
    ∃ t, exec (.exportPin p) s = .next t ∧ s.EndsAs t .resourceUnavailable s.r0 s.r1 ∧ s.dev.SameUnits t.dev ∧
      s.dev.env.SamePins t.dev.env ∧
      s.dev.env.clk + (s.dev.cfg.exportAttempts - 1) * s.dev.cfg.exportBackoffNs ≤ t.dev.env.clk ∧
      (s.dev.traceSince t.dev).map Action.untimed =
        (if s.dev.gpio.hExport = .opened then [.fileWrite .exportFile (decLine e.hw)] else []) ++
        ((List.range s.dev.cfg.exportAttempts).flatMap fun k =>
          [.fileOpen (.pinFile i .direction) false, .fileOpen (.pinFile i .pull) false,
            .fileOpen (.pinFile i .value) false] ++
          (if k + 1 < s.dev.cfg.exportAttempts then [.sleep s.dev.cfg.exportBackoffNs 0] else [])) ++
        (if s.dev.gpio.hUnexport = .opened then [.fileWrite .unexportFile (decLine e.hw)] else [])

/-- Rules R126 and R128, whatever the environment answers: the pin ends exported with its three handles open and outcome
OK, or as it was with outcome `ResourceUnavailable`; other pins, bus, accumulator and page are untouched. A handle that
opened in an attempt that failed is closed again: each file is closed as often as it opened, but for the three handles
that an exported pin keeps; after a first attempt that opened some files but not all, the opened ones are closed at once.
No action but file actions and backoffs is made, one backoff between each two attempts, of which there are at most
`EXPORT_ATTEMPTS`, and exactly so many where the command gives up; then, and only then, the number is written to
`unexport`, as the last action. That the settings stay when `export` and `unexport` are written is the model's choice
(assumption log, entry 27). -/
def Obligations.ExportOrGiveUp : Prop :=
  ∀ (s : State) (p : Byte) (i : Fin 64) (e : PinEntry), s.dev.gpio.backend = .filesystem →
    validPin s.dev.cfg p = some (i, e) → (s.dev.gpio.pin i).exported = false →
    ∃ t, exec (.exportPin p) s = .next t ∧
      (s.EndsAs t .ok s.r0 s.r1 ∧ t.dev.gpio.pin i = PinFiles.full ∨
        s.EndsAs t .resourceUnavailable s.r0 s.r1 ∧ t.dev.gpio.pin i = s.dev.gpio.pin i) ∧
      (∀ j, j ≠ i → t.dev.gpio.pin j = s.dev.gpio.pin j) ∧ t.dev.gpio.backend = s.dev.gpio.backend ∧
      t.dev.gpio.hExport = s.dev.gpio.hExport ∧ t.dev.gpio.hUnexport = s.dev.gpio.hUnexport ∧
      t.dev.bus = s.dev.bus ∧ t.dev.crc = s.dev.crc ∧
      (∀ a, Memory.read t.dev.env.page a = Memory.read s.dev.env.page a) ∧
      t.dev.env.settings = s.dev.env.settings ∧
      (∀ k, (s.dev.traceSince t.dev).count (.fileOpen (.pinFile i k) true) =
        (s.dev.traceSince t.dev).count (.fileClose (.pinFile i k)) + (if (t.dev.gpio.pin i).exported then 1 else 0)) ∧
      (∀ a b c rest, 0 < s.dev.cfg.exportAttempts → s.dev.env.draws.opens = a :: b :: c :: rest →
        (a && b && c) = false →
        (if s.dev.gpio.hExport = .opened then [.fileWrite .exportFile (decLine e.hw)] else []) ++
          [.fileOpen (.pinFile i .direction) a, .fileOpen (.pinFile i .pull) b, .fileOpen (.pinFile i .value) c] ++
          (if a then [.fileClose (.pinFile i .direction)] else []) ++
          (if b then [.fileClose (.pinFile i .pull)] else []) ++
          (if c then [.fileClose (.pinFile i .value)] else []) <+: s.dev.traceSince t.dev) ∧
      (∀ a ∈ s.dev.traceSince t.dev, a.isFile = false → a.untimed = .sleep s.dev.cfg.exportBackoffNs 0) ∧
      (∃ n, n ≤ s.dev.cfg.exportAttempts ∧ (t.err ≠ .ok → n = s.dev.cfg.exportAttempts) ∧
        (∀ k, (s.dev.traceSince t.dev).count (.fileOpen (.pinFile i k) true) +
          (s.dev.traceSince t.dev).count (.fileOpen (.pinFile i k) false) = n) ∧
        ((s.dev.traceSince t.dev).filter fun a => !a.isFile).length = n - 1) ∧
      (s.dev.traceSince t.dev).filterMap Action.unexports =
        (if t.err ≠ .ok ∧ s.dev.gpio.hUnexport = .opened then [decLine e.hw] else []) ∧
      (t.err ≠ .ok → s.dev.gpio.hUnexport = .opened →
        (s.dev.traceSince t.dev).getLast? = some (.fileWrite .unexportFile (decLine e.hw)))

/-- Rules R141 and R126 steps 2 and 3: `exportPin` of an exported pin, or outside the filesystem backend, has no effect;
after `exportPin(p)` has ended with the pin exported a second one makes no external action. -/
def Obligations.ExportIsIdempotent : Prop :=
  (∀ (s : State) (p : Byte) (i : Fin 64), pinIndex p = some i →
    s.dev.gpio.backend ≠ .filesystem ∨ (s.dev.gpio.pin i).exported = true →
    ∃ t, exec (.exportPin p) s = .next t ∧ s.NoEffect t .ok s.r0 s.r1) ∧
  (∀ (s t : State) (p : Byte) (i : Fin 64), pinIndex p = some i → exec (.exportPin p) s = .next t →
    (t.dev.gpio.pin i).exported = true → ∃ u, exec (.exportPin p) t = .next u ∧ t.NoEffect u .ok t.r0 t.r1)

/-- Rule R129: `unexportPin` closes the three handles in the order direction, pull, value, then writes the number to
`unexport`; on a pin that is not exported, or outside the filesystem backend, it has no effect. That the settings of the
pin stay when `unexport` is written is the model's choice (assumption log, entry 27). -/
def Obligations.UnexportGivesThePinBack : Prop :=
  (∀ (s : State) (p : Byte) (i : Fin 64) (e : PinEntry), s.dev.gpio.backend = .filesystem →
    validPin s.dev.cfg p = some (i, e) → s.dev.gpio.pin i = PinFiles.full →
    ∃ t, exec (.unexportPin p) s = .next t ∧ s.EndsAs t .ok s.r0 s.r1 ∧
      s.dev.traceSince t.dev =
        [.fileClose (.pinFile i .direction), .fileClose (.pinFile i .pull), .fileClose (.pinFile i .value)] ++
        (if s.dev.gpio.hUnexport = .opened then [.fileWrite .unexportFile (decLine e.hw)] else []) ∧
      t.dev.gpio.pin i = { } ∧ (∀ j, j ≠ i → t.dev.gpio.pin j = s.dev.gpio.pin j) ∧
      t.dev.gpio.backend = s.dev.gpio.backend ∧ t.dev.gpio.hExport = s.dev.gpio.hExport ∧
      t.dev.gpio.hUnexport = s.dev.gpio.hUnexport ∧ t.dev.bus = s.dev.bus ∧ t.dev.crc = s.dev.crc ∧
      s.dev.env.SamePins t.dev.env) ∧
  (∀ (s : State) (p : Byte) (i : Fin 64), pinIndex p = some i →
    s.dev.gpio.backend ≠ .filesystem ∨ (s.dev.gpio.pin i).exported = false →
    ∃ t, exec (.unexportPin p) s = .next t ∧ s.NoEffect t .ok s.r0 s.r1)

/-- Rule R130: `unexportAll` gives back every exported pin, in ascending order, three closes and its number to `unexport`
each, after which no pin is exported and no handle of a pin is open; outside the filesystem backend it has no effect. That
the settings of the pins stay when `unexport` is written is the model's choice (assumption log, entry 27). -/
def Obligations.UnexportAllInAscendingOrder : Prop :=
  ∀ s : State,
    (s.dev.gpio.backend ≠ .filesystem → ∃ t, exec .unexportAll s = .next t ∧ s.NoEffect t .ok s.r0 s.r1) ∧
    (s.dev.gpio.backend = .filesystem →
      ∃ t, exec .unexportAll s = .next t ∧ s.EndsAs t .ok s.r0 s.r1 ∧
        (∀ i : Fin 64, (s.dev.cfg.entry i.val).isSome = true → (t.dev.gpio.pin i).exported = false) ∧
        (∀ i : Fin 64, (s.dev.cfg.entry i.val).isSome = true → (s.dev.gpio.pin i).exported = true →
          t.dev.gpio.pin i = { }) ∧
        (s.dev.Settled → (∀ i, t.dev.gpio.pin i = { }) ∧ s.dev.traceSince t.dev = s.dev.giveBackAll) ∧
        t.dev.gpio.backend = s.dev.gpio.backend ∧ t.dev.gpio.hExport = s.dev.gpio.hExport ∧
        t.dev.gpio.hUnexport = s.dev.gpio.hUnexport ∧ t.dev.bus = s.dev.bus ∧ t.dev.crc = s.dev.crc ∧
        s.dev.env.SamePins t.dev.env ∧
        (s.dev.gpio.hUnexport = .opened →
          (s.dev.actionsSince t.dev).filterMap Action.unexports = s.dev.exportedLines))

/-- Rule R63: a bit read is the bit of a word read. A bit write is a read of the word of the bit and then a write of the value read with that bit replaced,
made also when nothing changes. That the bits of the value read that are no `in` bits are the stored ones is DEDUCED from
rules R27, R47 and R62 (assumption log, entry 7). -/
def Obligations.BitWriteIsReadThenWrite : Prop :=
  ∀ (d : Dev) (off : Nat) (v : Bool),
    (regBit off d).1 = (memRead (off / 32) d).1.getLsbD (off % 32) ∧
    ∃ r, d.actionsSince (regBitWrite off v d) = [.pageRead (off / 32) r, .pageWrite (off / 32) (putBit r (off % 32) v)] ∧
      (∀ k, (d.cfg.inMask (off / 32)).getLsbD k = false → r.getLsbD k = (d.env.page.readWord (off / 32)).getLsbD k) ∧
      (∀ k, (putBit r (off % 32) v).getLsbD k = if k = off % 32 then v else r.getLsbD k)

/-- Rules R132 and R136 under the register backend: `setMode` writes the multiplexer bit first, then the function bit;
`setValue` writes one bit, whatever the pin's direction; the levels are those the parameters name. That the other bits of
a word with `in` bits stay is DEDUCED (assumption log, entry 7). -/
def Obligations.SetModeAndSetValueWriteBits : Prop :=
  ∀ (s : State) (p : Byte) (i : Fin 64) (e : PinEntry), usablePin s.dev p = some (i, e) →
    s.dev.gpio.backend = .register → s.dev.env.page.wf = true →
    (∀ m, ∃ t, exec (.setMode p m) s = .next t ∧ s.EndsAs t .ok s.r0 s.r1 ∧ s.dev.SameUnits t.dev ∧
      State.StoresBits [(e.mux, s.dev.cfg.muxGpioLevel),
        (e.fsel, if m = .output then s.dev.cfg.fselOutputLevel else !s.dev.cfg.fselOutputLevel)] s t) ∧
    (∀ b, ∃ t, exec (.setValue p b) s = .next t ∧ s.EndsAs t .ok s.r0 s.r1 ∧ s.dev.SameUnits t.dev ∧
      State.StoresBits [(e.out, if b then s.dev.cfg.outHighLevel else !s.dev.cfg.outHighLevel)] s t)

/-- Rule R134 under the register backend: direction before enable; `disable` leaves the direction bit alone. That the
other bits of a word with `in` bits stay is DEDUCED (assumption log, entry 7). -/
def Obligations.SetPullWritesItsBits : Prop :=
  ∀ (s : State) (p : Byte) (i : Fin 64) (e : PinEntry), usablePin s.dev p = some (i, e) →
    s.dev.gpio.backend = .register → s.dev.env.page.wf = true →
    (∃ t, exec (.setPullUp p) s = .next t ∧ s.EndsAs t .ok s.r0 s.r1 ∧ s.dev.SameUnits t.dev ∧
      State.StoresBits [(e.pdir, s.dev.cfg.pdirUpLevel), (e.pen, s.dev.cfg.penEnableLevel)] s t) ∧
    (∃ t, exec (.setPullDown p) s = .next t ∧ s.EndsAs t .ok s.r0 s.r1 ∧ s.dev.SameUnits t.dev ∧
      State.StoresBits [(e.pdir, !s.dev.cfg.pdirUpLevel), (e.pen, s.dev.cfg.penEnableLevel)] s t) ∧
    (∃ t, exec (.setPullDisable p) s = .next t ∧ s.EndsAs t .ok s.r0 s.r1 ∧ s.dev.SameUnits t.dev ∧
      State.StoresBits [(e.pen, !s.dev.cfg.penEnableLevel)] s t)

/-- Rules R132, R134 and R136 under the filesystem backend: one string to one file of the pin. That the setting behind the
file then is what was asked for is DEDUCED (assumption log, entry 12: rule R66 allows an agent that rejects the string),
and that the write leaves the read position is the model's choice (entry 26). -/
def Obligations.SettingsThroughFiles : Prop :=
  ∀ (s : State) (p : Byte) (i : Fin 64) (e : PinEntry), usablePin s.dev p = some (i, e) →
    s.dev.gpio.backend = .filesystem → (s.dev.gpio.pin i).settled = true →
    (∀ m, ∃ t, exec (.setMode p m) s = .next t ∧ s.EndsAs t .ok s.r0 s.r1 ∧ s.dev.SameUnits t.dev ∧
      State.WritesFile i .direction (if m = .output then "out" else "in")
        { s.dev.env.setting i with mode := m } s t) ∧
    (∃ t, exec (.setPullDisable p) s = .next t ∧ s.EndsAs t .ok s.r0 s.r1 ∧ s.dev.SameUnits t.dev ∧
      State.WritesFile i .pull "disable" { s.dev.env.setting i with pull := .disable } s t) ∧
    (∃ t, exec (.setPullUp p) s = .next t ∧ s.EndsAs t .ok s.r0 s.r1 ∧ s.dev.SameUnits t.dev ∧
      State.WritesFile i .pull "up" { s.dev.env.setting i with pull := .up } s t) ∧
    (∃ t, exec (.setPullDown p) s = .next t ∧ s.EndsAs t .ok s.r0 s.r1 ∧ s.dev.SameUnits t.dev ∧
      State.WritesFile i .pull "down" { s.dev.env.setting i with pull := .down } s t) ∧
    (∀ b, ∃ t, exec (.setValue p b) s = .next t ∧ s.EndsAs t .ok s.r0 s.r1 ∧ s.dev.SameUnits t.dev ∧
      State.WritesFile i .value (if b then "1" else "0") { s.dev.env.setting i with level := b } s t)

/-- Rules R138 and R140: `getValue` returns the drawn bit of the pin's `in` word, or what one character read after a seek
to the start stands for; it changes nothing but the read position. -/
def Obligations.GetValueReturnsTheDraw : Prop :=
  ∀ (s : State) (p : Byte) (i : Fin 64) (e : PinEntry), usablePin s.dev p = some (i, e) →
    (s.dev.gpio.backend = .register →
      ∃ t, exec (.getValue p) s = .next t ∧
        s.EndsAs t .ok (if (drawIn s.dev).1.getLsbD (e.inp % 32) then 1 else 0) s.r1 ∧ s.dev.SameUnits t.dev ∧
        s.dev.env.SamePins t.dev.env ∧ t.dev.env.draws = (drawIn s.dev).2.env.draws ∧
        (s.dev.traceSince t.dev).map Action.pageAccess = [some (false, e.inp / 32)]) ∧
    (s.dev.gpio.backend = .filesystem → (s.dev.gpio.pin i).settled = true →
      ∃ t, exec (.getValue p) s = .next t ∧
        s.EndsAs t .ok (match (drawChar s.dev).1 with | .zero => 0 | .one => 1 | .other => 0xFFFFFFFF) s.r1 ∧
        s.dev.SameUnits t.dev ∧ (∀ a, Memory.read t.dev.env.page a = Memory.read s.dev.env.page a) ∧
        t.dev.env.settings = s.dev.env.settings ∧ t.dev.env.position i = 1 ∧
        (∀ j, j ≠ i → t.dev.env.position j = s.dev.env.position j) ∧
        t.dev.env.draws = (drawChar s.dev).2.env.draws ∧
        s.dev.traceSince t.dev = [.fileSeek (.pinFile i .value), .fileRead (.pinFile i .value) (drawChar s.dev).1])

/-! ## BusyWaitClock -/

/-- Rules R163, R166 and R169: `delay` with no anchor lasts at least its clamped duration from the moment it began, at
most `OVERRUN_MAX_NS` longer than that from its first clock read where that parameter is given, and does nothing else. -/
def Obligations.DelayLastsItsDuration : Prop :=
  ∀ s : State,
    ∃ t, exec (.delay false) s = .next t ∧ s.EndsAs t .ok s.r0 s.r1 ∧ s.dev.SameUnits t.dev ∧
      s.dev.env.SamePins t.dev.env ∧ s.dev.traceSince t.dev = [.wait (min s.opL0.toNat s.dev.cfg.delayMaxNs)] ∧
      s.dev.env.clk + min s.opL0.toNat s.dev.cfg.delayMaxNs ≤ t.dev.env.clk ∧
      (∀ m, s.dev.cfg.overrunMaxNs = some m →
        t.dev.env.clk ≤ (now s.dev).1 + min s.opL0.toNat s.dev.cfg.delayMaxNs + m)

/-- Rule R164 with an anchor. With a recent anchor the wait is measured from it: one clock read when the clamped
duration has already passed, else until it has, and where `OVERRUN_MAX_NS` is given no longer than that after the clamped
duration, unless the clock stood later when the command began (rule R169). With any other anchor the command ends all the
same, with outcome OK, and nothing is said of its length. That an anchor counts as recent when its nanoseconds are in
range and it is less than a second old at the first read, whether or not a clock read ever returned it, is the model's
choice (assumption log, entry 9). -/
def Obligations.AnchoredDelay : Prop :=
  ∀ s : State,
    ∃ t first later, exec (.delay true) s = .next t ∧ s.EndsAs t .ok s.r0 s.r1 ∧ s.dev.SameUnits t.dev ∧
      s.dev.env.SamePins t.dev.env ∧ s.dev.traceSince t.dev = [.wait (min s.opL0.toNat s.dev.cfg.delayMaxNs)] ∧
      (s.dev.actionsSince t.dev).filterMap Action.shows = first :: later ∧ s.dev.env.clk ≤ first ∧
      (s.dev.cfg.overrunMaxNs = none → first = (now s.dev).1) ∧
      (s.opL2.toNat < 1000000000 → s.opL1.toNat * 1000000000 + s.opL2.toNat ≤ first →
        first < s.opL1.toNat * 1000000000 + s.opL2.toNat + 1000000000 →
        s.opL1.toNat * 1000000000 + s.opL2.toNat + min s.opL0.toNat s.dev.cfg.delayMaxNs ≤ t.dev.env.clk ∧
        (s.opL1.toNat * 1000000000 + s.opL2.toNat + min s.opL0.toNat s.dev.cfg.delayMaxNs ≤ first → later = []) ∧
        ∀ m, s.dev.cfg.overrunMaxNs = some m →
          s.dev.env.clk ≤ s.opL1.toNat * 1000000000 + s.opL2.toNat + min s.opL0.toNat s.dev.cfg.delayMaxNs + m →
          t.dev.env.clk ≤ s.opL1.toNat * 1000000000 + s.opL2.toNat + min s.opL0.toNat s.dev.cfg.delayMaxNs + m) ∧
      (∀ m, s.dev.cfg.overrunMaxNs = some m → s.opL2.toNat < 1000000000 →
        s.dev.env.clk < s.opL1.toNat * 1000000000 + s.opL2.toNat + 1000000000 →
        s.dev.env.clk ≤ s.opL1.toNat * 1000000000 + s.opL2.toNat + min s.opL0.toNat s.dev.cfg.delayMaxNs + m →
        first ≤ s.opL1.toNat * 1000000000 + s.opL2.toNat + min s.opL0.toNat s.dev.cfg.delayMaxNs + m)

/-- Rule R165: `clockRead` is one read of the clock and returns its seconds and nanoseconds. That the clock is one count
of nanoseconds that never wraps, of which `SEC` shows the seconds modulo `2^SEC_W`, is the model's choice (assumption
log, entry 5). -/
def Obligations.ClockReadIsOneRead : Prop :=
  ∀ s : State,
    ∃ t, exec .clockRead s = .next t ∧
      s.EndsAs t .ok (BitVec.ofNat 32 ((now s.dev).1 / 1000000000 % 2 ^ s.dev.cfg.secW))
        (BitVec.ofNat 32 ((now s.dev).1 % 1000000000)) ∧
      t.r1.toNat ≤ 999999999 ∧ t.dev.env.clk = (now s.dev).1 ∧ s.dev.SameUnits t.dev ∧ s.dev.env.SamePins t.dev.env ∧
      s.dev.traceSince t.dev = [] ∧ (s.dev.actionsSince t.dev).filterMap Action.shows = [(now s.dev).1]

/-! ## OneWireBus -/

/-- Rule R186: the slots each `busOpen*` loads, from the column it names; and the numbers of the two columns. -/
def Obligations.DefaultSlots : Prop :=
  ∀ (s : State) (p q : Byte), s.dev.bus.bound = false →
    (∃ t, exec (.busOpenLegacy p) s = .next t ∧
      t.dev.bus.slot 0 = s.dev.cfg.legacyNs.a ∧ t.dev.bus.slot 1 = s.dev.cfg.legacyNs.b ∧
      t.dev.bus.slot 2 = s.dev.cfg.legacyNs.c ∧ t.dev.bus.slot 3 = s.dev.cfg.legacyNs.d ∧
      t.dev.bus.slot 4 = s.dev.cfg.legacyNs.e ∧ t.dev.bus.slot 5 = s.dev.cfg.legacyNs.f ∧
      t.dev.bus.slot 6 = s.dev.cfg.legacyNs.g ∧ t.dev.bus.slot 7 = s.dev.cfg.legacyNs.h ∧
      t.dev.bus.slot 8 = s.dev.cfg.legacyNs.i ∧ t.dev.bus.slot 9 = s.dev.cfg.legacyNs.j) ∧
    (∀ i, i = Instr.busOpenTunable p ∨ i = Instr.busOpenBuffered p q →
      ∃ t, exec i s = .next t ∧
        t.dev.bus.slot 0 = s.dev.cfg.tunableNs.a ∧ t.dev.bus.slot 1 = s.dev.cfg.tunableNs.b ∧
        t.dev.bus.slot 2 = s.dev.cfg.tunableNs.c ∧ t.dev.bus.slot 3 = s.dev.cfg.tunableNs.d ∧
        t.dev.bus.slot 4 = s.dev.cfg.tunableNs.e ∧ t.dev.bus.slot 5 = s.dev.cfg.tunableNs.f ∧
        t.dev.bus.slot 6 = s.dev.cfg.tunableNs.g ∧ t.dev.bus.slot 7 = s.dev.cfg.tunableNs.h ∧
        t.dev.bus.slot 8 = s.dev.cfg.tunableNs.i ∧ t.dev.bus.slot 9 = s.dev.cfg.tunableNs.j) ∧
    resetConfig.legacyNs =
      { a := 1000, b := 60000, c := 60000, d := 1000, e := 0, f := 60000, g := 0, h := 480000, i := 60000,
        j := 420000 } ∧
    resetConfig.tunableNs =
      { a := 6000, b := 64000, c := 60000, d := 10000, e := 9000, f := 55000, g := 0, h := 480000, i := 70000,
        j := 410000 }

/-- Rules R184 and R185: a simple-mode bus is bound to its pin with no second pin, the pin is exported where that is
needed, and the line is released wherever the pin can be driven; the outcome is OK or, only when the export was
exhausted, `ResourceUnavailable`. Under the register backend the bits of the pin that make it an input are all that is
stored (the other bits of a word with `in` bits: assumption log, entry 7); under the filesystem backend the direction of a
pin that ended exported is the one string written to a pin's file, and the settings of all other pins stay (the setting
behind the file: entry 12; that the settings outlast the write to `export`: entry 27). With an invalid pin, or one that is exported already, the outcome is OK (rule R292). -/
def Obligations.OpenSimpleBus : Prop :=
  ∀ (s : State) (p : Byte) (i : Instr) (c : BusCfg), s.dev.bus.bound = false → s.dev.env.page.wf = true →
    i = .busOpenLegacy p ∧ c = .legacy ∨ i = .busOpenTunable p ∧ c = .tunable →
    ∃ t e, exec i s = .next t ∧ s.EndsAs t e s.r0 s.r1 ∧ t.dev.bus.bound = true ∧ t.dev.bus.cfg = c ∧
      t.dev.bus.pinIo = p ∧ t.dev.bus.pinOut.toInt = -1 ∧ t.dev.crc = s.dev.crc ∧
      (e = .ok ∨ e = .resourceUnavailable ∧ s.dev.gpio.backend = .filesystem) ∧
      t.dev.gpio.backend = s.dev.gpio.backend ∧ t.dev.gpio.hExport = s.dev.gpio.hExport ∧
      t.dev.gpio.hUnexport = s.dev.gpio.hUnexport ∧
      (∀ j, pinIndex p ≠ some j → t.dev.gpio.pin j = s.dev.gpio.pin j) ∧
      (s.dev.gpio.backend = .filesystem → ∀ j x, validPin s.dev.cfg p = some (j, x) →
        ((t.dev.gpio.pin j).exported = true ↔ e = .ok)) ∧
      (validPin s.dev.cfg p = none → e = .ok) ∧
      (∀ j x, validPin s.dev.cfg p = some (j, x) → (s.dev.gpio.pin j).exported = true → e = .ok) ∧
      (t.dev.Drivable p → t.dev.released = true) ∧
      (usablePin t.dev p = none →
        (∀ a, Memory.read t.dev.env.page a = Memory.read s.dev.env.page a) ∧
        t.dev.env.settings = s.dev.env.settings) ∧
      (s.dev.gpio.backend = .register →
        State.StoresBits (match usablePin s.dev p with
          | none => []
          | some (_, x) => [(x.mux, s.dev.cfg.muxGpioLevel), (x.fsel, !s.dev.cfg.fselOutputLevel)]) s t) ∧
      (∀ j, (∀ x, usablePin t.dev p ≠ some (j, x)) → t.dev.env.setting j = s.dev.env.setting j) ∧
      (s.dev.gpio.backend = .filesystem → (∀ j, (s.dev.gpio.pin j).settled = true) →
        (s.dev.traceSince t.dev).filterMap Action.pinWrite =
          (match usablePin t.dev p with | none => [] | some (j, _) => [(j, .direction, "in")]) ∧
        ∀ j x, usablePin t.dev p = some (j, x) →
          t.dev.env.setting j = { s.dev.env.setting j with mode := .input })

/-- Rule R187: a buffered bus is bound to its two pins, both exports are attempted, the second also where the first was
exhausted (the lines `export` receives, and the opens of each pin's files), the input pin is made an input, the
output pin is made an output and released. Under the register backend the bits of the pins that are usable, each for
itself, are all that is stored (the other bits of a word with `in` bits: assumption log, entry 7); under the filesystem
backend the strings of the pins that ended exported are all that is written to a pin's file, and the settings of all other
pins stay (the settings behind the files: entry 12; that the settings outlast the write to `export`: entry 27). The outcome is OK where neither pin needs an export: an invalid pin
or one that is exported already is no failure (rule R292). -/
def Obligations.OpenBufferedBus : Prop :=
  ∀ (s : State) (p q : Byte), s.dev.bus.bound = false → s.dev.env.page.wf = true →
    ∃ t e, exec (.busOpenBuffered p q) s = .next t ∧ s.EndsAs t e s.r0 s.r1 ∧ t.dev.bus.bound = true ∧
      t.dev.bus.cfg = .buffered ∧ t.dev.bus.pinIo = p ∧ t.dev.bus.pinOut = q ∧ t.dev.crc = s.dev.crc ∧
      (e = .ok ∨ e = .resourceUnavailable ∧ s.dev.gpio.backend = .filesystem) ∧
      t.dev.gpio.backend = s.dev.gpio.backend ∧ t.dev.gpio.hExport = s.dev.gpio.hExport ∧
      t.dev.gpio.hUnexport = s.dev.gpio.hUnexport ∧
      (∀ j, pinIndex p ≠ some j → pinIndex q ≠ some j → t.dev.gpio.pin j = s.dev.gpio.pin j) ∧
      (s.dev.gpio.backend = .filesystem → e = .ok →
        (∀ j x, validPin s.dev.cfg p = some (j, x) → (t.dev.gpio.pin j).exported = true) ∧
        ∀ j x, validPin s.dev.cfg q = some (j, x) → (t.dev.gpio.pin j).exported = true) ∧
      ((∀ j x, validPin s.dev.cfg p = some (j, x) → (s.dev.gpio.pin j).exported = true) →
        (∀ j x, validPin s.dev.cfg q = some (j, x) → (s.dev.gpio.pin j).exported = true) → e = .ok) ∧
      (e ≠ .ok → p ≠ q → ∃ j x, (validPin s.dev.cfg p = some (j, x) ∨ validPin s.dev.cfg q = some (j, x)) ∧
        (t.dev.gpio.pin j).exported = false) ∧
      (s.dev.gpio.backend = .filesystem → s.dev.gpio.hExport = .opened → p ≠ q →
        (s.dev.traceSince t.dev).filterMap Action.exports = s.dev.exportLine p ++ s.dev.exportLine q) ∧
      (s.dev.gpio.backend = .filesystem → 0 < s.dev.cfg.exportAttempts → ∀ j x f,
        validPin s.dev.cfg p = some (j, x) ∨ validPin s.dev.cfg q = some (j, x) →
        (s.dev.gpio.pin j).exported = false → ∃ ok, .fileOpen (.pinFile j f) ok ∈ s.dev.traceSince t.dev) ∧
      (t.dev.Drivable q → t.dev.released = true ∧ t.dev.pinMode q = some .output) ∧
      (s.dev.gpio.backend = .register →
        State.StoresBits
          ((match usablePin s.dev p with
            | none => []
            | some (_, x) => [(x.mux, s.dev.cfg.muxGpioLevel), (x.fsel, !s.dev.cfg.fselOutputLevel)]) ++
          (match usablePin s.dev q with
            | none => []
            | some (_, y) => [(y.mux, s.dev.cfg.muxGpioLevel), (y.fsel, s.dev.cfg.fselOutputLevel),
              (y.out, if s.dev.cfg.bufAssertLevel then !s.dev.cfg.outHighLevel else s.dev.cfg.outHighLevel)])) s t) ∧
      (∀ j, (∀ x, usablePin t.dev p ≠ some (j, x)) → (∀ x, usablePin t.dev q ≠ some (j, x)) →
        t.dev.env.setting j = s.dev.env.setting j) ∧
      (s.dev.gpio.backend ≠ .register → ∀ a, Memory.read t.dev.env.page a = Memory.read s.dev.env.page a) ∧
      (s.dev.gpio.backend = .filesystem → (∀ j, (s.dev.gpio.pin j).settled = true) →
        (s.dev.traceSince t.dev).filterMap Action.pinWrite =
          (match usablePin t.dev p with | none => [] | some (j, _) => [(j, .direction, "in")]) ++
          (match usablePin t.dev q with
            | none => []
            | some (k, _) => [(k, .direction, "out"), (k, .value, if s.dev.cfg.bufAssertLevel then "0" else "1")]) ∧
        (∀ j x, usablePin t.dev p = some (j, x) → pinIndex q ≠ some j →
          t.dev.env.setting j = { s.dev.env.setting j with mode := .input }) ∧
        ∀ k y, usablePin t.dev q = some (k, y) →
          t.dev.env.setting k = { s.dev.env.setting k with mode := .output, level := !s.dev.cfg.bufAssertLevel })

/-- Rule R188: `busClose` gives its pin back, and in buffered mode its second pin after it, with the three closes and the
line to `unexport` of each; it unbinds, does not release the line, and the slots keep their values. That the settings of
the pins stay when `unexport` is written is the model's choice but for the line (assumption log, entry 27). -/
def Obligations.CloseBus : Prop :=
  ∀ s : State, s.dev.bus.bound = true →
    ∃ t, exec .busClose s = .next t ∧ s.EndsAs t .ok s.r0 s.r1 ∧ t.dev.bus.bound = false ∧ t.dev.bus.cfg = .legacy ∧
      t.dev.bus.pinIo.toInt = -1 ∧ t.dev.bus.pinOut.toInt = -1 ∧ t.dev.bus.slots = s.dev.bus.slots ∧
      t.dev.crc = s.dev.crc ∧ s.dev.env.SamePins t.dev.env ∧
      (s.dev.gpio.backend ≠ .filesystem → t.dev.gpio = s.dev.gpio ∧ s.dev.traceSince t.dev = []) ∧
      (s.dev.gpio.backend = .filesystem → (∀ j, (s.dev.gpio.pin j).settled = true) →
        s.dev.traceSince t.dev = s.dev.giveBack s.dev.bus.pinIo ++
          (if s.dev.bus.cfg = .buffered ∧ s.dev.bus.pinOut ≠ s.dev.bus.pinIo then s.dev.giveBack s.dev.bus.pinOut
          else [])) ∧
      t.dev.gpio.backend = s.dev.gpio.backend ∧ t.dev.gpio.hExport = s.dev.gpio.hExport ∧
      t.dev.gpio.hUnexport = s.dev.gpio.hUnexport ∧
      (s.dev.gpio.backend = .filesystem → ∀ j x,
        validPin s.dev.cfg s.dev.bus.pinIo = some (j, x) ∨
          s.dev.bus.cfg = .buffered ∧ validPin s.dev.cfg s.dev.bus.pinOut = some (j, x) →
        (t.dev.gpio.pin j).exported = false) ∧
      (∀ j, pinIndex s.dev.bus.pinIo ≠ some j → (s.dev.bus.cfg = .buffered → pinIndex s.dev.bus.pinOut ≠ some j) →
        t.dev.gpio.pin j = s.dev.gpio.pin j)

/-- Rules R189 and R190: `setSlot` stores the latched operand as given in the one slot it names; `getSlot` returns the
slot it names. -/
def Obligations.SlotsAreStoredAndRead : Prop :=
  ∀ (s : State) (n : BitVec 4) (k : Fin 10), s.dev.bus.bound = true → n.toNat = k.val →
    (∃ t, exec (.setSlot n) s = .next t ∧ s.EndsAs t .ok s.r0 s.r1 ∧ t.dev.bus.slot k = s.opL0 ∧
      (∀ j, j ≠ k → t.dev.bus.slot j = s.dev.bus.slot j) ∧ t.dev.bus.bound = true ∧
      t.dev.bus.cfg = s.dev.bus.cfg ∧ t.dev.bus.pinIo = s.dev.bus.pinIo ∧ t.dev.bus.pinOut = s.dev.bus.pinOut ∧
      t.dev.gpio = s.dev.gpio ∧ t.dev.crc = s.dev.crc ∧ s.dev.env.SamePins t.dev.env ∧ s.dev.traceSince t.dev = []) ∧
    (∃ t, exec (.getSlot n) s = .next t ∧ s.NoEffect t .ok (s.dev.bus.slot k) s.r1)

/-- Rules R181 and R191: simple mode makes the pin an input, buffered mode writes the release level to the output pin,
through the page or through one file, for every usable pin; where the pin can be driven the line is then released. On a
pin that is not usable `pullUp` has no effect. DEDUCED are that the other bits of a word with `in` bits stay (assumption
log, entry 7), that the setting behind a file is what was written to it (entry 12) and that the multiplexer is no part of
the view of the line (entry 23); the model's choice are that the clock stands still (entry 14) and that a write to `value`
leaves its read position (entry 26). -/
def Obligations.PullUpReleases : Prop :=
  (∀ s : State, s.dev.bus.bound = true → usablePin s.dev s.dev.bus.drivePin = none →
    ∃ t, exec .pullUp s = .next t ∧ s.NoEffect t .ok s.r0 s.r1) ∧
  ∀ (s : State) (i : Fin 64) (e : PinEntry), s.dev.bus.bound = true →
    usablePin s.dev s.dev.bus.drivePin = some (i, e) →
    (s.dev.gpio.backend = .register → s.dev.env.page.wf = true) →
    ∃ t, exec .pullUp s = .next t ∧ s.EndsAs t .ok s.r0 s.r1 ∧ s.dev.SameUnits t.dev ∧
      t.dev.env.clk = s.dev.env.clk ∧
      (s.dev.Drivable s.dev.bus.drivePin → t.dev.released = true ∧ t.dev.asserted = false) ∧
      (s.dev.gpio.backend = .register →
        State.StoresBits
          (if s.dev.bus.cfg = .buffered then
            [(e.out, if s.dev.cfg.bufAssertLevel then !s.dev.cfg.outHighLevel else s.dev.cfg.outHighLevel)]
          else [(e.mux, s.dev.cfg.muxGpioLevel), (e.fsel, !s.dev.cfg.fselOutputLevel)]) s t) ∧
      (s.dev.gpio.backend = .filesystem → (s.dev.gpio.pin i).settled = true →
        if s.dev.bus.cfg = .buffered then
          State.WritesFile i .value (if s.dev.cfg.bufAssertLevel then "0" else "1")
            { s.dev.env.setting i with level := !s.dev.cfg.bufAssertLevel } s t
        else State.WritesFile i .direction "in" { s.dev.env.setting i with mode := .input } s t)

/-- Rules R182 and R192: simple mode makes the pin an output and then writes level 0, buffered mode writes the assert level
to the output pin, through the page or through the pin's files, for every usable pin; where the pin can be driven the
line is then asserted and stays so. On a pin that is not usable `pullDown` has no effect. DEDUCED are that the other bits
of a word with `in` bits stay (assumption log, entry 7), that the settings behind the files are what was written to them
(entry 12) and that the multiplexer is no part of the view of the line (entry 23); the model's choice are that the clock
stands still (entry 14) and that a write to `value` leaves its read position (entry 26). -/
def Obligations.PullDownAsserts : Prop :=
  (∀ s : State, s.dev.bus.bound = true → usablePin s.dev s.dev.bus.drivePin = none →
    ∃ t, exec .pullDown s = .next t ∧ s.NoEffect t .ok s.r0 s.r1) ∧
  ∀ (s : State) (i : Fin 64) (e : PinEntry), s.dev.bus.bound = true →
    usablePin s.dev s.dev.bus.drivePin = some (i, e) →
    (s.dev.gpio.backend = .register → s.dev.env.page.wf = true) →
    ∃ t, exec .pullDown s = .next t ∧ s.EndsAs t .ok s.r0 s.r1 ∧ s.dev.SameUnits t.dev ∧
      t.dev.env.clk = s.dev.env.clk ∧
      (s.dev.Drivable s.dev.bus.drivePin → t.dev.asserted = true ∧ t.dev.released = false) ∧
      (s.dev.gpio.backend = .register →
        State.StoresBits
          (if s.dev.bus.cfg = .buffered then
            [(e.out, if s.dev.cfg.bufAssertLevel then s.dev.cfg.outHighLevel else !s.dev.cfg.outHighLevel)]
          else [(e.mux, s.dev.cfg.muxGpioLevel), (e.fsel, s.dev.cfg.fselOutputLevel),
            (e.out, !s.dev.cfg.outHighLevel)]) s t) ∧
      (s.dev.gpio.backend = .filesystem → (s.dev.gpio.pin i).settled = true →
        if s.dev.bus.cfg = .buffered then
          State.WritesFile i .value (if s.dev.cfg.bufAssertLevel then "1" else "0")
            { s.dev.env.setting i with level := s.dev.cfg.bufAssertLevel } s t
        else
          s.dev.traceSince t.dev = [.fileWrite (.pinFile i .direction) "out", .fileWrite (.pinFile i .value) "0"] ∧
          t.dev.env.setting i = { s.dev.env.setting i with mode := .output, level := false } ∧
          (∀ j, j ≠ i → t.dev.env.setting j = s.dev.env.setting j) ∧
          t.dev.env.valuePos = s.dev.env.valuePos ∧
          ∀ a, Memory.read t.dev.env.page a = Memory.read s.dev.env.page a)

/-- Rule R199: the master's line trace of each protocol operation. In each pair of flags the first says that the line is
asserted by the master for the length of the wait, the second that it is released, where the drive pin can be driven
(under the filesystem backend by the settings last written: assumption log, entry 12; the multiplexer is no part of the
view: entry 23). After that, for every bus, the whole sequence of actions of each operation but for the values: where the
line is asserted and released, where each wait stands, and where the one sample of a slot stands, which is after the wait
of slot e and before that of slot f in a read slot, and after the wait of slot i in `reset`. Last, each wait on its own
lasts at least its duration from its first clock read to its last, none of which stands before the action the wait
follows, and at most `OVERRUN_MAX_NS` longer where that is given (rule R169): so every segment lasts its time. -/
def Obligations.MasterLineTrace : Prop :=
  resetConfig.settleNs = 100000 ∧
  (∀ s : State, s.dev.bus.bound = true → s.dev.Drivable s.dev.bus.drivePin →
    (∃ t, exec (.writeBit true) s = .next t ∧ s.dev.segments (s.dev.actionsSince t.dev) =
      [(true, false, s.dev.slotWait slotA), (false, true, s.dev.slotWait slotB)]) ∧
    (∃ t, exec (.writeBit false) s = .next t ∧ s.dev.segments (s.dev.actionsSince t.dev) =
      [(true, false, s.dev.slotWait slotC), (false, true, s.dev.slotWait slotD)]) ∧
    (∃ t, exec .readBit s = .next t ∧ s.dev.segments (s.dev.actionsSince t.dev) =
      [(true, false, s.dev.slotWait slotA), (false, true, s.dev.slotWait slotE), (false, true, s.dev.slotWait slotF)]) ∧
    (∀ v, ∃ t, exec (.writeByte v) s = .next t ∧ s.dev.segments (s.dev.actionsSince t.dev) =
      ((List.range 8).flatMap fun k =>
        if v.getLsbD k then [(true, false, s.dev.slotWait slotA), (false, true, s.dev.slotWait slotB)]
        else [(true, false, s.dev.slotWait slotC), (false, true, s.dev.slotWait slotD)]) ++
      [(false, true, clampNs s.dev.cfg s.dev.cfg.settleNs)]) ∧
    (∃ t, exec .readByte s = .next t ∧ s.dev.segments (s.dev.actionsSince t.dev) =
      (List.replicate 8 [(true, false, s.dev.slotWait slotA), (false, true, s.dev.slotWait slotE),
        (false, true, s.dev.slotWait slotF)]).flatten) ∧
    (∃ t, exec .reset s = .next t ∧ s.dev.segments (s.dev.actionsSince t.dev) =
      [(false, true, s.dev.slotWait slotG), (true, false, s.dev.slotWait slotH), (false, true, s.dev.slotWait slotI)] ++
      (if t.r0 = 1 then [(false, true, s.dev.slotWait slotJ)] else []))) ∧
  (∀ s : State, s.dev.bus.bound = true →
    (∀ b, ∃ t, exec (.writeBit b) s = .next t ∧ (s.dev.traceSince t.dev).map Action.outline =
      s.dev.assertOutline ++ [.wait (s.dev.slotWait (if b then slotA else slotC))] ++
      s.dev.releaseOutline ++ [.wait (s.dev.slotWait (if b then slotB else slotD))]) ∧
    (∃ t, exec .readBit s = .next t ∧ (s.dev.traceSince t.dev).map Action.outline =
      s.dev.assertOutline ++ [.wait (s.dev.slotWait slotA)] ++ s.dev.releaseOutline ++
      [.wait (s.dev.slotWait slotE)] ++ s.dev.sampleOutline ++ [.wait (s.dev.slotWait slotF)]) ∧
    (∀ v, ∃ t, exec (.writeByte v) s = .next t ∧ (s.dev.traceSince t.dev).map Action.outline =
      ((List.range 8).flatMap fun k =>
        s.dev.assertOutline ++ [.wait (s.dev.slotWait (if v.getLsbD k then slotA else slotC))] ++
        s.dev.releaseOutline ++ [.wait (s.dev.slotWait (if v.getLsbD k then slotB else slotD))]) ++
      [.wait (clampNs s.dev.cfg s.dev.cfg.settleNs)]) ∧
    (∃ t, exec .readByte s = .next t ∧ (s.dev.traceSince t.dev).map Action.outline =
      (List.replicate 8 (s.dev.assertOutline ++ [.wait (s.dev.slotWait slotA)] ++ s.dev.releaseOutline ++
        [.wait (s.dev.slotWait slotE)] ++ s.dev.sampleOutline ++ [.wait (s.dev.slotWait slotF)])).flatten) ∧
    (∃ t, exec .reset s = .next t ∧ (s.dev.traceSince t.dev).map Action.outline =
      s.dev.releaseOutline ++ [.wait (s.dev.slotWait slotG)] ++ s.dev.assertOutline ++
      [.wait (s.dev.slotWait slotH)] ++ s.dev.releaseOutline ++ [.wait (s.dev.slotWait slotI)] ++
      s.dev.sampleOutline ++ (if t.r0 = 1 then [.wait (s.dev.slotWait slotJ)] else []))) ∧
  (∀ (s : State) (i : Instr), s.dev.bus.bound = true →
    i = .reset ∨ (∃ b, i = .writeBit b) ∨ (∃ v, i = .writeByte v) ∨ i = .readBit ∨ i = .readByte →
    ∃ t, exec i s = .next t ∧ ∀ n ts, (n, ts) ∈ waitReads [] (s.dev.actionsSince t.dev) →
      ∃ first last, ts.head? = some first ∧ ts.getLast? = some last ∧ first + n ≤ last ∧
        ∀ m, s.dev.cfg.overrunMaxNs = some m → last ≤ first + n + m)

/-- Rule R200: every protocol operation ends with the line released by the master, whatever state it found. Under the
filesystem backend the line is what the settings say that were last written (assumption log, entry 12), and the
multiplexer is no part of the view (entry 23). -/
def Obligations.ProtocolOperationsEndReleased : Prop :=
  ∀ (s : State) (i : Instr), s.dev.bus.bound = true → s.dev.Drivable s.dev.bus.drivePin →
    i = .reset ∨ (∃ b, i = .writeBit b) ∨ (∃ v, i = .writeByte v) ∨ i = .readBit ∨ i = .readByte →
    ∃ t, exec i s = .next t ∧ t.dev.released = true ∧ t.dev.asserted = false

/-- Rules R38, R60 and R182: a line or protocol operation changes no bit of the page that is no `in` bit, but for the three
bits by which the drive pin is driven; no byte outside the words of those three bits; the settings of no pin but the
drive pin; the read position of no pin but the one it samples; and no unit. That the other bits of a word with `in` bits
stay is DEDUCED (assumption log, entry 7), and that a write to the drive pin's `value` file leaves its read position is the
model's choice (entry 26). -/
def Obligations.LineOperationsTouchOnlyTheDrivePin : Prop :=
  ∀ (s t : State) (i : Instr), s.dev.env.page.wf = true →
    i = .pullUp ∨ i = .pullDown ∨ i = .reset ∨ (∃ b, i = .writeBit b) ∨ (∃ v, i = .writeByte v) ∨ i = .readBit ∨
      i = .readByte →
    exec i s = .next t →
    s.dev.SameUnits t.dev ∧
    (∀ a, (∀ j e, usablePin s.dev s.dev.bus.drivePin = some (j, e) →
        a / 4 ≠ e.mux / 32 ∧ a / 4 ≠ e.fsel / 32 ∧ a / 4 ≠ e.out / 32) →
      Memory.read t.dev.env.page a = Memory.read s.dev.env.page a) ∧
    (∀ x, (s.dev.cfg.inMask (x / 32)).getLsbD (x % 32) = false →
      (∀ j e, usablePin s.dev s.dev.bus.drivePin = some (j, e) → x ≠ e.mux ∧ x ≠ e.fsel ∧ x ≠ e.out) →
      t.dev.pageBit x = s.dev.pageBit x) ∧
    (∀ j, (∀ e, usablePin s.dev s.dev.bus.drivePin ≠ some (j, e)) → t.dev.env.setting j = s.dev.env.setting j) ∧
    (∀ j, (∀ e, usablePin s.dev s.dev.bus.pinIo ≠ some (j, e)) → t.dev.env.position j = s.dev.env.position j)

/-- Rule R193: `reset` answers 1 with outcome OK and waits slot j when the sample is low; else, also when no sample can
be taken, it answers 0 with outcome `NoPresence` and waits no slot j. -/
def Obligations.ResetReportsPresence : Prop :=
  ∀ (s : State) (v : Level), s.dev.bus.bound = true → s.dev.QuietDrive → s.dev.sampleAt 0 = some v →
    ∃ t, exec .reset s = .next t ∧ s.dev.SameUnits t.dev ∧
      (v = .low → s.EndsAs t .ok 1 s.r1 ∧
        s.dev.waitsSince t.dev =
          [s.dev.slotWait slotG, s.dev.slotWait slotH, s.dev.slotWait slotI, s.dev.slotWait slotJ] ∧
        s.dev.env.clk + s.dev.slotWait slotG + s.dev.slotWait slotH + s.dev.slotWait slotI + s.dev.slotWait slotJ ≤
          t.dev.env.clk) ∧
      (v ≠ .low → s.EndsAs t .noPresence 0 s.r1 ∧
        s.dev.waitsSince t.dev = [s.dev.slotWait slotG, s.dev.slotWait slotH, s.dev.slotWait slotI] ∧
        s.dev.env.clk + s.dev.slotWait slotG + s.dev.slotWait slotH + s.dev.slotWait slotI ≤ t.dev.env.clk)

/-- Rules R194, R195 and R73: `writeBit` waits slots a and b for a 1, c and d for a 0; `writeByte` sends bit 0 first and
bit 7 last, then waits the settle time `T_SETTLE`; they return nothing and cannot fail. -/
def Obligations.WriteBitAndWriteByte : Prop :=
  resetConfig.settleNs = 100000 ∧
  ∀ s : State, s.dev.bus.bound = true →
    (∀ b, ∃ t, exec (.writeBit b) s = .next t ∧ s.EndsAs t .ok s.r0 s.r1 ∧ s.dev.SameUnits t.dev ∧
      s.dev.waitsSince t.dev = (if b then [s.dev.slotWait slotA, s.dev.slotWait slotB]
        else [s.dev.slotWait slotC, s.dev.slotWait slotD]) ∧
      s.dev.env.clk + (s.dev.waitsSince t.dev).sum ≤ t.dev.env.clk) ∧
    (∀ v : Byte, ∃ t, exec (.writeByte v) s = .next t ∧ s.EndsAs t .ok s.r0 s.r1 ∧ s.dev.SameUnits t.dev ∧
      s.dev.waitsSince t.dev =
        ((List.range 8).flatMap fun k => if v.getLsbD k then [s.dev.slotWait slotA, s.dev.slotWait slotB]
          else [s.dev.slotWait slotC, s.dev.slotWait slotD]) ++ [min s.dev.cfg.settleNs s.dev.cfg.delayMaxNs] ∧
      s.dev.env.clk + (s.dev.waitsSince t.dev).sum ≤ t.dev.env.clk)

/-- Rules R196 and R183: `readBit` returns 0 when the sample is low and else 1, also where no sample can be taken. -/
def Obligations.ReadBitReturnsTheSample : Prop :=
  ∀ (s : State) (v : Level), s.dev.bus.bound = true → s.dev.QuietDrive → s.dev.sampleAt 0 = some v →
    ∃ t, exec .readBit s = .next t ∧ s.EndsAs t .ok (if v = .low then 0 else 1) s.r1 ∧ s.dev.SameUnits t.dev ∧
      s.dev.waitsSince t.dev = [s.dev.slotWait slotA, s.dev.slotWait slotE, s.dev.slotWait slotF] ∧
      s.dev.env.clk + (s.dev.waitsSince t.dev).sum ≤ t.dev.env.clk

/-- Rules R197 and R73: `readByte` assembles eight samples, the first one bit 0; no settle wait follows. -/
def Obligations.ReadByteLsbFirst : Prop :=
  ∀ (s : State) (vs : Nat → Level), s.dev.bus.bound = true → s.dev.QuietDrive →
    (∀ k, k < 8 → s.dev.sampleAt k = some (vs k)) →
    ∃ t x, exec .readByte s = .next t ∧ s.EndsAs t .ok (byteWord x) s.r1 ∧
      (∀ k, k < 8 → x.getLsbD k = decide (vs k ≠ .low)) ∧ s.dev.SameUnits t.dev ∧
      s.dev.waitsSince t.dev =
        (List.replicate 8 [s.dev.slotWait slotA, s.dev.slotWait slotE, s.dev.slotWait slotF]).flatten ∧
      s.dev.env.clk + (s.dev.waitsSince t.dev).sum ≤ t.dev.env.clk

/-! ## CRC unit -/

/-- Rule R237: the table form and the bit-serial form of the update are equal for every accumulator and byte, and the
table is the serial form from accumulator 0. -/
def Obligations.CrcTableIsTheSerialForm : Prop :=
  (∀ c b : Byte, crcStep c b = crcStepSerial c b) ∧
  (∀ k, k < 256 → crcTable[k]? = some (crcStepSerial 0 (BitVec.ofNat 8 k)))

/-- Rule R236: a sequence followed by its own CRC has CRC 0; two sequences that differ in one byte have different CRCs;
zeros have CRC 0; eight and nine bytes of 0xFF have CRC 0xC9 and 0x63. -/
def Obligations.CrcProperties : Prop :=
  (∀ s : List Byte, crc8 (s ++ [crc8 s]) = 0) ∧
  (∀ (s t : List Byte) (x y : Byte), x ≠ y → crc8 (s ++ x :: t) ≠ crc8 (s ++ y :: t)) ∧
  (∀ c x y : Byte, crcStep c x = crcStep c y → x = y) ∧ (∀ k, k < 256 → BitVec.ofNat 8 k ∈ crcTable) ∧
  (∀ n, crc8 (List.replicate n 0) = 0) ∧ crc8 (List.replicate 8 0xFF) = 0xC9 ∧ crc8 (List.replicate 9 0xFF) = 0x63

/-- Rules R233, R234 and R235: the three CRC commands, and that they touch nothing but the accumulator and `R0`: no other
unit, no pin, no queued answer of the environment, no external action, and not the clock, since time passes where it is
read (the model's choice: assumption log, entry 14). -/
def Obligations.CrcCommands : Prop :=
  ∀ s : State,
    (∃ t, exec .crcReset s = .next t ∧ s.EndsAs t .ok s.r0 s.r1 ∧ t.dev.crc = 0 ∧ t.dev.gpio = s.dev.gpio ∧
      t.dev.bus = s.dev.bus ∧ s.dev.env.SamePins t.dev.env ∧ t.dev.env.clk = s.dev.env.clk ∧
      t.dev.env.draws = s.dev.env.draws ∧ ∀ a ∈ s.dev.actionsSince t.dev, a.isOwn = true) ∧
    (∀ v, ∃ t, exec (.crcUpdate v) s = .next t ∧ s.EndsAs t .ok (byteWord t.dev.crc) s.r1 ∧
      crcTable[(s.dev.crc ^^^ v).toNat]? = some t.dev.crc ∧ t.dev.gpio = s.dev.gpio ∧ t.dev.bus = s.dev.bus ∧
      s.dev.env.SamePins t.dev.env ∧ t.dev.env.clk = s.dev.env.clk ∧ t.dev.env.draws = s.dev.env.draws ∧
      ∀ a ∈ s.dev.actionsSince t.dev, a.isOwn = true) ∧
    (s.dev.crc = 0 → ∃ t, exec .crcValid s = .next t ∧ s.NoEffect t .ok 1 s.r1) ∧
    (s.dev.crc ≠ 0 → ∃ t, exec .crcValid s = .next t ∧ s.NoEffect t .integrityFailure 0 s.r1)
end

