-- ==== Sys2Proof/Laws/Decode.lean ====
section
/-! SUPPORT. The fields of a word put together from fields, and the small operand codes (rules R90 to R93). -/

namespace Sys2Proof

/-! ## Fields of an assembled word -/

section Fields
variable (o p q v : Byte)

@[simp] theorem opcField_formatC : opcField (formatC o p q v) = o := by
  apply BitVec.eq_of_getLsbD_eq
  intro i hi
  have h1 : ¬ 24 + i < 8 := by omega
  have h2 : ¬ 24 + i - 8 < 8 := by omega
  have h3 : ¬ 24 + i - 8 - 8 < 8 := by omega
  simp only [opcField, formatC, BitVec.getLsbD_extractLsb', BitVec.getLsbD_append, hi, h1, h2, h3, decide_true,
    Bool.true_and]
  simp only [if_false]
  congr 1; omega

@[simp] theorem pField_formatC : pField (formatC o p q v) = p := by
  apply BitVec.eq_of_getLsbD_eq
  intro i hi
  have h1 : ¬ 16 + i < 8 := by omega
  have h2 : ¬ 16 + i - 8 < 8 := by omega
  have h3 : 16 + i - 8 - 8 < 8 := by omega
  simp only [pField, formatC, BitVec.getLsbD_extractLsb', BitVec.getLsbD_append, hi, h1, h2, h3, decide_true,
    Bool.true_and]
  simp only [if_true, if_false]
  congr 1; omega

@[simp] theorem qField_formatC : qField (formatC o p q v) = q := by
  apply BitVec.eq_of_getLsbD_eq
  intro i hi
  have h1 : ¬ 8 + i < 8 := by omega
  have h2 : 8 + i - 8 < 8 := by omega
  simp only [qField, formatC, BitVec.getLsbD_extractLsb', BitVec.getLsbD_append, hi, h1, h2, decide_true,
    Bool.true_and]
  simp only [if_true, if_false]
  congr 1; omega

@[simp] theorem vField_formatC : vField (formatC o p q v) = v := by
  apply BitVec.eq_of_getLsbD_eq
  intro i hi
  have h1 : 0 + i < 8 := by omega
  simp only [vField, formatC, BitVec.getLsbD_extractLsb', BitVec.getLsbD_append, hi, h1, decide_true, Bool.true_and]
  simp only [if_true]
  congr 1; omega

/-- Decoding an assembled word looks at its fields. -/
theorem decode_formatC : decode (formatC o p q v) = decodeFields o p q v := by
  simp [decode]

end Fields

/-- A word is its four fields (rule R90). -/
theorem formatC_fields (w : Word) : formatC (opcField w) (pField w) (qField w) (vField w) = w := by
  apply BitVec.eq_of_getLsbD_eq
  intro i hi
  simp only [formatC, opcField, pField, qField, vField, BitVec.getLsbD_append, BitVec.getLsbD_extractLsb']
  by_cases h1 : i < 8
  · simp [h1]
  · by_cases h2 : i - 8 < 8
    · simp [h1, h2]; congr 1; omega
    · by_cases h3 : i - 8 - 8 < 8
      · simp [h1, h2, h3]; congr 1; omega
      · have h4 : i - 8 - 8 - 8 < 8 := by omega
        simp [h1, h2, h3, h4]; congr 1; omega

/-- A word masked field by field. -/
theorem formatC_and (o p q v o' p' q' v' : Byte) :
    formatC o p q v &&& formatC o' p' q' v' = formatC (o &&& o') (p &&& p') (q &&& q') (v &&& v') := by
  apply BitVec.eq_of_getLsbD_eq
  intro i _
  simp only [formatC, BitVec.getLsbD_and, BitVec.getLsbD_append]
  by_cases h1 : i < 8
  · simp [h1]
  · by_cases h2 : i - 8 < 8
    · simp [h1, h2]
    · by_cases h3 : i - 8 - 8 < 8
      · simp [h1, h2, h3]
      · simp [h1, h2, h3]

/-- When a row covers an assembled word, field by field (rule R91). -/
theorem covers_formatC (r : OpRow) (o p q v mo mp mq mv : Byte) (hm : r.mask = formatC mo mp mq mv)
    (hv : r.value = formatC (o &&& mo) (p &&& mp) (q &&& mq) (v &&& mv))
    (hs : r.slotBound = false ∨ slotOk (q.extractLsb' 0 4) = true) : r.covers (formatC o p q v) = true := by
  have hq : (formatC o p q v).extractLsb' 8 4 = q.extractLsb' 0 4 := by
    conv_rhs => rw [← qField_formatC o p q v]
    apply BitVec.eq_of_getLsbD_eq
    intro i hi
    have h8 : i < 8 := by omega
    simp [qField, hi, h8]
  unfold OpRow.covers
  rw [hm, hv, formatC_and, hq]
  rcases hs with hs | hs <;> simp [hs]

/-! ## Operand codes -/

@[simp] theorem bit0_bitV (b : Bool) : bit0 (bitV b) = b := by cases b <;> rfl
@[simp] theorem bitV_shift (b : Bool) : bitV b >>> 1 = 0 := by cases b <;> rfl
@[simp] theorem modeOf_modeV (m : PinMode) : modeOf (modeV m) = m := by cases m <;> rfl
@[simp] theorem modeV_shift (m : PinMode) : modeV m >>> 1 = 0 := by cases m <;> rfl
@[simp] theorem slotQ_low (n : BitVec 4) : (slotQ n).extractLsb' 0 4 = n := by revert n; decide
@[simp] theorem slotQ_high (n : BitVec 4) : (slotQ n).extractLsb' 4 4 = 0 := by revert n; decide

end Sys2Proof
end

