-- ==== Sys2Proof/Laws/Memory.lean ====
section
/-! SUPPORT. The laws of the page's memory: every operation keeps the canonical form, and a read sees the last write to
its own place and no other (rules R62, R70, R74). -/

namespace Sys2Proof.Machine

open Sys2Proof

theorem wfFrom_mono {m : Memory} {lo lo' : Nat} (h : lo' ≤ lo) (hm : m.wfFrom lo = true) : m.wfFrom lo' = true := by
  cases m with
  | nil => rfl
  | cons c m =>
    obtain ⟨a, v⟩ := c
    simp only [Memory.wfFrom, Bool.and_eq_true, decide_eq_true_eq] at hm ⊢
    exact ⟨⟨by omega, hm.1.2⟩, hm.2⟩

theorem wfFrom_cell_append {m : Memory} {lo a : Nat} {v : Byte} (hlo : lo ≤ a) (hm : m.wfFrom (a + 1) = true) :
    Memory.wfFrom (Memory.cell a v ++ m) lo = true := by
  unfold Memory.cell
  split
  · exact wfFrom_mono (by omega) hm
  · rename_i hv
    simp [Memory.wfFrom, hlo, hv, hm]

/-- A write keeps the canonical form. -/
theorem write_wfFrom {m : Memory} {lo a : Nat} {v : Byte} (hlo : lo ≤ a) (hm : m.wfFrom lo = true) :
    Memory.wfFrom (Memory.write m a v) lo = true := by
  induction m generalizing lo with
  | nil =>
    have := wfFrom_cell_append (m := []) (v := v) hlo rfl
    simpa [Memory.write] using this
  | cons c m ih =>
    obtain ⟨b, u⟩ := c
    simp only [Memory.wfFrom, Bool.and_eq_true, decide_eq_true_eq] at hm
    obtain ⟨⟨hb, hu⟩, hm⟩ := hm
    simp only [Memory.write]
    split
    · exact wfFrom_cell_append hlo (by simp [Memory.wfFrom, hu, hm]; omega)
    · split
      · subst_vars
        exact wfFrom_cell_append hlo hm
      · simp only [Memory.wfFrom, Bool.and_eq_true, decide_eq_true_eq]
        exact ⟨⟨hb, hu⟩, ih (by omega) hm⟩

theorem write_wf {m : Memory} (a : Nat) (v : Byte) (hm : m.wf = true) : Memory.wf (Memory.write m a v) = true :=
  write_wfFrom (Nat.zero_le a) hm

/-- A word write keeps the canonical form. -/
theorem writeWord_wf {m : Memory} (word : Nat) (v : Word) (hm : m.wf = true) :
    Memory.wf (m.writeWord word v) = true :=
  write_wf _ _ (write_wf _ _ (write_wf _ _ (write_wf _ _ hm)))

theorem read_of_wfFrom {m : Memory} {lo a : Nat} (hm : m.wfFrom lo = true) (h : a < lo) :
    Memory.read m a = unlistedByte a := by
  induction m generalizing lo with
  | nil => rfl
  | cons c m ih =>
    obtain ⟨b, u⟩ := c
    simp only [Memory.wfFrom, Bool.and_eq_true, decide_eq_true_eq] at hm
    simp only [Memory.read]
    rw [if_neg (by omega), ih hm.2 (by omega)]

theorem read_cell_append {m : Memory} {a x : Nat} {v : Byte} :
    Memory.read (Memory.cell a v ++ m) x =
      if a = x ∧ v ≠ unlistedByte a then v else Memory.read m x := by
  unfold Memory.cell
  split <;> rename_i hv
  · simp [hv]
  · by_cases h : a = x <;> simp [Memory.read, h, hv]
    subst h; simp [hv]

/-- Reading a byte after writing one. -/
theorem read_write {m : Memory} (a x : Nat) (v : Byte) (hm : m.wf = true) :
    Memory.read (Memory.write m a v) x = if a = x then v else Memory.read m x := by
  have key : ∀ lo, m.wfFrom lo = true →
      Memory.read (Memory.write m a v) x = if a = x then v else Memory.read m x := by
    induction m with
    | nil =>
      intro lo _
      have := read_cell_append (m := []) (a := a) (x := x) (v := v)
      simp only [List.append_nil] at this
      simp only [Memory.write, this, Memory.read]
      by_cases h : a = x
      · subst h; by_cases hv : v = unlistedByte a <;> simp [hv]
      · simp [h]
    | cons c m ih =>
      obtain ⟨b, u⟩ := c
      intro lo h
      have h' := h
      simp only [Memory.wfFrom, Bool.and_eq_true, decide_eq_true_eq] at h
      have ih := ih (by exact wfFrom_mono (Nat.zero_le _) h.2)
      simp only [Memory.write]
      split
      · rename_i hab
        rw [read_cell_append]
        by_cases hax : a = x
        · subst hax
          by_cases hv : v = unlistedByte a
          · simp only [hv, ne_eq, not_true_eq_false, and_false, if_false, if_true]
            rw [← hv]
            have : Memory.wfFrom ((b, u) :: m) b = true := by
              simp only [Memory.wfFrom, Bool.and_eq_true, decide_eq_true_eq]; exact ⟨⟨Nat.le_refl _, h.1.2⟩, h.2⟩
            rw [read_of_wfFrom this hab, hv]
          · simp [hv]
        · simp [hax]
      · split
        · rename_i hab
          subst hab
          rw [read_cell_append]
          by_cases hax : a = x
          · subst hax
            by_cases hv : v = unlistedByte a
            · simp only [hv, ne_eq, not_true_eq_false, and_false, if_false, if_true]
              rw [read_of_wfFrom h.2 (Nat.lt_succ_self _)]
            · simp [hv]
          · simp [hax, Memory.read]
        · rename_i h1 h2
          simp only [Memory.read]
          rw [ih _ h.2]
          by_cases hbx : b = x
          · subst hbx; simp [h2]
          · simp [hbx]
  exact key 0 hm

theorem word_of_bytes (v : Word) :
    v.extractLsb' 24 8 ++ v.extractLsb' 16 8 ++ v.extractLsb' 8 8 ++ v.extractLsb' 0 8 = v := by
  apply BitVec.eq_of_getLsbD_eq
  intro i hi
  simp only [BitVec.getLsbD_append, BitVec.getLsbD_extractLsb']
  have : i < 32 := hi
  by_cases h1 : i < 8
  · simp [h1]
  · by_cases h2 : i - 8 < 8
    · simp [h1, h2]; congr 1; omega
    · by_cases h3 : i - 8 - 8 < 8
      · simp [h1, h2, h3]; congr 1; omega
      · have h4 : i - 8 - 8 - 8 < 8 := by omega
        simp [h1, h2, h3, h4]; congr 1; omega

theorem bytes_of_word (b3 b2 b1 b0 : Byte) :
    (b3 ++ b2 ++ b1 ++ b0 : Word).extractLsb' 0 8 = b0 ∧ (b3 ++ b2 ++ b1 ++ b0 : Word).extractLsb' 8 8 = b1 ∧
    (b3 ++ b2 ++ b1 ++ b0 : Word).extractLsb' 16 8 = b2 ∧ (b3 ++ b2 ++ b1 ++ b0 : Word).extractLsb' 24 8 = b3 := by
  refine ⟨?_, ?_, ?_, ?_⟩ <;>
  · apply BitVec.eq_of_getLsbD_eq
    intro i hi
    simp only [BitVec.getLsbD_append, BitVec.getLsbD_extractLsb', hi, decide_true, Bool.true_and]
    split <;> (try omega)
    all_goals (try (split <;> (try omega)))
    all_goals (try (split <;> (try omega)))
    all_goals (congr 1; try omega)

/-- Reading a word after writing one (rule R62). -/
theorem readWord_writeWord {m : Memory} (w x : Nat) (v : Word) (hm : m.wf = true) :
    (m.writeWord w v).readWord x = if w = x then v else m.readWord x := by
  have h1 := write_wf (4 * w) (v.extractLsb' 0 8) hm
  have h2 := write_wf (4 * w + 1) (v.extractLsb' 8 8) h1
  have h3 := write_wf (4 * w + 2) (v.extractLsb' 16 8) h2
  unfold Memory.readWord Memory.writeWord
  simp only [read_write _ _ _ h3, read_write _ _ _ h2, read_write _ _ _ h1, read_write _ _ _ hm]
  by_cases h : w = x
  · subst h
    simp only [if_true]
    rw [if_neg (by omega), if_neg (by omega), if_neg (by omega), if_neg (by omega), if_neg (by omega), if_neg (by omega)]
    exact word_of_bytes v
  · rw [if_neg h]
    simp only [if_neg (show ¬ 4 * w = 4 * x by omega)]
    repeat rw [if_neg (by omega)]

/-- A word write stores to no byte outside the word. -/
theorem read_writeWord_of_ne {m : Memory} (w a : Nat) (v : Word) (hm : m.wf = true) (h : a / 4 ≠ w) :
    Memory.read (m.writeWord w v) a = Memory.read m a := by
  have h1 := write_wf (4 * w) (v.extractLsb' 0 8) hm
  have h2 := write_wf (4 * w + 1) (v.extractLsb' 8 8) h1
  have h3 := write_wf (4 * w + 2) (v.extractLsb' 16 8) h2
  unfold Memory.writeWord
  rw [read_write _ _ _ h3, if_neg (by omega), read_write _ _ _ h2, if_neg (by omega), read_write _ _ _ h1,
    if_neg (by omega), read_write _ _ _ hm, if_neg (by omega)]

/-! ## One bit of a word (rule R63) -/

/-- The bit of a word after `putBit` (rule R63). -/
theorem getLsbD_putBit (w : Word) (i j : Nat) (v : Bool) (hi : i < 32) :
    (putBit w i v).getLsbD j = if i = j then v else w.getLsbD j := by
  unfold putBit
  by_cases hj : j < 32
  · by_cases h : i = j
    · subst h
      cases v <;> simp [hj]
    · cases v <;> simp [hj, h] <;> intros <;> omega
  · have : w.getLsbD j = false := BitVec.getLsbD_of_ge _ _ (by omega)
    rw [BitVec.getLsbD_of_ge _ _ (by omega), if_neg (by omega), this]

end Sys2Proof.Machine
end

