-- ==== Sys2Proof/Laws/State.lean ====
section
/-! SUPPORT. One lemma for each field of each update of the state, so that no later proof unfolds a record update. -/

namespace Sys2Proof.Machine

open Sys2Proof

/-! ## Numbered state -/

section Numbered
variable (g : Gpio) (i j : Fin 64) (x : PinFiles) (b : Bus) (k l : Fin 10) (v : Word) (e : Env) (p : PinSettings) (n : Nat)

/-- The files of a pin after one pin's files changed. -/
@[simp] theorem setPin_pin : (g.setPin i x).pin j = if i = j then x else g.pin j := by
  unfold Gpio.setPin Gpio.pin
  by_cases h : i = j
  · subst h; simp
  · have : (i : Nat) ≠ j := fun h' => h (Fin.ext h')
    simp [this, h]

@[simp] theorem setPin_backend : (g.setPin i x).backend = g.backend := rfl
@[simp] theorem setPin_last : (g.setPin i x).last = g.last := rfl
@[simp] theorem setPin_medium : (g.setPin i x).medium = g.medium := rfl
@[simp] theorem setPin_hExport : (g.setPin i x).hExport = g.hExport := rfl
@[simp] theorem setPin_hUnexport : (g.setPin i x).hUnexport = g.hUnexport := rfl

/-- A slot after one slot changed. -/
@[simp] theorem setSlot_slot : (b.setSlot k v).slot l = if k = l then v else b.slot l := by
  unfold Bus.setSlot Bus.slot
  by_cases h : k = l
  · subst h; simp
  · have : (k : Nat) ≠ l := fun h' => h (Fin.ext h')
    simp [this, h]

@[simp] theorem setSlot_bound : (b.setSlot k v).bound = b.bound := rfl
@[simp] theorem setSlot_cfg : (b.setSlot k v).cfg = b.cfg := rfl
@[simp] theorem setSlot_pinIo : (b.setSlot k v).pinIo = b.pinIo := rfl
@[simp] theorem setSlot_pinOut : (b.setSlot k v).pinOut = b.pinOut := rfl

/-- The settings of a pin after one pin's settings changed. -/
@[simp] theorem setSetting_setting : (e.setSetting i p).setting j = if i = j then p else e.setting j := by
  unfold Env.setSetting Env.setting
  by_cases h : i = j
  · subst h; simp
  · have : (i : Nat) ≠ j := fun h' => h (Fin.ext h')
    simp [this, h]

@[simp] theorem setSetting_page : (e.setSetting i p).page = e.page := rfl
@[simp] theorem setSetting_valuePos : (e.setSetting i p).valuePos = e.valuePos := rfl
@[simp] theorem setSetting_clk : (e.setSetting i p).clk = e.clk := rfl
@[simp] theorem setSetting_draws : (e.setSetting i p).draws = e.draws := rfl
@[simp] theorem setSetting_log : (e.setSetting i p).log = e.log := rfl

/-- The read position of a pin's `value` file after one changed. -/
@[simp] theorem setPosition_position : (e.setPosition i n).position j = if i = j then n else e.position j := by
  unfold Env.setPosition Env.position
  by_cases h : i = j
  · subst h; simp
  · have : (i : Nat) ≠ j := fun h' => h (Fin.ext h')
    simp [this, h]

@[simp] theorem setPosition_page : (e.setPosition i n).page = e.page := rfl
@[simp] theorem setPosition_settings : (e.setPosition i n).settings = e.settings := rfl
@[simp] theorem setPosition_clk : (e.setPosition i n).clk = e.clk := rfl
@[simp] theorem setPosition_draws : (e.setPosition i n).draws = e.draws := rfl
@[simp] theorem setPosition_log : (e.setPosition i n).log = e.log := rfl

end Numbered

/-- Where the settings of the pins are, while a backend is in use. -/
theorem medium_eq {g : Gpio} {b : Backend} (h : g.backend = b) (hb : b ≠ .none) : g.medium = b := by
  subst h; exact if_neg hb

/-! ## External actions and draws -/

section Units
variable (a : Action) (x : Draws) (d : Dev) (e : Env)

@[simp] theorem perform_cfg : (perform a d).cfg = d.cfg := rfl
@[simp] theorem perform_gpio : (perform a d).gpio = d.gpio := rfl
@[simp] theorem perform_bus : (perform a d).bus = d.bus := rfl
@[simp] theorem perform_crc : (perform a d).crc = d.crc := rfl
@[simp] theorem perform_env : (perform a d).env = d.env.perform a := rfl
@[simp] theorem env_perform_log : (e.perform a).log = e.log ++ [a] := rfl
@[simp] theorem env_perform_page : (e.perform a).page = (e.effect a).page := rfl
@[simp] theorem env_perform_settings : (e.perform a).settings = (e.effect a).settings := rfl
@[simp] theorem env_perform_valuePos : (e.perform a).valuePos = (e.effect a).valuePos := rfl
@[simp] theorem env_perform_clk : (e.perform a).clk = (e.effect a).clk := rfl
@[simp] theorem env_perform_draws : (e.perform a).draws = (e.effect a).draws := rfl

@[simp] theorem setDraws_cfg : (setDraws x d).cfg = d.cfg := rfl
@[simp] theorem setDraws_gpio : (setDraws x d).gpio = d.gpio := rfl
@[simp] theorem setDraws_bus : (setDraws x d).bus = d.bus := rfl
@[simp] theorem setDraws_crc : (setDraws x d).crc = d.crc := rfl
@[simp] theorem setDraws_page : (setDraws x d).env.page = d.env.page := rfl
@[simp] theorem setDraws_settings : (setDraws x d).env.settings = d.env.settings := rfl
@[simp] theorem setDraws_valuePos : (setDraws x d).env.valuePos = d.env.valuePos := rfl
@[simp] theorem setDraws_clk : (setDraws x d).env.clk = d.env.clk := rfl
@[simp] theorem setDraws_log : (setDraws x d).env.log = d.env.log := rfl
@[simp] theorem setDraws_draws : (setDraws x d).env.draws = x := rfl

@[simp] theorem countDraw_cfg : (countDraw d).cfg = d.cfg := rfl
@[simp] theorem countDraw_gpio : (countDraw d).gpio = d.gpio := rfl
@[simp] theorem countDraw_bus : (countDraw d).bus = d.bus := rfl
@[simp] theorem countDraw_crc : (countDraw d).crc = d.crc := rfl
@[simp] theorem countDraw_page : (countDraw d).env.page = d.env.page := rfl
@[simp] theorem countDraw_clk : (countDraw d).env.clk = d.env.clk := rfl
@[simp] theorem countDraw_log : (countDraw d).env.log = d.env.log := rfl

end Units

/-! ## What each action does to the environment -/

section Effects
variable (e : Env) (w n t : Nat) (v : Word) (f : CtlFile) (c : ReadChar) (r0 r1 : Option Word) (s : String)

@[simp] theorem effect_pageRead : e.effect (.pageRead n v) = e := rfl
@[simp] theorem effect_pageWrite : e.effect (.pageWrite n v) = { e with page := e.page.writeWord n v } := rfl
@[simp] theorem effect_fileWrite : e.effect (.fileWrite f s) = e.fileWritten f s := rfl
@[simp] theorem effect_fileClose : e.effect (.fileClose f) = e := rfl
@[simp] theorem effect_clockRead : e.effect (.clockRead t) = { e with clk := t } := rfl
@[simp] theorem effect_wait : e.effect (.wait n) = e := rfl
@[simp] theorem effect_sleep : e.effect (.sleep n t) = { e with clk := t } := rfl
@[simp] theorem effect_status : e.effect (.status v) = e := rfl
@[simp] theorem effect_result : e.effect (.result r0 r1 v) = e := rfl

end Effects

/-! ## The units -/

section UnitUpdates
variable (d : Dev) (i : Fin 64) (x : PinFiles) (k : Backend) (b : Bus) (v : Byte)

@[simp] theorem setPinFiles_cfg : (setPinFiles i x d).cfg = d.cfg := rfl
@[simp] theorem setPinFiles_bus : (setPinFiles i x d).bus = d.bus := rfl
@[simp] theorem setPinFiles_crc : (setPinFiles i x d).crc = d.crc := rfl
@[simp] theorem setPinFiles_env : (setPinFiles i x d).env = d.env := rfl
@[simp] theorem setPinFiles_gpio : (setPinFiles i x d).gpio = d.gpio.setPin i x := rfl
@[simp] theorem setPinFiles_backend : (setPinFiles i x d).gpio.backend = d.gpio.backend := rfl
@[simp] theorem setPinFiles_hExport : (setPinFiles i x d).gpio.hExport = d.gpio.hExport := rfl
@[simp] theorem setPinFiles_hUnexport : (setPinFiles i x d).gpio.hUnexport = d.gpio.hUnexport := rfl

@[simp] theorem setBackend_cfg : (setBackend k d).cfg = d.cfg := rfl
@[simp] theorem setBackend_bus : (setBackend k d).bus = d.bus := rfl
@[simp] theorem setBackend_crc : (setBackend k d).crc = d.crc := rfl
@[simp] theorem setBackend_env : (setBackend k d).env = d.env := rfl
@[simp] theorem setBackend_backend : (setBackend k d).gpio.backend = k := rfl
@[simp] theorem setBackend_hExport : (setBackend k d).gpio.hExport = d.gpio.hExport := rfl
@[simp] theorem setBackend_hUnexport : (setBackend k d).gpio.hUnexport = d.gpio.hUnexport := rfl
@[simp] theorem setBackend_pins : (setBackend k d).gpio.pins = d.gpio.pins := rfl
@[simp] theorem setBackend_last : (setBackend k d).gpio.last = d.gpio.last := rfl

@[simp] theorem giveUpBackend_cfg : (giveUpBackend d).cfg = d.cfg := rfl
@[simp] theorem giveUpBackend_bus : (giveUpBackend d).bus = d.bus := rfl
@[simp] theorem giveUpBackend_crc : (giveUpBackend d).crc = d.crc := rfl
@[simp] theorem giveUpBackend_env : (giveUpBackend d).env = d.env := rfl
@[simp] theorem giveUpBackend_backend : (giveUpBackend d).gpio.backend = .none := rfl
@[simp] theorem giveUpBackend_hExport : (giveUpBackend d).gpio.hExport = d.gpio.hExport := rfl
@[simp] theorem giveUpBackend_hUnexport : (giveUpBackend d).gpio.hUnexport = d.gpio.hUnexport := rfl
@[simp] theorem giveUpBackend_pins : (giveUpBackend d).gpio.pins = d.gpio.pins := rfl
@[simp] theorem giveUpBackend_last : (giveUpBackend d).gpio.last = d.gpio.medium := rfl

/-- Where the settings of the pins are does not change when the backend is given up (rule R125). -/
@[simp] theorem giveUpBackend_medium : (giveUpBackend d).gpio.medium = d.gpio.medium := rfl

@[simp] theorem setBus_cfg : (setBus b d).cfg = d.cfg := rfl
@[simp] theorem setBus_gpio : (setBus b d).gpio = d.gpio := rfl
@[simp] theorem setBus_crc : (setBus b d).crc = d.crc := rfl
@[simp] theorem setBus_env : (setBus b d).env = d.env := rfl
@[simp] theorem setBus_bus : (setBus b d).bus = b := rfl

@[simp] theorem setCrc_cfg : (setCrc v d).cfg = d.cfg := rfl
@[simp] theorem setCrc_gpio : (setCrc v d).gpio = d.gpio := rfl
@[simp] theorem setCrc_bus : (setCrc v d).bus = d.bus := rfl
@[simp] theorem setCrc_env : (setCrc v d).env = d.env := rfl
@[simp] theorem setCrc_crc : (setCrc v d).crc = v := rfl

end UnitUpdates

/-! ## Acceptance and end of an operation -/

section Machine
variable (w : Word) (e : ErrCode) (x y : Option Word) (s : State) (q : Seq)

@[simp] theorem accept_a0 : (s.accept w).a0 = s.a0 := rfl
@[simp] theorem accept_a1 : (s.accept w).a1 = s.a1 := rfl
@[simp] theorem accept_a2 : (s.accept w).a2 = s.a2 := rfl
@[simp] theorem accept_r0 : (s.accept w).r0 = s.r0 := rfl
@[simp] theorem accept_r1 : (s.accept w).r1 = s.r1 := rfl
@[simp] theorem accept_err : (s.accept w).err = s.err := rfl
@[simp] theorem accept_agenda : (s.accept w).agenda = s.agenda := rfl
@[simp] theorem accept_hostData : (s.accept w).hostData = s.hostData := rfl
@[simp] theorem accept_seq :
    (s.accept w).seq = some { cmd := w, l0 := s.a0, l1 := s.a1, l2 := s.a2 } := rfl
@[simp] theorem accept_cfg : (s.accept w).dev.cfg = s.dev.cfg := rfl
@[simp] theorem accept_gpio : (s.accept w).dev.gpio = s.dev.gpio := rfl
@[simp] theorem accept_bus : (s.accept w).dev.bus = s.dev.bus := rfl
@[simp] theorem accept_crc : (s.accept w).dev.crc = s.dev.crc := rfl
@[simp] theorem accept_opL0 : (s.accept w).opL0 = s.a0 := rfl
@[simp] theorem accept_opL1 : (s.accept w).opL1 = s.a1 := rfl
@[simp] theorem accept_opL2 : (s.accept w).opL2 = s.a2 := rfl

@[simp] theorem finish_a0 : (s.finish e x y).a0 = s.a0 := rfl
@[simp] theorem finish_a1 : (s.finish e x y).a1 = s.a1 := rfl
@[simp] theorem finish_a2 : (s.finish e x y).a2 = s.a2 := rfl
@[simp] theorem finish_r0 : (s.finish e x y).r0 = x.getD s.r0 := rfl
@[simp] theorem finish_r1 : (s.finish e x y).r1 = y.getD s.r1 := rfl
@[simp] theorem finish_err : (s.finish e x y).err = e := rfl
@[simp] theorem finish_seq : (s.finish e x y).seq = none := rfl
@[simp] theorem finish_agenda : (s.finish e x y).agenda = s.agenda := rfl
@[simp] theorem finish_hostData : (s.finish e x y).hostData = s.hostData := rfl
@[simp] theorem finish_cfg : (s.finish e x y).dev.cfg = s.dev.cfg := rfl
@[simp] theorem finish_gpio : (s.finish e x y).dev.gpio = s.dev.gpio := rfl
@[simp] theorem finish_bus : (s.finish e x y).dev.bus = s.dev.bus := rfl
@[simp] theorem finish_crc : (s.finish e x y).dev.crc = s.dev.crc := rfl
@[simp] theorem finish_page : (s.finish e x y).dev.env.page = s.dev.env.page := rfl
@[simp] theorem finish_settings : (s.finish e x y).dev.env.settings = s.dev.env.settings := rfl
@[simp] theorem finish_valuePos : (s.finish e x y).dev.env.valuePos = s.dev.env.valuePos := rfl
@[simp] theorem finish_clk : (s.finish e x y).dev.env.clk = s.dev.env.clk := rfl
@[simp] theorem finish_draws : (s.finish e x y).dev.env.draws = s.dev.env.draws := rfl
theorem finish_log : (s.finish e x y).dev.env.log =
    s.dev.env.log ++ [.result x y (packStatus e s.dev.bus s.dev.gpio.backend false)] := rfl

@[simp] theorem refuse_eq : s.refuse e = s.finish e none none := rfl
@[simp] theorem goto_seq : (s.goto q).seq = some q := rfl
@[simp] theorem goto_dev : (s.goto q).dev = s.dev := rfl
@[simp] theorem next_step : q.next.step = q.step + 1 := rfl

end Machine

/-! ## The machine's moves that no command makes -/

section Moves
variable (w off n : Nat) (v : Word) (s : State)

@[simp] theorem hostLoad_dev : (hostLoad w off s).dev = s.dev := rfl
@[simp] theorem hostLoad_seq : (hostLoad w off s).seq = s.seq := rfl
@[simp] theorem hostLoad_hostData : (hostLoad w off s).hostData = hostValue w off s := rfl
@[simp] theorem passTime_seq : (passTime n s).seq = s.seq := rfl
@[simp] theorem hardReset_seq : s.hardReset.seq = none := rfl
@[simp] theorem hardReset_env : s.hardReset.dev.env = s.dev.env := rfl
@[simp] theorem hardReset_cfg : s.hardReset.dev.cfg = s.dev.cfg := rfl
@[simp] theorem hardReset_medium : s.hardReset.dev.gpio.medium = s.dev.gpio.medium := rfl

end Moves

end Sys2Proof.Machine
end

