-- ==== Sys2Proof/Laws/Frame.lean ====
section
/-! SUPPORT. What every shared operation leaves alone. `Env.Reaches` says that one environment comes from another by
external actions recorded in its history and by draws; `Dev.EnvOnly` adds that the parameters and the units are the same.
Each operation of the clock, the pins and the line has one lemma; later proofs cite it and do not unfold the operation. -/

namespace Sys2Proof.Machine

open Sys2Proof

/-! ## Environments -/

/-- The time an action puts on the clock is not earlier than the clock shows. -/
def Action.keepsTime (a : Action) (e : Env) : Prop := e.clk ≤ (e.effect a).clk

/-- No action of a list puts the clock back (rule R34). -/
def Env.Timed : List Action → Env → Prop
  | [], _ => True
  | a :: rest, e => a.keepsTime e ∧ Env.Timed rest (e.perform a)

/-- One environment comes from another by recorded actions that never put the clock back, and by draws. -/
def Env.Reaches (e e' : Env) : Prop :=
  ∃ acts, Env.Timed acts e ∧ e' = { Env.performAll acts e with draws := e'.draws }

theorem performAll_append (a b : List Action) (e : Env) :
    Env.performAll (a ++ b) e = Env.performAll b (Env.performAll a e) := by
  induction a generalizing e with
  | nil => rfl
  | cons x a ih => exact ih (e.perform x)

theorem timed_append (a b : List Action) (e : Env) :
    Env.Timed (a ++ b) e ↔ Env.Timed a e ∧ Env.Timed b (Env.performAll a e) := by
  induction a generalizing e with
  | nil => simp [Env.Timed, Env.performAll]
  | cons x a ih => simp [Env.Timed, Env.performAll, ih, and_assoc]

theorem timed_clk (acts : List Action) (e : Env) (h : Env.Timed acts e) : e.clk ≤ (Env.performAll acts e).clk := by
  induction acts generalizing e with
  | nil => exact Nat.le_refl _
  | cons a acts ih => exact Nat.le_trans h.1 (ih _ h.2)

/-- The history grows by exactly the actions performed. -/
theorem performAll_log (acts : List Action) (e : Env) : (Env.performAll acts e).log = e.log ++ acts := by
  induction acts generalizing e with
  | nil => simp [Env.performAll]
  | cons a acts ih => simp [Env.performAll, ih]

theorem moveValuePos_page (f : CtlFile) (g : Nat) (r : Bool) (e : Env) : (e.moveValuePos f g r).page = e.page := by
  rcases f with _ | _ | ⟨p, _ | _ | _⟩ <;> rfl

theorem moveValuePos_clk (f : CtlFile) (g : Nat) (r : Bool) (e : Env) : (e.moveValuePos f g r).clk = e.clk := by
  rcases f with _ | _ | ⟨p, _ | _ | _⟩ <;> rfl

theorem fileWritten_page (f : CtlFile) (t : String) (e : Env) : (e.fileWritten f t).page = e.page := by
  cases f <;> rfl

theorem fileWritten_clk (f : CtlFile) (t : String) (e : Env) : (e.fileWritten f t).clk = e.clk := by
  cases f <;> rfl

/-- No action of the block breaks the canonical form of the page. -/
theorem effect_wf (a : Action) (e : Env) (h : e.page.wf = true) : (e.effect a).page.wf = true := by
  cases a with
  | pageWrite w v => exact writeWord_wf w v h
  | fileOpen f ok => cases ok <;> simp [Env.effect, moveValuePos_page, h]
  | _ => simp [Env.effect, moveValuePos_page, fileWritten_page, h]

theorem performAll_wf (acts : List Action) (e : Env) (h : e.page.wf = true) :
    (Env.performAll acts e).page.wf = true := by
  induction acts generalizing e with
  | nil => exact h
  | cons a acts ih => exact ih _ (effect_wf a e h)

theorem effect_draws (a : Action) (e : Env) (x : Draws) :
    ({ e with draws := x } : Env).effect a = { e.effect a with draws := x } := by
  cases a with
  | fileOpen f ok => cases ok <;> rcases f with _ | _ | ⟨p, _ | _ | _⟩ <;> rfl
  | fileWrite f t => cases f <;> rfl
  | fileSeek f => rcases f with _ | _ | ⟨p, _ | _ | _⟩ <;> rfl
  | fileRead f c => rcases f with _ | _ | ⟨p, _ | _ | _⟩ <;> rfl
  | _ => rfl

theorem perform_draws (a : Action) (e : Env) (x : Draws) :
    ({ e with draws := x } : Env).perform a = { e.perform a with draws := x } := by
  simp only [Env.perform, effect_draws]

/-- Draws are no part of what the actions change. -/
theorem performAll_draws (acts : List Action) (e : Env) (x : Draws) :
    Env.performAll acts { e with draws := x } = { Env.performAll acts e with draws := x } := by
  induction acts generalizing e with
  | nil => rfl
  | cons a acts ih => simp only [Env.performAll, perform_draws, ih]

theorem timed_draws (acts : List Action) (e : Env) (x : Draws) :
    Env.Timed acts { e with draws := x } ↔ Env.Timed acts e := by
  induction acts generalizing e with
  | nil => rfl
  | cons a acts ih => simp only [Env.Timed, Action.keepsTime, effect_draws, perform_draws, ih]

theorem Env.Reaches.refl (e : Env) : Env.Reaches e e := ⟨[], trivial, rfl⟩

theorem Env.Reaches.trans {e1 e2 e3 : Env} (h1 : Env.Reaches e1 e2) (h2 : Env.Reaches e2 e3) : Env.Reaches e1 e3 := by
  obtain ⟨a, ta, ha⟩ := h1
  obtain ⟨b, tb, hb⟩ := h2
  rw [ha, timed_draws] at tb
  refine ⟨a ++ b, (timed_append a b e1).mpr ⟨ta, tb⟩, ?_⟩
  rw [performAll_append, hb, ha, performAll_draws]

theorem Env.Reaches.perform {e : Env} {a : Action} (h : a.keepsTime e) : Env.Reaches e (e.perform a) :=
  ⟨[a], ⟨h, trivial⟩, rfl⟩

theorem Env.Reaches.draws (e : Env) (x : Draws) : Env.Reaches e { e with draws := x } := ⟨[], trivial, rfl⟩

theorem Env.Reaches.wf {e e' : Env} (h : Env.Reaches e e') (hw : e.page.wf = true) : e'.page.wf = true := by
  obtain ⟨a, -, ha⟩ := h
  rw [ha]
  exact performAll_wf a e hw

theorem Env.Reaches.clk {e e' : Env} (h : Env.Reaches e e') : e.clk ≤ e'.clk := by
  obtain ⟨a, ta, ha⟩ := h
  rw [ha]
  exact timed_clk a e ta

theorem Env.Reaches.drop {e e' : Env} {a : List Action} (ha : e' = { Env.performAll a e with draws := e'.draws }) :
    e'.log.drop e.log.length = a := by
  have hl : e'.log = e.log ++ a := by rw [ha]; exact performAll_log a e
  rw [hl, List.drop_left]

/-- The history of what an operation did accounts for the whole environment but the draws. -/
theorem Env.Reaches.accounts {e e' : Env} (h : Env.Reaches e e') :
    e' = { Env.performAll (e'.log.drop e.log.length) e with draws := e'.draws } := by
  obtain ⟨a, -, ha⟩ := h
  rw [Env.Reaches.drop ha]
  exact ha

/-- The actions of an operation never put the clock back. -/
theorem Env.Reaches.timed {e e' : Env} (h : Env.Reaches e e') : Env.Timed (e'.log.drop e.log.length) e := by
  obtain ⟨a, ta, ha⟩ := h
  rw [Env.Reaches.drop ha]
  exact ta

theorem Env.Reaches.log {e e' : Env} (h : Env.Reaches e e') : e.log <+: e'.log := by
  obtain ⟨a, -, ha⟩ := h
  rw [ha]
  exact ⟨a, (performAll_log a e).symm⟩

/-! ## Units -/

/-- Only the environment moves, and only by recorded actions and draws. -/
structure Dev.EnvOnly (d d' : Dev) : Prop where
  env  : Env.Reaches d.env d'.env
  cfg  : d'.cfg = d.cfg
  gpio : d'.gpio = d.gpio
  bus  : d'.bus = d.bus
  crc  : d'.crc = d.crc

namespace Dev.EnvOnly

theorem refl (d : Dev) : Dev.EnvOnly d d := ⟨.refl _, rfl, rfl, rfl, rfl⟩

theorem trans {d1 d2 d3 : Dev} (h1 : Dev.EnvOnly d1 d2) (h2 : Dev.EnvOnly d2 d3) : Dev.EnvOnly d1 d3 :=
  ⟨h1.env.trans h2.env, h2.cfg.trans h1.cfg, h2.gpio.trans h1.gpio, h2.bus.trans h1.bus, h2.crc.trans h1.crc⟩

theorem perform {d : Dev} {a : Action} (h : a.keepsTime d.env) : Dev.EnvOnly d (perform a d) :=
  ⟨.perform h, rfl, rfl, rfl, rfl⟩

theorem setDraws (d : Dev) (x : Draws) : Dev.EnvOnly d (setDraws x d) := ⟨.draws _ _, rfl, rfl, rfl, rfl⟩

theorem countDraw (d : Dev) : Dev.EnvOnly d (countDraw d) := .setDraws _ _

/-- The block is the old one with a new environment. -/
theorem eq {d d' : Dev} (h : Dev.EnvOnly d d') : d' = { d with env := d'.env } := by
  obtain ⟨_, h1, h2, h3, h4⟩ := h
  cases d; cases d'; simp_all

end Dev.EnvOnly

theorem keepsTime_clockRead {t : Nat} {e : Env} (h : e.clk ≤ t) : (Action.clockRead t).keepsTime e := h

theorem keepsTime_of_not_clock {a : Action} {e : Env} (h : (e.effect a).clk = e.clk) : a.keepsTime e := by
  unfold Action.keepsTime; rw [h]

/-! ## Draws -/

theorem drawRegAccess_envOnly (d : Dev) : Dev.EnvOnly d (drawRegAccess d).2 := by
  unfold drawRegAccess; split
  · exact .setDraws _ _
  · exact .countDraw _

theorem drawOpen_envOnly (d : Dev) : Dev.EnvOnly d (drawOpen d).2 := by
  unfold drawOpen; split
  · exact .setDraws _ _
  · exact .countDraw _

theorem drawChar_envOnly (d : Dev) : Dev.EnvOnly d (drawChar d).2 := by
  unfold drawChar; split
  · exact .setDraws _ _
  · exact .countDraw _

theorem drawIn_envOnly (d : Dev) : Dev.EnvOnly d (drawIn d).2 := by
  unfold drawIn; split
  · exact .setDraws _ _
  · exact .countDraw _

theorem drawAdvance_envOnly (d : Dev) : Dev.EnvOnly d (drawAdvance d).2 := by
  unfold drawAdvance; split
  · exact .setDraws _ _
  · exact .countDraw _

/-- A draw of the clock's advance leaves the clock itself alone. -/
theorem drawAdvance_clk (d : Dev) : (drawAdvance d).2.env.clk = d.env.clk := by
  unfold drawAdvance; split <;> rfl

/-! ## The register page -/

theorem memRead_envOnly (w : Nat) (d : Dev) : Dev.EnvOnly d (memRead w d).2 := by
  unfold memRead
  dsimp only
  split
  · exact .perform (Nat.le_refl _)
  · exact (drawIn_envOnly d).trans (.perform (Nat.le_refl _))

theorem drawIn_page (d : Dev) : (drawIn d).2.env.page = d.env.page := by
  unfold drawIn; split <;> rfl

/-- A read leaves the page alone (rule R62: reads have no side effect on the page). -/
theorem memRead_page (w : Nat) (d : Dev) : (memRead w d).2.env.page = d.env.page := by
  unfold memRead
  dsimp only
  split
  · rfl
  · exact drawIn_page d

/-- The bits of a word that are no `in` bits read as they were last written (rule R62). -/
theorem memRead_bit (w i : Nat) (d : Dev) (h : (d.cfg.inMask w).getLsbD i = false) :
    (memRead w d).1.getLsbD i = (d.env.page.readWord w).getLsbD i := by
  unfold memRead
  dsimp only
  split
  · rfl
  · by_cases hi : i < 32
    · simp only [mixIn, BitVec.getLsbD_or, BitVec.getLsbD_and, BitVec.getLsbD_not, h, hi]
      simp
    · rw [BitVec.getLsbD_of_ge _ _ (by omega), BitVec.getLsbD_of_ge _ _ (by omega)]

theorem regBit_envOnly (off : Nat) (d : Dev) : Dev.EnvOnly d (regBit off d).2 := memRead_envOnly _ d

theorem regBitWrite_envOnly (off : Nat) (v : Bool) (d : Dev) : Dev.EnvOnly d (regBitWrite off v d) :=
  (memRead_envOnly _ d).trans (.perform (Nat.le_refl _))

/-- The stored bit that `RegBitWrite` sets, and every bit it leaves alone: the bits of other words, and the other bits
of the same word that are no `in` bits (rule R63). -/
theorem regBitWrite_bit (off x : Nat) (v : Bool) (d : Dev) (hw : d.env.page.wf = true)
    (h : off ≠ x → off / 32 = x / 32 → (d.cfg.inMask (x / 32)).getLsbD (x % 32) = false) :
    ((regBitWrite off v d).env.page.readWord (x / 32)).getLsbD (x % 32) =
      if off = x then v else (d.env.page.readWord (x / 32)).getLsbD (x % 32) := by
  have hp := memRead_page (off / 32) d
  have : (regBitWrite off v d).env.page =
      d.env.page.writeWord (off / 32) (putBit (memRead (off / 32) d).1 (off % 32) v) := by
    simp [regBitWrite, memWrite, hp]
  rw [this, readWord_writeWord _ _ _ hw]
  by_cases hword : off / 32 = x / 32
  · rw [if_pos hword, getLsbD_putBit _ _ _ _ (Nat.mod_lt _ (by omega))]
    by_cases hox : off = x
    · subst hox; simp
    · rw [if_neg (by omega), if_neg hox, hword, memRead_bit _ _ _ (h hox hword)]
  · rw [if_neg hword, if_neg (by rintro rfl; exact hword rfl)]

/-! ## Control files -/

theorem fileOpen_envOnly (f : CtlFile) (d : Dev) : Dev.EnvOnly d (fileOpen f d).2 := by
  refine (drawOpen_envOnly d).trans (.perform (keepsTime_of_not_clock ?_))
  cases (drawOpen d).1 <;> simp [Env.effect, moveValuePos_clk]

theorem fileWrite_envOnly (h : Handle) (f : CtlFile) (t : String) (d : Dev) : Dev.EnvOnly d (fileWrite h f t d) := by
  cases h
  · exact .refl d
  · exact .perform (keepsTime_of_not_clock (fileWritten_clk f t d.env))

theorem fileSeek0_envOnly (h : Handle) (f : CtlFile) (d : Dev) : Dev.EnvOnly d (fileSeek0 h f d) := by
  cases h
  · exact .refl d
  · exact .perform (keepsTime_of_not_clock (moveValuePos_clk f 0 false d.env))

theorem fileRead1_envOnly (h : Handle) (f : CtlFile) (d : Dev) : Dev.EnvOnly d (fileRead1 h f d).2 := by
  cases h
  · exact .refl d
  · exact (drawChar_envOnly d).trans (.perform (keepsTime_of_not_clock (moveValuePos_clk f 1 true _)))

theorem fileClose_envOnly (h : Handle) (f : CtlFile) (d : Dev) : Dev.EnvOnly d (fileClose h f d) := by
  cases h
  · exact .refl d
  · exact .perform (Nat.le_refl _)

/-! ## The clock and the waits -/

theorem now_envOnly (d : Dev) : Dev.EnvOnly d (now d).2 := by
  refine (drawAdvance_envOnly d).trans (.perform (keepsTime_clockRead ?_))
  omega

/-- The time a clock read shows is the time the clock then stands at, and no earlier than before (rule R34). -/
theorem now_clk (d : Dev) : (now d).2.env.clk = (now d).1 ∧ d.env.clk ≤ (now d).1 := by
  refine ⟨rfl, ?_⟩
  have := drawAdvance_clk d
  simp only [now]
  omega

theorem le_capOverrun (c : Config) (t0 dur clk t : Nat) (h : clk ≤ t) : clk ≤ capOverrun c t0 dur clk t := by
  unfold capOverrun
  split
  · omega
  · split <;> omega

theorem isOver_iff (t0 dur t : Nat) : isOver t0 dur t = true ↔ t0 + dur ≤ t := by
  unfold isOver elapsed; simp; omega

theorem capOverrun_over (c : Config) (t0 dur clk t : Nat) (h : t0 + dur ≤ t) :
    t0 + dur ≤ capOverrun c t0 dur clk t := by
  unfold capOverrun
  split
  · omega
  · split <;> omega

/-- The bound of rule R169 on the read that ends a wait. -/
theorem capOverrun_le (c : Config) (t0 dur clk t m : Nat) (hm : c.overrunMaxNs = some m) (h : clk ≤ t0 + dur + m) :
    capOverrun c t0 dur clk t ≤ t0 + dur + m := by
  unfold capOverrun
  simp only [hm, if_pos h]
  omega

/-- What the reads of a wait do: the environment moves; when the wait ended, the clock shows the duration elapsed. -/
theorem spin_spec (t0 dur : Nat) (ns : List Nat) (d : Dev) :
    Dev.EnvOnly d (spin t0 dur ns d).2.2 ∧
    ((spin t0 dur ns d).1 = true → t0 + dur ≤ (spin t0 dur ns d).2.2.env.clk) := by
  induction ns generalizing d with
  | nil => exact ⟨.refl d, by simp [spin]⟩
  | cons n ns ih =>
    simp only [spin]
    split
    · rename_i h
      rw [isOver_iff] at h
      exact ⟨.perform (keepsTime_clockRead (le_capOverrun _ _ _ _ _ (by omega))), fun _ => capOverrun_over _ _ _ _ _ h⟩
    · have := ih (perform (.clockRead (d.env.clk + n)) d)
      exact ⟨Dev.EnvOnly.trans (.perform (keepsTime_clockRead (by omega))) this.1, this.2⟩

theorem lastPoll_spec (t0 dur late : Nat) (d : Dev) :
    Dev.EnvOnly d (lastPoll t0 dur late d) ∧ t0 + dur ≤ (lastPoll t0 dur late d).env.clk :=
  ⟨.perform (keepsTime_clockRead (le_capOverrun _ _ _ _ _ (by omega))), capOverrun_over _ _ _ _ _ (by omega)⟩

theorem spinFree_spec (t0 dur : Nat) (d : Dev) :
    Dev.EnvOnly d (spinFree t0 dur d) ∧ t0 + dur ≤ (spinFree t0 dur d).env.clk := by
  have hs := spin_spec t0 dur (Config.freePolls d.env.draws.count) (countDraw d)
  unfold spinFree
  dsimp only
  split
  · rename_i h
    exact ⟨(Dev.EnvOnly.countDraw d).trans hs.1, hs.2 h⟩
  · have hl := lastPoll_spec t0 dur (Config.freeOverrun d.env.draws.count)
      (spin t0 dur (Config.freePolls d.env.draws.count) (countDraw d)).2.2
    exact ⟨((Dev.EnvOnly.countDraw d).trans hs.1).trans hl.1, hl.2⟩

/-- The loop of a busy wait: only the environment moves, and at its end the duration has elapsed (rules R163, R169). -/
theorem spinUntil_spec (t0 dur : Nat) (d : Dev) :
    Dev.EnvOnly d (spinUntil t0 dur d) ∧ t0 + dur ≤ (spinUntil t0 dur d).env.clk := by
  have hs := spin_spec t0 dur d.env.draws.times d
  unfold spinUntil
  dsimp only
  split
  · rename_i h
    exact ⟨(hs.1.trans (.setDraws _ _)).trans (.perform (Nat.le_refl _)), hs.2 h⟩
  · have hf := spinFree_spec t0 dur
      (setDraws { (spin t0 dur d.env.draws.times d).2.2.env.draws with
        times := (spin t0 dur d.env.draws.times d).2.1 } (spin t0 dur d.env.draws.times d).2.2)
    exact ⟨((hs.1.trans (.setDraws _ _)).trans hf.1).trans (.perform (Nat.le_refl _)), hf.2⟩

/-- While the clock has not passed the bound of rule R169, no read of a wait passes it. -/
theorem spin_le (t0 dur m : Nat) (ns : List Nat) (d : Dev) (hm : d.cfg.overrunMaxNs = some m)
    (h : d.env.clk ≤ t0 + dur + m) : (spin t0 dur ns d).2.2.env.clk ≤ t0 + dur + m := by
  induction ns generalizing d with
  | nil => exact h
  | cons n ns ih =>
    simp only [spin]
    split
    · exact capOverrun_le _ _ _ _ _ _ hm h
    · rename_i hn
      rw [isOver_iff] at hn
      exact ih _ hm (show d.env.clk + n ≤ _ by omega)

theorem spinFree_le (t0 dur m : Nat) (d : Dev) (hm : d.cfg.overrunMaxNs = some m) (h : d.env.clk ≤ t0 + dur + m) :
    (spinFree t0 dur d).env.clk ≤ t0 + dur + m := by
  have hs := spin_le t0 dur m (Config.freePolls d.env.draws.count) (countDraw d) hm h
  have hc := (spin_spec t0 dur (Config.freePolls d.env.draws.count) (countDraw d)).1.cfg
  unfold spinFree
  dsimp only
  split
  · exact hs
  · exact capOverrun_le _ _ _ _ _ _ (by rw [hc]; exact hm) hs

/-- The upper bound of rule R169 on the loop of a busy wait. -/
theorem spinUntil_le (t0 dur m : Nat) (d : Dev) (hm : d.cfg.overrunMaxNs = some m) (h : d.env.clk ≤ t0 + dur + m) :
    (spinUntil t0 dur d).env.clk ≤ t0 + dur + m := by
  have hs := spin_le t0 dur m d.env.draws.times d hm h
  have hc := (spin_spec t0 dur d.env.draws.times d).1.cfg
  unfold spinUntil
  dsimp only
  split
  · exact hs
  · exact spinFree_le _ _ _ _ (by rw [setDraws_cfg, hc]; exact hm) hs

/-- `Wait(D)`: only the environment moves, and at least the clamped duration passes (rules R163, R169). -/
theorem waitNs_spec (dur : Nat) (d : Dev) :
    Dev.EnvOnly d (waitNs dur d) ∧ d.env.clk + clampNs d.cfg dur ≤ (waitNs dur d).env.clk := by
  have hn := now_clk d
  have hc := (now_envOnly d).cfg
  have hs := spinUntil_spec (now d).1 (clampNs (now d).2.cfg dur) (now d).2
  refine ⟨(now_envOnly d).trans hs.1, ?_⟩
  have h2 := hs.2
  rw [hc] at h2
  have h3 : (waitNs dur d).env.clk = (spinUntil (now d).1 (clampNs d.cfg dur) (now d).2).env.clk := by
    show (spinUntil (now d).1 (clampNs (now d).2.cfg dur) (now d).2).env.clk = _
    rw [hc]
  omega

theorem waitNs_envOnly (dur : Nat) (d : Dev) : Dev.EnvOnly d (waitNs dur d) := (waitNs_spec dur d).1

theorem waitSlot_envOnly (i : Fin 10) (d : Dev) : Dev.EnvOnly d (waitSlot i d) := waitNs_envOnly _ d

theorem readAll_envOnly (ns : List Nat) (d : Dev) : Dev.EnvOnly d (readAll ns d) := by
  induction ns generalizing d with
  | nil => exact .refl d
  | cons n ns ih => exact Dev.EnvOnly.trans (.perform (keepsTime_clockRead (by omega))) (ih _)

/-- The first read of an anchored wait: it shows the time the clock then stands at, no earlier than before; where the
clock has passed neither the anchor's second nor the bound of rule R169, a read that ends the wait keeps the bound. -/
theorem anchoredRead_spec (dur sec nsec : Nat) (d : Dev) :
    Dev.EnvOnly d (anchoredRead dur sec nsec d).2 ∧
    (anchoredRead dur sec nsec d).2.env.clk = (anchoredRead dur sec nsec d).1 ∧
    d.env.clk ≤ (anchoredRead dur sec nsec d).1 ∧
    (∀ m, d.cfg.overrunMaxNs = some m → nsec < nsPerSec → d.env.clk < sec * nsPerSec + nsec + nsPerSec →
      d.env.clk ≤ sec * nsPerSec + nsec + dur + m →
      (anchoredRead dur sec nsec d).1 ≤ sec * nsPerSec + nsec + dur + m) := by
  have hc := drawAdvance_clk d
  have hle : d.env.clk ≤ (anchoredRead dur sec nsec d).1 := by
    unfold anchoredRead
    dsimp only
    split
    · exact le_trans (by omega) (le_capOverrun _ _ _ _ _ (Nat.le_add_right _ _))
    · omega
  refine ⟨(drawAdvance_envOnly d).trans (.perform (keepsTime_clockRead
    (show (drawAdvance d).2.env.clk ≤ (anchoredRead dur sec nsec d).1 from hc ▸ hle))), rfl, hle, ?_⟩
  intro m hm hn h1 h2
  unfold anchoredRead
  dsimp only
  split
  · exact capOverrun_le _ _ _ _ _ _ hm (by omega)
  · rename_i hno
    have : ¬ isOver (sec * nsPerSec + nsec) dur ((drawAdvance d).2.env.clk + (drawAdvance d).1) = true :=
      fun h => hno ⟨hn, by omega, h⟩
    rw [isOver_iff] at this
    omega

theorem anchoredWait_envOnly (dur sec nsec : Nat) (d : Dev) : Dev.EnvOnly d (anchoredWait dur sec nsec d) := by
  have h := (anchoredRead_spec (clampNs d.cfg dur) sec nsec d).1
  unfold anchoredWait
  dsimp only
  split
  · split
    · exact h.trans (.perform (Nat.le_refl _))
    · exact h.trans (spinUntil_spec _ _ _).1
  · exact ((h.trans (.countDraw _)).trans (readAll_envOnly _ _)).trans (.perform (Nat.le_refl _))

theorem sleepNs_envOnly (dur : Nat) (d : Dev) : Dev.EnvOnly d (sleepNs dur d) := by
  have h := drawAdvance_clk d
  refine (drawAdvance_envOnly d).trans (.perform ?_)
  show (drawAdvance d).2.env.clk ≤ (drawAdvance d).2.env.clk + dur + (drawAdvance d).1
  omega

/-! ## The pins -/

theorem setModeRegister_envOnly (e : PinEntry) (m : PinMode) (d : Dev) : Dev.EnvOnly d (setModeRegister e m d) :=
  (regBitWrite_envOnly _ _ d).trans (regBitWrite_envOnly _ _ _)

theorem setModeFile_envOnly (i : Fin 64) (m : PinMode) (d : Dev) : Dev.EnvOnly d (setModeFile i m d) :=
  fileWrite_envOnly _ _ _ d

theorem gpioSetMode_envOnly (p : Byte) (m : PinMode) (d : Dev) : Dev.EnvOnly d (gpioSetMode p m d) := by
  unfold gpioSetMode
  split
  · exact .refl d
  · split
    · exact .refl d
    · exact setModeRegister_envOnly _ _ d
    · exact setModeFile_envOnly _ _ d

theorem setPullRegister_envOnly (e : PinEntry) (x : Pull) (d : Dev) : Dev.EnvOnly d (setPullRegister e x d) := by
  cases x
  · exact regBitWrite_envOnly _ _ d
  · exact (regBitWrite_envOnly _ _ d).trans (regBitWrite_envOnly _ _ _)
  · exact (regBitWrite_envOnly _ _ d).trans (regBitWrite_envOnly _ _ _)

theorem gpioSetPullState_envOnly (p : Byte) (x : Pull) (d : Dev) : Dev.EnvOnly d (gpioSetPullState p x d) := by
  unfold gpioSetPullState
  split
  · exact .refl d
  · split
    · exact .refl d
    · exact setPullRegister_envOnly _ _ d
    · exact fileWrite_envOnly _ _ _ d

theorem gpioSetValue_envOnly (p : Byte) (b : Bool) (d : Dev) : Dev.EnvOnly d (gpioSetValue p b d) := by
  unfold gpioSetValue
  split
  · exact .refl d
  · split
    · exact .refl d
    · exact regBitWrite_envOnly _ _ d
    · exact fileWrite_envOnly _ _ _ d

theorem gpioGetValue_envOnly (p : Byte) (d : Dev) : Dev.EnvOnly d (gpioGetValue p d).2 := by
  unfold gpioGetValue
  split
  · exact .refl d
  · split
    · exact .refl d
    · exact regBit_envOnly _ d
    · exact (fileSeek0_envOnly _ _ d).trans (fileRead1_envOnly _ _ _)

/-! ## The line -/

theorem owPullUp_envOnly (d : Dev) : Dev.EnvOnly d (owPullUp d) := by
  unfold owPullUp
  split
  · exact gpioSetMode_envOnly _ _ d
  · exact gpioSetMode_envOnly _ _ d
  · exact gpioSetValue_envOnly _ _ d

theorem assertSimple_envOnly (d : Dev) : Dev.EnvOnly d (assertSimple d) :=
  (gpioSetMode_envOnly _ _ d).trans (gpioSetValue_envOnly _ _ _)

theorem owPullDown_envOnly (d : Dev) : Dev.EnvOnly d (owPullDown d) := by
  unfold owPullDown
  split
  · exact assertSimple_envOnly d
  · exact assertSimple_envOnly d
  · exact gpioSetValue_envOnly _ _ d

theorem owSample_envOnly (d : Dev) : Dev.EnvOnly d (owSample d).2 := gpioGetValue_envOnly _ d

theorem slotTail_envOnly (b : Bool) (d : Dev) : Dev.EnvOnly d (slotTail b d) := by
  unfold slotTail
  split
  · exact ((waitSlot_envOnly _ d).trans (owPullUp_envOnly _)).trans (waitSlot_envOnly _ _)
  · exact ((waitSlot_envOnly _ d).trans (owPullUp_envOnly _)).trans (waitSlot_envOnly _ _)

theorem writeSlot_envOnly (b : Bool) (d : Dev) : Dev.EnvOnly d (writeSlot b d) :=
  (owPullDown_envOnly d).trans (slotTail_envOnly b _)

theorem readSlot_envOnly (d : Dev) : Dev.EnvOnly d (readSlot d).2 :=
  (((((owPullDown_envOnly d).trans (waitSlot_envOnly _ _)).trans (owPullUp_envOnly _)).trans
    (waitSlot_envOnly _ _)).trans (owSample_envOnly _)).trans (waitSlot_envOnly _ _)

theorem foldl_envOnly {α : Type} (f : Dev → α → Dev) (hf : ∀ d x, Dev.EnvOnly d (f d x)) (l : List α) (d : Dev) :
    Dev.EnvOnly d (l.foldl f d) := by
  induction l generalizing d with
  | nil => exact .refl d
  | cons x l ih => exact (hf d x).trans (ih _)

theorem writeSlots_envOnly (v : Byte) (d : Dev) : Dev.EnvOnly d (writeSlots v d) :=
  (foldl_envOnly _ (fun d k => writeSlot_envOnly (v.getLsbD k) d) _ d).trans (waitNs_envOnly _ _)

theorem readSlotInto_envOnly (k : Nat) (x : Byte × Dev) : Dev.EnvOnly x.2 (readSlotInto k x).2 := readSlot_envOnly x.2

theorem readSlots_envOnly (d : Dev) : Dev.EnvOnly d (readSlots d).2 := by
  have key : ∀ (l : List Nat) (x : Byte × Dev),
      Dev.EnvOnly x.2 (l.foldl (fun x k => readSlotInto k x) x).2 := by
    intro l
    induction l with
    | nil => exact fun x => .refl _
    | cons k l ih => exact fun x => (readSlotInto_envOnly k x).trans (ih _)
  exact key _ (0, d)

theorem resetPulse_envOnly (d : Dev) : Dev.EnvOnly d (resetPulse d).2 :=
  ((((((owPullUp_envOnly d).trans (waitSlot_envOnly _ _)).trans (owPullDown_envOnly _)).trans
    (waitSlot_envOnly _ _)).trans (owPullUp_envOnly _)).trans (waitSlot_envOnly _ _)).trans (owSample_envOnly _)

theorem owReset_envOnly (d : Dev) : Dev.EnvOnly d (owReset d).2.2 := by
  unfold owReset
  dsimp only
  split
  · exact (resetPulse_envOnly d).trans (waitSlot_envOnly _ _)
  · exact resetPulse_envOnly d

end Sys2Proof.Machine
end

