-- ==== Sys2Proof/Laws/Gpio.lean ====
section
/-! SUPPORT. What the export operations do to the units: one pin's files and the environment, and nothing else (rules
R126, R129, R130). -/

namespace Sys2Proof.Machine

open Sys2Proof

/-- Only the environment and the files of pin `i` move. -/
structure Dev.PinOnly (i : Fin 64) (d d' : Dev) : Prop where
  env       : Env.Reaches d.env d'.env
  cfg       : d'.cfg = d.cfg
  bus       : d'.bus = d.bus
  crc       : d'.crc = d.crc
  backend   : d'.gpio.backend = d.gpio.backend
  hExport   : d'.gpio.hExport = d.gpio.hExport
  hUnexport : d'.gpio.hUnexport = d.gpio.hUnexport
  pins      : ∀ j : Fin 64, j ≠ i → d'.gpio.pin j = d.gpio.pin j

namespace Dev.PinOnly

theorem of_envOnly {i : Fin 64} {d d' : Dev} (h : Dev.EnvOnly d d') : Dev.PinOnly i d d' :=
  ⟨h.env, h.cfg, h.bus, h.crc, by rw [h.gpio], by rw [h.gpio], by rw [h.gpio], fun j _ => by rw [h.gpio]⟩

theorem trans {i : Fin 64} {d1 d2 d3 : Dev} (h1 : Dev.PinOnly i d1 d2) (h2 : Dev.PinOnly i d2 d3) :
    Dev.PinOnly i d1 d3 :=
  ⟨h1.env.trans h2.env, h2.cfg.trans h1.cfg, h2.bus.trans h1.bus, h2.crc.trans h1.crc,
    h2.backend.trans h1.backend, h2.hExport.trans h1.hExport, h2.hUnexport.trans h1.hUnexport,
    fun j hj => (h2.pins j hj).trans (h1.pins j hj)⟩

theorem setPinFiles (i : Fin 64) (x : PinFiles) (d : Dev) : Dev.PinOnly i d (setPinFiles i x d) := by
  exact ⟨.refl _, rfl, rfl, rfl, rfl, rfl, rfl, fun j hj => by simp [Ne.symm hj]⟩

end Dev.PinOnly

/-- The files of a pin after `setPinFiles`. -/
theorem setPinFiles_self (i : Fin 64) (x : PinFiles) (d : Dev) : (setPinFiles i x d).gpio.pin i = x := by
  simp

/-! ## Export -/

theorem closeHandles_envOnly (i : Fin 64) (hd hp hv : Handle) (d : Dev) :
    Dev.EnvOnly d (closeHandles i hd hp hv d) :=
  ((fileClose_envOnly hd (.pinFile i .direction) d).trans (fileClose_envOnly hp (.pinFile i .pull) _)).trans
    (fileClose_envOnly hv (.pinFile i .value) _)

/-- One attempt: the pin is exported with its three handles open, or its files stay as they were. -/
theorem exportAttempt_spec (i : Fin 64) (d : Dev) :
    Dev.PinOnly i d (exportAttempt i d).2 ∧
    (exportAttempt i d).2.gpio.pin i =
      if (exportAttempt i d).1 then { exported := true, hDir := .opened, hPull := .opened, hValue := .opened }
      else d.gpio.pin i := by
  have h1 := fileOpen_envOnly (.pinFile i .direction) d
  have h2 := h1.trans (fileOpen_envOnly (.pinFile i .pull) _)
  have h3 := h2.trans (fileOpen_envOnly (.pinFile i .value) _)
  unfold exportAttempt
  dsimp only
  split
  · rename_i h
    refine ⟨Dev.PinOnly.trans (.of_envOnly h3) (.setPinFiles _ _ _), ?_⟩
    rw [setPinFiles_self, if_pos rfl, h.1, h.2.1, h.2.2]
  · have h4 := fun hd hp hv => h3.trans (closeHandles_envOnly i hd hp hv _)
    exact ⟨.of_envOnly (h4 _ _ _), by rw [if_neg (by simp), (h4 _ _ _).gpio]⟩

/-- The attempts: the pin is exported with its three handles open, or its files stay as they were. -/
theorem exportLoop_spec (i : Fin 64) (n : Nat) (d : Dev) :
    Dev.PinOnly i d (exportLoop i n d).2 ∧
    (exportLoop i n d).2.gpio.pin i =
      if (exportLoop i n d).1 then { exported := true, hDir := .opened, hPull := .opened, hValue := .opened }
      else d.gpio.pin i := by
  induction n generalizing d with
  | zero => exact ⟨.of_envOnly (.refl d), by simp [exportLoop]⟩
  | succ n ih =>
    have ha := exportAttempt_spec i d
    unfold exportLoop
    dsimp only
    by_cases hr : (exportAttempt i d).1 = true
    · rw [if_pos hr] at ha ⊢
      exact ⟨ha.1, by simpa using ha.2⟩
    · rw [if_neg hr] at ha ⊢
      by_cases hn : n = 0
      · rw [if_pos hn]
        exact ⟨ha.1, by simpa using ha.2⟩
      · rw [if_neg hn]
        have hs := sleepNs_envOnly d.cfg.exportBackoffNs (exportAttempt i d).2
        have hi := ih (sleepNs d.cfg.exportBackoffNs (exportAttempt i d).2)
        refine ⟨(ha.1.trans (.of_envOnly hs)).trans hi.1, ?_⟩
        rw [hi.2, hs.gpio, ha.2]

/-- What `exportPin` of a pin number does: nothing, or the loop of attempts on a valid pin of the filesystem backend. -/
theorem gpioExportPin_cases (p : Byte) (d : Dev) :
    (gpioExportPin p d = (.ok, d)) ∨
    (∃ i e, validPin d.cfg p = some (i, e) ∧ d.gpio.backend = .filesystem ∧ (d.gpio.pin i).exported = false ∧
      Dev.PinOnly i d (gpioExportPin p d).2 ∧
      ((gpioExportPin p d).1 = .ok ∧ (gpioExportPin p d).2.gpio.pin i =
          { exported := true, hDir := .opened, hPull := .opened, hValue := .opened } ∨
       (gpioExportPin p d).1 = .resourceUnavailable ∧ (gpioExportPin p d).2.gpio.pin i = d.gpio.pin i)) := by
  by_cases hb : d.gpio.backend = .filesystem
  · cases hv : validPin d.cfg p with
    | none => left; simp [gpioExportPin, hb, hv]
    | some x =>
      obtain ⟨i, e⟩ := x
      cases hx : (d.gpio.pin i).exported with
      | true =>
        left
        simp only [gpioExportPin, hb, hv, ne_eq, not_true_eq_false, if_false]
        exact if_pos hx
      | false =>
        right
        have hw := fileWrite_envOnly d.gpio.hExport .exportFile (decLine e.hw) d
        have hl := exportLoop_spec i d.cfg.exportAttempts (writeExport e d)
        have hg : (writeExport e d).gpio = d.gpio := hw.gpio
        have he : gpioExportPin p d =
            if (exportLoop i d.cfg.exportAttempts (writeExport e d)).1 then
              (.ok, (exportLoop i d.cfg.exportAttempts (writeExport e d)).2)
            else (.resourceUnavailable, writeUnexport e (exportLoop i d.cfg.exportAttempts (writeExport e d)).2) := by
          simp only [gpioExportPin, hb, hv, ne_eq, not_true_eq_false, if_false]
          exact if_neg (by simpa using hx)
        have hp := Dev.PinOnly.trans (.of_envOnly hw) hl.1
        refine ⟨i, e, rfl, hb, hx, ?_⟩
        rw [he]
        split
        · rename_i ht
          rw [if_pos ht] at hl
          exact ⟨hp, .inl ⟨rfl, hl.2⟩⟩
        · rename_i ht
          rw [if_neg ht] at hl
          have hu := fileWrite_envOnly (exportLoop i d.cfg.exportAttempts (writeExport e d)).2.gpio.hUnexport .unexportFile
            (decLine e.hw) (exportLoop i d.cfg.exportAttempts (writeExport e d)).2
          refine ⟨hp.trans (.of_envOnly hu), .inr ⟨rfl, ?_⟩⟩
          have : (writeUnexport e (exportLoop i d.cfg.exportAttempts (writeExport e d)).2).gpio =
            (exportLoop i d.cfg.exportAttempts (writeExport e d)).2.gpio := hu.gpio
          rw [this, hl.2, hg]
  · left; simp [gpioExportPin, hb]

/-! ## Unexport -/

theorem closePinFiles_spec (i : Fin 64) (d : Dev) :
    Dev.PinOnly i d (closePinFiles i d) ∧
    (closePinFiles i d).gpio.pin i =
      { d.gpio.pin i with hDir := .invalid, hPull := .invalid, hValue := .invalid } := by
  have h := closeHandles_envOnly i (d.gpio.pin i).hDir (d.gpio.pin i).hPull (d.gpio.pin i).hValue d
  exact ⟨Dev.PinOnly.trans (.of_envOnly h) (.setPinFiles _ _ _), setPinFiles_self _ _ _⟩

/-- What `unexportPin` of a pin number does: nothing, or one exported pin gives its handles back. -/
theorem gpioUnexportPin_cases (p : Byte) (d : Dev) :
    (gpioUnexportPin p d = d ∧
      (d.gpio.backend = .filesystem → ∀ i e, validPin d.cfg p = some (i, e) → (d.gpio.pin i).exported = false)) ∨
    (∃ i e, validPin d.cfg p = some (i, e) ∧ d.gpio.backend = .filesystem ∧ (d.gpio.pin i).exported = true ∧
      Dev.PinOnly i d (gpioUnexportPin p d) ∧ (gpioUnexportPin p d).gpio.pin i = { }) := by
  by_cases hb : d.gpio.backend = .filesystem
  · cases hv : validPin d.cfg p with
    | none => left; simp [gpioUnexportPin, hb, hv]
    | some x =>
      obtain ⟨i, e⟩ := x
      cases hx : (d.gpio.pin i).exported with
      | false =>
        left
        refine ⟨?_, ?_⟩
        · simp only [gpioUnexportPin, hb, hv, ne_eq, not_true_eq_false, if_false]
          exact if_neg (by simpa using hx)
        · rintro - j e' h
          cases h
          exact hx
      | true =>
        right
        have he : gpioUnexportPin p d = clearExported i (writeUnexport e (closePinFiles i d)) := by
          simp only [gpioUnexportPin, hb, hv, ne_eq, not_true_eq_false, if_false]
          exact if_pos hx
        have hc := closePinFiles_spec i d
        have hu := fileWrite_envOnly (closePinFiles i d).gpio.hUnexport .unexportFile (decLine e.hw) (closePinFiles i d)
        have hg : (writeUnexport e (closePinFiles i d)).gpio = (closePinFiles i d).gpio := hu.gpio
        refine ⟨i, e, rfl, hb, hx, ?_, ?_⟩
        · rw [he]
          exact (hc.1.trans (.of_envOnly hu)).trans (.setPinFiles _ _ _)
        · rw [he, clearExported, setPinFiles_self, hg, hc.2]
  · left; simp [gpioUnexportPin, hb]

/-- What changes none but the environment and the pins' files. -/
structure Dev.PinsOnly (d d' : Dev) : Prop where
  env       : Env.Reaches d.env d'.env
  cfg       : d'.cfg = d.cfg
  bus       : d'.bus = d.bus
  crc       : d'.crc = d.crc
  backend   : d'.gpio.backend = d.gpio.backend
  hExport   : d'.gpio.hExport = d.gpio.hExport
  hUnexport : d'.gpio.hUnexport = d.gpio.hUnexport

theorem Dev.PinOnly.pinsOnly {i : Fin 64} {d d' : Dev} (h : Dev.PinOnly i d d') : Dev.PinsOnly d d' :=
  ⟨h.env, h.cfg, h.bus, h.crc, h.backend, h.hExport, h.hUnexport⟩

theorem Dev.PinsOnly.refl (d : Dev) : Dev.PinsOnly d d := ⟨.refl _, rfl, rfl, rfl, rfl, rfl, rfl⟩

theorem Dev.PinsOnly.trans {d1 d2 d3 : Dev} (h1 : Dev.PinsOnly d1 d2) (h2 : Dev.PinsOnly d2 d3) :
    Dev.PinsOnly d1 d3 :=
  ⟨h1.env.trans h2.env, h2.cfg.trans h1.cfg, h2.bus.trans h1.bus, h2.crc.trans h1.crc,
    h2.backend.trans h1.backend, h2.hExport.trans h1.hExport, h2.hUnexport.trans h1.hUnexport⟩

theorem gpioUnexportPin_pinsOnly (p : Byte) (d : Dev) : Dev.PinsOnly d (gpioUnexportPin p d) := by
  obtain ⟨h, -⟩ | ⟨i, e, -, -, -, h, -⟩ := gpioUnexportPin_cases p d
  · rw [h]; exact .refl d
  · exact h.pinsOnly

theorem gpioExportPin_pinsOnly (p : Byte) (d : Dev) : Dev.PinsOnly d (gpioExportPin p d).2 := by
  obtain h | ⟨i, e, -, -, -, h, -⟩ := gpioExportPin_cases p d
  · rw [h]; exact .refl d
  · exact h.pinsOnly

/-- Unexporting never exports: a pin's files stay, or become those of a pin that is not exported. -/
theorem gpioUnexportPin_pin (p : Byte) (d : Dev) (j : Fin 64) :
    (gpioUnexportPin p d).gpio.pin j = d.gpio.pin j ∨ (gpioUnexportPin p d).gpio.pin j = { } := by
  obtain ⟨h, -⟩ | ⟨i, e, -, -, -, h, hi⟩ := gpioUnexportPin_cases p d
  · rw [h]; exact .inl rfl
  · by_cases hj : j = i
    · subst hj; exact .inr hi
    · exact .inl (h.pins j hj)

/-- The operand that names a pin number from 0 to 63 names it. -/
theorem pinIndex_ofNat (i : Fin 64) : pinIndex (BitVec.ofNat 8 i.val) = some i := by
  revert i; decide

theorem validPin_ofNat (c : Config) (i : Fin 64) :
    validPin c (BitVec.ofNat 8 i.val) = (c.entry i.val).map fun e => (i, e) := by
  simp [validPin, pinIndex_ofNat]

/-- A round of `unexportAll` leaves the pin of its number unexported, where that pin has a board entry. -/
theorem gpioUnexportPin_clears (i : Fin 64) (d : Dev) (hb : d.gpio.backend = .filesystem)
    (he : (d.cfg.entry i.val).isSome) :
    ((gpioUnexportPin (BitVec.ofNat 8 i.val) d).gpio.pin i).exported = false := by
  obtain ⟨e, he⟩ := Option.isSome_iff_exists.mp he
  have hv : validPin d.cfg (BitVec.ofNat 8 i.val) = some (i, e) := by rw [validPin_ofNat, he]; rfl
  obtain ⟨h, hn⟩ | ⟨j, e', hv', -, -, -, hj⟩ := gpioUnexportPin_cases (BitVec.ofNat 8 i.val) d
  · rw [h]; exact hn hb i e hv
  · rw [hv] at hv'
    cases hv'
    rw [hj]

/-- `unexportAll` moves only pins' files and the environment, exports nothing, and under the filesystem backend leaves
every mapped pin unexported (rule R130). -/
theorem gpioUnexportAll_spec (d : Dev) :
    Dev.PinsOnly d (gpioUnexportAll d) ∧
    (∀ j : Fin 64, (gpioUnexportAll d).gpio.pin j = d.gpio.pin j ∨ (gpioUnexportAll d).gpio.pin j = { }) ∧
    (d.gpio.backend = .filesystem → ∀ j : Fin 64, (d.cfg.entry j.val).isSome →
      ((gpioUnexportAll d).gpio.pin j).exported = false) := by
  have key : ∀ (l : List Nat) (d : Dev), (∀ n ∈ l, n < 64) →
      Dev.PinsOnly d (l.foldl (fun d i => gpioUnexportPin (BitVec.ofNat 8 i) d) d) ∧
      (∀ j : Fin 64, (l.foldl (fun d i => gpioUnexportPin (BitVec.ofNat 8 i) d) d).gpio.pin j = d.gpio.pin j ∨
        (l.foldl (fun d i => gpioUnexportPin (BitVec.ofNat 8 i) d) d).gpio.pin j = { }) ∧
      (d.gpio.backend = .filesystem → ∀ j : Fin 64, j.val ∈ l → (d.cfg.entry j.val).isSome →
        ((l.foldl (fun d i => gpioUnexportPin (BitVec.ofNat 8 i) d) d).gpio.pin j).exported = false) := by
    intro l
    induction l with
    | nil => intro d _; exact ⟨.refl d, fun j => .inl rfl, by simp⟩
    | cons n l ih =>
      intro d hn
      have h1 := gpioUnexportPin_pinsOnly (BitVec.ofNat 8 n) d
      obtain ⟨i1, i2, i3⟩ := ih (gpioUnexportPin (BitVec.ofNat 8 n) d) (fun m hm => hn m (List.mem_cons_of_mem _ hm))
      refine ⟨h1.trans i1, fun j => ?_, fun hb j hj he => ?_⟩
      · rcases i2 j with h | h
        · rcases gpioUnexportPin_pin (BitVec.ofNat 8 n) d j with h' | h'
          · exact .inl (h.trans h')
          · exact .inr (h.trans h')
        · exact .inr h
      · rcases List.mem_cons.mp hj with hjn | hjl
        · have hc := gpioUnexportPin_clears j d hb he
          rw [hjn] at hc
          rcases i2 j with h | h
          · simp only [List.foldl_cons]; rw [h]; exact hc
          · simp only [List.foldl_cons]; rw [h]
        · exact i3 (h1.backend.trans hb) j hjl (by rw [h1.cfg]; exact he)
  obtain ⟨h1, h2, h3⟩ := key (List.range 64) d (fun n hn => List.mem_range.mp hn)
  exact ⟨h1, h2, fun hb j he => h3 hb j (List.mem_range.mpr j.isLt) he⟩

end Sys2Proof.Machine
end

