-- ==== Sys2Proof/Laws/Trace.lean ====
section
/-! SUPPORT. The external actions of each shared operation, in order (rules R13, R70). `Dev.Does acts d d'` says that an
operation takes `d` to `d'` by exactly the actions `acts` and draws, and leaves the parameters and the units alone. Each
operation has one lemma; the lemma of an operation built of others composes theirs. -/

namespace Sys2Proof.Machine

open Sys2Proof

/-! ## The relation -/

/-- Exactly the actions `acts`, and draws. -/
structure Dev.Does (acts : List Action) (d d' : Dev) : Prop where
  timed : Env.Timed acts d.env
  env   : d'.env = { Env.performAll acts d.env with draws := d'.env.draws }
  cfg   : d'.cfg = d.cfg
  gpio  : d'.gpio = d.gpio
  bus   : d'.bus = d.bus
  crc   : d'.crc = d.crc

namespace Dev.Does

theorem refl (d : Dev) : Dev.Does [] d d := ⟨trivial, rfl, rfl, rfl, rfl, rfl⟩

theorem trans {a b : List Action} {d1 d2 d3 : Dev} (h1 : Dev.Does a d1 d2) (h2 : Dev.Does b d2 d3) :
    Dev.Does (a ++ b) d1 d3 := by
  have tb := h2.timed
  rw [h1.env, timed_draws] at tb
  refine ⟨(timed_append a b _).mpr ⟨h1.timed, tb⟩, ?_, h2.cfg.trans h1.cfg, h2.gpio.trans h1.gpio,
    h2.bus.trans h1.bus, h2.crc.trans h1.crc⟩
  rw [performAll_append, h2.env, h1.env, performAll_draws]

theorem perform {d : Dev} {a : Action} (h : a.keepsTime d.env) : Dev.Does [a] d (perform a d) :=
  ⟨⟨h, trivial⟩, rfl, rfl, rfl, rfl, rfl⟩

theorem setDraws (d : Dev) (x : Draws) : Dev.Does [] d (setDraws x d) := ⟨trivial, rfl, rfl, rfl, rfl, rfl⟩

theorem countDraw (d : Dev) : Dev.Does [] d (countDraw d) := .setDraws _ _

theorem envOnly {a : List Action} {d d' : Dev} (h : Dev.Does a d d') : Dev.EnvOnly d d' :=
  ⟨⟨a, h.timed, h.env⟩, h.cfg, h.gpio, h.bus, h.crc⟩

/-- The history between the two states is the list of actions. -/
theorem actionsSince {a : List Action} {d d' : Dev} (h : Dev.Does a d d') : d.actionsSince d' = a :=
  Env.Reaches.drop h.env

theorem log {a : List Action} {d d' : Dev} (h : Dev.Does a d d') : d'.env.log = d.env.log ++ a := by
  rw [h.env]; exact performAll_log a d.env

theorem clk {a : List Action} {d d' : Dev} (h : Dev.Does a d d') : d.env.clk ≤ d'.env.clk := h.envOnly.env.clk

end Dev.Does

/-- What moves only the environment does some actions. -/
theorem Dev.EnvOnly.does {d d' : Dev} (h : Dev.EnvOnly d d') : ∃ acts, Dev.Does acts d d' := by
  obtain ⟨⟨a, ta, ha⟩, h1, h2, h3, h4⟩ := h
  exact ⟨a, ta, ha, h1, h2, h3, h4⟩

/-- The units after an operation differ from those before only in the environment, so a view of the units and the
environment's pages and settings can be carried over. -/
theorem Dev.Does.eq {a : List Action} {d d' : Dev} (h : Dev.Does a d d') : d' = { d with env := d'.env } := h.envOnly.eq

/-! ## Draws -/

theorem drawRegAccess_does (d : Dev) : Dev.Does [] d (drawRegAccess d).2 := by
  unfold drawRegAccess; split
  · exact .setDraws _ _
  · exact .countDraw _

theorem drawOpen_does (d : Dev) : Dev.Does [] d (drawOpen d).2 := by
  unfold drawOpen; split
  · exact .setDraws _ _
  · exact .countDraw _

theorem drawChar_does (d : Dev) : Dev.Does [] d (drawChar d).2 := by
  unfold drawChar; split
  · exact .setDraws _ _
  · exact .countDraw _

theorem drawIn_does (d : Dev) : Dev.Does [] d (drawIn d).2 := by
  unfold drawIn; split
  · exact .setDraws _ _
  · exact .countDraw _

theorem drawAdvance_does (d : Dev) : Dev.Does [] d (drawAdvance d).2 := by
  unfold drawAdvance; split
  · exact .setDraws _ _
  · exact .countDraw _

/-! ## The register page -/

theorem memRead_does (w : Nat) (d : Dev) : Dev.Does [.pageRead w (memRead w d).1] d (memRead w d).2 := by
  unfold memRead
  dsimp only
  split
  · exact .perform (Nat.le_refl _)
  · exact (drawIn_does d).trans (.perform (Nat.le_refl _))

theorem regBit_does (off : Nat) (d : Dev) :
    Dev.Does [.pageRead (off / 32) (memRead (off / 32) d).1] d (regBit off d).2 := memRead_does _ d

/-- `RegBitWrite` is a read and then a write, in that order (rule R63). -/
theorem regBitWrite_does (off : Nat) (v : Bool) (d : Dev) :
    Dev.Does [.pageRead (off / 32) (memRead (off / 32) d).1,
      .pageWrite (off / 32) (putBit (memRead (off / 32) d).1 (off % 32) v)] d (regBitWrite off v d) :=
  (memRead_does _ d).trans (.perform (Nat.le_refl _))

/-- `RegBitWrite` stores to no byte outside the word of its bit. -/
theorem regBitWrite_byte (off : Nat) (v : Bool) (d : Dev) (hw : d.env.page.wf = true) (a : Nat) (h : a / 4 ≠ off / 32) :
    Memory.read (regBitWrite off v d).env.page a = Memory.read d.env.page a := by
  have : (regBitWrite off v d).env.page =
      d.env.page.writeWord (off / 32) (putBit (memRead (off / 32) d).1 (off % 32) v) := by
    simp [regBitWrite, memWrite, memRead_page]
  rw [this, read_writeWord_of_ne _ _ _ hw h]

/-! ## Control files -/

theorem fileOpen_does (f : CtlFile) (d : Dev) : Dev.Does [.fileOpen f (drawOpen d).1] d (fileOpen f d).2 := by
  refine (drawOpen_does d).trans (.perform (keepsTime_of_not_clock ?_))
  cases (drawOpen d).1 <;> simp [Env.effect, moveValuePos_clk]

theorem fileWrite_does (f : CtlFile) (t : String) (d : Dev) :
    Dev.Does [.fileWrite f t] d (fileWrite .opened f t d) :=
  .perform (keepsTime_of_not_clock (fileWritten_clk f t d.env))

theorem fileClose_does (f : CtlFile) (d : Dev) : Dev.Does [.fileClose f] d (fileClose .opened f d) :=
  .perform (Nat.le_refl _)

theorem getValueFile_does (i : Fin 64) (d : Dev) (h : (d.gpio.pin i).hValue = .opened) :
    Dev.Does [.fileSeek (.pinFile i .value), .fileRead (.pinFile i .value) (drawChar d).1] d (getValueFile i d).2 := by
  have hs : Dev.Does [.fileSeek (.pinFile i .value)] d (perform (.fileSeek (.pinFile i .value)) d) :=
    .perform (keepsTime_of_not_clock (moveValuePos_clk _ _ _ _))
  have hd : (drawChar (Machine.perform (.fileSeek (.pinFile i .value)) d)).1 = (drawChar d).1 := by
    unfold drawChar
    simp only [perform_env, env_perform_draws]
    simp only [Env.effect, Env.moveValuePos, setPosition_draws]
    split <;> rfl
  unfold getValueFile
  simp only [h, fileSeek0, fileRead1]
  have := (hs.trans (drawChar_does _)).trans
    (Dev.Does.perform (a := .fileRead (.pinFile i .value) (drawChar (Machine.perform (.fileSeek (.pinFile i .value)) d)).1)
      (keepsTime_of_not_clock (moveValuePos_clk _ _ _ _)))
  rw [hd] at this ⊢
  exact this

/-! ## The clock and the waits -/

theorem now_does (d : Dev) : Dev.Does [.clockRead (now d).1] d (now d).2 := by
  refine (drawAdvance_does d).trans (.perform (keepsTime_clockRead ?_))
  show (drawAdvance d).2.env.clk ≤ (drawAdvance d).2.env.clk + (drawAdvance d).1
  omega

theorem anchoredRead_does (dur sec nsec : Nat) (d : Dev) :
    Dev.Does [.clockRead (anchoredRead dur sec nsec d).1] d (anchoredRead dur sec nsec d).2 := by
  have hle := (anchoredRead_spec dur sec nsec d).2.2.1
  refine (drawAdvance_does d).trans (.perform (keepsTime_clockRead ?_))
  rw [drawAdvance_clk]
  exact hle

/-- Where no bound is given the first read of an anchored wait is a plain clock read. -/
theorem anchoredRead_eq_now (dur sec nsec : Nat) (d : Dev) (h : d.cfg.overrunMaxNs = none) :
    anchoredRead dur sec nsec d = now d := by
  simp [anchoredRead, now, capOverrun, h]

/-- The reads of a wait are clock reads. -/
theorem spin_does (t0 dur : Nat) (ns : List Nat) (d : Dev) :
    ∃ ts : List Nat, Dev.Does (ts.map Action.clockRead) d (spin t0 dur ns d).2.2 := by
  induction ns generalizing d with
  | nil => exact ⟨[], .refl d⟩
  | cons n ns ih =>
    simp only [spin]
    split
    · rename_i h
      rw [isOver_iff] at h
      exact ⟨[_], .perform (keepsTime_clockRead (le_capOverrun _ _ _ _ _ (by omega)))⟩
    · obtain ⟨ts, h⟩ := ih (perform (.clockRead (d.env.clk + n)) d)
      exact ⟨(d.env.clk + n) :: ts, Dev.Does.trans (.perform (keepsTime_clockRead (by omega))) h⟩

theorem spinFree_does (t0 dur : Nat) (d : Dev) :
    ∃ ts : List Nat, Dev.Does (ts.map Action.clockRead) d (spinFree t0 dur d) := by
  obtain ⟨ts, h⟩ := spin_does t0 dur (Config.freePolls d.env.draws.count) (countDraw d)
  have h := (Dev.Does.countDraw d).trans h
  unfold spinFree
  dsimp only
  split
  · exact ⟨ts, h⟩
  · have hl := h.trans (Dev.Does.perform (keepsTime_clockRead (le_capOverrun
      (spin t0 dur (Config.freePolls d.env.draws.count) (countDraw d)).2.2.cfg t0 dur _
      (max (spin t0 dur (Config.freePolls d.env.draws.count) (countDraw d)).2.2.env.clk (t0 + dur) +
        Config.freeOverrun d.env.draws.count) (by omega))))
    exact ⟨ts ++ [_], by rw [List.map_append]; exact hl⟩

/-- The loop of a busy wait: clock reads, and the mark of its end. -/
theorem spinUntil_does (t0 dur : Nat) (d : Dev) :
    ∃ ts : List Nat, Dev.Does (ts.map Action.clockRead ++ [.wait dur]) d (spinUntil t0 dur d) := by
  obtain ⟨ts, h⟩ := spin_does t0 dur d.env.draws.times d
  have h := h.trans (.setDraws _ { (spin t0 dur d.env.draws.times d).2.2.env.draws with
    times := (spin t0 dur d.env.draws.times d).2.1 })
  rw [List.append_nil] at h
  unfold spinUntil
  dsimp only
  split
  · exact ⟨ts, h.trans (.perform (Nat.le_refl _))⟩
  · obtain ⟨us, hu⟩ := spinFree_does t0 dur (setDraws { (spin t0 dur d.env.draws.times d).2.2.env.draws with
      times := (spin t0 dur d.env.draws.times d).2.1 } (spin t0 dur d.env.draws.times d).2.2)
    refine ⟨ts ++ us, ?_⟩
    rw [List.map_append]
    exact (h.trans hu).trans (.perform (Nat.le_refl _))

/-- `Wait(D)` (rule R163): clock reads, and the mark of its end, with the clamped duration. -/
theorem waitNs_does (dur : Nat) (d : Dev) :
    ∃ ts : List Nat, Dev.Does (ts.map Action.clockRead ++ [.wait (clampNs d.cfg dur)]) d (waitNs dur d) := by
  obtain ⟨ts, h⟩ := spinUntil_does (now d).1 (clampNs (now d).2.cfg dur) (now d).2
  refine ⟨(now d).1 :: ts, ?_⟩
  have := (now_does d).trans h
  rw [(now_does d).cfg] at this
  have e : waitNs dur d = spinUntil (now d).1 (clampNs d.cfg dur) (now d).2 := by
    show spinUntil (now d).1 (clampNs (now d).2.cfg dur) (now d).2 = _
    rw [(now_does d).cfg]
  rw [e]
  exact this

theorem sleepNs_does (dur : Nat) (d : Dev) :
    Dev.Does [.sleep dur (d.env.clk + dur + (drawAdvance d).1)] d (sleepNs dur d) := by
  have h := drawAdvance_clk d
  have := (drawAdvance_does d).trans (Dev.Does.perform (a := .sleep dur ((drawAdvance d).2.env.clk + dur +
    (drawAdvance d).1)) (show (drawAdvance d).2.env.clk ≤ _ from by simp [Env.effect]; omega))
  rw [List.nil_append, h] at this
  show Dev.Does _ d (perform (.sleep dur ((drawAdvance d).2.env.clk + dur + (drawAdvance d).1)) (drawAdvance d).2)
  rw [h]
  exact this

/-! ## Actions on pins -/

/-- An action on the page or on a control file: no time passes on the clock. -/
def Action.onPins (a : Action) : Prop := a.waited = none ∧ a.shows = none

/-- An operation on pins: only actions on the page and on files. -/
def Dev.PinActs (d d' : Dev) : Prop := ∃ acts, Dev.Does acts d d' ∧ ∀ a ∈ acts, Action.onPins a

theorem Dev.PinActs.refl (d : Dev) : Dev.PinActs d d := ⟨[], .refl d, by simp⟩

theorem Dev.PinActs.trans {d1 d2 d3 : Dev} (h1 : Dev.PinActs d1 d2) (h2 : Dev.PinActs d2 d3) : Dev.PinActs d1 d3 := by
  obtain ⟨a, ha, pa⟩ := h1
  obtain ⟨b, hb, pb⟩ := h2
  refine ⟨a ++ b, ha.trans hb, fun x hx => ?_⟩
  rcases List.mem_append.mp hx with h | h
  · exact pa x h
  · exact pb x h

theorem Dev.PinActs.envOnly {d d' : Dev} (h : Dev.PinActs d d') : Dev.EnvOnly d d' := by
  obtain ⟨a, ha, -⟩ := h
  exact ha.envOnly

theorem Dev.PinActs.of_does {acts : List Action} {d d' : Dev} (h : Dev.Does acts d d')
    (p : ∀ a ∈ acts, Action.onPins a) : Dev.PinActs d d' := ⟨acts, h, p⟩

theorem performAll_clk (acts : List Action) (e : Env) (h : ∀ a ∈ acts, Action.onPins a) :
    (Env.performAll acts e).clk = e.clk := by
  induction acts generalizing e with
  | nil => rfl
  | cons a acts ih =>
    simp only [Env.performAll]
    rw [ih _ (fun x hx => h x (List.mem_cons_of_mem _ hx))]
    have ha := h a List.mem_cons_self
    cases a with
    | clockRead t => simp [Action.onPins, Action.shows] at ha
    | sleep n t => simp [Action.onPins, Action.shows] at ha
    | fileOpen f ok => cases ok <;> simp [Env.effect, moveValuePos_clk]
    | _ => simp [Env.effect, moveValuePos_clk, fileWritten_clk]

/-- No time passes on the clock in an operation on pins. -/
theorem Dev.PinActs.clk {d d' : Dev} (h : Dev.PinActs d d') : d'.env.clk = d.env.clk := by
  obtain ⟨a, ha, pa⟩ := h
  rw [ha.env]
  exact performAll_clk a d.env pa

theorem regBitWrite_pinActs (off : Nat) (v : Bool) (d : Dev) : Dev.PinActs d (regBitWrite off v d) :=
  .of_does (regBitWrite_does off v d) (by simp [Action.onPins, Action.waited, Action.shows])

theorem fileWrite_pinActs (h : Handle) (f : CtlFile) (t : String) (d : Dev) : Dev.PinActs d (fileWrite h f t d) := by
  cases h
  · exact .refl d
  · exact .of_does (fileWrite_does f t d) (by simp [Action.onPins, Action.waited, Action.shows])

theorem gpioSetMode_pinActs (p : Byte) (m : PinMode) (d : Dev) : Dev.PinActs d (gpioSetMode p m d) := by
  unfold gpioSetMode
  split
  · exact .refl d
  · split
    · exact .refl d
    · exact (regBitWrite_pinActs _ _ d).trans (regBitWrite_pinActs _ _ _)
    · exact fileWrite_pinActs _ _ _ d

theorem gpioSetValue_pinActs (p : Byte) (b : Bool) (d : Dev) : Dev.PinActs d (gpioSetValue p b d) := by
  unfold gpioSetValue
  split
  · exact .refl d
  · split
    · exact .refl d
    · exact regBitWrite_pinActs _ _ d
    · exact fileWrite_pinActs _ _ _ d

theorem gpioGetValue_pinActs (p : Byte) (d : Dev) : Dev.PinActs d (gpioGetValue p d).2 := by
  unfold gpioGetValue
  split
  · exact .refl d
  · rename_i i e _
    split
    · exact .refl d
    · exact .of_does (regBit_does _ d) (by simp [Action.onPins, Action.waited, Action.shows])
    · cases h : (d.gpio.pin i).hValue with
      | invalid => unfold getValueFile; simp only [h]; exact .refl d
      | opened => exact .of_does (getValueFile_does i d h) (by simp [Action.onPins, Action.waited, Action.shows])

theorem owPullUp_pinActs (d : Dev) : Dev.PinActs d (owPullUp d) := by
  unfold owPullUp
  split
  · exact gpioSetMode_pinActs _ _ d
  · exact gpioSetMode_pinActs _ _ d
  · exact gpioSetValue_pinActs _ _ d

theorem owPullDown_pinActs (d : Dev) : Dev.PinActs d (owPullDown d) := by
  unfold owPullDown
  split
  · exact (gpioSetMode_pinActs _ _ d).trans (gpioSetValue_pinActs _ _ _)
  · exact (gpioSetMode_pinActs _ _ d).trans (gpioSetValue_pinActs _ _ _)
  · exact gpioSetValue_pinActs _ _ d

theorem owSample_pinActs (d : Dev) : Dev.PinActs d (owSample d).2 := gpioGetValue_pinActs _ d

end Sys2Proof.Machine
end

