-- ==== Sys2Proof/Laws/Line.lean ====
section
/-! SUPPORT. The views of the pins and of the line (rules R31, R38): what the pin operations set them to, and what leaves
them alone. -/

namespace Sys2Proof.Machine

open Sys2Proof

/-! ## What the views depend on -/

/-- The views of pins and line are the same in two states of the block. -/
structure Dev.SameLine (d d' : Dev) : Prop where
  cfg      : d'.cfg = d.cfg
  gpio     : d'.gpio = d.gpio
  bus      : d'.bus = d.bus
  page     : d'.env.page = d.env.page
  settings : d'.env.settings = d.env.settings

theorem Dev.SameLine.refl (d : Dev) : Dev.SameLine d d := ⟨rfl, rfl, rfl, rfl, rfl⟩

theorem Dev.SameLine.trans {d1 d2 d3 : Dev} (h1 : Dev.SameLine d1 d2) (h2 : Dev.SameLine d2 d3) :
    Dev.SameLine d1 d3 :=
  ⟨h2.cfg.trans h1.cfg, h2.gpio.trans h1.gpio, h2.bus.trans h1.bus, h2.page.trans h1.page,
    h2.settings.trans h1.settings⟩

theorem usablePin_congr {d d' : Dev} (hc : d'.cfg = d.cfg) (hg : d'.gpio = d.gpio) (p : Byte) :
    usablePin d' p = usablePin d p := by
  unfold usablePin; rw [hc, hg]

theorem Dev.SameLine.pinMode {d d' : Dev} (h : Dev.SameLine d d') (p : Byte) : d'.pinMode p = d.pinMode p := by
  unfold Dev.pinMode Dev.pageBit Env.setting
  rw [h.cfg, h.gpio, h.page, h.settings]

theorem Dev.SameLine.pinLevel {d d' : Dev} (h : Dev.SameLine d d') (p : Byte) : d'.pinLevel p = d.pinLevel p := by
  unfold Dev.pinLevel Dev.pageBit Env.setting
  rw [h.cfg, h.gpio, h.page, h.settings]

theorem Dev.SameLine.asserted {d d' : Dev} (h : Dev.SameLine d d') : d'.asserted = d.asserted := by
  unfold Dev.asserted
  rw [h.bus, h.cfg]
  simp only [h.pinMode, h.pinLevel]

theorem Dev.SameLine.released {d d' : Dev} (h : Dev.SameLine d d') : d'.released = d.released := by
  unfold Dev.released
  rw [h.bus, h.cfg]
  simp only [h.pinMode, h.pinLevel]

theorem Dev.SameLine.drivable {d d' : Dev} (h : Dev.SameLine d d') (p : Byte) (hd : d.Drivable p) :
    d'.Drivable p := by
  obtain ⟨i, e, hu, hr, hf⟩ := hd
  refine ⟨i, e, by rw [usablePin_congr h.cfg h.gpio, hu], fun hb => ?_, fun hb => ?_⟩
  · rw [h.gpio] at hb
    rw [h.page, h.cfg]
    exact hr hb
  · rw [h.gpio] at hb ⊢
    exact hf hb

/-! ## Replaying actions -/

/-- An action changes the page and the settings by the page and the settings alone. -/
theorem perform_sameLine (a : Action) {d d' : Dev} (h : Dev.SameLine d d') :
    Dev.SameLine (perform a d) (perform a d') := by
  refine ⟨h.cfg, h.gpio, h.bus, ?_, ?_⟩
  · cases a with
    | fileOpen f ok => cases ok <;> simp [Env.effect, moveValuePos_page, h.page]
    | _ => simp [Env.effect, moveValuePos_page, fileWritten_page, h.page]
  · have key : ∀ (f : CtlFile) (g : Nat) (r : Bool) (e : Env), (e.moveValuePos f g r).settings = e.settings := by
      intro f g r e
      rcases f with _ | _ | ⟨p, _ | _ | _⟩ <;> rfl
    cases a with
    | fileOpen f ok => cases ok <;> simp [Env.effect, key, h.settings]
    | fileWrite f t =>
      simp only [perform_env, env_perform_settings, effect_fileWrite]
      cases f with
      | pinFile p k => simp only [Env.fileWritten, Env.setSetting, Env.setting, h.settings]
      | _ => exact h.settings
    | _ => simp [Env.effect, key, h.settings]

theorem segments_congr (acts : List Action) {d d' : Dev} (h : Dev.SameLine d d') :
    d'.segments acts = d.segments acts := by
  induction acts generalizing d d' with
  | nil => rfl
  | cons a acts ih =>
    simp only [Dev.segments, ih (perform_sameLine a h), h.asserted, h.released]

/-- The line trace of an operation and then of more actions. -/
theorem segments_append {a : List Action} {d d' : Dev} (h : Dev.Does a d d') (b : List Action) :
    d.segments (a ++ b) = d.segments a ++ d'.segments b := by
  have key : ∀ (a : List Action) (d : Dev),
      d.segments (a ++ b) = d.segments a ++ Dev.segments { d with env := Env.performAll a d.env } b := by
    intro a
    induction a with
    | nil => exact fun d => rfl
    | cons x a ih =>
      intro d
      simp only [List.cons_append, Dev.segments]
      cases x.waited <;> simp only [ih (perform x d), List.cons_append] <;> rfl
  rw [key]
  congr 1
  refine (segments_congr b (d := { d with env := Env.performAll a d.env }) ⟨h.cfg, h.gpio, h.bus, ?_, ?_⟩).symm
  · rw [h.env]
  · rw [h.env]

/-- An operation on pins has no wait in it. -/
theorem segments_pins {a : List Action} (d : Dev) (h : ∀ x ∈ a, Action.onPins x) : d.segments a = [] := by
  induction a generalizing d with
  | nil => rfl
  | cons x a ih =>
    simp only [Dev.segments, (h x List.mem_cons_self).1]
    exact ih _ (fun y hy => h y (List.mem_cons_of_mem _ hy))

theorem clockReads_sameLine (ts : List Nat) (d : Dev) :
    Dev.SameLine d { d with env := Env.performAll (ts.map Action.clockRead) d.env } := by
  induction ts generalizing d with
  | nil => exact .refl d
  | cons t ts ih =>
    have h1 : Dev.SameLine d (perform (.clockRead t) d) := ⟨rfl, rfl, rfl, rfl, rfl⟩
    exact h1.trans (ih (perform (.clockRead t) d))

theorem segments_clockReads (ts : List Nat) (d : Dev) : d.segments (ts.map Action.clockRead) = [] := by
  induction ts generalizing d with
  | nil => rfl
  | cons t ts ih => simp only [List.map_cons, Dev.segments, Action.waited]; exact ih _

/-- A wait does not touch pins or line. -/
theorem waitNs_sameLine (dur : Nat) (d : Dev) : Dev.SameLine d (waitNs dur d) := by
  obtain ⟨ts, h⟩ := waitNs_does dur d
  have hc := clockReads_sameLine ts d
  refine ⟨h.cfg, h.gpio, h.bus, ?_, ?_⟩
  · rw [h.env, performAll_append]
    exact hc.page
  · rw [h.env, performAll_append]
    exact hc.settings

/-- The line trace of a wait: one segment, with the line as it stood. -/
theorem waitNs_segments (dur : Nat) (d : Dev) :
    ∃ acts, Dev.Does acts d (waitNs dur d) ∧ d.segments acts = [(d.asserted, d.released, clampNs d.cfg dur)] := by
  obtain ⟨ts, h⟩ := waitNs_does dur d
  refine ⟨_, h, ?_⟩
  have key : ∀ (ts : List Nat) (d : Dev) (n : Nat),
      d.segments (ts.map Action.clockRead ++ [.wait n]) = [(d.asserted, d.released, n)] := by
    intro ts
    induction ts with
    | nil => exact fun d n => rfl
    | cons t ts ih =>
      intro d n
      have h1 : Dev.SameLine d (perform (.clockRead t) d) := ⟨rfl, rfl, rfl, rfl, rfl⟩
      simp only [List.map_cons, List.cons_append, Dev.segments, Action.waited]
      rw [ih, h1.asserted, h1.released]
  exact key ts d _

/-- A sample does not touch what the pins are set to. -/
theorem owSample_sameLine (d : Dev) : Dev.SameLine d (owSample d).2 := by
  have h := owSample_envOnly d
  refine ⟨h.cfg, h.gpio, h.bus, ?_, ?_⟩
  all_goals
    unfold owSample gpioGetValue
    split
    · rfl
    · split
      · rfl
      · first
          | exact memRead_page _ d
          | (unfold getValueRegister regBit memRead; dsimp only; split <;> [rfl; (unfold drawIn; split <;> rfl)])
      · unfold getValueFile
        dsimp only
        cases (d.gpio.pin _).hValue
        · rfl
        · simp only [fileSeek0, fileRead1]
          unfold drawChar
          split <;> rfl

/-! ## What the pin operations set -/

/-- The bit that a bit write sets, and the bits it leaves alone. -/
theorem regBitWrite_pageBit (off x : Nat) (v : Bool) (d : Dev) (hw : d.env.page.wf = true)
    (h : (d.cfg.inMask (x / 32)).getLsbD (x % 32) = false) :
    (regBitWrite off v d).pageBit x = if off = x then v else d.pageBit x :=
  regBitWrite_bit off x v d hw (fun _ _ => h)

theorem regBitWrite_wf (off : Nat) (v : Bool) (d : Dev) (hw : d.env.page.wf = true) :
    (regBitWrite off v d).env.page.wf = true := (regBitWrite_envOnly off v d).env.wf hw

theorem usablePin_valid {d : Dev} {p : Byte} {x : Fin 64 × PinEntry} (h : usablePin d p = some x) :
    validPin d.cfg p = some x := by
  unfold usablePin at h
  split at h
  · cases h
  · exact h
  · split at h
    · cases h
    · rename_i hv
      split at h
      · rw [hv, ← h]
      · cases h

theorem usablePin_backend {d : Dev} {p : Byte} {x : Fin 64 × PinEntry} (h : usablePin d p = some x) :
    d.gpio.backend = .register ∨ d.gpio.backend = .filesystem ∧ (d.gpio.pin x.1).exported = true := by
  unfold usablePin at h
  split at h
  · cases h
  · rename_i hb; exact .inl hb
  · rename_i hb
    split at h
    · cases h
    · split at h
      · rename_i i e hv hx
        cases h
        exact .inr ⟨hb, hx⟩
      · cases h

/-- A pin that is exported and settled has its files open. -/
theorem settled_full {x : PinFiles} (hs : x.settled = true) (hx : x.exported = true) : x = PinFiles.full := by
  unfold PinFiles.settled at hs
  simp only [Bool.or_eq_true, beq_iff_eq] at hs
  rcases hs with rfl | h
  · cases hx
  · exact h

theorem polarity_eq (onLevel b : Bool) : (polarity onLevel b == onLevel) = b := by
  cases onLevel <;> cases b <;> rfl

/-- After `setMode` a drivable pin is configured to the mode asked for, and its level is as it was. -/
theorem gpioSetMode_view (p : Byte) (m : PinMode) (d : Dev) (h : d.Drivable p) :
    (gpioSetMode p m d).pinMode p = some m ∧ (gpioSetMode p m d).pinLevel p = d.pinLevel p := by
  obtain ⟨i, e, hu, hr, hf⟩ := h
  have hv := usablePin_valid hu
  have hE := gpioSetMode_envOnly p m d
  have hv' : validPin (gpioSetMode p m d).cfg p = some (i, e) := by rw [hE.cfg]; exact hv
  rcases usablePin_backend hu with hb | ⟨hb, hx⟩
  · obtain ⟨hw, ha⟩ := hr hb
    have hm := medium_eq hb nofun
    have hm' : (gpioSetMode p m d).gpio.medium = .register := by rw [hE.gpio]; exact hm
    simp only [PinEntry.apart, Bool.and_eq_true, bne_iff_ne, Bool.not_eq_true'] at ha
    obtain ⟨⟨⟨⟨⟨h1, h2⟩, h3⟩, h4⟩, h5⟩, h6⟩ := ha
    have he : gpioSetMode p m d = regBitWrite e.fsel (polarity d.cfg.fselOutputLevel (m == .output))
        (regBitWrite e.mux d.cfg.muxGpioLevel d) := by
      unfold gpioSetMode; simp only [hu, hb]; rfl
    have hw1 := regBitWrite_wf e.mux d.cfg.muxGpioLevel d hw
    have hc1 := (regBitWrite_envOnly e.mux d.cfg.muxGpioLevel d).cfg
    have hfs : (gpioSetMode p m d).pageBit e.fsel = polarity d.cfg.fselOutputLevel (m == .output) := by
      rw [he, regBitWrite_pageBit _ _ _ _ hw1 (by rw [hc1]; exact h5), if_pos rfl]
    have hout : (gpioSetMode p m d).pageBit e.out = d.pageBit e.out := by
      rw [he, regBitWrite_pageBit _ _ _ _ hw1 (by rw [hc1]; exact h6), if_neg h3,
        regBitWrite_pageBit _ _ _ _ hw h6, if_neg h2]
    constructor
    · simp only [Dev.pinMode, hE.cfg, hv, hm', hfs]
      cases m <;> cases d.cfg.fselOutputLevel <;> rfl
    · simp only [Dev.pinLevel, hE.cfg, hv, hm', hm, hout]
  · have hm := medium_eq hb nofun
    have hm' : (gpioSetMode p m d).gpio.medium = .filesystem := by rw [hE.gpio]; exact hm
    have hp := settled_full (hf hb) hx
    have he : gpioSetMode p m d = perform (.fileWrite (.pinFile i .direction) (modeText m)) d := by
      unfold gpioSetMode; simp only [hu, hb]; unfold setModeFile; rw [hp]; rfl
    have hs : (gpioSetMode p m d).env.setting i = { d.env.setting i with mode := m } := by
      rw [he]
      simp only [perform_env]
      show ((d.env.fileWritten (.pinFile i .direction) (modeText m))).setting i = _
      simp only [Env.fileWritten, setSetting_setting, if_true, PinSettings.written]
      cases m <;> rfl
    constructor
    · simp only [Dev.pinMode, hv', hm', hs]
    · simp only [Dev.pinLevel, hv', hv, hm', hm, hs]

/-- After `setValue` a drivable pin is configured to the level asked for, and its mode is as it was. -/
theorem gpioSetValue_view (p : Byte) (b : Bool) (d : Dev) (h : d.Drivable p) :
    (gpioSetValue p b d).pinLevel p = some b ∧ (gpioSetValue p b d).pinMode p = d.pinMode p := by
  obtain ⟨i, e, hu, hr, hf⟩ := h
  have hv := usablePin_valid hu
  have hE := gpioSetValue_envOnly p b d
  have hv' : validPin (gpioSetValue p b d).cfg p = some (i, e) := by rw [hE.cfg]; exact hv
  rcases usablePin_backend hu with hb | ⟨hb, hx⟩
  · obtain ⟨hw, ha⟩ := hr hb
    have hm := medium_eq hb nofun
    have hm' : (gpioSetValue p b d).gpio.medium = .register := by rw [hE.gpio]; exact hm
    simp only [PinEntry.apart, Bool.and_eq_true, bne_iff_ne, Bool.not_eq_true'] at ha
    obtain ⟨⟨⟨⟨⟨h1, h2⟩, h3⟩, h4⟩, h5⟩, h6⟩ := ha
    have he : gpioSetValue p b d = regBitWrite e.out (polarity d.cfg.outHighLevel b) d := by
      unfold gpioSetValue; simp only [hu, hb]; rfl
    have hout : (gpioSetValue p b d).pageBit e.out = polarity d.cfg.outHighLevel b := by
      rw [he, regBitWrite_pageBit _ _ _ _ hw h6, if_pos rfl]
    have hfs : (gpioSetValue p b d).pageBit e.fsel = d.pageBit e.fsel := by
      rw [he, regBitWrite_pageBit _ _ _ _ hw h5, if_neg (Ne.symm h3)]
    constructor
    · simp only [Dev.pinLevel, hE.cfg, hv, hm', hout, polarity_eq]
    · simp only [Dev.pinMode, hE.cfg, hv, hm', hm, hfs]
  · have hm := medium_eq hb nofun
    have hm' : (gpioSetValue p b d).gpio.medium = .filesystem := by rw [hE.gpio]; exact hm
    have hp := settled_full (hf hb) hx
    have he : gpioSetValue p b d = perform (.fileWrite (.pinFile i .value) (valueText b)) d := by
      unfold gpioSetValue; simp only [hu, hb]; unfold setValueFile; rw [hp]; rfl
    have hs : (gpioSetValue p b d).env.setting i = { d.env.setting i with level := b } := by
      rw [he]
      simp only [perform_env]
      show ((d.env.fileWritten (.pinFile i .value) (valueText b))).setting i = _
      simp only [Env.fileWritten, setSetting_setting, if_true, PinSettings.written]
      cases b <;> rfl
    constructor
    · simp only [Dev.pinLevel, hv', hm', hs]
    · simp only [Dev.pinMode, hv', hv, hm', hm, hs]

/-- A drivable pin stays drivable while only the environment moves. -/
theorem Dev.EnvOnly.drivable {d d' : Dev} (h : Dev.EnvOnly d d') (p : Byte) (hd : d.Drivable p) : d'.Drivable p := by
  obtain ⟨i, e, hu, hr, hf⟩ := hd
  refine ⟨i, e, by rw [usablePin_congr h.cfg h.gpio, hu], fun hb => ?_, fun hb => ?_⟩
  · rw [h.gpio] at hb
    rw [h.cfg]
    exact ⟨h.env.wf (hr hb).1, (hr hb).2⟩
  · rw [h.gpio] at hb ⊢
    exact hf hb

/-- `ow_pullUp` releases the line (rules R38, R181). -/
theorem owPullUp_released (d : Dev) (h : d.Drivable d.bus.drivePin) :
    (owPullUp d).released = true ∧ (owPullUp d).asserted = false := by
  have hE := owPullUp_envOnly d
  cases hc : d.bus.cfg with
  | buffered =>
    have hp : d.bus.drivePin = d.bus.pinOut := by simp [Bus.drivePin, hc]
    rw [hp] at h
    have he : owPullUp d = gpioSetValue d.bus.pinOut (!d.cfg.bufAssertLevel) d := by unfold owPullUp; simp only [hc]
    have hv := (gpioSetValue_view d.bus.pinOut (!d.cfg.bufAssertLevel) d h).1
    rw [← he] at hv
    simp only [Dev.released, Dev.asserted, hE.bus, hE.cfg, hc, hv]
    cases d.cfg.bufAssertLevel <;> decide
  | _ =>
    have hp : d.bus.drivePin = d.bus.pinIo := by simp [Bus.drivePin, hc]
    rw [hp] at h
    have he : owPullUp d = gpioSetMode d.bus.pinIo .input d := by unfold owPullUp; simp only [hc]
    have hv := (gpioSetMode_view d.bus.pinIo .input d h).1
    rw [← he] at hv
    simp only [Dev.released, Dev.asserted, hE.bus, hc, hv]
    exact ⟨by decide, by simp⟩

/-- `ow_pullDown` asserts the line (rules R38, R182). -/
theorem owPullDown_asserted (d : Dev) (h : d.Drivable d.bus.drivePin) :
    (owPullDown d).asserted = true ∧ (owPullDown d).released = false := by
  have hE := owPullDown_envOnly d
  cases hc : d.bus.cfg with
  | buffered =>
    have hp : d.bus.drivePin = d.bus.pinOut := by simp [Bus.drivePin, hc]
    rw [hp] at h
    have he : owPullDown d = gpioSetValue d.bus.pinOut d.cfg.bufAssertLevel d := by unfold owPullDown; simp only [hc]
    have hv := (gpioSetValue_view d.bus.pinOut d.cfg.bufAssertLevel d h).1
    rw [← he] at hv
    simp only [Dev.released, Dev.asserted, hE.bus, hE.cfg, hc, hv]
    cases d.cfg.bufAssertLevel <;> decide
  | _ =>
    have hp : d.bus.drivePin = d.bus.pinIo := by simp [Bus.drivePin, hc]
    rw [hp] at h
    have he : owPullDown d = assertSimple d := by unfold owPullDown; simp only [hc]
    have h1 := gpioSetMode_view d.bus.pinIo .output d h
    have hd := (gpioSetMode_envOnly d.bus.pinIo .output d).drivable _ h
    have h2 := gpioSetValue_view d.bus.pinIo false _ hd
    have hm : (owPullDown d).pinMode d.bus.pinIo = some .output := by rw [he]; exact h2.2.trans h1.1
    have hl : (owPullDown d).pinLevel d.bus.pinIo = some false := by rw [he]; exact h2.1
    simp only [Dev.released, Dev.asserted, hE.bus, hc, hm, hl]
    exact ⟨by decide, by decide⟩

end Sys2Proof.Machine
end

