-- ==== Sys2Proof/Laws/Exec.lean ====
section
/-! SUPPORT. What every command has in common: it ends by `State.finish`, on units and an environment that its operation
leads to (rules R41, R123). `exec_finish` says so once, for all 29 commands; the later lemmas say what `State.finish`
leaves in the terms of `Safety.lean`. -/

namespace Sys2Proof.Machine

open Sys2Proof

/-! ## The end of an operation -/

theorem finish_reaches (e : ErrCode) (x y : Option Word) (s : State) :
    Env.Reaches s.dev.env (s.finish e x y).dev.env := .perform (Nat.le_refl _)

/-- The history of a command: that of its operation, and the record of its end. -/
theorem finish_actions {s : State} {d : Dev} (h : Env.Reaches s.dev.env d.env) (e : ErrCode) (x y : Option Word) :
    s.dev.actionsSince (State.finish e x y { s with dev := d }).dev =
      s.dev.actionsSince d ++ [.result x y (packStatus e d.bus d.gpio.backend false)] := by
  obtain ⟨l, hl⟩ := h.log
  unfold Dev.actionsSince
  rw [finish_log, ← hl, List.append_assoc, List.drop_left, List.drop_left]

theorem finish_trace {s : State} {d : Dev} (h : Env.Reaches s.dev.env d.env) (e : ErrCode) (x y : Option Word) :
    s.dev.traceSince (State.finish e x y { s with dev := d }).dev = s.dev.traceSince d := by
  unfold Dev.traceSince
  rw [finish_actions h, List.filter_append]
  simp [Action.isClockRead, Action.isOwn]

theorem finish_waits {s : State} {d : Dev} (h : Env.Reaches s.dev.env d.env) (e : ErrCode) (x y : Option Word) :
    s.dev.waitsSince (State.finish e x y { s with dev := d }).dev = s.dev.waitsSince d := by
  unfold Dev.waitsSince
  rw [finish_actions h, List.filterMap_append]
  simp [Action.waited]

/-- How a command ends, when its operation only moved the environment. -/
theorem finish_ends {s : State} {d : Dev} (h : Env.Reaches s.dev.env d.env) (hc : d.cfg = s.dev.cfg) (e : ErrCode)
    (x y : Option Word) :
    s.EndsAs (State.finish e x y { s with dev := d }) e (x.getD s.r0) (y.getD s.r1) where
  idle := rfl
  err := rfl
  r0 := rfl
  r1 := rfl
  a0 := rfl
  a1 := rfl
  a2 := rfl
  agenda := rfl
  hostData := rfl
  cfg := hc
  clk := h.clk
  log := h.log.trans ⟨_, rfl⟩

/-- A command whose operation left the units and the environment alone. -/
theorem finish_noEffect (s : State) (e : ErrCode) (x y : Option Word) :
    s.NoEffect (s.finish e x y) e (x.getD s.r0) (y.getD s.r1) where
  ends := finish_ends (.refl _) rfl e x y
  units := ⟨rfl, rfl, rfl⟩
  pins := ⟨fun _ => rfl, rfl, rfl⟩
  clk := rfl
  draws := rfl
  own := by
    have := finish_actions (s := s) (d := s.dev) (.refl _) e x y
    intro a ha
    rw [this] at ha
    have hn : s.dev.actionsSince s.dev = [] := List.drop_length
    rw [hn] at ha
    simp only [List.nil_append, List.mem_singleton] at ha
    rw [ha]
    rfl

/-! ## The operations -/

/-- What an operation may do to the block: reach another environment by recorded actions and draws; the parameters
stay. -/
def Dev.Reach (d d' : Dev) : Prop := Env.Reaches d.env d'.env ∧ d'.cfg = d.cfg

theorem Dev.Reach.refl (d : Dev) : Dev.Reach d d := ⟨.refl _, rfl⟩

theorem Dev.Reach.trans {d1 d2 d3 : Dev} (h1 : Dev.Reach d1 d2) (h2 : Dev.Reach d2 d3) : Dev.Reach d1 d3 :=
  ⟨h1.1.trans h2.1, h2.2.trans h1.2⟩

theorem Dev.EnvOnly.reach {d d' : Dev} (h : Dev.EnvOnly d d') : Dev.Reach d d' := ⟨h.env, h.cfg⟩

theorem Dev.PinsOnly.reach {d d' : Dev} (h : Dev.PinsOnly d d') : Dev.Reach d d' := ⟨h.env, h.cfg⟩

theorem setBackend_reach (b : Backend) (d : Dev) : Dev.Reach d (setBackend b d) := .refl d

theorem giveUpBackend_reach (d : Dev) : Dev.Reach d (giveUpBackend d) := .refl d

theorem setBus_reach (b : Bus) (d : Dev) : Dev.Reach d (setBus b d) := .refl d

theorem openGlobalExport_reach (d : Dev) : Dev.Reach d (openGlobalExport d) := (fileOpen_envOnly .exportFile d).reach

theorem openGlobalUnexport_reach (d : Dev) : Dev.Reach d (openGlobalUnexport d) :=
  (fileOpen_envOnly .unexportFile d).reach

theorem gpioInitialize_reach (d : Dev) : Dev.Reach d (gpioInitialize d).2.2 := by
  unfold gpioInitialize
  split
  · exact .refl d
  · dsimp only
    have h := (drawRegAccess_envOnly d).reach
    split
    · exact h.trans (setBackend_reach _ _)
    · exact ((h.trans (openGlobalExport_reach _)).trans (openGlobalUnexport_reach _)).trans (setBackend_reach _ _)

theorem closeGlobals_reach (d : Dev) : Dev.Reach d (closeGlobals d) := by
  have h := ((fileClose_envOnly d.gpio.hExport .exportFile d).trans
    (fileClose_envOnly (fileClose d.gpio.hExport .exportFile d).gpio.hUnexport .unexportFile _)).reach
  have hg : (fileClose d.gpio.hExport .exportFile d).gpio = d.gpio := (fileClose_envOnly _ _ _).gpio
  rw [hg] at h
  exact h

theorem gpioFinalize_reach (d : Dev) : Dev.Reach d (gpioFinalize d) := by
  unfold gpioFinalize
  split
  · exact .refl d
  · exact (((gpioUnexportAll_spec d).1.reach).trans (closeGlobals_reach _)).trans (giveUpBackend_reach _)
  · exact giveUpBackend_reach d

theorem owOpenSimple_reach (c : BusCfg) (p : Byte) (slots : Vector Word 10) (d : Dev) :
    Dev.Reach d (owOpenSimple c p slots d).2.2 := by
  have h1 : Dev.Reach d (bindBus c p 0xFF slots d) := .refl d
  exact ((h1.trans (gpioExportPin_pinsOnly p _).reach).trans (owPullUp_envOnly _).reach).trans (setBus_reach _ _)

theorem owOpenBuffered_reach (p q : Byte) (d : Dev) : Dev.Reach d (owOpenBuffered p q d).2.2 := by
  have h1 : Dev.Reach d (bindBus .buffered p q (slotsOf d.cfg.tunableNs) d) := .refl d
  exact (((((h1.trans (gpioExportPin_pinsOnly p _).reach).trans (gpioExportPin_pinsOnly q _).reach).trans
    (gpioSetMode_envOnly p .input _).reach).trans (gpioSetMode_envOnly q .output _).reach).trans
    (owPullUp_envOnly _).reach).trans (setBus_reach _ _)

theorem unexportOut_pinsOnly (d : Dev) : Dev.PinsOnly d (unexportOut d) := by
  unfold unexportOut
  split
  · exact gpioUnexportPin_pinsOnly _ d
  · exact .refl d

theorem owClose_reach (d : Dev) : Dev.Reach d (owClose d) :=
  ((gpioUnexportPin_pinsOnly _ d).reach.trans (unexportOut_pinsOnly _).reach).trans (setBus_reach _ _)

theorem clockDelay_envOnly (f : Bool) (x y z : Word) (d : Dev) : Dev.EnvOnly d (clockDelay f x y z d) := by
  unfold clockDelay
  split
  · exact anchoredWait_envOnly _ _ _ d
  · exact waitNs_envOnly _ d

/-! ## Outcomes -/

/-- `exportPin` ends with OK or `ResourceUnavailable`. -/
theorem gpioExportPin_outcome (p : Byte) (d : Dev) :
    (gpioExportPin p d).1 = .ok ∨ (gpioExportPin p d).1 = .resourceUnavailable := by
  rcases gpioExportPin_cases p d with h | ⟨i, e, -, -, -, -, ⟨h, -⟩ | ⟨h, -⟩⟩
  · exact .inl (by rw [h])
  · exact .inl h
  · exact .inr h

theorem gpioInitialize_outcome (d : Dev) :
    (gpioInitialize d).2.1 = none ∧ ((gpioInitialize d).1 = .ok ∨ (gpioInitialize d).1 = .resourceUnavailable) := by
  unfold gpioInitialize
  split
  · exact ⟨rfl, .inl rfl⟩
  · dsimp only
    split
    · exact ⟨rfl, .inl rfl⟩
    · refine ⟨rfl, ?_⟩
      unfold globalOutcome
      split
      · exact .inr rfl
      · exact .inl rfl

/-! ## Every command -/

/-- What is common to the ends of all commands. -/
structure State.Finishes (i : Instr) (s t : State) (d : Dev) (e : ErrCode) (x y : Option Word) : Prop where
  ends    : t = State.finish e x y { s with dev := d }
  reach   : Dev.Reach s.dev d
  written : e.written = true
  r0      : i.writesR0 = false → x = none
  r1      : i ≠ .clockRead → y = none

/-- Every command, in every state, ends by `State.finish` on a block its operation leads to. -/
theorem exec_finish (i : Instr) (s : State) : ∃ t d e x y, exec i s = .next t ∧ State.Finishes i s t d e x y := by
  have bound : ∀ (want : Bool) (f : State → State),
      (∃ d e x y, State.Finishes i s (f s) d e x y) →
      ∃ t d e x y, (Host.Outcome.next (s.ifBound want f) : Host.Outcome State Fault Refusal) = .next t ∧
        State.Finishes i s t d e x y := by
    intro want f ⟨d, e, x, y, h⟩
    unfold State.ifBound
    split
    · exact ⟨_, d, e, x, y, rfl, h⟩
    · exact ⟨_, s.dev, .busState, none, none, rfl, rfl, .refl _, rfl, fun _ => rfl, fun _ => rfl⟩
  cases i with
  | initGpio =>
    have h := gpioInitialize_outcome s.dev
    refine ⟨_, _, _, _, _, rfl, rfl, gpioInitialize_reach s.dev, ?_, fun _ => h.1, fun _ => rfl⟩
    rcases h.2 with h | h <;> rw [h] <;> rfl
  | finalize => exact ⟨_, _, _, _, _, rfl, rfl, gpioFinalize_reach s.dev, rfl, fun _ => rfl, fun _ => rfl⟩
  | exportPin p =>
    refine ⟨_, _, _, _, _, rfl, rfl, (gpioExportPin_pinsOnly p s.dev).reach, ?_, fun _ => rfl, fun _ => rfl⟩
    rcases gpioExportPin_outcome p s.dev with h | h <;> simp only [h] <;> rfl
  | unexportPin p =>
    exact ⟨_, _, _, _, _, rfl, rfl, (gpioUnexportPin_pinsOnly p s.dev).reach, rfl, fun _ => rfl, fun _ => rfl⟩
  | unexportAll =>
    exact ⟨_, _, _, _, _, rfl, rfl, (gpioUnexportAll_spec s.dev).1.reach, rfl, fun _ => rfl, fun _ => rfl⟩
  | setMode p m =>
    exact ⟨_, _, _, _, _, rfl, rfl, (gpioSetMode_envOnly p m s.dev).reach, rfl, fun _ => rfl, fun _ => rfl⟩
  | setPullDisable p =>
    exact ⟨_, _, _, _, _, rfl, rfl, (gpioSetPullState_envOnly p _ s.dev).reach, rfl, fun _ => rfl, fun _ => rfl⟩
  | setPullUp p =>
    exact ⟨_, _, _, _, _, rfl, rfl, (gpioSetPullState_envOnly p _ s.dev).reach, rfl, fun _ => rfl, fun _ => rfl⟩
  | setPullDown p =>
    exact ⟨_, _, _, _, _, rfl, rfl, (gpioSetPullState_envOnly p _ s.dev).reach, rfl, fun _ => rfl, fun _ => rfl⟩
  | setValue p b =>
    exact ⟨_, _, _, _, _, rfl, rfl, (gpioSetValue_envOnly p b s.dev).reach, rfl, fun _ => rfl, fun _ => rfl⟩
  | getValue p =>
    exact ⟨_, _, _, _, _, rfl, rfl, (gpioGetValue_envOnly p s.dev).reach, rfl, nofun, fun _ => rfl⟩
  | delay f =>
    exact ⟨_, _, _, _, _, rfl, rfl, (clockDelay_envOnly f _ _ _ s.dev).reach, rfl, fun _ => rfl, fun _ => rfl⟩
  | clockRead =>
    exact ⟨_, _, _, _, _, rfl, rfl, (now_envOnly s.dev).reach, rfl, nofun, fun h => absurd rfl h⟩
  | busOpenLegacy p =>
    refine bound _ _ ⟨_, _, _, _, rfl, owOpenSimple_reach .legacy p (slotsOf s.dev.cfg.legacyNs) s.dev, ?_, fun _ => rfl,
      fun _ => rfl⟩
    rcases gpioExportPin_outcome p (bindBus .legacy p 0xFF (slotsOf s.dev.cfg.legacyNs) s.dev) with h | h <;>
      simp only [owOpenSimple, h] <;> rfl
  | busOpenTunable p =>
    refine bound _ _ ⟨_, _, _, _, rfl, owOpenSimple_reach .tunable p (slotsOf s.dev.cfg.tunableNs) s.dev, ?_, fun _ => rfl,
      fun _ => rfl⟩
    rcases gpioExportPin_outcome p (bindBus .tunable p 0xFF (slotsOf s.dev.cfg.tunableNs) s.dev) with h | h <;>
      simp only [owOpenSimple, h] <;> rfl
  | busOpenBuffered p q =>
    refine bound _ _ ⟨_, _, _, _, rfl, owOpenBuffered_reach p q s.dev, ?_, fun _ => rfl, fun _ => rfl⟩
    have h1 := gpioExportPin_outcome p (bindBus .buffered p q (slotsOf s.dev.cfg.tunableNs) s.dev)
    have h2 := gpioExportPin_outcome q (gpioExportPin p (bindBus .buffered p q (slotsOf s.dev.cfg.tunableNs) s.dev)).2
    show (worse _ _).written = true
    unfold worse
    rcases h1 with h | h <;> rcases h2 with h' | h' <;> rw [h, h'] <;> rfl
  | busClose => exact bound _ _ ⟨_, _, _, _, rfl, owClose_reach s.dev, rfl, fun _ => rfl, fun _ => rfl⟩
  | setSlot n => exact bound _ _ ⟨_, _, _, _, rfl, setBus_reach _ s.dev, rfl, fun _ => rfl, fun _ => rfl⟩
  | getSlot n => exact bound _ _ ⟨_, _, _, _, rfl, .refl s.dev, rfl, nofun, fun _ => rfl⟩
  | pullUp => exact bound _ _ ⟨_, _, _, _, rfl, (owPullUp_envOnly s.dev).reach, rfl, fun _ => rfl, fun _ => rfl⟩
  | pullDown => exact bound _ _ ⟨_, _, _, _, rfl, (owPullDown_envOnly s.dev).reach, rfl, fun _ => rfl, fun _ => rfl⟩
  | reset =>
    refine bound _ _ ⟨_, _, _, _, rfl, (owReset_envOnly s.dev).reach, ?_, nofun, fun _ => rfl⟩
    unfold owReset
    dsimp only
    split <;> rfl
  | writeBit b => exact bound _ _ ⟨_, _, _, _, rfl, (writeSlot_envOnly b s.dev).reach, rfl, fun _ => rfl, fun _ => rfl⟩
  | writeByte v =>
    exact bound _ _ ⟨_, _, _, _, rfl, (writeSlots_envOnly v s.dev).reach, rfl, fun _ => rfl, fun _ => rfl⟩
  | readBit => exact bound _ _ ⟨_, _, _, _, rfl, (readSlot_envOnly s.dev).reach, rfl, nofun, fun _ => rfl⟩
  | readByte => exact bound _ _ ⟨_, _, _, _, rfl, (readSlots_envOnly s.dev).reach, rfl, nofun, fun _ => rfl⟩
  | crcReset => exact ⟨_, _, _, _, _, rfl, rfl, .refl s.dev, rfl, fun _ => rfl, fun _ => rfl⟩
  | crcUpdate v => exact ⟨_, _, _, _, _, rfl, rfl, .refl s.dev, rfl, nofun, fun _ => rfl⟩
  | crcValid =>
    have h : (crcVerdict s.dev).2.2 = s.dev ∧ (crcVerdict s.dev).1.written = true := by
      unfold crcVerdict
      split <;> exact ⟨rfl, rfl⟩
    exact ⟨_, _, _, _, _, rfl, rfl, ⟨by rw [h.1]; exact .refl _, by rw [h.1]⟩, h.2, nofun, fun _ => rfl⟩

end Sys2Proof.Machine
end

