-- ==== Sys2Proof/Laws/PerInstr.lean ====
section
/-! SUPPORT. Statements made of every command as syntax, one lemma for each constructor of `Instr`. The family
`EncodedWord` says that the word of a well-formed command lies in the row of the opcode table that has the command's
mnemonic (rules R91, R95). -/

namespace Sys2Proof.Laws.EncodedWord

open Sys2Proof

/-- The word of a well-formed command is a command of its own row of the opcode table (rules R91, R95). -/
def Statement (i : Instr) : Prop :=
  i.wf = true → ∃ r ∈ opTable, r.mnemonic = i.mnemonic ∧ r.covers (encode i) = true

/-- The row at a place of the table, with what is to be shown of it. -/
theorem of_row (i : Instr) (k : Nat) (r : OpRow) (hk : opTable[k]? = some r) (hm : r.mnemonic = i.mnemonic)
    (hc : i.wf = true → r.covers (encode i) = true) : Statement i :=
  fun hw => ⟨r, List.mem_of_getElem? hk, hm, hc hw⟩

theorem initGpio : Statement .initGpio := of_row _ 0 _ rfl rfl fun _ => by decide

theorem finalize : Statement .finalize := of_row _ 1 _ rfl rfl fun _ => by decide

theorem exportPin (p : Byte) : Statement (.exportPin p) :=
  of_row _ 2 _ rfl rfl fun _ => covers_formatC _ _ _ _ _ 0xFF 0x00 0xFF 0xFF (by decide)
    (by simp; decide) (.inl rfl)

theorem unexportPin (p : Byte) : Statement (.unexportPin p) :=
  of_row _ 3 _ rfl rfl fun _ => covers_formatC _ _ _ _ _ 0xFF 0x00 0xFF 0xFF (by decide)
    (by simp; decide) (.inl rfl)

theorem unexportAll : Statement .unexportAll := of_row _ 4 _ rfl rfl fun _ => by decide

theorem setMode (p : Byte) (m : PinMode) : Statement (.setMode p m) :=
  of_row _ 5 _ rfl rfl fun _ => covers_formatC _ _ _ _ _ 0xFF 0x00 0xFF 0xFE (by decide)
    (by cases m <;> simp <;> decide) (.inl rfl)

theorem setPullDisable (p : Byte) : Statement (.setPullDisable p) :=
  of_row _ 6 _ rfl rfl fun _ => covers_formatC _ _ _ _ _ 0xFF 0x00 0xFF 0xFF (by decide)
    (by simp; decide) (.inl rfl)

theorem setPullUp (p : Byte) : Statement (.setPullUp p) :=
  of_row _ 7 _ rfl rfl fun _ => covers_formatC _ _ _ _ _ 0xFF 0x00 0xFF 0xFF (by decide)
    (by simp; decide) (.inl rfl)

theorem setPullDown (p : Byte) : Statement (.setPullDown p) :=
  of_row _ 8 _ rfl rfl fun _ => covers_formatC _ _ _ _ _ 0xFF 0x00 0xFF 0xFF (by decide)
    (by simp; decide) (.inl rfl)

theorem setValue (p : Byte) (b : Bool) : Statement (.setValue p b) :=
  of_row _ 9 _ rfl rfl fun _ => covers_formatC _ _ _ _ _ 0xFF 0x00 0xFF 0xFE (by decide)
    (by cases b <;> simp <;> decide) (.inl rfl)

theorem getValue (p : Byte) : Statement (.getValue p) :=
  of_row _ 10 _ rfl rfl fun _ => covers_formatC _ _ _ _ _ 0xFF 0x00 0xFF 0xFF (by decide)
    (by simp; decide) (.inl rfl)

theorem delay (f : Bool) : Statement (.delay f) := of_row _ 11 _ rfl rfl fun _ => by cases f <;> decide

theorem clockRead : Statement .clockRead := of_row _ 12 _ rfl rfl fun _ => by decide

theorem busOpenLegacy (p : Byte) : Statement (.busOpenLegacy p) :=
  of_row _ 13 _ rfl rfl fun _ => covers_formatC _ _ _ _ _ 0xFF 0x00 0xFF 0xFF (by decide)
    (by simp; decide) (.inl rfl)

theorem busOpenTunable (p : Byte) : Statement (.busOpenTunable p) :=
  of_row _ 14 _ rfl rfl fun _ => covers_formatC _ _ _ _ _ 0xFF 0x00 0xFF 0xFF (by decide)
    (by simp; decide) (.inl rfl)

theorem busOpenBuffered (p : Byte) (q : Byte) : Statement (.busOpenBuffered p q) :=
  of_row _ 15 _ rfl rfl fun _ => covers_formatC _ _ _ _ _ 0xFF 0x00 0x00 0xFF (by decide)
    (by simp; decide) (.inl rfl)

theorem busClose : Statement .busClose := of_row _ 16 _ rfl rfl fun _ => by decide

theorem setSlot (n : BitVec 4) : Statement (.setSlot n) :=
  of_row _ 17 _ rfl rfl fun h => covers_formatC _ _ _ _ _ 0xFF 0xFF 0xF0 0xFF (by decide)
    (by revert n; decide) (.inr (by rw [slotQ_low]; exact h))

theorem getSlot (n : BitVec 4) : Statement (.getSlot n) :=
  of_row _ 18 _ rfl rfl fun h => covers_formatC _ _ _ _ _ 0xFF 0xFF 0xF0 0xFF (by decide)
    (by revert n; decide) (.inr (by rw [slotQ_low]; exact h))

theorem pullUp : Statement .pullUp := of_row _ 19 _ rfl rfl fun _ => by decide

theorem pullDown : Statement .pullDown := of_row _ 20 _ rfl rfl fun _ => by decide

theorem reset : Statement .reset := of_row _ 21 _ rfl rfl fun _ => by decide

theorem writeBit (b : Bool) : Statement (.writeBit b) := of_row _ 22 _ rfl rfl fun _ => by cases b <;> decide

theorem writeByte (v : Byte) : Statement (.writeByte v) :=
  of_row _ 23 _ rfl rfl fun _ => covers_formatC _ _ _ _ _ 0xFF 0xFF 0xFF 0x00 (by decide)
    (by simp; decide) (.inl rfl)

theorem readBit : Statement .readBit := of_row _ 24 _ rfl rfl fun _ => by decide

theorem readByte : Statement .readByte := of_row _ 25 _ rfl rfl fun _ => by decide

theorem crcReset : Statement .crcReset := of_row _ 26 _ rfl rfl fun _ => by decide

theorem crcUpdate (v : Byte) : Statement (.crcUpdate v) :=
  of_row _ 27 _ rfl rfl fun _ => covers_formatC _ _ _ _ _ 0xFF 0xFF 0xFF 0x00 (by decide)
    (by simp; decide) (.inl rfl)

theorem crcValid : Statement .crcValid := of_row _ 28 _ rfl rfl fun _ => by decide

end Sys2Proof.Laws.EncodedWord
end

