-- ==== Sys2Proof/Tests/Slice0.lean ====
section
/-! SUPPORT. Tests of the model. Expected results come from the vectors of 95_test_vectors.md and from the rules named
beside each test, on the example board `EXB` of that file; the witnesses at the end meet the hypotheses of the statements
of Certificates/Slice0/Obligations.lean. -/

namespace Sys2Proof.Tests

open Sys2Proof Sys2Proof.Machine

/-! ## The example board EXB (95_test_vectors.md section 1) -/

/-- The entry of pin `n` on EXB. -/
def exbPin (n : Nat) : PinEntry :=
  { hw := 200 + n, out := n, inp := 32 + n, pen := 64 + n, pdir := 96 + n, fsel := 128 + n, mux := 160 + n }

/-- Pins 4, 5 and 7 are mapped. -/
def exbBoard : List (Option PinEntry) :=
  List.replicate 4 none ++ [some (exbPin 4), some (exbPin 5), none, some (exbPin 7)] ++ List.replicate 56 none

def exb : Config := { board := exbBoard, regWords := 8 }

/-- After reset, on EXB. -/
def fresh : State := { dev := { cfg := exb } }

/-- The register backend is selected. -/
def onRegister : State := { fresh with dev := { fresh.dev with gpio := { backend := .register } } }

/-- The filesystem backend is selected, pin 7 is exported. -/
def onFiles : State :=
  { fresh with dev := { fresh.dev with
      gpio := { backend := .filesystem, hExport := .opened, hUnexport := .opened,
                pins := (Vector.replicate 64 { }).set 7 PinFiles.full } } }

/-- A bus bound to pins, with the tunable slots. -/
def withBus (c : BusCfg) (p q : Byte) (s : State) : State :=
  { s with dev := { s.dev with bus := { bound := true, cfg := c, pinIo := p, pinOut := q, slots := slotsOf exb.tunableNs } } }

/-- The environment's answers are queued. -/
def withDraws (x : Draws) (s : State) : State := { s with dev := setDraws x s.dev }

/-- Clock reads far enough apart that every busy wait ends at its second read. -/
def slowClock (n : Nat) : Draws := { times := (List.replicate n [0, 1000000]).flatten }

/-- The page holds given cells. -/
def withPage (m : Memory) (s : State) : State :=
  { s with dev := { s.dev with env := { s.dev.env with page := m } } }

/-- The clock shows a time. -/
def withClock (t : Nat) (s : State) : State := { s with dev := { s.dev with env := { s.dev.env with clk := t } } }

/-- The state after the host has issued one command word. -/
def run (w : Word) (s : State) : State :=
  match step { s with agenda := [.command w] } with
  | .next t => t
  | .fault _ => s
  | .refused _ => s

/-- The state in which a command ends. -/
def after (i : Instr) (s : State) : State :=
  match exec i s with
  | .next t => t
  | .fault _ => s
  | .refused _ => s

/-- The actions of a command on the outside. -/
def trace (w : Word) (s : State) : List Action := s.dev.traceSince (run w s).dev

/-! ## Ill-formed terms (rules R93, R103) -/

theorem test_wf_setSlot_refuses_10 : (Instr.setSlot 10).wf = false ∧ (Instr.setSlot 9).wf = true := by decide

theorem test_wf_getSlot_refuses_15 : (Instr.getSlot 15).wf = false ∧ (Instr.getSlot 0).wf = true := by decide

/-! ## Decoding (95_test_vectors.md section 3 and the encodings of rules R124 to R235) -/

theorem test_decode_gpio :
    decode 0x10000000 = .ok .initGpio ∧ decode 0x11000000 = .ok .finalize ∧
    decode 0x12070000 = .ok (.exportPin 7) ∧ decode 0x12FF0000 = .ok (.exportPin (-1)) ∧
    decode 0x13070000 = .ok (.unexportPin 7) ∧ decode 0x14000000 = .ok .unexportAll ∧
    decode 0x15070001 = .ok (.setMode 7 .output) ∧ decode 0x15070000 = .ok (.setMode 7 .input) ∧
    decode 0x16070000 = .ok (.setPullDisable 7) ∧ decode 0x16070001 = .ok (.setPullUp 7) ∧
    decode 0x16070002 = .ok (.setPullDown 7) ∧ decode 0x17040001 = .ok (.setValue 4 true) ∧
    decode 0x18400000 = .ok (.getValue 64) ∧ decode 0x18800000 = .ok (.getValue (-128)) := by decide

theorem test_decode_clock_and_crc :
    decode 0x20000000 = .ok (.delay false) ∧ decode 0x20000001 = .ok (.delay true) ∧
    decode 0x21000000 = .ok .clockRead ∧ decode 0x40000000 = .ok .crcReset ∧
    decode 0x41000002 = .ok (.crcUpdate 0x02) ∧ decode 0x42000000 = .ok .crcValid := by decide

theorem test_decode_bus :
    decode 0x30070000 = .ok (.busOpenLegacy 7) ∧ decode 0x31070000 = .ok (.busOpenTunable 7) ∧
    decode 0x32040500 = .ok (.busOpenBuffered 4 5) ∧ decode 0x33000000 = .ok .busClose ∧
    decode 0x34000400 = .ok (.setSlot 4) ∧ decode 0x35000900 = .ok (.getSlot 9) ∧
    decode 0x36000000 = .ok .pullUp ∧ decode 0x37000000 = .ok .pullDown ∧ decode 0x38000000 = .ok .reset ∧
    decode 0x39000001 = .ok (.writeBit true) ∧ decode 0x39000000 = .ok (.writeBit false) ∧
    decode 0x3A0000CC = .ok (.writeByte 0xCC) ∧ decode 0x3B000000 = .ok .readBit ∧
    decode 0x3C000000 = .ok .readByte := by decide

theorem test_decode_refused :
    decode 0x10000001 = .error .mustBeZero ∧ decode 0x12070100 = .error .mustBeZero ∧
    decode 0x15070002 = .error .mustBeZero ∧ decode 0x16070003 = .error .pullCode ∧
    decode 0x20000002 = .error .mustBeZero ∧ decode 0x32040501 = .error .mustBeZero ∧
    decode 0x34000A00 = .error .slotNumber ∧ decode 0x34001400 = .error .mustBeZero ∧
    decode 0x3A0100CC = .error .mustBeZero ∧ decode 0x3D000000 = .error .reservedOpcode ∧
    decode 0 = .error .reservedOpcode ∧ decode 0xFFFFFFFF = .error .reservedOpcode := by decide

/-- Section 3, order of checks, from the reset state. -/
theorem test_order_of_checks :
    (run 0x38000000 fresh).statusWord = 0x00008100 ∧ (run 0x38000001 fresh).statusWord = 0x00008000 ∧
    (run 0x30070000 fresh).statusWord = 0x00000008 ∧
    (run 0x31070000 (run 0x30070000 fresh)).statusWord = 0x00008108 := by decide

theorem test_withFetchWord_runs_the_word :
    step (State.reset.withFetchWord 32 0x42000000) =
      .next (after .crcValid (State.accept 0x42000000 State.reset)) := rfl

/-! ## GPIOController (section 4) -/

theorem test_initialize_register :
    (run 0x10000000 (withDraws { regAccess := [true] } fresh)).statusWord = 0x00000002 := by decide

theorem test_initialize_files :
    (run 0x10000000 (withDraws { regAccess := [false], opens := [true, true] } fresh)).statusWord = 0x00000004 ∧
    (run 0x10000000 (withDraws { regAccess := [false], opens := [true, false] } fresh)).statusWord = 0x00000104 := by
  decide

set_option maxRecDepth 8000 in
theorem test_finalize :
    (run 0x11000000 onFiles).statusWord = 0 ∧
    trace 0x11000000 onFiles = [.fileClose (.pinFile 7 .direction), .fileClose (.pinFile 7 .pull),
      .fileClose (.pinFile 7 .value), .fileWrite .unexportFile "207\n", .fileClose .exportFile,
      .fileClose .unexportFile] := by decide

theorem test_exportPin_opens :
    trace 0x12040000 (withDraws { opens := [true, true, true] } onFiles) =
      [.fileWrite .exportFile "204\n", .fileOpen (.pinFile 4 .direction) true, .fileOpen (.pinFile 4 .pull) true,
        .fileOpen (.pinFile 4 .value) true] := by decide

theorem test_exportPin_exhausted :
    (run 0x12040000 (withDraws { opens := List.replicate 15 false, times := [0, 0, 0, 0] } onFiles)).statusWord =
      0x00000104 := by decide

theorem test_unexportPin :
    trace 0x13070000 onFiles = [.fileClose (.pinFile 7 .direction), .fileClose (.pinFile 7 .pull),
      .fileClose (.pinFile 7 .value), .fileWrite .unexportFile "207\n"] := by decide

set_option maxRecDepth 8000 in
theorem test_unexportAll :
    ((run 0x14000000 onFiles).dev.gpio.pin 7).exported = false ∧ trace 0x14000000 onRegister = [] := by decide

/-- The line stays asserted when the controller is finalized (rules R125, R337). -/
theorem test_finalize_keeps_the_line :
    (run 0x11000000 (run 0x37000000 (withBus .tunable 7 0xFF onRegister))).dev.asserted = true ∧
    (run 0x11000000 (run 0x37000000 (withBus .tunable 7 0xFF onRegister))).statusWord = 0x00000018 := by decide

theorem test_setMode_output : (run 0x15070001 onRegister).dev.env.page = [(16, 0x80)] := by decide

theorem test_setMode_file : trace 0x15070000 onFiles = [.fileWrite (.pinFile 7 .direction) "in"] := by decide

theorem test_setPullState_up : (run 0x16070001 onRegister).dev.env.page = [(8, 0x80), (12, 0x80)] := by decide

theorem test_setPullState_down :
    (run 0x16070002 (withPage [(8, 0x80), (12, 0x80)] onRegister)).dev.env.page = [(8, 0x80)] := by decide

theorem test_setPullState_disable :
    (run 0x16070000 (withPage [(8, 0x80), (12, 0x80)] onRegister)).dev.env.page = [(12, 0x80)] := by decide

theorem test_setPullState_files :
    trace 0x16070001 onFiles = [.fileWrite (.pinFile 7 .pull) "up"] ∧
    trace 0x16070002 onFiles = [.fileWrite (.pinFile 7 .pull) "down"] ∧
    trace 0x16070000 onFiles = [.fileWrite (.pinFile 7 .pull) "disable"] := by decide

theorem test_setValue_high : (run 0x17040001 (withPage [(0, 0x80)] onRegister)).dev.env.page = [(0, 0x90)] := by decide

theorem test_setValue_low : trace 0x17040000 (withPage [(0, 0x90)] onRegister) =
    [.pageRead 0 0x90, .pageWrite 0 0x80] := by decide

/-- Only the `in` bits of the drawn word count as drawn: the other bits of word 1 are what was last written. -/
theorem test_getValue_register :
    (run 0x18050000 (withDraws { ins := [0xFFFFFFDF] } onRegister)).r0 = 0 ∧
    (run 0x18070000 (withDraws { ins := [0x00000080] } onRegister)).r0 = 1 ∧
    (run 0x18090000 onRegister).r0 = 0xFFFFFFFF := by decide

theorem test_getValue_files :
    (run 0x18070000 (withDraws { chars := [.one] } onFiles)).r0 = 1 ∧
    (run 0x18070000 (withDraws { chars := [.other] } onFiles)).r0 = 0xFFFFFFFF ∧
    (run 0x18040000 onFiles).r0 = 0xFFFFFFFF := by decide

/-! ## BusyWaitClock (section 5) -/

/-- The clock at 12 s + 500 ns. -/
def at12 (a0 a1 a2 : Word) (times : List Nat) : State :=
  withDraws { times := times } (withClock 12000000500 { fresh with a0 := a0, a1 := a1, a2 := a2 })

theorem test_delay_polls :
    ((at12 480000 0 0 [0, 300000, 180000]).dev.actionsSince (run 0x20000000 (at12 480000 0 0 [0, 300000, 180000])).dev).filterMap
      Action.shows = [12000000500, 12000300500, 12000480500] := by decide

theorem test_delay_anchor :
    ((at12 480000 12 500 [600000]).dev.actionsSince (run 0x20000001 (at12 480000 12 500 [600000])).dev).filterMap
      Action.shows = [12000600500] ∧
    trace 0x20000001 (at12 0xFFFFFFFF 12 500 [200000, 999999999]) = [.wait 999999999] := by decide

theorem test_clockRead :
    (run 0x21000000 (at12 0 0 0 [0])).r0 = 0x0C ∧ (run 0x21000000 (at12 0 0 0 [0])).r1 = 0x1F4 := by decide

/-! ## OneWireBus (section 6) -/

theorem test_busOpenLegacy :
    (run 0x30070000 onRegister).statusWord = 0x0000000A ∧ (run 0x35000500 (run 0x30070000 onRegister)).r0 = 60000 := by
  decide

theorem test_busOpenTunable :
    (run 0x31070000 onRegister).statusWord = 0x0000001A ∧ (run 0x35000400 (run 0x31070000 onRegister)).r0 = 9000 := by
  decide

/-- Pin 5 is made an output, and its output bit is cleared: the release level of the buffered driver. -/
theorem test_busOpenBuffered :
    (run 0x32040500 (withPage [(0, 0x20)] onRegister)).dev.env.page = [(16, 0x20)] ∧
    (run 0x32040500 (withPage [(0, 0x20)] onRegister)).statusWord = 0x0000002A := by decide

theorem test_busClose :
    (run 0x33000000 (withBus .tunable 7 0xFF onFiles)).statusWord = 0x00000004 ∧
    ((run 0x33000000 (withBus .tunable 7 0xFF onFiles)).dev.gpio.pin 7).exported = false := by decide

theorem test_setSlot :
    ((run 0x34000400 { withBus .tunable 7 0xFF onRegister with a0 := 15000 }).dev.bus.slots) =
      #v[6000, 64000, 60000, 10000, 15000, 55000, 0, 480000, 70000, 410000] := by decide

theorem test_getSlot : (run 0x35000900 (withBus .buffered 4 5 onRegister)).r0 = 0x00064190 := by decide

theorem test_pullUp :
    trace 0x36000000 (withPage [(16, 0x80)] (withBus .tunable 7 0xFF onRegister)) =
      [.pageRead 5 0, .pageWrite 5 0, .pageRead 4 0x80, .pageWrite 4 0] := by decide

theorem test_pullDown :
    trace 0x37000000 (withBus .tunable 7 0xFF onRegister) =
      [.pageRead 5 0, .pageWrite 5 0, .pageRead 4 0, .pageWrite 4 0x80, .pageRead 0 0, .pageWrite 0 0] := by decide

/-- A device answers: slot j is waited. -/
theorem test_reset_presence :
    (run 0x38000000 (withDraws { slowClock 4 with ins := [0] } (withBus .tunable 7 0xFF onRegister))).r0 = 1 ∧
    (trace 0x38000000 (withDraws { slowClock 4 with ins := [0] } (withBus .tunable 7 0xFF onRegister))).filterMap
      Action.waited = [0, 480000, 70000, 410000] := by decide

/-- No device answers: outcome `NoPresence`, slot j is not waited. -/
theorem test_reset_no_presence :
    (run 0x38000000 (withDraws { slowClock 4 with ins := [0x80] } (withBus .tunable 7 0xFF onRegister))).err =
      .noPresence ∧
    (trace 0x38000000 (withDraws { slowClock 4 with ins := [0x80] } (withBus .tunable 7 0xFF onRegister))).filterMap
      Action.waited = [0, 480000, 70000] := by decide

theorem test_writeBit_one :
    trace 0x39000001 (withDraws (slowClock 2) (withBus .tunable 7 0xFF onRegister)) =
      [.pageRead 5 0, .pageWrite 5 0, .pageRead 4 0, .pageWrite 4 0x80, .pageRead 0 0, .pageWrite 0 0, .wait 6000,
        .pageRead 5 0, .pageWrite 5 0, .pageRead 4 0x80, .pageWrite 4 0, .wait 64000] := by decide

theorem test_writeBit_zero :
    (trace 0x39000000 (withDraws (slowClock 2) (withBus .tunable 7 0xFF onRegister))).filterMap Action.waited =
      [60000, 10000] := by decide

set_option maxRecDepth 20000 in
/-- Bits 0,0,1,1,0,0,1,1 in this order, then the settle time. -/
theorem test_writeByte :
    (trace 0x3A0000CC (withDraws (slowClock 17) (withBus .tunable 7 0xFF onRegister))).filterMap Action.waited =
      [60000, 10000, 60000, 10000, 6000, 64000, 6000, 64000, 60000, 10000, 60000, 10000, 6000, 64000, 6000, 64000,
        100000] := by decide

theorem test_readBit :
    (run 0x3B000000 (withDraws { slowClock 3 with ins := [0] } (withBus .tunable 7 0xFF onRegister))).r0 = 0 ∧
    (run 0x3B000000 (withDraws (slowClock 3) (withBus .tunable 9 0xFF onRegister))).r0 = 1 := by decide

set_option maxRecDepth 20000 in
/-- Samples 1,0,0,0,1,0,0,1 (rule R197). -/
theorem test_readByte :
    (run 0x3C000000 (withDraws { slowClock 24 with ins := [0x80, 0, 0, 0, 0x80, 0, 0, 0x80] }
      (withBus .tunable 7 0xFF onRegister))).r0 = 0x91 := by decide

/-! ## CRC unit (sections 2 and 7) -/

theorem test_crcReset : (run 0x40000000 { fresh with dev := { fresh.dev with crc := 0x5A } }).dev.crc = 0 := by decide

theorem test_crcUpdate : (run 0x41000002 fresh).r0 = 0xBC ∧ (run 0x4100001C (run 0x41000002 fresh)).r0 = 0xAF := by
  decide

theorem test_crcValid :
    (run 0x42000000 fresh).r0 = 1 ∧ (run 0x42000000 (run 0x41000002 fresh)).statusWord = 0x00000400 := by decide

/-- The catalogue check value, `crc8("123456789") = 0xA1` (rule R232). -/
theorem test_crc_check_value : crc8 [0x31, 0x32, 0x33, 0x34, 0x35, 0x36, 0x37, 0x38, 0x39] = 0xA1 := by decide

/-! ## Reset and the sequencer (rules R320, R321, R24) -/

/-- Reset inside the assert of line 3 of `reset`, after its fourth action: the direction is written, the level is not. -/
theorem test_reset_inside_a_line :
    (match step { withPage [(0, 0x80)] (withBus .tunable 7 0xFF onRegister) with
        seq := some { cmd := 0x38000000, l0 := 0, l1 := 0, l2 := 0, step := 3 }, agenda := [.hardResetDuring 4] } with
      | .next t => t.dev.env.page | .fault _ => [] | .refused _ => []) = [(0, 0x80), (16, 0x80)] := by decide

/-- Two ticks of `crcUpdate` do what the command does. -/
theorem test_ticks : ticks 2 (State.accept 0x41000002 fresh) = run 0x41000002 fresh := by decide

/-! ## Witnesses: states and operands that meet the hypotheses of the statements -/

/-- No bus is bound in `onFiles`; one is in these. -/
def simpleRegister : State := withBus .tunable 7 0xFF onRegister
def bufferedRegister : State := withBus .buffered 4 5 onRegister
def simpleFiles : State := withBus .legacy 7 0xFF onFiles
def bufferedFiles : State := withBus .buffered 4 7 onFiles
def unusableBus : State := withBus .legacy 9 0xFF onRegister

theorem witness_DecodeOfEncode : (Instr.setSlot 9).wf = true ∧ (Instr.getSlot 0).wf = true ∧
    (Instr.busOpenBuffered 0x80 0xFF).wf = true := by decide

theorem witness_EncodeOfDecode : decode 0x35000900 = .ok (.getSlot 9) := by decide

theorem witness_DecoderIsTheTable :
    { mnemonic := "getSlot", mask := 0xFFFFF0FF#32, value := 0x35000000#32, slotBound := true } ∈ opTable ∧
    OpRow.covers { mnemonic := "getSlot", mask := 0xFFFFF0FF#32, value := 0x35000000#32, slotBound := true }
      0x35000900 = true ∧
    fresh.seq = none ∧ (∀ r ∈ opTable, r.covers 0x35000A00 = false) := by decide

/-- The edges of the reserved ranges of `OPC`, and the first illegal pull code and slot number. -/
theorem witness_ReservedAndIllegalWords :
    (∀ o ∈ [0x00, 0x0F, 0x19, 0x1F, 0x22, 0x2F, 0x3D, 0x3F, 0x43, 0xFF],
      ∀ r ∈ opTable, opcField r.value ≠ BitVec.ofNat 8 o) ∧
    (∀ o ∈ [0x10, 0x18, 0x20, 0x21, 0x30, 0x3C, 0x40, 0x42],
      ∃ r ∈ opTable, opcField r.value = BitVec.ofNat 8 o) ∧
    fresh.seq = none ∧ 3 ≤ (3#8).toNat ∧ 10 ≤ (((0x0A : Byte).extractLsb' 0 4)).toNat := by decide

theorem witness_StepRunsTheDecodedCommand :
    ({ fresh with agenda := [.command 0x42000000] } : State).agenda = .command 0x42000000 :: [] ∧ fresh.seq = none ∧
    decode 0x42000000 = .ok .crcValid ∧ decodeTableWord 32 0x42000000 = some .crcValid := by decide

/-- The other moves of `StepRunsTheDecodedCommand`, with the last word of the page and the first word after it. -/
theorem witness_other_moves :
    fresh.agenda = [] ∧ ({ fresh with agenda := [.sequencer] } : State).agenda = .sequencer :: [] ∧
    ({ fresh with agenda := [.time 5] } : State).agenda = .time 5 :: [] ∧
    ({ fresh with agenda := [.socWrite 7 1] } : State).agenda = .socWrite 7 1 :: [] ∧
    7 < fresh.dev.cfg.regWords ∧ fresh.dev.env.page.wf = true ∧ fresh.dev.cfg.regWords ≤ 8 := by decide

theorem witness_UndecodableWordEndsAtOnce :
    ({ fresh with agenda := [.command 0x38000001] } : State).agenda = .command 0x38000001 :: [] ∧ fresh.seq = none ∧
    decode 0x38000001 = .error .mustBeZero := by decide

theorem witness_WrongBoundStateIsRefused :
    Instr.wantsBound .reset = some true ∧ fresh.dev.bus.bound ≠ true ∧
    Instr.wantsBound (.busOpenLegacy 7) = some false ∧ simpleRegister.dev.bus.bound ≠ false := by decide

theorem witness_busy_and_idle :
    fresh.busy = false ∧ (State.accept 0x42000000 fresh).busy = true := by decide

theorem witness_HostWindowMap :
    0x1C ≤ 0x1C ∧ ((1 ≠ 4 ∨ 0x04 % 4 ≠ 0) ∧ (4 ≠ 4 ∨ 0x06 % 4 ≠ 0)) ∧
    ({ fresh with agenda := [.hostWrite 4 0x08 7] } : State).agenda = .hostWrite 4 0x08 7 :: [] ∧
    ({ fresh with agenda := [.hostRead 2 0x04] } : State).agenda = .hostRead 2 0x04 :: [] := by decide

theorem witness_HardwareReset :
    ({ simpleFiles with agenda := [.hardReset] } : State).agenda = .hardReset :: [] := by decide

/-- Both cases of `ResetInsideALine`: some of the line's actions are left out, and none is. -/
theorem witness_ResetInsideALine :
    ({ simpleRegister with agenda := [.hardResetDuring 4] } : State).agenda = .hardResetDuring 4 :: [] ∧
    ¬ (simpleRegister.dev.actionsSince (tick { simpleRegister with
        seq := some { cmd := 0x38000000, l0 := 0, l1 := 0, l2 := 0, step := 3 } }).dev).length ≤ 4 ∧
    (simpleRegister.dev.actionsSince (tick { simpleRegister with
        seq := some { cmd := 0x38000000, l0 := 0, l1 := 0, l2 := 0, step := 3 } }).dev).length ≤ 6 := by decide

theorem witness_EveryCommandEnds :
    Instr.writesR0 (.setValue 7 true) = false ∧ Instr.setValue 7 true ≠ .clockRead := by decide

/-- The premise `exec i s = .next t` of the statements about all commands. -/
theorem witness_exec_next : exec (.setMode 7 .output) onRegister = .next (after (.setMode 7 .output) onRegister) := rfl

theorem witness_SequencerReachesExec :
    decode 0x41000002 = .ok (.crcUpdate 2) ∧
    exec (.crcUpdate 2) (fresh.accept 0x41000002) = .next (after (.crcUpdate 2) (fresh.accept 0x41000002)) := ⟨by decide, rfl⟩

theorem witness_WhatCommandsDoNotRead :
    (∀ f, Instr.getSlot 3 ≠ .delay f) ∧ (∀ n, Instr.getSlot 3 ≠ .setSlot n) ∧
    exec (.getSlot 3) (simpleRegister.accept 0x35000300) =
      .next (after (.getSlot 3) (simpleRegister.accept 0x35000300)) :=
  ⟨by decide, by decide, rfl⟩

/-- `setValue` meets every exception of `UnitsChangeOnlyByTheirCommands`. -/
theorem witness_UnitsChangeOnlyByTheirCommands :
    Instr.setValue 7 true ≠ .crcReset ∧ (∀ v, Instr.setValue 7 true ≠ .crcUpdate v) ∧
    Instr.wantsBound (.setValue 7 true) ≠ some false ∧ Instr.setValue 7 true ≠ .busClose ∧
    (∀ n, Instr.setValue 7 true ≠ .setSlot n) ∧ Instr.setValue 7 true ≠ .initGpio ∧
    Instr.setValue 7 true ≠ .finalize ∧ Instr.setValue 7 true ≠ .unexportAll ∧
    (∀ p, Instr.setValue 7 true ≠ .exportPin p) ∧ (∀ p, Instr.setValue 7 true ≠ .unexportPin p) := by
  simp [Instr.wantsBound]

theorem witness_BackendsAreExclusive :
    onRegister.dev.gpio.backend = .register ∧ onFiles.dev.gpio.backend ≠ .register := by decide

/-- Line 4 of `unexportPin`: the handles are closed, the pin is still exported. -/
def midUnexport : State :=
  { onFiles with
    seq := some { cmd := 0x13070000, l0 := 0, l1 := 0, l2 := 0, step := 4 }
    dev := { onFiles.dev with gpio := onFiles.dev.gpio.setPin 7 { exported := true } } }

theorem witness_StepKeepsInv : midUnexport.Inv ∧ step midUnexport = .next (tick midUnexport) := by
  refine ⟨⟨by decide, by decide, by decide, by decide, ?_, ?_⟩, rfl⟩
  · rintro q ⟨⟩; decide
  · rintro q p i ⟨⟩ - - h
    have h7 : ∀ j : Fin 64, (midUnexport.dev.gpio.pin j).hDir = .invalid ∧ (midUnexport.dev.gpio.pin j).hPull = .invalid ∧
      (midUnexport.dev.gpio.pin j).hValue = .invalid := by decide
    exact h7 i

theorem witness_Settled : onFiles.dev.Settled ∧ onRegister.dev.Settled :=
  ⟨⟨by decide, by decide, by decide, by decide, by decide⟩, ⟨by decide, by decide, by decide, by decide, by decide⟩⟩

/-- The edges of the pin range: 0 and 63 are pins (not mapped on EXB), 64 and −1 are none. -/
theorem witness_pin_edges :
    pinIndex 0 = some 0 ∧ pinIndex 63 = some 63 ∧ pinIndex 64 = none ∧ pinIndex 0xFF = none ∧ pinIndex 0x80 = none ∧
    validPin exb 63 = none ∧ validPin exb 7 = some (7, exbPin 7) := by decide

theorem witness_UnusablePinIsANoOp :
    usablePin fresh.dev 7 = none ∧ usablePin onFiles.dev 4 = none ∧ usablePin onRegister.dev 64 = none := by decide

theorem witness_SentinelPin : validPin onRegister.dev.cfg 0xFF = none ∧ validPin onFiles.dev.cfg 9 = none := by decide

theorem witness_InitializeSelectsTheBackend :
    onRegister.dev.gpio.backend ≠ .none ∧
    ((withDraws { regAccess := [true] } fresh).dev.gpio.backend = .none ∧
      (drawRegAccess (withDraws { regAccess := [true] } fresh).dev).1 = true) ∧
    ((withDraws { regAccess := [false], opens := [true, false] } fresh).dev.gpio.backend = .none ∧
      (drawRegAccess (withDraws { regAccess := [false], opens := [true, false] } fresh).dev).1 = false ∧
      (withDraws { regAccess := [false], opens := [true, false] } fresh).dev.env.draws.opens = true :: false :: []) := by
  decide

theorem witness_FinalizeReleasesEverything :
    onFiles.dev.Settled ∧ onFiles.dev.gpio.backend = .filesystem ∧ onFiles.dev.gpio.hUnexport = .opened ∧
    onRegister.dev.Settled ∧ onRegister.dev.gpio.backend ≠ .filesystem :=
  ⟨witness_Settled.1, by decide, by decide, witness_Settled.2, by decide⟩

/-- Pin 4 is valid and not exported; the answers to the opens are as given. -/
def opening (answers : List Bool) : State := withDraws { opens := answers } onFiles

theorem witness_ExportAtTheFirstAttempt :
    (opening [true, true, true]).dev.gpio.backend = .filesystem ∧
    validPin (opening [true, true, true]).dev.cfg 4 = some (4, exbPin 4) ∧
    ((opening [true, true, true]).dev.gpio.pin 4).exported = false ∧
    0 < (opening [true, true, true]).dev.cfg.exportAttempts ∧
    (opening [true, true, true]).dev.env.draws.opens = true :: true :: true :: [] := by decide

/-- For `ExportExhaustion`; its first three premises are those of `ExportOrGiveUp`. -/
theorem witness_ExportExhaustion :
    (opening (List.replicate 15 false)).dev.gpio.backend = .filesystem ∧
    validPin (opening (List.replicate 15 false)).dev.cfg 4 = some (4, exbPin 4) ∧
    ((opening (List.replicate 15 false)).dev.gpio.pin 4).exported = false ∧
    (opening (List.replicate 15 false)).dev.env.draws.opens =
      List.replicate (3 * (opening (List.replicate 15 false)).dev.cfg.exportAttempts) false ++ [] := by decide

/-- A first attempt that opens one file of three; an end in failure with `unexport` open. -/
theorem witness_ExportOrGiveUp :
    (after (.exportPin 4) (withDraws { opens := List.replicate 15 false, times := [0, 0, 0, 0] } onFiles)).err ≠ .ok ∧
    onFiles.dev.gpio.hUnexport = .opened ∧
    0 < (opening [false, true, false]).dev.cfg.exportAttempts ∧
    (opening [false, true, false]).dev.env.draws.opens = false :: true :: false :: [] ∧
    (false && true && false) = false := by decide

theorem witness_ExportIsIdempotent :
    pinIndex 7 = some 7 ∧ onRegister.dev.gpio.backend ≠ .filesystem ∧ (onFiles.dev.gpio.pin 7).exported = true ∧
    pinIndex 4 = some 4 ∧
    exec (.exportPin 4) (opening [true, true, true]) = .next (after (.exportPin 4) (opening [true, true, true])) ∧
    ((after (.exportPin 4) (opening [true, true, true])).dev.gpio.pin 4).exported = true :=
  ⟨by decide, by decide, by decide, by decide, rfl, by decide⟩

theorem witness_UnexportGivesThePinBack :
    validPin onFiles.dev.cfg 7 = some (7, exbPin 7) ∧ onFiles.dev.gpio.pin 7 = PinFiles.full ∧
    pinIndex 4 = some 4 ∧ (onFiles.dev.gpio.pin 4).exported = false ∧ onRegister.dev.gpio.backend ≠ .filesystem := by
  decide

theorem witness_UnexportAllInAscendingOrder :
    onRegister.dev.gpio.backend ≠ .filesystem ∧ onFiles.dev.gpio.backend = .filesystem ∧
    (onFiles.dev.cfg.entry 7).isSome = true ∧ (onFiles.dev.gpio.pin 7).exported = true ∧
    onFiles.dev.gpio.hUnexport = .opened := by decide

theorem witness_BitWriteIsReadThenWrite :
    (onRegister.dev.cfg.inMask 1).getLsbD 0 = false ∧ (onRegister.dev.cfg.inMask 1).getLsbD 7 = true := by decide

/-- For `SetModeAndSetValueWriteBits`, `SetPullWritesItsBits` and `GetValueReturnsTheDraw`. -/
theorem witness_register_pin :
    usablePin onRegister.dev 7 = some (7, exbPin 7) ∧ onRegister.dev.gpio.backend = .register ∧
    onRegister.dev.env.page.wf = true := by decide

/-- For `SettingsThroughFiles` and `GetValueReturnsTheDraw`. -/
theorem witness_file_pin :
    usablePin onFiles.dev 7 = some (7, exbPin 7) ∧ onFiles.dev.gpio.backend = .filesystem ∧
    (onFiles.dev.gpio.pin 7).settled = true := by decide

theorem witness_DelayLastsItsDuration :
    (({ dev := { cfg := { exb with overrunMaxNs := some 500 } } } : State)).dev.cfg.overrunMaxNs = some 500 := by decide

/-- The times the clock shows during a `delay` with an anchor. -/
def anchorShows (s : State) : List Nat := (s.dev.actionsSince (after (.delay true) s).dev).filterMap Action.shows

/-- `OVERRUN_MAX_NS` is given. -/
def withOverrun (m : Nat) (s : State) : State :=
  { s with dev := { s.dev with cfg := { s.dev.cfg with overrunMaxNs := some m } } }

/-- A recent anchor (12 s + 500 ns) whose duration has passed at the first clock read; one with `OVERRUN_MAX_NS`, where
that read keeps the bound; and an anchor two seconds old, of which no length is promised. -/
theorem witness_AnchoredDelay :
    (at12 480000 12 500 [600000]).opL2.toNat < 1000000000 ∧
    anchorShows (at12 480000 12 500 [600000]) = [12000600500] ∧
    (12000000500 ≤ 12000600500 ∧ 12000600500 < 13000000500 ∧ 12000480500 ≤ 12000600500) ∧
    (at12 480000 12 500 []).dev.cfg.overrunMaxNs = none ∧
    (withOverrun 70 (at12 480000 12 500 [600000])).dev.cfg.overrunMaxNs = some 70 ∧
    (withOverrun 70 (at12 480000 12 500 [600000])).dev.env.clk ≤ 12000480500 + 70 ∧
    anchorShows (withOverrun 70 (at12 480000 12 500 [600000])) = [12000480570] ∧
    (now (at12 480000 10 500 [0]).dev).1 = 12000000500 ∧ ¬ 12000000500 < 10 * 1000000000 + 500 + 1000000000 := by
  decide

/-- For `DefaultSlots`. -/
theorem witness_unbound :
    onRegister.dev.bus.bound = false ∧ onFiles.dev.bus.bound = false ∧
    (Instr.busOpenBuffered 4 5 = .busOpenTunable 4 ∨ Instr.busOpenBuffered 4 5 = .busOpenBuffered 4 5) := by decide

/-- The premises of `OpenSimpleBus`, those of its inner clauses included. -/
theorem witness_OpenSimpleBus :
    onRegister.dev.bus.bound = false ∧ onRegister.dev.env.page.wf = true ∧
    (Instr.busOpenLegacy 7 = .busOpenLegacy 7 ∧ BusCfg.legacy = .legacy) ∧
    (Instr.busOpenTunable 7 = .busOpenTunable 7 ∧ BusCfg.tunable = .tunable) ∧
    pinIndex 7 ≠ some 4 ∧ onFiles.dev.gpio.backend = .filesystem ∧
    validPin onFiles.dev.cfg 7 = some (7, exbPin 7) ∧ (onFiles.dev.gpio.pin 7).exported = true ∧
    validPin onFiles.dev.cfg 9 = none ∧
    usablePin (after (.busOpenLegacy 9) onRegister).dev 9 = none ∧
    (∀ j : Fin 64, (onFiles.dev.gpio.pin j).settled = true) ∧
    usablePin (after (.busOpenLegacy 7) onFiles).dev 7 = some (7, exbPin 7) ∧
    (after (.busOpenLegacy 7) onRegister).dev.Drivable 7 ∧
    onRegister.dev.gpio.backend = .register ∧ usablePin onRegister.dev 7 = some (7, exbPin 7) :=
  ⟨by decide, by decide, by decide, by decide, by decide, by decide, by decide, by decide, by decide, by decide,
    by decide, by decide, ⟨7, exbPin 7, by decide, by decide, by decide⟩, by decide, by decide⟩

/-- The premises of `OpenBufferedBus`, those of its inner clauses included: in the last state pin 5 could not be exported. -/
theorem witness_OpenBufferedBus :
    onRegister.dev.bus.bound = false ∧ onRegister.dev.env.page.wf = true ∧
    pinIndex 4 ≠ some 7 ∧ pinIndex 5 ≠ some 7 ∧ onFiles.dev.gpio.backend = .filesystem ∧
    (after (.busOpenBuffered 7 4) (withDraws { opens := [true, true, true] } onFiles)).err = .ok ∧
    validPin onFiles.dev.cfg 4 = some (4, exbPin 4) ∧ (7 : Byte) ≠ 5 ∧
    (onFiles.dev.gpio.hExport = .opened ∧ 0 < onFiles.dev.cfg.exportAttempts ∧ (4 : Byte) ≠ 5 ∧
      onFiles.dev.exportLine 4 ++ onFiles.dev.exportLine 5 = ["204\n", "205\n"]) ∧
    (onFiles.dev.gpio.pin 4).exported = false ∧
    (after (.busOpenBuffered 7 5)
      (withDraws { opens := List.replicate 15 false, times := [0, 0, 0, 0] } onFiles)).err ≠ .ok ∧
    (after (.busOpenBuffered 4 5) onRegister).dev.Drivable 5 ∧
    onRegister.dev.gpio.backend = .register ∧ usablePin onRegister.dev 4 = some (4, exbPin 4) ∧
    usablePin onRegister.dev 5 = some (5, exbPin 5) ∧ usablePin onRegister.dev 9 = none ∧
    usablePin (after (.busOpenBuffered 7 4) (withDraws { opens := [true, true, true] } onFiles)).dev 4 =
      some (4, exbPin 4) ∧
    usablePin (after (.busOpenBuffered 7 4) (withDraws { opens := [true, true, true] } onFiles)).dev 7 =
      some (7, exbPin 7) :=
  ⟨by decide, by decide, by decide, by decide, by decide, by decide, by decide, by decide, by decide, by decide,
    by decide, ⟨5, exbPin 5, by decide, by decide, by decide⟩, by decide, by decide, by decide, by decide, by decide, by decide⟩

theorem witness_CloseBus :
    simpleFiles.dev.bus.bound = true ∧ simpleFiles.dev.gpio.backend = .filesystem ∧
    validPin simpleFiles.dev.cfg simpleFiles.dev.bus.pinIo = some (7, exbPin 7) ∧
    bufferedRegister.dev.bus.bound = true ∧ bufferedRegister.dev.bus.cfg = .buffered ∧
    validPin bufferedRegister.dev.cfg bufferedRegister.dev.bus.pinOut = some (5, exbPin 5) ∧
    simpleRegister.dev.gpio.backend ≠ .filesystem ∧ (∀ j : Fin 64, (simpleFiles.dev.gpio.pin j).settled = true) ∧
    pinIndex simpleFiles.dev.bus.pinIo ≠ some 4 ∧ simpleFiles.dev.bus.cfg ≠ .buffered := by decide

theorem witness_SlotsAreStoredAndRead :
    simpleRegister.dev.bus.bound = true ∧ (0#4).toNat = (0 : Fin 10).val ∧ (9#4).toNat = (9 : Fin 10).val := by decide

/-- A drive pin that is not usable: the first clauses of `PullUpReleases` and `PullDownAsserts`. -/
theorem witness_unusable_drive :
    unusableBus.dev.bus.bound = true ∧ usablePin unusableBus.dev unusableBus.dev.bus.drivePin = none := by decide

/-- For the last clause of `MasterLineTrace`: the waits of a `writeBit`, with the times their reads show. -/
theorem witness_waitReads :
    simpleRegister.dev.bus.bound = true ∧
    waitReads [] ((withDraws (slowClock 2) simpleRegister).dev.actionsSince
      (after (.writeBit true) (withDraws (slowClock 2) simpleRegister)).dev) =
      [(6000, [0, 1000000]), (64000, [1000000, 2000000])] := by decide

/-- A usable drive pin, for each backend and mode: `PullUpReleases` and `PullDownAsserts`. -/
theorem witness_usable_drive :
    usablePin simpleRegister.dev simpleRegister.dev.bus.drivePin = some (7, exbPin 7) ∧
    simpleRegister.dev.env.page.wf = true ∧
    usablePin bufferedRegister.dev bufferedRegister.dev.bus.drivePin = some (5, exbPin 5) ∧
    bufferedRegister.dev.env.page.wf = true ∧
    usablePin simpleFiles.dev simpleFiles.dev.bus.drivePin = some (7, exbPin 7) ∧
    (simpleFiles.dev.gpio.pin 7).settled = true ∧
    bufferedFiles.dev.bus.bound = true ∧ bufferedFiles.dev.bus.cfg = .buffered ∧
    usablePin bufferedFiles.dev bufferedFiles.dev.bus.drivePin = some (7, exbPin 7) ∧
    (bufferedFiles.dev.gpio.pin 7).settled = true := by decide

/-- A drive pin that can be driven, for each backend and mode: the statements about the line. -/
theorem witness_drivable :
    (simpleRegister.dev.bus.bound = true ∧ simpleRegister.dev.Drivable simpleRegister.dev.bus.drivePin) ∧
    (bufferedRegister.dev.bus.bound = true ∧ bufferedRegister.dev.Drivable bufferedRegister.dev.bus.drivePin) ∧
    (simpleFiles.dev.bus.bound = true ∧ simpleFiles.dev.Drivable simpleFiles.dev.bus.drivePin) ∧
    (bufferedFiles.dev.bus.bound = true ∧ bufferedFiles.dev.Drivable bufferedFiles.dev.bus.drivePin) :=
  ⟨⟨by decide, 7, exbPin 7, by decide, by decide, by decide⟩,
    ⟨by decide, 5, exbPin 5, by decide, by decide, by decide⟩,
    ⟨by decide, 7, exbPin 7, by decide, by decide, by decide⟩,
    ⟨by decide, 7, exbPin 7, by decide, by decide, by decide⟩⟩

/-- Word 6 holds no bit of pin 7; bit 4 of word 4 is the function bit of pin 4, which is not the drive pin. -/
theorem witness_LineOperationsTouchOnlyTheDrivePin :
    simpleRegister.dev.env.page.wf = true ∧
    exec .pullUp simpleRegister = .next (after .pullUp simpleRegister) ∧
    usablePin simpleRegister.dev simpleRegister.dev.bus.drivePin = some (7, exbPin 7) ∧
    (24 / 4 ≠ (exbPin 7).mux / 32 ∧ 24 / 4 ≠ (exbPin 7).fsel / 32 ∧ 24 / 4 ≠ (exbPin 7).out / 32) ∧
    ((simpleRegister.dev.cfg.inMask (132 / 32)).getLsbD (132 % 32) = false ∧
      132 ≠ (exbPin 7).mux ∧ 132 ≠ (exbPin 7).fsel ∧ 132 ≠ (exbPin 7).out) ∧
    usablePin simpleRegister.dev simpleRegister.dev.bus.pinIo = some (7, exbPin 7) ∧
    (7 : Fin 64) ≠ 4 := ⟨by decide, rfl, by decide, by decide, by decide, by decide, by decide⟩

theorem quiet_exb (s : State) (h : s = withDraws s.dev.env.draws simpleRegister) : s.dev.QuietDrive := by
  intro i e he
  have h7 : usablePin s.dev s.dev.bus.drivePin = some (7, exbPin 7) := by
    rw [h]; exact (by decide : usablePin simpleRegister.dev simpleRegister.dev.bus.drivePin = some (7, exbPin 7))
  rw [h7] at he
  cases he
  rw [h]
  exact (by decide : (exbPin 7).quiet exb = true)

theorem quiet_unusable : unusableBus.dev.QuietDrive := by
  intro i e h
  have h0 : usablePin unusableBus.dev unusableBus.dev.bus.drivePin = none := by decide
  rw [h0] at h
  cases h

/-- A low and a high sample are queued, and one pin gives none: for `ResetReportsPresence` and `ReadBitReturnsTheSample`. -/
theorem witness_samples :
    ((withDraws { ins := [0] } simpleRegister).dev.bus.bound = true ∧
      (withDraws { ins := [0x80] } simpleRegister).dev.bus.bound = true ∧ unusableBus.dev.bus.bound = true) ∧
    (withDraws { ins := [0] } simpleRegister).dev.QuietDrive ∧
    (withDraws { ins := [0] } simpleRegister).dev.sampleAt 0 = some .low ∧
    (withDraws { ins := [0x80] } simpleRegister).dev.QuietDrive ∧
    (withDraws { ins := [0x80] } simpleRegister).dev.sampleAt 0 = some .high ∧
    unusableBus.dev.QuietDrive ∧ unusableBus.dev.sampleAt 0 = some .unreadable ∧
    (withDraws { chars := [.zero] } simpleFiles).dev.sampleAt 0 = some .low :=
  ⟨by decide, quiet_exb _ rfl, by decide, quiet_exb _ rfl, by decide, quiet_unusable, by decide, by decide⟩

/-- Eight samples are queued (rule R197's example), for `ReadByteLsbFirst`. -/
theorem witness_ReadByteLsbFirst :
    (withDraws { ins := [0x80, 0, 0, 0, 0x80, 0, 0, 0x80] } simpleRegister).dev.bus.bound = true ∧
    (withDraws { ins := [0x80, 0, 0, 0, 0x80, 0, 0, 0x80] } simpleRegister).dev.QuietDrive ∧
    ∀ k, k < 8 → (withDraws { ins := [0x80, 0, 0, 0, 0x80, 0, 0, 0x80] } simpleRegister).dev.sampleAt k =
      some (if k = 0 ∨ k = 4 ∨ k = 7 then .high else .low) :=
  ⟨by decide, quiet_exb _ rfl, by decide⟩

theorem witness_CrcProperties : (0x24 : Byte) ≠ 0x25 := by decide

theorem witness_CrcCommands :
    fresh.dev.crc = 0 ∧ ({ fresh with dev := { fresh.dev with crc := 0x5E } } : State).dev.crc ≠ 0 := by decide

end Sys2Proof.Tests
end

section
/-! PROOFS. The history of a command accounts for what the command does outside the block (rules R13, R70). -/

namespace Sys2Proof.Machine

open Sys2Proof

/-- The later history is the earlier one with the actions in between at its end. -/
theorem Env.Reaches.log_eq {e e' : Env} (h : Env.Reaches e e') : e'.log = e.log ++ e'.log.drop e.log.length :=
  (List.prefix_iff_eq_append.mp h.log).symm

/-- Replaying the recorded actions gives everything but the draws, which are no part of the world. -/
theorem Env.Reaches.sameWorld {e e' : Env} (h : Env.Reaches e e') :
    e'.sameWorld (Env.performAll (e'.log.drop e.log.length) e) := by
  generalize hx : Env.performAll (e'.log.drop e.log.length) e = x
  have hdraws : e' = { x with draws := e'.draws } := hx ▸ h.accounts
  rw [hdraws]
  exact ⟨rfl, rfl, rfl, rfl⟩

/-- A command reaches the environment it ends in by recorded actions, the record of its end the last of them. -/
theorem State.Finishes.reaches {i : Instr} {s t : State} {d : Dev} {e : ErrCode} {x y : Option Word}
    (h : State.Finishes i s t d e x y) : Env.Reaches s.dev.env t.dev.env := by
  have hend : Env.Reaches d.env t.dev.env := h.ends ▸ finish_reaches e x y { s with dev := d }
  exact h.reach.1.trans hend

/-- No command moves the environment but by recorded actions and draws (rules R13, R47). -/
theorem exec_reaches {i : Instr} {s t : State} (h : exec i s = .next t) : Env.Reaches s.dev.env t.dev.env := by
  obtain ⟨u, d, e, x, y, hu, hf⟩ := exec_finish i s
  rw [h] at hu
  cases hu
  exact hf.reaches

/-- Settles O16: every command ends in an environment that `Env.Reaches` relates to the one before it. -/
theorem historyAccountsForTheWorld : Obligations.HistoryAccountsForTheWorld := by
  intro i s t h
  have hr := exec_reaches h
  exact ⟨hr.log_eq, hr.sameWorld⟩

end Sys2Proof.Machine
end

section
/-! PROOFS. What an operation does to the files of the pins (rules R29, R30, R126, R129), and the two agreements of
handles and exported state that follow: the one that holds at every moment and the one that holds between commands. -/

namespace Sys2Proof.Machine

open Sys2Proof

/-- Every pin's handles are open or closed together and only while it is exported, and only mapped pins are exported:
the part of `State.Inv` that speaks of the pins' files. -/
def Dev.FilesOk (d : Dev) : Prop :=
  ∀ j : Fin 64, (d.gpio.pin j).coherent = true ∧
    ((d.gpio.pin j).exported = true → (d.cfg.entry j.val).isSome = true)

theorem Dev.FilesOk.congr {d d' : Dev} (h : d.FilesOk) (hc : d'.cfg = d.cfg)
    (hp : ∀ j : Fin 64, d'.gpio.pin j = d.gpio.pin j) : d'.FilesOk := by
  intro j
  rw [hp j, hc]
  exact h j

/-- The three handles of a pin are closed. -/
def PinFiles.Closed (x : PinFiles) : Prop := x.hDir = .invalid ∧ x.hPull = .invalid ∧ x.hValue = .invalid

theorem coherent_of_closed {x : PinFiles} (h : x.Closed) : x.coherent = true := by
  obtain ⟨hd, hp, hv⟩ := h
  simp [PinFiles.coherent, hd, hp, hv]

/-- A pin that is not exported has no handle open. -/
theorem closed_of_not_exported {x : PinFiles} (hc : x.coherent = true) (hx : x.exported = false) : x.Closed := by
  simp only [PinFiles.coherent, hx, Bool.and_eq_true, Bool.or_false, beq_iff_eq] at hc
  obtain ⟨⟨hdp, hpv⟩, hv⟩ := hc
  exact ⟨by rw [hdp, hpv, hv], by rw [hpv, hv], hv⟩

/-- What exporting and giving back do to the files of the pins, besides moving the environment: a pin's files stay, or the
pin is given back, or, under the filesystem backend, a mapped pin is exported with its three handles open. -/
structure Dev.FilesMove (d d' : Dev) : Prop extends Dev.PinsOnly d d' where
  moves : ∀ j : Fin 64, d'.gpio.pin j = d.gpio.pin j ∨ d'.gpio.pin j = { } ∨
    (d'.gpio.pin j = PinFiles.full ∧ d.gpio.backend = .filesystem ∧ (d.cfg.entry j.val).isSome = true)

namespace Dev.FilesMove

theorem of_envOnly {d d' : Dev} (h : Dev.EnvOnly d d') : Dev.FilesMove d d' :=
  ⟨⟨h.env, h.cfg, h.bus, h.crc, by rw [h.gpio], by rw [h.gpio], by rw [h.gpio]⟩, fun _ => .inl (by rw [h.gpio])⟩

theorem refl (d : Dev) : Dev.FilesMove d d := .of_envOnly (.refl d)

theorem trans {d1 d2 d3 : Dev} (h1 : Dev.FilesMove d1 d2) (h2 : Dev.FilesMove d2 d3) : Dev.FilesMove d1 d3 := by
  refine ⟨h1.toPinsOnly.trans h2.toPinsOnly, fun j => ?_⟩
  rcases h2.moves j with h | h | ⟨h, hb, he⟩
  · rw [h]; exact h1.moves j
  · exact .inr (.inl h)
  · exact .inr (.inr ⟨h, h1.backend ▸ hb, h1.cfg ▸ he⟩)

theorem filesOk {d d' : Dev} (h : Dev.FilesMove d d') (hf : d.FilesOk) : d'.FilesOk := by
  intro j
  rw [h.cfg]
  rcases h.moves j with hj | hj | ⟨hj, -, he⟩
  · rw [hj]; exact hf j
  · rw [hj]; exact ⟨rfl, nofun⟩
  · rw [hj]; exact ⟨rfl, fun _ => he⟩

end Dev.FilesMove

/-- A valid pin operand names a mapped pin (rule R121). -/
theorem validPin_mapped {c : Config} {p : Byte} {i : Fin 64} {e : PinEntry} (h : validPin c p = some (i, e)) :
    pinIndex p = some i ∧ (c.entry i.val).isSome = true := by
  unfold validPin at h
  split at h
  · cases h
  next j hj =>
    obtain ⟨e', he, heq⟩ := Option.map_eq_some_iff.mp h
    cases heq
    exact ⟨hj, by rw [he]; rfl⟩

theorem gpioExportPin_filesMove (p : Byte) (d : Dev) : Dev.FilesMove d (gpioExportPin p d).2 := by
  rcases gpioExportPin_cases p d with h | ⟨i, e, hv, hb, -, hp, ho⟩
  · rw [h]; exact .refl d
  · refine ⟨hp.pinsOnly, fun j => ?_⟩
    by_cases hj : j = i
    · subst hj
      rcases ho with ⟨-, hx⟩ | ⟨-, hx⟩
      · exact .inr (.inr ⟨hx, hb, (validPin_mapped hv).2⟩)
      · exact .inl hx
    · exact .inl (hp.pins j hj)

theorem gpioUnexportPin_filesMove (p : Byte) (d : Dev) : Dev.FilesMove d (gpioUnexportPin p d) :=
  ⟨gpioUnexportPin_pinsOnly p d, fun j => (gpioUnexportPin_pin p d j).imp_right .inl⟩

theorem gpioUnexportAll_filesMove (d : Dev) : Dev.FilesMove d (gpioUnexportAll d) :=
  ⟨(gpioUnexportAll_spec d).1, fun j => ((gpioUnexportAll_spec d).2.1 j).imp_right .inl⟩

theorem unexportOut_filesMove (d : Dev) : Dev.FilesMove d (unexportOut d) := by
  unfold unexportOut
  split
  · exact gpioUnexportPin_filesMove _ d
  · exact .refl d

end Sys2Proof.Machine
end

section
/-! PROOFS. The meaning of a command as a function of the units and of its latched operands: how it ends, and the units
it ends with (rules R25, R41, R96). -/

namespace Sys2Proof.Machine

open Sys2Proof

/-- How an operation ends: the outcome, the results it writes, the units it leaves. -/
structure Ending where
  err : ErrCode
  r0  : Option Word
  r1  : Option Word
  dev : Dev

/-- The operation ends so (rule R41). -/
def State.finishAs (s : State) (r : Ending) : State := State.finish r.err r.r0 r.r1 { s with dev := r.dev }

/-- The end of an operation that returns nothing and cannot fail. -/
def Ending.silent (d : Dev) : Ending := { err := .ok, r0 := none, r1 := none, dev := d }

/-- The end of an operation with an outcome and an optional result in `R0`. -/
def Ending.of (r : ErrCode × Option Word × Dev) : Ending := { err := r.1, r0 := r.2.1, r1 := none, dev := r.2.2 }

/-- The end of a bus command, refused in the wrong bound state (rule R180). -/
def Ending.ifBound (want : Bool) (d : Dev) (r : Ending) : Ending :=
  if d.bus.bound = want then r else { err := .busState, r0 := none, r1 := none, dev := d }

/-- How a command ends on given units with given latched operands. -/
def endingOf (i : Instr) (l0 l1 l2 : Word) (d : Dev) : Ending :=
  match i with
  | .initGpio => .of (gpioInitialize d)
  | .finalize => .silent (gpioFinalize d)
  | .exportPin p => .of ((gpioExportPin p d).1, none, (gpioExportPin p d).2)
  | .unexportPin p => .silent (gpioUnexportPin p d)
  | .unexportAll => .silent (gpioUnexportAll d)
  | .setMode p m => .silent (gpioSetMode p m d)
  | .setPullDisable p => .silent (gpioSetPullState p .disable d)
  | .setPullUp p => .silent (gpioSetPullState p .up d)
  | .setPullDown p => .silent (gpioSetPullState p .down d)
  | .setValue p b => .silent (gpioSetValue p b d)
  | .getValue p => .of (.ok, some (gpioGetValue p d).1.word, (gpioGetValue p d).2)
  | .delay f => .silent (clockDelay f l0 l1 l2 d)
  | .clockRead =>
    { err := .ok, r0 := some (secWord d.cfg (now d).1), r1 := some (nsecWord (now d).1), dev := (now d).2 }
  | .busOpenLegacy p => .ifBound false d (.of (owOpenSimple .legacy p (slotsOf d.cfg.legacyNs) d))
  | .busOpenTunable p => .ifBound false d (.of (owOpenSimple .tunable p (slotsOf d.cfg.tunableNs) d))
  | .busOpenBuffered p q => .ifBound false d (.of (owOpenBuffered p q d))
  | .busClose => .ifBound true d (.silent (owClose d))
  | .setSlot n => .ifBound true d (.silent (setSlotTo (slotIndex n) l0 d))
  | .getSlot n => .ifBound true d (.of (.ok, some (d.bus.slot (slotIndex n)), d))
  | .pullUp => .ifBound true d (.silent (owPullUp d))
  | .pullDown => .ifBound true d (.silent (owPullDown d))
  | .reset => .ifBound true d (.of (owReset d))
  | .writeBit b => .ifBound true d (.silent (writeSlot b d))
  | .writeByte v => .ifBound true d (.silent (writeSlots v d))
  | .readBit => .ifBound true d (.of (owReadBit d))
  | .readByte => .ifBound true d (.of (owReadByte d))
  | .crcReset => .silent (setCrc 0 d)
  | .crcUpdate v => .of (crcAbsorb v d)
  | .crcValid => .of (crcVerdict d)

theorem run_eq_finishAs (f : Dev → Dev) (s : State) : s.run f = s.finishAs (.silent (f s.dev)) := rfl

theorem ifBound_finishAs (want : Bool) (f : State → State) (s : State) (r : Ending) (h : f s = s.finishAs r) :
    s.ifBound want f = s.finishAs (.ifBound want s.dev r) := by
  unfold State.ifBound Ending.ifBound
  split
  · exact h
  · rfl

/-- A command is its ending, on the units and the latched operands it finds. -/
theorem exec_eq_finishAs (i : Instr) (s : State) :
    exec i s = .next (s.finishAs (endingOf i s.opL0 s.opL1 s.opL2 s.dev)) := by
  have bound {want : Bool} {f : State → State} {r : Ending} (h : f s = s.finishAs r) :
      (Host.Outcome.next (s.ifBound want f) : Host.Outcome State Fault Refusal) =
        .next (s.finishAs (.ifBound want s.dev r)) := congrArg _ (ifBound_finishAs want f s r h)
  cases i with
  | unexportAll => exact congrArg Host.Outcome.next (run_eq_finishAs gpioUnexportAll s)
  | busOpenLegacy p => exact bound rfl
  | busOpenTunable p => exact bound rfl
  | busOpenBuffered p q => exact bound rfl
  | busClose => exact bound rfl
  | setSlot n => exact bound rfl
  | getSlot n => exact bound rfl
  | pullUp => exact bound rfl
  | pullDown => exact bound rfl
  | reset => exact bound rfl
  | writeBit b => exact bound rfl
  | writeByte v => exact bound rfl
  | readBit => exact bound rfl
  | readByte => exact bound rfl
  | _ => rfl

/-- Only `delay` and `setSlot` look at the latched operands (rule R96). -/
theorem endingOf_operands (i : Instr) (hd : ∀ f, i ≠ .delay f) (hs : ∀ n, i ≠ .setSlot n) (l0 l1 l2 k0 k1 k2 : Word)
    (d : Dev) : endingOf i l0 l1 l2 d = endingOf i k0 k1 k2 d := by
  cases i with
  | delay f => exact absurd rfl (hd f)
  | setSlot n => exact absurd rfl (hs n)
  | _ => rfl

/-- Settles O19: the ending of a command is a function of the units and of the latched operands. -/
theorem whatCommandsDoNotRead : Obligations.WhatCommandsDoNotRead := by
  refine ⟨fun i s t e x y h => ?_, fun i s t w x y z hd hs h => ?_⟩
  · rw [exec_eq_finishAs] at h
    cases h
    exact ⟨_, exec_eq_finishAs i _, rfl, rfl, rfl, rfl, rfl⟩
  · rw [exec_eq_finishAs] at h
    cases h
    refine ⟨_, exec_eq_finishAs i _, ?_⟩
    rw [endingOf_operands i hd hs _ _ _ (s.accept w).opL0 (s.accept w).opL1 (s.accept w).opL2]
    exact ⟨rfl, rfl, rfl, rfl⟩

end Sys2Proof.Machine
end

section
/-! PROOFS. Which units a command may change, said once for all commands (rules R23, R40, R124 to R130, R184 to R189,
R233 to R235), and what follows for the frames and for the two agreements of handles and exported state. -/

namespace Sys2Proof.Machine

open Sys2Proof

/-- The commands that take pins or give them back, and do nothing else. -/
def Instr.exports (i : Instr) : Prop := i = .unexportAll ∨ (∃ p, i = .exportPin p) ∨ ∃ p, i = .unexportPin p

/-- What a command may do to the units. -/
inductive Dev.Changes : Instr → Dev → Dev → Prop where
  /-- Any command may move no more than the environment. -/
  | environment {i : Instr} {d d' : Dev} (h : Dev.EnvOnly d d') : Changes i d d'
  /-- `initGpio` takes the register backend (rule R124). -/
  | takeRegister {d d' : Dev} (hb : d.gpio.backend = .none) (h : Dev.EnvOnly d d') :
      Changes .initGpio d (setBackend .register d')
  /-- `initGpio` takes the filesystem backend, with what the two global files gave (rule R124). -/
  | takeFiles {d d' : Dev} (x y : Handle) (hb : d.gpio.backend = .none) (hr : Dev.Reach d d')
      (hg : d'.gpio = { d.gpio with backend := .filesystem, hExport := x, hUnexport := y }) (hbus : d'.bus = d.bus)
      (hcrc : d'.crc = d.crc) : Changes .initGpio d d'
  /-- `finalize` gives up the register backend (rule R125). -/
  | releaseRegister {d : Dev} (hb : d.gpio.backend = .register) : Changes .finalize d (giveUpBackend d)
  /-- `finalize` gives up the filesystem backend, every pin given back and the global handles closed (rule R125). -/
  | releaseFiles {d d1 d2 : Dev} (h1 : Dev.FilesMove d d1)
      (hx : ∀ j : Fin 64, (d.cfg.entry j.val).isSome = true → (d1.gpio.pin j).exported = false) (h2 : Dev.EnvOnly d1 d2) :
      Changes .finalize d (giveUpBackend { d2 with
        gpio := { d2.gpio with hExport := .invalid, hUnexport := .invalid } })
  /-- The commands that take pins or give them back move the files of the pins (rules R126, R129, R130). -/
  | files {i : Instr} {d d' : Dev} (hi : Instr.exports i) (h : Dev.FilesMove d d') : Changes i d d'
  /-- The bus is opened: a new bus context, whose pins are exported (rules R184, R185, R187). -/
  | openBus {i : Instr} {d d' : Dev} (b : Bus) (hi : i.wantsBound = some false) (h : Dev.FilesMove (setBus b d) d') :
      Changes i d (setBound true d')
  /-- `busClose` gives the pins of the bus back and empties the context (rule R188). -/
  | closeBus {d d' : Dev} (h : Dev.FilesMove d d') : Changes .busClose d (unbind d')
  /-- `setSlot` stores a slot (rule R189). -/
  | storeSlot {d : Dev} (n : BitVec 4) (v : Word) : Changes (.setSlot n) d (setSlotTo (slotIndex n) v d)
  /-- `crcReset` clears the accumulator (rule R233). -/
  | clearCrc {d : Dev} : Changes .crcReset d (setCrc 0 d)
  /-- `crcUpdate` absorbs a byte (rule R234). -/
  | stepCrc {d : Dev} (v : Byte) : Changes (.crcUpdate v) d (setCrc (crcStep d.crc v) d)

/-! ## Each command's change -/

theorem gpioInitialize_changes (d : Dev) : Dev.Changes .initGpio d (gpioInitialize d).2.2 := by
  have hreach := gpioInitialize_reach d
  have hr := drawRegAccess_envOnly d
  unfold gpioInitialize at hreach ⊢
  by_cases hb : d.gpio.backend = .none
  · simp only [hb, ne_eq, not_true_eq_false, if_false] at hreach ⊢
    split
    · exact .takeRegister hb hr
    next hno =>
      simp only [hno, Bool.false_eq_true, if_false] at hreach
      have hx := fileOpen_envOnly .exportFile (drawRegAccess d).2
      have hy := fileOpen_envOnly .unexportFile (openGlobalExport (drawRegAccess d).2)
      refine .takeFiles (fileOpen .exportFile (drawRegAccess d).2).1
        (fileOpen .unexportFile (openGlobalExport (drawRegAccess d).2)).1 hb hreach ?_ ?_ ?_
      · simp only [setBackend, openGlobalUnexport, hy.gpio]
        simp only [openGlobalExport, hx.gpio, hr.gpio]
      · exact hy.bus.trans (hx.bus.trans hr.bus)
      · exact hy.crc.trans (hx.crc.trans hr.crc)
  · rw [if_pos hb]
    exact .environment (.refl d)

/-- The two global handles are closed, and no more is done to the units. -/
theorem closeGlobals_eq (d : Dev) :
    ∃ d', Dev.EnvOnly d d' ∧
      closeGlobals d = { d' with gpio := { d'.gpio with hExport := .invalid, hUnexport := .invalid } } :=
  ⟨_, (fileClose_envOnly d.gpio.hExport .exportFile d).trans
    (fileClose_envOnly d.gpio.hUnexport .unexportFile _), rfl⟩

theorem gpioFinalize_changes (d : Dev) : Dev.Changes .finalize d (gpioFinalize d) := by
  unfold gpioFinalize
  split
  · exact .environment (.refl d)
  next hb =>
    obtain ⟨d2, h2, heq⟩ := closeGlobals_eq (gpioUnexportAll d)
    rw [heq]
    exact .releaseFiles (gpioUnexportAll_filesMove d) ((gpioUnexportAll_spec d).2.2 hb) h2
  next hb => exact .releaseRegister hb

theorem owOpenSimple_changes {i : Instr} (hi : i.wantsBound = some false) (c : BusCfg) (p : Byte)
    (slots : Vector Word 10) (d : Dev) : Dev.Changes i d (owOpenSimple c p slots d).2.2 :=
  .openBus _ hi ((gpioExportPin_filesMove p (bindBus c p 0xFF slots d)).trans (.of_envOnly (owPullUp_envOnly _)))

theorem owOpenBuffered_changes (p q : Byte) (d : Dev) :
    Dev.Changes (.busOpenBuffered p q) d (owOpenBuffered p q d).2.2 :=
  .openBus _ rfl (((gpioExportPin_filesMove p (bindBus .buffered p q (slotsOf d.cfg.tunableNs) d)).trans
    (gpioExportPin_filesMove q _)).trans
      (.of_envOnly (((gpioSetMode_envOnly p .input _).trans (gpioSetMode_envOnly q .output _)).trans (owPullUp_envOnly _))))

theorem owClose_changes (d : Dev) : Dev.Changes .busClose d (owClose d) :=
  .closeBus ((gpioUnexportPin_filesMove _ d).trans (unexportOut_filesMove _))

theorem crcVerdict_envOnly (d : Dev) : Dev.EnvOnly d (crcVerdict d).2.2 := by
  unfold crcVerdict
  split
  · exact .refl d
  · exact .refl d

theorem Ending.silent_changes {i : Instr} {d d' : Dev} (h : Dev.Changes i d d') :
    Dev.Changes i d (Ending.silent d').dev := h

/-- A bus command that is refused changes nothing. -/
theorem Ending.ifBound_changes {i : Instr} {want : Bool} {d : Dev} {r : Ending} (h : Dev.Changes i d r.dev) :
    Dev.Changes i d (Ending.ifBound want d r).dev := by
  unfold Ending.ifBound
  split
  · exact h
  · exact .environment (.refl d)

/-- Every command changes the units as `Dev.Changes` says. -/
theorem endingOf_changes (i : Instr) (l0 l1 l2 : Word) (d : Dev) : Dev.Changes i d (endingOf i l0 l1 l2 d).dev := by
  cases i with
  | initGpio => exact gpioInitialize_changes d
  | finalize => exact gpioFinalize_changes d
  | exportPin p => exact .files (.inr (.inl ⟨p, rfl⟩)) (gpioExportPin_filesMove p d)
  | unexportPin p => exact .files (.inr (.inr ⟨p, rfl⟩)) (gpioUnexportPin_filesMove p d)
  | unexportAll => exact Ending.silent_changes (.files (.inl rfl) (gpioUnexportAll_filesMove d))
  | setMode p m => exact .environment (gpioSetMode_envOnly p m d)
  | setPullDisable p => exact .environment (gpioSetPullState_envOnly p .disable d)
  | setPullUp p => exact .environment (gpioSetPullState_envOnly p .up d)
  | setPullDown p => exact .environment (gpioSetPullState_envOnly p .down d)
  | setValue p b => exact .environment (gpioSetValue_envOnly p b d)
  | getValue p => exact .environment (gpioGetValue_envOnly p d)
  | delay f => exact .environment (clockDelay_envOnly f l0 l1 l2 d)
  | clockRead => exact .environment (now_envOnly d)
  | busOpenLegacy p => exact Ending.ifBound_changes (owOpenSimple_changes rfl .legacy p _ d)
  | busOpenTunable p => exact Ending.ifBound_changes (owOpenSimple_changes rfl .tunable p _ d)
  | busOpenBuffered p q => exact Ending.ifBound_changes (owOpenBuffered_changes p q d)
  | busClose => exact Ending.ifBound_changes (owClose_changes d)
  | setSlot n => exact Ending.ifBound_changes (.storeSlot n l0)
  | getSlot n => exact Ending.ifBound_changes (.environment (.refl d))
  | pullUp => exact Ending.ifBound_changes (.environment (owPullUp_envOnly d))
  | pullDown => exact Ending.ifBound_changes (.environment (owPullDown_envOnly d))
  | reset => exact Ending.ifBound_changes (.environment (owReset_envOnly d))
  | writeBit b => exact Ending.ifBound_changes (.environment (writeSlot_envOnly b d))
  | writeByte v => exact Ending.ifBound_changes (.environment (writeSlots_envOnly v d))
  | readBit => exact Ending.ifBound_changes (.environment (readSlot_envOnly d))
  | readByte => exact Ending.ifBound_changes (.environment (readSlots_envOnly d))
  | crcReset => exact .clearCrc
  | crcUpdate v => exact .stepCrc v
  | crcValid => exact .environment (crcVerdict_envOnly d)

/-- The units a command ends with, up to the record of its end in the history. -/
theorem exec_changes {i : Instr} {s t : State} (h : exec i s = .next t) :
    ∃ d, Dev.Changes i s.dev d ∧ t.dev.cfg = d.cfg ∧ t.dev.gpio = d.gpio ∧ t.dev.bus = d.bus ∧ t.dev.crc = d.crc := by
  rw [exec_eq_finishAs] at h
  cases h
  exact ⟨_, endingOf_changes i s.opL0 s.opL1 s.opL2 s.dev, rfl, rfl, rfl, rfl⟩

/-! ## Frames -/

theorem Dev.Changes.crc {i : Instr} {d d' : Dev} (h : Dev.Changes i d d') (h1 : i ≠ .crcReset)
    (h2 : ∀ v, i ≠ .crcUpdate v) : d'.crc = d.crc := by
  cases h with
  | environment h => exact h.crc
  | takeRegister _ h => exact h.crc
  | takeFiles _ _ _ _ _ _ hcrc => exact hcrc
  | releaseRegister _ => rfl
  | releaseFiles h _ h' => exact h'.crc.trans h.crc
  | files _ h => exact h.crc
  | openBus _ _ h => exact h.crc
  | closeBus h => exact h.crc
  | storeSlot n v => rfl
  | clearCrc => exact absurd rfl h1
  | stepCrc v => exact absurd rfl (h2 v)

/-- No command but `busOpen*`, `busClose` and `setSlot` changes the bus (rules R35, R36). -/
theorem Dev.Changes.bus {i : Instr} {d d' : Dev} (h : Dev.Changes i d d') (h1 : i.wantsBound ≠ some false)
    (h2 : i ≠ .busClose) (h3 : ∀ n, i ≠ .setSlot n) : d'.bus = d.bus := by
  cases h with
  | environment h => exact h.bus
  | takeRegister _ h => exact h.bus
  | takeFiles _ _ _ _ _ hbus _ => exact hbus
  | releaseRegister _ => rfl
  | releaseFiles h _ h' => exact h'.bus.trans h.bus
  | files _ h => exact h.bus
  | openBus _ hi _ => exact absurd hi h1
  | closeBus _ => exact absurd rfl h2
  | storeSlot n _ => exact absurd rfl (h3 n)
  | clearCrc => rfl
  | stepCrc _ => rfl

/-- `setSlot` changes nothing of the bus but a slot (rule R189). -/
theorem Dev.Changes.context {i : Instr} {d d' : Dev} (h : Dev.Changes i d d') (h1 : i.wantsBound ≠ some false)
    (h2 : i ≠ .busClose) : d'.bus = { d.bus with slots := d'.bus.slots } := by
  by_cases h3 : ∃ n, i = .setSlot n
  · obtain ⟨n, rfl⟩ := h3
    cases h with
    | environment h => rw [h.bus]
    | files hi _ => rcases hi with hi | ⟨_, hi⟩ | ⟨_, hi⟩ <;> cases hi
    | openBus _ hi _ => exact absurd hi h1
    | storeSlot n v => rfl
  · rw [h.bus h1 h2 (not_exists.mp h3)]

/-- `busClose` leaves the slots alone (rule R188). -/
theorem Dev.Changes.slots {i : Instr} {d d' : Dev} (h : Dev.Changes i d d') (h1 : i.wantsBound ≠ some false)
    (h3 : ∀ n, i ≠ .setSlot n) : d'.bus.slots = d.bus.slots := by
  by_cases h2 : i = .busClose
  · subst h2
    cases h with
    | environment h => rw [h.bus]
    | files _ h => rw [h.bus]
    | openBus _ hi _ => exact absurd hi h1
    | closeBus h => rw [← h.bus]; rfl
  · rw [h.bus h1 h2 h3]

/-- No command but `initGpio` and `finalize` changes the backend or a global handle (rules R26, R29). -/
theorem Dev.Changes.globals {i : Instr} {d d' : Dev} (h : Dev.Changes i d d') (h1 : i ≠ .initGpio)
    (h2 : i ≠ .finalize) : d'.gpio.backend = d.gpio.backend ∧ d'.gpio.hExport = d.gpio.hExport ∧
      d'.gpio.hUnexport = d.gpio.hUnexport := by
  cases h with
  | environment h => rw [h.gpio]; exact ⟨rfl, rfl, rfl⟩
  | takeRegister _ _ => exact absurd rfl h1
  | takeFiles _ _ _ _ _ _ _ => exact absurd rfl h1
  | releaseRegister _ => exact absurd rfl h2
  | releaseFiles _ _ _ => exact absurd rfl h2
  | files _ h => exact ⟨h.backend, h.hExport, h.hUnexport⟩
  | openBus _ _ h => exact ⟨h.backend, h.hExport, h.hUnexport⟩
  | closeBus h => exact ⟨h.backend, h.hExport, h.hUnexport⟩
  | storeSlot n v => exact ⟨rfl, rfl, rfl⟩
  | clearCrc => exact ⟨rfl, rfl, rfl⟩
  | stepCrc v => exact ⟨rfl, rfl, rfl⟩

/-- No command but those that take pins or give them back changes the pins' files (rule R30). -/
theorem Dev.Changes.pins {i : Instr} {d d' : Dev} (h : Dev.Changes i d d') (h1 : i.wantsBound ≠ some false)
    (h2 : i ≠ .busClose) (h3 : i ≠ .finalize) (h4 : ¬ Instr.exports i) : d'.gpio.pins = d.gpio.pins := by
  cases h with
  | environment h => rw [h.gpio]
  | takeRegister _ h => rw [setBackend_pins, h.gpio]
  | takeFiles _ _ _ _ hg _ _ => rw [hg]
  | releaseRegister _ => rfl
  | releaseFiles _ _ _ => exact absurd rfl h3
  | files hi _ => exact absurd hi h4
  | openBus _ hi _ => exact absurd hi h1
  | closeBus _ => exact absurd rfl h2
  | storeSlot n v => rfl
  | clearCrc => rfl
  | stepCrc v => rfl

/-- Settles O20: each unit's frame is one lemma about `Dev.Changes`. -/
theorem unitsChangeOnlyByTheirCommands : Obligations.UnitsChangeOnlyByTheirCommands := by
  intro i s t h
  obtain ⟨d, hd, -, hgpio, hbus, hcrc⟩ := exec_changes h
  rw [hgpio, hbus, hcrc]
  refine ⟨hd.crc, fun h1 h2 => ?_, hd.slots, hd.globals, fun h1 h2 h3 h4 h5 h6 => ?_⟩
  · rw [hd.context h1 h2]
    exact ⟨rfl, rfl, rfl, rfl⟩
  · exact hd.pins h1 h2 h3 (not_or.mpr ⟨h4, not_or.mpr ⟨not_exists.mpr h5, not_exists.mpr h6⟩⟩)

/-! ## The agreement of handles and exported state -/

/-- Every command keeps the files of the pins coherent. -/
theorem Dev.Changes.filesOk {i : Instr} {d d' : Dev} (h : Dev.Changes i d d') (hf : d.FilesOk) : d'.FilesOk := by
  cases h with
  | environment h => exact (Dev.FilesMove.of_envOnly h).filesOk hf
  | takeRegister _ h => exact (Dev.FilesMove.of_envOnly h).filesOk hf
  | takeFiles _ _ _ hr hg _ _ => exact hf.congr hr.2 fun j => by rw [hg]; rfl
  | releaseRegister _ => exact hf
  | releaseFiles h _ h' => exact (h.trans (.of_envOnly h')).filesOk hf
  | files _ h => exact h.filesOk hf
  | openBus _ _ h => exact h.filesOk hf
  | closeBus h => exact h.filesOk hf
  | storeSlot n v => exact hf
  | clearCrc => exact hf
  | stepCrc v => exact hf

/-- The part of `Dev.Settled` that does not speak of the bus (rules R29, R30). -/
structure Dev.FilesSettled (d : Dev) : Prop where
  pins    : ∀ i : Fin 64, (d.gpio.pin i).settled = true
  board   : ∀ i : Fin 64, (d.gpio.pin i).exported = true → (d.cfg.entry i.val).isSome = true
  handles : d.gpio.backend ≠ .filesystem → d.gpio.hExport = .invalid ∧ d.gpio.hUnexport = .invalid
  exports : d.gpio.backend ≠ .filesystem → ∀ i : Fin 64, (d.gpio.pin i).exported = false

theorem Dev.FilesSettled.congr {d d' : Dev} (h : d.FilesSettled) (hc : d'.cfg = d.cfg) (hg : d'.gpio = d.gpio) :
    d'.FilesSettled := by
  obtain ⟨h1, h2, h3, h4⟩ := h
  rw [← hg] at h1 h2 h3 h4
  rw [← hc] at h2
  exact ⟨h1, h2, h3, h4⟩

theorem Dev.FilesMove.settled {d d' : Dev} (h : Dev.FilesMove d d') (hs : d.FilesSettled) : d'.FilesSettled where
  pins j := by
    rcases h.moves j with hj | hj | ⟨hj, -, -⟩
    · rw [hj]; exact hs.pins j
    · rw [hj]; rfl
    · rw [hj]; rfl
  board j := by
    rw [h.cfg]
    rcases h.moves j with hj | hj | ⟨-, -, he⟩
    · rw [hj]; exact hs.board j
    · rw [hj]; nofun
    · exact fun _ => he
  handles := by
    rw [h.backend, h.hExport, h.hUnexport]
    exact hs.handles
  exports hb j := by
    rw [h.backend] at hb
    rcases h.moves j with hj | hj | ⟨-, hb', -⟩
    · rw [hj]; exact hs.exports hb j
    · rw [hj]
    · exact absurd hb' hb

/-- Every command keeps the agreement of handles and exported state. -/
theorem Dev.Changes.filesSettled {i : Instr} {d d' : Dev} (h : Dev.Changes i d d') (hs : d.FilesSettled) :
    d'.FilesSettled := by
  cases h with
  | environment h => exact (Dev.FilesMove.of_envOnly h).settled hs
  | @takeRegister _ d1 hb h =>
    have hs1 := (Dev.FilesMove.of_envOnly h).settled hs
    have hb1 : d1.gpio.backend ≠ .filesystem := by rw [h.gpio, hb]; nofun
    exact ⟨hs1.pins, hs1.board, fun _ => hs1.handles hb1, fun _ => hs1.exports hb1⟩
  | takeFiles x y hb hr hg _ _ =>
    have hp : ∀ j : Fin 64, d'.gpio.pin j = d.gpio.pin j := fun j => by rw [hg]; rfl
    have hb' : d'.gpio.backend = .filesystem := by rw [hg]
    refine ⟨fun j => ?_, fun j => ?_, fun h => absurd hb' h, fun h => absurd hb' h⟩
    · rw [hp]; exact hs.pins j
    · rw [hp, hr.2]; exact hs.board j
  | releaseRegister hb =>
    have hb : d.gpio.backend ≠ .filesystem := by rw [hb]; nofun
    exact ⟨hs.pins, hs.board, fun _ => hs.handles hb, fun _ => hs.exports hb⟩
  | @releaseFiles _ d1 d2 h1 hx h2 =>
    have hs1 := h1.settled hs
    have hs2 := hs1.congr h2.cfg h2.gpio
    refine ⟨hs2.pins, hs2.board, fun _ => ⟨rfl, rfl⟩, fun _ j => ?_⟩
    show (d2.gpio.pin j).exported = false
    rw [h2.gpio]
    cases he : (d1.gpio.pin j).exported with
    | false => rfl
    | true => exact absurd he (by rw [hx j (h1.cfg ▸ hs1.board j he)]; nofun)
  | files _ h => exact h.settled hs
  | openBus b _ h => exact (h.settled (hs.congr rfl rfl)).congr rfl rfl
  | closeBus h => exact (h.settled hs).congr rfl rfl
  | storeSlot n v => exact hs.congr rfl rfl
  | clearCrc => exact hs.congr rfl rfl
  | stepCrc v => exact hs.congr rfl rfl

/-- An unbound bus context is empty (rules R35, R49, R188). -/
def Bus.EmptyUnbound (b : Bus) : Prop := b.bound = false → b.cfg = .legacy ∧ b.pinIo = 0xFF ∧ b.pinOut = 0xFF

/-- Every command keeps an unbound bus context empty: `busOpen*` binds it, `busClose` empties it. -/
theorem Dev.Changes.emptyUnbound {i : Instr} {d d' : Dev} (h : Dev.Changes i d d') (hb : d.bus.EmptyUnbound) :
    d'.bus.EmptyUnbound := by
  cases h with
  | environment h => rw [h.bus]; exact hb
  | takeRegister _ h => exact h.bus.symm ▸ hb
  | takeFiles _ _ _ _ _ hbus _ => rw [hbus]; exact hb
  | releaseRegister _ => exact hb
  | releaseFiles h _ h' => exact (h'.bus.trans h.bus).symm ▸ hb
  | files _ h => rw [h.bus]; exact hb
  | openBus _ _ _ => exact nofun
  | closeBus _ => exact fun _ => ⟨rfl, rfl, rfl⟩
  | storeSlot n v => exact hb
  | clearCrc => exact hb
  | stepCrc v => exact hb

theorem settled_iff (d : Dev) : d.Settled ↔ d.FilesSettled ∧ d.bus.EmptyUnbound :=
  ⟨fun ⟨h1, h2, h3, h4, h5⟩ => ⟨⟨h1, h2, h3, h4⟩, h5⟩, fun ⟨⟨h1, h2, h3, h4⟩, h5⟩ => ⟨h1, h2, h3, h4, h5⟩⟩

/-- Settles O24: `Dev.Changes` keeps the agreement of the files and the emptiness of an unbound bus context. -/
theorem commandsKeepSettled : Obligations.CommandsKeepSettled := by
  intro i s t hs h
  obtain ⟨d, hd, hcfg, hgpio, hbus, -⟩ := exec_changes h
  obtain ⟨hfiles, hempty⟩ := (settled_iff s.dev).mp hs
  refine (settled_iff t.dev).mpr ⟨(hd.filesSettled hfiles).congr hcfg hgpio, ?_⟩
  rw [hbus]
  exact hd.emptyUnbound hempty

end Sys2Proof.Machine
end

section
/-! PROOFS. What one line of the sequencer can do, said once for the lines of all commands (rules R24, R106): it ends
the operation or goes on to another line of the same command, on units its action leads to. -/

namespace Sys2Proof.Machine

open Sys2Proof

/-- An action of a line: recorded actions and draws, the parameters kept, and, where `C` holds, the files of the pins kept
coherent. -/
structure Dev.Keeps (C : Prop) (d d' : Dev) : Prop where
  reach : Dev.Reach d d'
  files : C → d.FilesOk → d'.FilesOk

section Keeps
variable {C : Prop} {d d' : Dev}

theorem Dev.Reach.keeps (h : Dev.Reach d d') (hp : ∀ j : Fin 64, d'.gpio.pin j = d.gpio.pin j) : Dev.Keeps C d d' :=
  ⟨h, fun _ hf => hf.congr h.2 hp⟩

theorem Dev.FilesMove.keeps (h : Dev.FilesMove d d') : Dev.Keeps C d d' := ⟨⟨h.env, h.cfg⟩, fun _ => h.filesOk⟩

theorem Dev.EnvOnly.keeps (h : Dev.EnvOnly d d') : Dev.Keeps C d d' := (Dev.FilesMove.of_envOnly h).keeps

theorem Dev.Keeps.refl (d : Dev) : Dev.Keeps C d d := (Dev.EnvOnly.refl d).keeps

theorem Dev.Keeps.trans {d1 d2 d3 : Dev} (h1 : Dev.Keeps C d1 d2) (h2 : Dev.Keeps C d2 d3) : Dev.Keeps C d1 d3 :=
  ⟨h1.reach.trans h2.reach, fun hc hf => h2.files hc (h1.files hc hf)⟩

/-- The files of one pin move, to files that are coherent; where they are exported the pin is mapped. -/
theorem Dev.PinOnly.keeps {i : Fin 64} (h : Dev.PinOnly i d d')
    (hi : C → d.FilesOk → (d'.gpio.pin i).coherent = true ∧
      ((d'.gpio.pin i).exported = true → (d.cfg.entry i.val).isSome = true)) : Dev.Keeps C d d' := by
  refine ⟨⟨h.env, h.cfg⟩, fun hc hf j => ?_⟩
  rw [h.cfg]
  by_cases hj : j = i
  · rw [hj]; exact hi hc hf
  · rw [h.pins j hj]; exact hf j

/-- An action on a valid pin does nothing where the operand names none. -/
theorem onPin_keeps {p : Byte} {f : Fin 64 → PinEntry → Dev → Dev}
    (h : ∀ i e, validPin d.cfg p = some (i, e) → Dev.Keeps C d (f i e d)) : Dev.Keeps C d (onPin p f d) := by
  unfold onPin
  split
  · exact .refl d
  next i e hv => exact h i e hv

theorem writeExport_envOnly (e : PinEntry) (d : Dev) : Dev.EnvOnly d (writeExport e d) := fileWrite_envOnly _ _ _ d

theorem writeUnexport_envOnly (e : PinEntry) (d : Dev) : Dev.EnvOnly d (writeUnexport e d) := fileWrite_envOnly _ _ _ d

theorem setPullFile_envOnly (i : Fin 64) (x : Pull) (d : Dev) : Dev.EnvOnly d (setPullFile i x d) :=
  fileWrite_envOnly _ _ _ d

theorem setValueRegister_envOnly (e : PinEntry) (b : Bool) (d : Dev) : Dev.EnvOnly d (setValueRegister e b d) :=
  regBitWrite_envOnly _ _ d

theorem setValueFile_envOnly (i : Fin 64) (b : Bool) (d : Dev) : Dev.EnvOnly d (setValueFile i b d) :=
  fileWrite_envOnly _ _ _ d

theorem exportAttempt_keeps {i : Fin 64} (he : (d.cfg.entry i.val).isSome = true) :
    Dev.Keeps C d (exportAttempt i d).2 := by
  obtain ⟨hp, hi⟩ := exportAttempt_spec i d
  refine hp.keeps fun _ hf => ?_
  rw [hi]
  split
  · exact ⟨rfl, fun _ => he⟩
  · exact hf i

theorem closePinFiles_closed (i : Fin 64) (d : Dev) : ((closePinFiles i d).gpio.pin i).Closed := by
  rw [(closePinFiles_spec i d).2]
  exact ⟨rfl, rfl, rfl⟩

/-- Closing the handles of a pin keeps the agreement, whether the pin is exported or not (rule R129, step 4). -/
theorem closePinFiles_keeps (i : Fin 64) (d : Dev) : Dev.Keeps C d (closePinFiles i d) := by
  refine (closePinFiles_spec i d).1.keeps fun _ hf => ⟨coherent_of_closed (closePinFiles_closed i d), ?_⟩
  rw [(closePinFiles_spec i d).2]
  exact (hf i).2

/-- Clearing `EXPORTED` keeps the agreement once the handles are closed (rule R129, step 6). -/
theorem clearExported_keeps {i : Fin 64} (hc : C → (d.gpio.pin i).Closed) : Dev.Keeps C d (clearExported i d) := by
  refine (Dev.PinOnly.setPinFiles i _ d).keeps fun c _ => ?_
  rw [setPinFiles_self]
  exact ⟨coherent_of_closed (hc c), nofun⟩

theorem setBackend_keeps (b : Backend) (d : Dev) : Dev.Keeps C d (setBackend b d) :=
  (setBackend_reach b d).keeps fun _ => rfl

theorem giveUpBackend_keeps (d : Dev) : Dev.Keeps C d (giveUpBackend d) := (giveUpBackend_reach d).keeps fun _ => rfl

theorem setBus_keeps (b : Bus) (d : Dev) : Dev.Keeps C d (setBus b d) := (setBus_reach b d).keeps fun _ => rfl

theorem setCrc_keeps (v : Byte) (d : Dev) : Dev.Keeps C d (setCrc v d) := ⟨.refl d, fun _ hf => hf⟩

theorem openGlobalExport_keeps (d : Dev) : Dev.Keeps C d (openGlobalExport d) :=
  (openGlobalExport_reach d).keeps fun j => congrArg (·.pin j) (fileOpen_envOnly .exportFile d).gpio

theorem openGlobalUnexport_keeps (d : Dev) : Dev.Keeps C d (openGlobalUnexport d) :=
  (openGlobalUnexport_reach d).keeps fun j => congrArg (·.pin j) (fileOpen_envOnly .unexportFile d).gpio

theorem closeGlobals_keeps (d : Dev) : Dev.Keeps C d (closeGlobals d) := by
  obtain ⟨d', h, heq⟩ := closeGlobals_eq d
  exact (closeGlobals_reach d).keeps fun j => by rw [heq, ← h.gpio]; rfl

end Keeps

/-! ## Moving through the lines -/

/-- The operand registers `A0`, `A1`, `A2` hold these values (rule R21). -/
def State.withOperands (s : State) (o : Word × Word × Word) : State := { s with a0 := o.1, a1 := o.2.1, a2 := o.2.2 }

@[simp] theorem withOperands_dev (s : State) (o : Word × Word × Word) : (s.withOperands o).dev = s.dev := rfl

/-- What a line does in the state `s` of the operation `q`, whatever the operand registers hold: the operation ends, with
an outcome the block may write, or it goes on to another line with its counters in range. -/
inductive State.LineTo (C : Prop) (q : Seq) (s : State) : (Word × Word × Word → State) → Prop where
  | stop {d : Dev} {e : ErrCode} {x y : Option Word} (h : Dev.Keeps C s.dev d)
      (he : q.out.written = true → e.written = true) :
      LineTo C q s fun o => State.finish e x y { s.withOperands o with dev := d }
  | go {d : Dev} {q' : Seq} (h : Dev.Keeps C s.dev d) (hc : q'.cmd = q.cmd)
      (hr : q.inRange s.dev.cfg = true → q'.inRange s.dev.cfg = true) :
      LineTo C q s fun o => State.goto q' { s.withOperands o with dev := d }

theorem inRange_iff (c : Config) (q : Seq) : q.inRange c = true ↔
    q.k ≤ 7 ∧ (1 ≤ q.att ∧ q.att ≤ max 1 c.exportAttempts) ∧ q.pi ≤ 63 ∧ q.out.written = true := by
  simp only [Seq.inRange, Bool.and_eq_true, decide_eq_true_eq, and_assoc]

section LineTo
variable {C : Prop} {q : Seq} {s : State}

/-- The next line, on units that the line's action leads to. -/
theorem State.LineTo.next {d : Dev} (h : Dev.Keeps C s.dev d) :
    s.LineTo C q fun o => State.goto q.next { s.withOperands o with dev := d } := .go h rfl id

theorem State.LineTo.goto_next : s.LineTo C q fun o => (s.withOperands o).goto q.next := .next (.refl s.dev)

/-- The next line, with an outcome recorded (rule R291). -/
theorem State.LineTo.record {d : Dev} {e : ErrCode} (h : Dev.Keeps C s.dev d)
    (he : q.out.written = true → e.written = true) :
    s.LineTo C q fun o => State.goto { q.next with out := e } { s.withOperands o with dev := d } := by
  refine .go h rfl fun hq => ?_
  obtain ⟨hk, hatt, hpi, hout⟩ := (inRange_iff _ _).mp hq
  exact (inRange_iff _ _).mpr ⟨hk, hatt, hpi, he hout⟩

theorem State.LineTo.finish {e : ErrCode} {x y : Option Word} (he : e.written = true) :
    s.LineTo C q fun o => (s.withOperands o).finish e x y := .stop (.refl s.dev) fun _ => he

theorem lineDo_lineTo {f : Dev → Dev} (h : Dev.Keeps C s.dev (f s.dev)) :
    s.LineTo C q fun o => (s.withOperands o).lineDo q f := .next h

theorem lineIf_lineTo (c : Bool) : s.LineTo C q fun o => (s.withOperands o).lineIf q c := by
  unfold State.lineIf
  split
  · exact .goto_next
  · exact .finish rfl

theorem lineReturn_lineTo {d : Dev} {x : Option Word} (h : Dev.Keeps C s.dev d) :
    s.LineTo C q fun o => State.lineReturn q x { s.withOperands o with dev := d } := .stop h id

theorem lineBound_lineTo (want : Bool) : s.LineTo C q fun o => (s.withOperands o).lineBound q want := by
  unfold State.lineBound
  dsimp +instances only [withOperands_dev]
  split
  · exact .goto_next
  · exact .finish rfl

end LineTo

/-! ## The lines of each command -/

theorem globalOutcome_written (d : Dev) : (globalOutcome d).written = true := by
  unfold globalOutcome
  split <;> rfl

theorem gpioExportPin_written (p : Byte) (d : Dev) : (gpioExportPin p d).1.written = true := by
  rcases gpioExportPin_outcome p d with h | h <;> rw [h] <;> rfl

theorem worse_written {a b : ErrCode} (ha : a.written = true) (hb : b.written = true) : (worse a b).written = true := by
  unfold worse
  split
  · exact hb
  · exact ha

section Lines
variable {C : Prop} (p : Byte) (q : Seq) (s : State)

theorem lineInitialize_lineTo : s.LineTo C q (fun o => lineInitialize q (s.withOperands o)) := by
  have hr := drawRegAccess_envOnly s.dev
  unfold lineInitialize
  dsimp +instances only [withOperands_dev]
  split
  · exact lineIf_lineTo _
  · split
    · exact .stop (hr.keeps.trans (setBackend_keeps _ _)) fun _ => rfl
    · exact .next hr.keeps
  · exact lineDo_lineTo (openGlobalExport_keeps _)
  · exact lineDo_lineTo (openGlobalUnexport_keeps _)
  · exact lineDo_lineTo (setBackend_keeps _ _)
  · exact .record (.refl s.dev) fun _ => globalOutcome_written s.dev
  · exact lineReturn_lineTo (.refl s.dev)

theorem linePins_lineTo {last : Dev → Dev} (hl : ∀ d, Dev.Keeps C d (last d)) :
    s.LineTo C q (fun o => linePins q last (s.withOperands o)) := by
  have hu : Dev.Keeps C s.dev (gpioUnexportPin (BitVec.ofNat 8 q.pi) s.dev) := (gpioUnexportPin_filesMove _ _).keeps
  unfold linePins
  dsimp only
  split
  next hpi =>
    refine .go hu rfl fun hq => ?_
    obtain ⟨hk, hatt, -, hout⟩ := (inRange_iff _ _).mp hq
    exact (inRange_iff _ _).mpr ⟨hk, hatt, hpi, hout⟩
  · exact .next (hu.trans (hl _))

theorem lineFinalize_lineTo : s.LineTo C q (fun o => lineFinalize q (s.withOperands o)) := by
  unfold lineFinalize
  dsimp +instances only [withOperands_dev]
  split
  · exact lineIf_lineTo _
  · split
    · exact linePins_lineTo q s closeGlobals_keeps
    · exact .goto_next
  · exact .goto_next
  · exact lineDo_lineTo (giveUpBackend_keeps _)
  · exact lineReturn_lineTo (.refl s.dev)

theorem lineExportPin_lineTo : s.LineTo C q (fun o => lineExportPin p q (s.withOperands o)) := by
  unfold lineExportPin
  dsimp +instances only [withOperands_dev]
  split
  · exact lineIf_lineTo _
  · exact lineIf_lineTo _
  · exact lineIf_lineTo _
  · exact .goto_next
  · exact lineDo_lineTo (onPin_keeps fun _ e _ => (writeExport_envOnly e _).keeps)
  · split
    · exact .goto_next
    next i e hv =>
      have ha : Dev.Keeps C s.dev (exportAttempt i s.dev).2 := exportAttempt_keeps (validPin_mapped hv).2
      split
      · exact .goto_next
      · split
        · exact .stop ha fun _ => rfl
        · split
          next hatt =>
            refine .go (ha.trans (sleepNs_envOnly _ _).keeps) rfl fun hq => ?_
            obtain ⟨hk, -, hpi, hout⟩ := (inRange_iff _ _).mp hq
            exact (inRange_iff _ _).mpr ⟨hk, ⟨Nat.le_add_left 1 _, le_trans hatt (le_max_right _ _)⟩, hpi, hout⟩
          · exact .next ha
  · exact lineDo_lineTo (onPin_keeps fun _ e _ => (writeUnexport_envOnly e _).keeps)
  · exact .finish rfl

/-- The last line of `unexportPin` keeps the agreement of handles and exported state where its fourth line has closed the
handles (rule R129). -/
theorem lineUnexportPin_lineTo
    (hc : C → 4 ≤ q.step → ∀ i, pinIndex p = some i → (s.dev.gpio.pin i).Closed) :
    s.LineTo C q (fun o => lineUnexportPin p q (s.withOperands o)) := by
  unfold lineUnexportPin
  dsimp +instances only [withOperands_dev]
  split
  · exact lineIf_lineTo _
  · exact lineIf_lineTo _
  · exact lineIf_lineTo _
  · exact lineDo_lineTo (onPin_keeps fun i _ _ => closePinFiles_keeps i _)
  · exact lineDo_lineTo (onPin_keeps fun _ e _ => (writeUnexport_envOnly e _).keeps)
  next h0 h1 h2 h3 _ =>
    refine lineReturn_lineTo (onPin_keeps fun i e hv => clearExported_keeps fun c => ?_)
    have hstep : 4 ≤ q.step := by rw [imp_false] at h0 h1 h2 h3; omega
    exact hc c hstep i (validPin_mapped hv).1

theorem lineUnexportAll_lineTo : s.LineTo C q (fun o => lineUnexportAll q (s.withOperands o)) := by
  unfold lineUnexportAll
  split
  · exact linePins_lineTo q s Dev.Keeps.refl
  · exact lineReturn_lineTo (.refl s.dev)

theorem linePinWrite_lineTo {reg : PinEntry → Dev → Dev} {file : Fin 64 → Dev → Dev}
    (hreg : ∀ e d, Dev.EnvOnly d (reg e d)) (hfile : ∀ i d, Dev.EnvOnly d (file i d)) :
    s.LineTo C q (fun o => linePinWrite p reg file q (s.withOperands o)) := by
  unfold linePinWrite
  dsimp +instances only [withOperands_dev]
  split
  · exact lineIf_lineTo _
  · split
    · exact lineDo_lineTo (onPin_keeps fun _ e _ => (hreg e _).keeps)
    · exact .goto_next
  · split
    · exact lineDo_lineTo (onPin_keeps fun i _ _ => (hfile i _).keeps)
    · exact .goto_next
  · exact lineReturn_lineTo (.refl s.dev)

theorem lineGetValue_lineTo : s.LineTo C q (fun o => lineGetValue p q (s.withOperands o)) := by
  have hg : Dev.Keeps C s.dev (gpioGetValue p s.dev).2 := (gpioGetValue_envOnly p s.dev).keeps
  unfold lineGetValue
  dsimp +instances only [withOperands_dev]
  split
  · split
    · exact .goto_next
    · exact lineReturn_lineTo (.refl s.dev)
  · split
    · exact lineReturn_lineTo hg
    · exact .goto_next
  · exact lineReturn_lineTo hg

theorem lineDelay_lineTo (f : Bool) : s.LineTo C q (fun o => lineDelay f q (s.withOperands o)) := by
  unfold lineDelay
  split
  · exact .goto_next
  · exact .goto_next
  · exact lineDo_lineTo (clockDelay_envOnly f _ _ _ _).keeps
  · exact lineReturn_lineTo (.refl s.dev)

theorem lineClockRead_lineTo : s.LineTo C q (fun o => lineClockRead q (s.withOperands o)) := by
  unfold lineClockRead
  dsimp +instances only [withOperands_dev]
  split
  · exact .go (now_envOnly s.dev).keeps rfl id
  · exact .finish rfl

theorem lineExport_lineTo : s.LineTo C q (fun o => lineExport p q (s.withOperands o)) :=
  .record (gpioExportPin_filesMove p s.dev).keeps fun hout => worse_written hout (gpioExportPin_written p s.dev)

theorem lineOpenSimple_lineTo (c : BusCfg) (slots : Vector Word 10) :
    s.LineTo C q (fun o => lineOpenSimple c p slots q (s.withOperands o)) := by
  unfold lineOpenSimple
  dsimp +instances only [withOperands_dev]
  split
  · exact lineBound_lineTo _
  · exact lineDo_lineTo (setBus_keeps _ _)
  · exact lineDo_lineTo (setBus_keeps _ _)
  · exact lineExport_lineTo p q s
  · exact lineDo_lineTo (owPullUp_envOnly _).keeps
  · exact lineReturn_lineTo (setBus_keeps _ _)

theorem lineOpenBuffered_lineTo (p' : Byte) : s.LineTo C q (fun o => lineOpenBuffered p p' q (s.withOperands o)) := by
  unfold lineOpenBuffered
  dsimp +instances only [withOperands_dev]
  split
  · exact lineBound_lineTo _
  · exact lineDo_lineTo (setBus_keeps _ _)
  · exact lineDo_lineTo (setBus_keeps _ _)
  · exact .record ((gpioExportPin_filesMove p s.dev).trans (gpioExportPin_filesMove p' _)).keeps fun _ =>
      worse_written (gpioExportPin_written p s.dev) (gpioExportPin_written p' _)
  · exact lineDo_lineTo (gpioSetMode_envOnly p .input _).keeps
  · exact lineDo_lineTo (gpioSetMode_envOnly p' .output _).keeps
  · exact lineDo_lineTo (owPullUp_envOnly _).keeps
  · exact lineReturn_lineTo (setBus_keeps _ _)

theorem lineBusClose_lineTo : s.LineTo C q (fun o => lineBusClose q (s.withOperands o)) := by
  unfold lineBusClose
  dsimp +instances only [withOperands_dev]
  split
  · exact lineBound_lineTo _
  · exact lineDo_lineTo (gpioUnexportPin_filesMove _ _).keeps
  · exact lineDo_lineTo (unexportOut_filesMove _).keeps
  · exact lineReturn_lineTo (setBus_keeps _ _)

theorem lineSetSlot_lineTo (n : BitVec 4) : s.LineTo C q (fun o => lineSetSlot n q (s.withOperands o)) := by
  unfold lineSetSlot
  dsimp +instances only [withOperands_dev]
  split
  · exact lineBound_lineTo _
  · exact lineReturn_lineTo (setBus_keeps _ _)

theorem lineGetSlot_lineTo (n : BitVec 4) : s.LineTo C q (fun o => lineGetSlot n q (s.withOperands o)) := by
  unfold lineGetSlot
  dsimp +instances only [withOperands_dev]
  split
  · exact lineBound_lineTo _
  · exact lineReturn_lineTo (.refl s.dev)

theorem lineLine_lineTo {f : Dev → Dev} (hf : ∀ d, Dev.EnvOnly d (f d)) :
    s.LineTo C q (fun o => lineLine f q (s.withOperands o)) := by
  unfold lineLine
  dsimp +instances only [withOperands_dev]
  split
  · exact lineBound_lineTo _
  · exact lineReturn_lineTo (hf _).keeps

theorem lineSample_lineTo : s.LineTo C q (fun o => lineSample q (s.withOperands o)) := by
  unfold lineSample
  exact .go (q' := { q.next with sample := (owSample s.dev).1 }) (owSample_envOnly s.dev).keeps rfl id

theorem lineReset_lineTo : s.LineTo C q (fun o => lineReset q (s.withOperands o)) := by
  unfold lineReset
  dsimp +instances only [withOperands_dev]
  split
  · exact lineBound_lineTo _
  · exact lineDo_lineTo (owPullUp_envOnly _).keeps
  · exact lineDo_lineTo (waitSlot_envOnly _ _).keeps
  · exact lineDo_lineTo (owPullDown_envOnly _).keeps
  · exact lineDo_lineTo (waitSlot_envOnly _ _).keeps
  · exact lineDo_lineTo (owPullUp_envOnly _).keeps
  · exact lineDo_lineTo (waitSlot_envOnly _ _).keeps
  · exact lineSample_lineTo q s
  · split
    · exact lineReturn_lineTo (waitSlot_envOnly _ _).keeps
    · exact .goto_next
  · exact .finish rfl

theorem lineWriteBit_lineTo (b : Bool) : s.LineTo C q (fun o => lineWriteBit b q (s.withOperands o)) := by
  unfold lineWriteBit
  split
  · exact lineBound_lineTo _
  · exact lineDo_lineTo (owPullDown_envOnly _).keeps
  · split
    · exact lineDo_lineTo (slotTail_envOnly true _).keeps
    · exact .goto_next
  · split
    · exact .goto_next
    · exact lineDo_lineTo (slotTail_envOnly false _).keeps
  · exact lineReturn_lineTo (.refl s.dev)

/-- The counter of a loop of eight rounds stays in its range. -/
theorem inRange_round {c : Config} {q : Seq} {acc : Byte} (hk : q.k < 7) (hq : q.inRange c = true) :
    Seq.inRange c { q with k := q.k + 1, acc := acc } = true := by
  obtain ⟨-, hatt, hpi, hout⟩ := (inRange_iff _ _).mp hq
  exact (inRange_iff _ _).mpr ⟨hk, hatt, hpi, hout⟩

theorem lineWriteByte_lineTo (v : Byte) : s.LineTo C q (fun o => lineWriteByte v q (s.withOperands o)) := by
  have hw : Dev.Keeps C s.dev (writeSlot (v.getLsbD q.k) s.dev) := (writeSlot_envOnly _ _).keeps
  unfold lineWriteByte
  dsimp +instances only [withOperands_dev]
  split
  · exact lineBound_lineTo _
  · split
    next hk => exact .go hw rfl (inRange_round hk)
    · exact .next hw
  · exact lineDo_lineTo (waitNs_envOnly _ _).keeps
  · exact lineReturn_lineTo (.refl s.dev)

theorem lineReadBit_lineTo : s.LineTo C q (fun o => lineReadBit q (s.withOperands o)) := by
  unfold lineReadBit
  split
  · exact lineBound_lineTo _
  · exact lineDo_lineTo (owPullDown_envOnly _).keeps
  · exact lineDo_lineTo (waitSlot_envOnly _ _).keeps
  · exact lineDo_lineTo (owPullUp_envOnly _).keeps
  · exact lineDo_lineTo (waitSlot_envOnly _ _).keeps
  · exact lineSample_lineTo q s
  · exact lineDo_lineTo (waitSlot_envOnly _ _).keeps
  · exact lineReturn_lineTo (.refl s.dev)

theorem lineReadByte_lineTo : s.LineTo C q (fun o => lineReadByte q (s.withOperands o)) := by
  have hr : Dev.Keeps C s.dev (readSlotInto q.k (q.acc, s.dev)).2 := (readSlotInto_envOnly q.k (q.acc, s.dev)).keeps
  unfold lineReadByte
  dsimp +instances only [withOperands_dev]
  split
  · exact lineBound_lineTo _
  · exact .go (.refl s.dev) rfl id
  · split
    next hk => exact .go hr rfl (inRange_round hk)
    · exact .go hr rfl id
  · exact lineReturn_lineTo (.refl s.dev)

theorem lineCrcUpdate_lineTo (v : Byte) : s.LineTo C q (fun o => lineCrcUpdate v q (s.withOperands o)) := by
  unfold lineCrcUpdate
  dsimp +instances only [withOperands_dev]
  split
  · exact lineDo_lineTo (setCrc_keeps _ _)
  · exact lineReturn_lineTo (.refl s.dev)

theorem lineCrcValid_lineTo : s.LineTo C q (fun o => lineCrcValid q (s.withOperands o)) := by
  unfold lineCrcValid
  dsimp +instances only [withOperands_dev]
  split
  · split
    · exact lineReturn_lineTo (.refl s.dev)
    · exact .goto_next
  · exact .finish rfl

/-- While `unexportPin` is past its fourth line, the handles of its pin are closed (rule R129). -/
def Dev.UnexportClosed (i : Instr) (q : Seq) (d : Dev) : Prop :=
  ∀ p j, i = .unexportPin p → 4 ≤ q.step → pinIndex p = some j → (d.gpio.pin j).Closed

/-- What the next line of any command can do. -/
theorem line_lineTo (i : Instr) : s.LineTo (Dev.UnexportClosed i q s.dev) q (fun o => line i q (s.withOperands o)) := by
  cases i with
  | initGpio => exact lineInitialize_lineTo q s
  | finalize => exact lineFinalize_lineTo q s
  | exportPin p => exact lineExportPin_lineTo p q s
  | unexportPin p => exact lineUnexportPin_lineTo p q s fun hc hq j hj => hc p j rfl hq hj
  | unexportAll => exact lineUnexportAll_lineTo q s
  | setMode p m =>
    exact linePinWrite_lineTo p q s (fun e => setModeRegister_envOnly e m) fun i => setModeFile_envOnly i m
  | setPullDisable p =>
    exact linePinWrite_lineTo p q s (fun e => setPullRegister_envOnly e _) fun i => setPullFile_envOnly i _
  | setPullUp p =>
    exact linePinWrite_lineTo p q s (fun e => setPullRegister_envOnly e _) fun i => setPullFile_envOnly i _
  | setPullDown p =>
    exact linePinWrite_lineTo p q s (fun e => setPullRegister_envOnly e _) fun i => setPullFile_envOnly i _
  | setValue p b => 
    exact linePinWrite_lineTo p q s (fun e => setValueRegister_envOnly e b) fun i => setValueFile_envOnly i b
  | getValue p => exact lineGetValue_lineTo p q s
  | delay f => exact lineDelay_lineTo q s f
  | clockRead => exact lineClockRead_lineTo q s
  | busOpenLegacy p => exact lineOpenSimple_lineTo p q s .legacy (slotsOf s.dev.cfg.legacyNs)
  | busOpenTunable p => exact lineOpenSimple_lineTo p q s .tunable (slotsOf s.dev.cfg.tunableNs)
  | busOpenBuffered p p' => exact lineOpenBuffered_lineTo p q s p'
  | busClose => exact lineBusClose_lineTo q s
  | setSlot n => exact lineSetSlot_lineTo q s n
  | getSlot n => exact lineGetSlot_lineTo q s n
  | pullUp => exact lineLine_lineTo q s owPullUp_envOnly
  | pullDown => exact lineLine_lineTo q s owPullDown_envOnly
  | reset => exact lineReset_lineTo q s
  | writeBit b => exact lineWriteBit_lineTo q s b
  | writeByte v => exact lineWriteByte_lineTo q s v
  | readBit => exact lineReadBit_lineTo q s
  | readByte => exact lineReadByte_lineTo q s
  | crcReset => exact lineReturn_lineTo (setCrc_keeps _ _)
  | crcUpdate v => exact lineCrcUpdate_lineTo q s v
  | crcValid => exact lineCrcValid_lineTo q s

end Lines

/-- The next line of a command ends the operation or goes on to another line. -/
theorem line_cases (i : Instr) (q : Seq) (s : State) :
    (∃ d e x y, Dev.Keeps (Dev.UnexportClosed i q s.dev) s.dev d ∧ (q.out.written = true → e.written = true) ∧
      line i q s = State.finish e x y { s with dev := d }) ∨
    (∃ d q', Dev.Keeps (Dev.UnexportClosed i q s.dev) s.dev d ∧ q'.cmd = q.cmd ∧
      (q.inRange s.dev.cfg = true → q'.inRange s.dev.cfg = true) ∧ line i q s = State.goto q' { s with dev := d }) := by
  have h := line_lineTo q s i
  have hs : line i q s = (fun o => line i q (s.withOperands o)) (s.a0, s.a1, s.a2) := rfl
  rw [hs]
  generalize (fun o => line i q (s.withOperands o)) = f at h ⊢
  cases h with
  | stop hk he => exact .inl ⟨_, _, _, _, hk, he, rfl⟩
  | go hk hc hr => exact .inr ⟨_, _, hk, hc, hr, rfl⟩

/-- No line reads or writes an operand register (rule R41). -/
theorem line_withOperands (i : Instr) (q : Seq) (s : State) (o : Word × Word × Word) :
    line i q (s.withOperands o) = (line i q s).withOperands o := by
  have h := line_lineTo q s i
  have hs : line i q s = (fun o => line i q (s.withOperands o)) (s.a0, s.a1, s.a2) := rfl
  show (fun o => line i q (s.withOperands o)) o = _
  rw [hs]
  generalize (fun o => line i q (s.withOperands o)) = f at h ⊢
  cases h with
  | stop _ _ => rfl
  | go _ _ _ => rfl

/-! ## The tick -/

theorem tick_idle {s : State} (h : s.seq = none) : tick s = s := by
  unfold tick
  rw [h]

theorem tick_undecodable {s : State} {q : Seq} {e : Reject} (h : s.seq = some q) (hd : decode q.cmd = .error e) :
    tick s = s.refuse .illegalCommand := by
  unfold tick
  rw [h]
  dsimp only
  rw [hd]

/-- No tick reads or writes an operand register (rule R41). -/
theorem tick_withOperands (s : State) (o : Word × Word × Word) :
    tick (s.withOperands o) = (tick s).withOperands o := by
  unfold tick
  cases hq : s.seq with
  | none => simp only [State.withOperands, hq]
  | some q =>
    simp only [show (s.withOperands o).seq = some q from hq]
    cases hd : decode q.cmd with
    | error e => rfl
    | ok i => exact line_withOperands i q s o

theorem tick_line {s : State} {q : Seq} {i : Instr} (h : s.seq = some q) (hd : decode q.cmd = .ok i) :
    tick s = line i q s := by
  unfold tick
  rw [h]
  dsimp only
  rw [hd]

end Sys2Proof.Machine
end

section
/-! PROOFS. The invariant of the whole state: commands, lines of the sequencer and the moves of the other agents keep it
(rules R24, R30, R290). -/

namespace Sys2Proof.Machine

open Sys2Proof

/-! ## The invariant in terms of the files of the pins -/

theorem inv_iff (s : State) : s.Inv ↔ s.dev.env.page.wf = true ∧ s.dev.FilesOk ∧ s.err.written = true ∧
    ∀ q, s.seq = some q → q.inRange s.dev.cfg = true ∧ ∀ i, decode q.cmd = .ok i → s.dev.UnexportClosed i q := by
  constructor
  · rintro ⟨hpage, hpins, hboard, herr, hseq, hhandles⟩
    exact ⟨hpage, fun j => ⟨hpins j, hboard j⟩, herr, fun q hq =>
      ⟨hseq q hq, fun i hi p j hp hstep hj => hhandles q p j hq (hp ▸ hi) hstep hj⟩⟩
  · rintro ⟨hpage, hfiles, herr, hrun⟩
    exact ⟨hpage, fun j => (hfiles j).1, fun j => (hfiles j).2, herr, fun q hq => (hrun q hq).1,
      fun q p j hq hp hstep hj => (hrun q hq).2 _ hp p j rfl hstep hj⟩

theorem inv_of_idle {s : State} (hseq : s.seq = none) (hpage : s.dev.env.page.wf = true) (hfiles : s.dev.FilesOk)
    (herr : s.err.written = true) : s.Inv :=
  (inv_iff s).mpr ⟨hpage, hfiles, herr, fun _ hq => absurd (hseq.symm.trans hq) nofun⟩

/-- The state between two lines: the next line's counters are in range, and past the fourth line of `unexportPin` the
handles of its pin are closed. -/
theorem inv_of_running {s : State} {q : Seq} (hseq : s.seq = some q) (hpage : s.dev.env.page.wf = true)
    (hfiles : s.dev.FilesOk) (herr : s.err.written = true) (hq : q.inRange s.dev.cfg = true)
    (hclosed : ∀ i, decode q.cmd = .ok i → s.dev.UnexportClosed i q) : s.Inv :=
  (inv_iff s).mpr ⟨hpage, hfiles, herr, fun q' hq' => by cases hseq.symm.trans hq'; exact ⟨hq, hclosed⟩⟩

/-- The invariant looks at the page, the units, `STATUS.ERR` and the sequencer only. -/
theorem State.Inv.congr {s t : State} (h : s.Inv) (hseq : t.seq = s.seq) (herr : t.err = s.err)
    (hcfg : t.dev.cfg = s.dev.cfg) (hgpio : t.dev.gpio = s.dev.gpio) (hpage : t.dev.env.page.wf = true) : t.Inv := by
  obtain ⟨-, hpins, hboard, he, hs, hh⟩ := h
  rw [← hgpio] at hpins hboard hh
  rw [← hcfg] at hboard hs
  rw [← hseq] at hs hh
  exact ⟨hpage, hpins, hboard, herr ▸ he, hs, hh⟩

/-! ## Acceptance and commands -/

theorem accept_keeps_inv {s : State} (w : Word) (h : s.Inv) : (s.accept w).Inv := by
  obtain ⟨hpage, hfiles, herr, -⟩ := (inv_iff s).mp h
  refine inv_of_running (accept_seq w s) hpage hfiles herr ?_ fun i _ p j _ hstep _ => absurd hstep nofun
  exact (inRange_iff _ _).mpr ⟨Nat.zero_le 7, ⟨le_refl 1, le_max_left _ _⟩, Nat.zero_le 63, rfl⟩

theorem finish_keeps_inv {s : State} (e : ErrCode) (x y : Option Word) (he : e.written = true) (h : s.Inv) :
    (s.finish e x y).Inv := by
  obtain ⟨hpage, hfiles, -, -⟩ := (inv_iff s).mp h
  exact inv_of_idle rfl hpage hfiles he

theorem exec_keeps_inv {i : Instr} {s t : State} (h : s.Inv) (ht : exec i s = .next t) : t.Inv := by
  obtain ⟨hpage, hfiles, -, -⟩ := (inv_iff s).mp h
  obtain ⟨u, d, e, x, y, hu, hfin⟩ := exec_finish i s
  rw [ht] at hu
  cases hu
  obtain ⟨d', hd', hcfg, hgpio, -, -⟩ := exec_changes ht
  obtain ⟨hends, -, hwritten, -, -⟩ := hfin
  have hfiles' : t.dev.FilesOk := (hd'.filesOk hfiles).congr hcfg fun j => by rw [hgpio]
  have hidle : t.seq = none := by rw [hends]; rfl
  have herr : t.err.written = true := by rw [hends]; exact hwritten
  exact inv_of_idle hidle ((exec_reaches ht).wf hpage) hfiles' herr

/-! ## Lines -/

/-- A pin whose operand names no mapped pin is not exported, and its handles are closed. -/
theorem closed_of_not_valid {d : Dev} {p : Byte} {j : Fin 64} (hf : d.FilesOk) (hj : pinIndex p = some j)
    (hv : validPin d.cfg p = none) : (d.gpio.pin j).Closed := by
  have hn : d.cfg.entry j.val = none := by simpa [validPin, hj] using hv
  refine closed_of_not_exported (hf j).1 (Bool.not_eq_true _ ▸ fun hx => ?_)
  have he := (hf j).2 hx
  rw [hn] at he
  cases he

/-- The fourth line of `unexportPin` closes the handles of its pin (rule R129, step 4). -/
theorem onPin_closePinFiles_closed {d : Dev} {p : Byte} {j : Fin 64} (hf : d.FilesOk) (hj : pinIndex p = some j) :
    ((onPin p (fun i _ => closePinFiles i) d).gpio.pin j).Closed := by
  unfold onPin
  split
  next hv => exact closed_of_not_valid hf hj hv
  next i e hv =>
    cases hj.symm.trans (validPin_mapped hv).1
    exact closePinFiles_closed j d

theorem onPin_writeUnexport_gpio (p : Byte) (d : Dev) : (onPin p (fun _ e => writeUnexport e) d).gpio = d.gpio := by
  unfold onPin
  split
  · rfl
  next i e _ => exact (writeUnexport_envOnly e d).gpio

theorem lineIf_seq {s : State} {q q' : Seq} {c : Bool} (h : (s.lineIf q c).seq = some q') : q' = q.next := by
  unfold State.lineIf at h
  split at h
  · cases h; rfl
  · cases h

/-- The lines of `unexportPin` close the handles of its pin and leave them closed (rule R129). -/
theorem lineUnexportPin_closed {p : Byte} {q q' : Seq} {s : State} {j : Fin 64} (hf : s.dev.FilesOk)
    (hj : pinIndex p = some j) (hc : 4 ≤ q.step → (s.dev.gpio.pin j).Closed)
    (hq : (lineUnexportPin p q s).seq = some q') (hstep : 4 ≤ q'.step) :
    ((lineUnexportPin p q s).dev.gpio.pin j).Closed := by
  unfold lineUnexportPin at hq ⊢
  split at hq
  next h => rw [lineIf_seq hq, next_step] at hstep; omega
  next h => rw [lineIf_seq hq, next_step] at hstep; omega
  next h => rw [lineIf_seq hq, next_step] at hstep; omega
  · exact onPin_closePinFiles_closed hf hj
  next h =>
    show ((onPin p (fun _ e => writeUnexport e) s.dev).gpio.pin j).Closed
    rw [onPin_writeUnexport_gpio]
    exact hc (by omega)
  · cases hq

theorem line_keeps_inv {i : Instr} {q : Seq} {s : State} (h : s.Inv) (hq : s.seq = some q)
    (hi : decode q.cmd = .ok i) : (line i q s).Inv := by
  obtain ⟨hpage, hfiles, herr, hrun⟩ := (inv_iff s).mp h
  obtain ⟨hrange, hclosed⟩ := hrun q hq
  have hclosed := hclosed i hi
  have hnext : ∀ q' p j, (line i q s).seq = some q' → i = .unexportPin p → 4 ≤ q'.step → pinIndex p = some j →
      ((line i q s).dev.gpio.pin j).Closed := by
    rintro q' p j hq' rfl hstep hj
    exact lineUnexportPin_closed hfiles hj (fun hs => hclosed p j rfl hs hj) hq' hstep
  rcases line_cases i q s with ⟨d, e, x, y, hk, he, heq⟩ | ⟨d, q', hk, hc, hr, heq⟩
  · rw [heq]
    exact inv_of_idle rfl (hk.reach.1.wf hpage) (hk.files hclosed hfiles) (he ((inRange_iff _ _).mp hrange).2.2.2)
  · rw [heq] at hnext ⊢
    refine inv_of_running rfl (hk.reach.1.wf hpage) (hk.files hclosed hfiles) herr ?_ fun i' hi' p j hp hstep hj => ?_
    · exact hk.reach.2.symm ▸ hr hrange
    · rw [hc, hi] at hi'
      cases hi'
      exact hnext q' p j rfl hp hstep hj

theorem tick_keeps_inv {s : State} (h : s.Inv) : (tick s).Inv := by
  cases hq : s.seq with
  | none => rw [tick_idle hq]; exact h
  | some q =>
    cases hd : decode q.cmd with
    | error e => rw [tick_undecodable hq hd]; exact finish_keeps_inv _ _ _ rfl h
    | ok i => rw [tick_line hq hd]; exact line_keeps_inv h hq hd

/-! ## The moves of the agents -/

/-- A step is the move of the agent whose turn it is: the sequencer's while no other is queued (rules R20, R24). -/
theorem step_eq_turn (s : State) : step s = turn (s.agenda.headD .sequencer) { s with agenda := s.agenda.tail } := by
  obtain ⟨a0, a1, a2, r0, r1, err, seq, dev, agenda, hostData⟩ := s
  cases agenda <;> rfl

theorem writeCmd_keeps_inv {s : State} (w : Word) (h : s.Inv) : (writeCmd w s).Inv := by
  unfold writeCmd
  split
  · exact h
  · exact accept_keeps_inv w h

theorem hostStore_keeps_inv {s : State} (width off : Nat) (v : Word) (h : s.Inv) : (hostStore width off v s).Inv := by
  unfold hostStore
  split
  · exact writeCmd_keeps_inv v h
  · exact h
  · exact h.congr rfl rfl rfl rfl h.page
  · exact h.congr rfl rfl rfl rfl h.page
  · exact h.congr rfl rfl rfl rfl h.page
  · exact h
  · exact h
  · exact h

theorem issue_keeps_inv {s t : State} {w : Word} (h : s.Inv) (ht : issue w s = .next t) : t.Inv := by
  unfold issue at ht
  split at ht
  · cases ht; exact h
  · split at ht
    · cases ht; exact finish_keeps_inv _ _ _ rfl (accept_keeps_inv w h)
    · exact exec_keeps_inv (accept_keeps_inv w h) ht

/-- No pin of a block right after reset is exported or has a handle open (rule R49). -/
theorem pin_default (b : Backend) (j : Fin 64) : Gpio.pin { last := b } j = { } := by
  simp [Gpio.pin]

theorem hardReset_keeps_inv {s : State} (hpage : s.dev.env.page.wf = true) : s.hardReset.Inv := by
  refine inv_of_idle rfl hpage (fun j => ?_) rfl
  have hj : s.hardReset.dev.gpio.pin j = { } := pin_default _ j
  rw [hj]
  exact ⟨rfl, nofun⟩

theorem socStore_keeps_inv {s : State} (word : Nat) (v : Word) (h : s.Inv) : (socStore word v s).Inv := by
  unfold socStore
  split
  · exact h.congr rfl rfl rfl rfl (writeWord_wf word v h.page)
  · exact h

theorem turn_keeps_inv {a : Turn} {s t : State} (h : s.Inv) (ht : turn a s = .next t) : t.Inv := by
  cases a with
  | command w => exact issue_keeps_inv h ht
  | hostWrite width off v => cases ht; exact hostStore_keeps_inv width off v h
  | hostRead width off => cases ht; exact h.congr rfl rfl rfl rfl h.page
  | sequencer => cases ht; exact tick_keeps_inv h
  | hardReset => cases ht; exact hardReset_keeps_inv h.page
  | hardResetDuring n => cases ht; exact hardReset_keeps_inv (performAll_wf _ _ h.page)
  | socWrite word v => cases ht; exact socStore_keeps_inv word v h
  | time ns => cases ht; exact h.congr rfl rfl rfl rfl h.page

/-- Settles O23: every move of every agent keeps the invariant. -/
theorem stepKeepsInv : Obligations.StepKeepsInv := by
  intro s t h ht
  rw [step_eq_turn] at ht
  exact turn_keeps_inv (s := { s with agenda := s.agenda.tail }) (h.congr rfl rfl rfl rfl h.page) ht

/-- Settles O22: at reset no operation runs, no pin is exported, and no bus is bound. -/
theorem invariantsAtReset : Obligations.InvariantsAtReset := by
  have hp : ∀ j, State.reset.dev.gpio.pin j = { } := pin_default _
  refine ⟨hardReset_keeps_inv (s := State.reset) rfl, fun j => ?_, fun j => ?_, fun _ => ⟨rfl, rfl⟩, fun _ j => ?_,
    fun _ => ⟨rfl, rfl, rfl⟩⟩
  · rw [hp]; rfl
  · rw [hp]; nofun
  · rw [hp]

end Sys2Proof.Machine
end

section
/-! PROOFS. The clock (rules R33, R34): no move puts it back, and the times a command shows never go down. -/

namespace Sys2Proof.Machine

open Sys2Proof

/-- An action that shows a time leaves the clock at that time. -/
theorem shows_clk {a : Action} {t : Nat} (e : Env) (h : a.shows = some t) : (e.effect a).clk = t := by
  cases a with
  | clockRead u => cases h; rfl
  | sleep n u => cases h; rfl
  | _ => cases h

/-- The clock before a list of timed actions, the times they show and the clock after them, in order. -/
theorem timed_pairwise (acts : List Action) (e : Env) (h : Env.Timed acts e) :
    List.Pairwise (· ≤ ·) (e.clk :: acts.filterMap Action.shows ++ [(Env.performAll acts e).clk]) := by
  induction acts generalizing e with
  | nil => simp [Env.performAll]
  | cons a acts ih =>
    obtain ⟨hkeeps, hrest⟩ := h
    have hle : e.clk ≤ (e.perform a).clk := hkeeps
    have hrec := ih (e.perform a) hrest
    cases ha : a.shows with
    | none =>
      rw [List.filterMap_cons_none ha]
      rw [List.cons_append, List.pairwise_cons] at hrec ⊢
      exact ⟨fun t ht => le_trans hle (hrec.1 t ht), hrec.2⟩
    | some u =>
      rw [List.filterMap_cons_some ha, ← shows_clk e ha]
      refine List.pairwise_cons.mpr ⟨fun t ht => ?_, hrec⟩
      rcases List.mem_cons.mp ht with rfl | ht
      · exact hle
      · exact le_trans hle ((List.pairwise_cons.mp hrec).1 t ht)

/-- The times of an operation that moves the environment by recorded actions. -/
theorem Env.Reaches.pairwise {e e' : Env} (h : Env.Reaches e e') :
    List.Pairwise (· ≤ ·) (e.clk :: (e'.log.drop e.log.length).filterMap Action.shows ++ [e'.clk]) := by
  have hclk : e'.clk = (Env.performAll (e'.log.drop e.log.length) e).clk := h.sameWorld.2.2.2
  rw [hclk]
  exact timed_pairwise _ e h.timed

/-! ## Every move -/

theorem accept_reaches (w : Word) (s : State) : Env.Reaches s.dev.env (s.accept w).dev.env := .perform (Nat.le_refl _)

theorem tick_reaches (s : State) : Env.Reaches s.dev.env (tick s).dev.env := by
  cases hq : s.seq with
  | none => rw [tick_idle hq]; exact .refl _
  | some q =>
    cases hd : decode q.cmd with
    | error e => rw [tick_undecodable hq hd]; exact finish_reaches _ _ _ s
    | ok i =>
      rw [tick_line hq hd]
      rcases line_cases i q s with ⟨d, e, x, y, hk, -, heq⟩ | ⟨d, q', hk, -, -, heq⟩
      · rw [heq]; exact hk.reach.1.trans (finish_reaches e x y { s with dev := d })
      · rw [heq]; exact hk.reach.1

theorem issue_reaches {w : Word} {s t : State} (h : issue w s = .next t) : Env.Reaches s.dev.env t.dev.env := by
  unfold issue at h
  split at h
  · cases h; exact .refl _
  · split at h
    · cases h; exact (accept_reaches w s).trans (finish_reaches _ _ _ _)
    · exact (accept_reaches w s).trans (exec_reaches h)

theorem hostStore_reaches (width off : Nat) (v : Word) (s : State) :
    Env.Reaches s.dev.env (hostStore width off v s).dev.env := by
  unfold hostStore writeCmd
  split
  · split
    · exact .refl _
    · exact accept_reaches v s
  all_goals exact .refl _

/-- Reset inside a line lets a part of the line's actions happen, none of which puts the clock back (rule R321). -/
theorem hardResetAfter_clk (n : Nat) {later s : State} (h : Env.Reaches s.dev.env later.dev.env) :
    s.dev.env.clk ≤ (State.hardResetAfter n later s).dev.env.clk := by
  have ht := h.timed
  rw [← List.take_append_drop n (List.drop _ _), timed_append] at ht
  exact timed_clk _ _ ht.1

theorem turn_clk {a : Turn} {s t : State} (h : turn a s = .next t) : s.dev.env.clk ≤ t.dev.env.clk := by
  cases a with
  | command w => exact (issue_reaches h).clk
  | hostWrite width off v => cases h; exact (hostStore_reaches width off v s).clk
  | hostRead width off => cases h; exact le_refl _
  | sequencer => cases h; exact (tick_reaches s).clk
  | hardReset => cases h; exact le_refl _
  | hardResetDuring n => cases h; exact hardResetAfter_clk n (tick_reaches s)
  | socWrite word v =>
    cases h
    unfold socStore
    split <;> exact le_refl _
  | time ns => cases h; exact Nat.le_add_right _ _

/-- Settles O18: the moves never put the clock back, and a command's actions are timed. -/
theorem clockNeverRunsBackwards : Obligations.ClockNeverRunsBackwards := by
  refine ⟨fun s t h => ?_, fun i s t h => (exec_reaches h).pairwise⟩
  rw [step_eq_turn] at h
  exact turn_clk (s := { s with agenda := s.agenda.tail }) h

end Sys2Proof.Machine
end

section
/-! PROOFS. The host's side: the fields of `STATUS`, the map of the window, acceptance, and what a step runs (rules R22,
R23, R41, R64, R65). -/

namespace Sys2Proof.Machine

open Sys2Proof

/-! ## STATUS -/

/-- Where each field of `STATUS` lies (rule R23). -/
theorem packStatus_fields (err : ErrCode) (bus : Bus) (backend : Backend) (busy : Bool) :
    (packStatus err bus backend busy).getLsbD 0 = busy ∧
    (packStatus err bus backend busy).extractLsb' 1 2 = backend.code ∧
    (packStatus err bus backend busy).getLsbD 3 = bus.bound ∧
    (packStatus err bus backend busy).extractLsb' 4 2 = bus.cfgField ∧
    (packStatus err bus backend busy).extractLsb' 6 2 = 0 ∧
    (packStatus err bus backend busy).extractLsb' 8 8 = err.code ∧
    (packStatus err bus backend busy).extractLsb' 16 16 = 0 := by
  unfold packStatus
  refine ⟨?_, ?_, ?_, ?_, ?_, ?_, ?_⟩
  · simp only [BitVec.getLsbD_append]
    simp
  · simp only [BitVec.extractLsb'_append_eq_of_le, Nat.reduceLeDiff, Nat.reduceSub]
    exact BitVec.extractLsb'_append_eq_right
  · simp only [BitVec.getLsbD_append]
    simp
  · simp only [BitVec.extractLsb'_append_eq_of_le, Nat.reduceLeDiff, Nat.reduceSub]
    exact BitVec.extractLsb'_append_eq_right
  · simp only [BitVec.extractLsb'_append_eq_of_le, Nat.reduceLeDiff, Nat.reduceSub]
    exact BitVec.extractLsb'_append_eq_right
  · simp only [BitVec.extractLsb'_append_eq_of_le, Nat.reduceLeDiff, Nat.reduceSub]
    exact BitVec.extractLsb'_append_eq_right
  · simp only [BitVec.extractLsb'_append_eq_of_le, Nat.reduceLeDiff, Nat.reduceSub]
    rfl

/-- Settles O12: each field lies where `packStatus_fields` says, and its codes are those of rules R23 and R290. -/
theorem statusFields : Obligations.StatusFields := by
  intro s
  obtain ⟨hbusy, hbackend, hbound, hcfg, hzero, herr, hhigh⟩ :=
    packStatus_fields s.err s.dev.bus s.dev.gpio.backend s.busy
  refine ⟨hbusy, hbackend.trans ?_, hbound, hcfg.trans ?_, hzero, herr.trans ?_, hhigh, fun _ => rfl⟩
  · cases s.dev.gpio.backend <;> rfl
  · unfold Bus.cfgField
    cases s.dev.bus.cfg <;> rfl
  · cases s.err <;> rfl

/-! ## The window -/

/-- Other offsets, widths and alignments reach no register (rules R64, R65). -/
theorem hostReg_eq_none {width off : Nat} (h : 0x1C ≤ off ∨ width ≠ 4 ∨ off % 4 ≠ 0) : hostReg width off = none := by
  unfold hostReg
  split
  next hw =>
    split
    case h_8 => rfl
    all_goals omega
  · rfl

/-- An access that reaches no register reads 0 and writes nothing. -/
theorem host_access_refused {width off : Nat} (h : hostReg width off = none) (v : Word) (s : State) :
    hostValue width off s = 0 ∧ hostStore width off v s = s := by
  unfold hostValue hostStore
  rw [h]
  exact ⟨rfl, rfl⟩

theorem writeCmd_idle {s : State} (w : Word) (h : s.busy = false) : writeCmd w s = s.accept w := by
  have hs : s.seq = none := by simpa [State.busy] using h
  unfold writeCmd
  rw [hs]

/-- A write to `CMD` while `BUSY = 1` is dropped (rule R22). -/
theorem writeCmd_busy {s : State} (w : Word) (h : s.busy = true) : writeCmd w s = s ∧ issue w s = .next s := by
  obtain ⟨q, hq⟩ := Option.isSome_iff_exists.mp h
  unfold writeCmd issue
  rw [hq]
  exact ⟨rfl, rfl⟩

/-- Settles O11: the seven registers by their offsets, and `hostReg_eq_none` for every other access. -/
theorem hostWindowMap : Obligations.HostWindowMap := by
  intro s v
  refine ⟨⟨rfl, rfl, rfl, rfl, rfl, rfl, rfl⟩, writeCmd_idle v, writeCmd_busy v, ⟨rfl, rfl, rfl, rfl, rfl, rfl⟩,
    fun off h => host_access_refused (hostReg_eq_none (.inl h)) v s,
    fun width off h => host_access_refused (hostReg_eq_none (.inr h)) v s, fun width off rest h => ?_,
    fun width off rest h => ?_⟩
  · rw [step_eq_turn, h]; rfl
  · rw [step_eq_turn, h]; rfl

/-- Settles O10: acceptance and end by the definitions of `State.accept` and `State.finish`, and no tick touches an operand
register. -/
theorem acceptanceLatchesTheOperands : Obligations.AcceptanceLatchesTheOperands := by
  refine ⟨fun s w => ⟨writeCmd_idle w, rfl, _, rfl, rfl, rfl, rfl, rfl, rfl, rfl, rfl, rfl, rfl⟩, fun s v => ?_,
    fun s e x y => ⟨rfl, rfl, rfl, rfl, rfl⟩⟩
  have hown : tick s = (tick s).withOperands (s.a0, s.a1, s.a2) := tick_withOperands s (s.a0, s.a1, s.a2)
  refine ⟨rfl, rfl, rfl, ?_, ?_, ?_⟩
  · rw [hown]; exact tick_withOperands s (v, s.a1, s.a2)
  · rw [hown]; exact tick_withOperands s (s.a0, v, s.a2)
  · rw [hown]; exact tick_withOperands s (s.a0, s.a1, v)

/-! ## What a step runs -/

/-- A command word that decodes, issued to an idle block, runs its command (rules R41, R91). -/
theorem issue_decoded {w : Word} {s : State} {i : Instr} (hs : s.seq = none) (hd : decode w = .ok i) :
    issue w s = exec i (s.accept w) := by
  unfold issue
  rw [hs]
  dsimp only
  rw [hd]

theorem decodeTableWord_eq_some {n : Nat} {i : Instr} (h : decodeTableWord 32 n = some i) :
    decode (BitVec.ofNat 32 (n % 2 ^ 32)) = .ok i := by
  unfold decodeTableWord at h
  split at h
  next j hj => cases h; exact hj
  next => cases h

/-- Settles O7: `step_eq_turn`, and for each turn what its move does. -/
theorem stepRunsTheDecodedCommand : Obligations.StepRunsTheDecodedCommand := by
  refine ⟨fun s w rest i h hs hd => ?_, fun s n i h => ?_, fun s h => ?_, fun s rest h => ?_, fun s n rest h => ?_,
    fun s word v rest h hword hwf => ?_, fun s word v rest h hword => ?_⟩
  · rw [step_eq_turn, h]
    exact issue_decoded (s := { s with agenda := rest }) hs hd
  · rw [step_eq_turn]
    exact issue_decoded (s := { s with seq := none }) rfl (decodeTableWord_eq_some h)
  · unfold step
    rw [h]
  · rw [step_eq_turn, h]; rfl
  · rw [step_eq_turn, h]; rfl
  · refine ⟨s.dev.env.page.writeWord word v, ?_, ?_, fun a ha => read_writeWord_of_ne word a v hwf ha⟩
    · rw [step_eq_turn, h]
      exact congrArg Host.Outcome.next (if_pos hword)
    · rw [readWord_writeWord word word v hwf, if_pos rfl]
  · rw [step_eq_turn, h]
    exact congrArg Host.Outcome.next (if_neg (Nat.not_lt.mpr hword))

end Sys2Proof.Machine
end

section
/-! PROOFS. What the line and protocol operations touch: the three bits or the two files by which the drive pin is driven,
and the read position of the pin that is sampled (rules R38, R60, R182). -/

namespace Sys2Proof.Machine

open Sys2Proof

/-! ## Operations built of waits, releases, asserts and samples -/

/-- The commands that act on the line (rules R191 to R197). -/
def Instr.actsOnLine (i : Instr) : Prop :=
  i = .pullUp ∨ i = .pullDown ∨ i = .reset ∨ (∃ b, i = .writeBit b) ∨ (∃ v, i = .writeByte v) ∨ i = .readBit ∨
    i = .readByte

/-- A relation that holds across a wait, a release, an assert and a sample, and across what is composed of them. -/
structure LineClosed (R : Dev → Dev → Prop) : Prop where
  refl     : ∀ d, R d d
  trans    : ∀ {d1 d2 d3}, R d1 d2 → R d2 d3 → R d1 d3
  wait     : ∀ n d, R d (waitNs n d)
  pullUp   : ∀ d, R d (owPullUp d)
  pullDown : ∀ d, R d (owPullDown d)
  sample   : ∀ d, R d (owSample d).2

namespace LineClosed
variable {R : Dev → Dev → Prop} (h : LineClosed R)
include h

theorem slotTail (b : Bool) (d : Dev) : R d (slotTail b d) := by
  unfold Machine.slotTail
  split
  · exact h.trans (h.trans (h.wait _ d) (h.pullUp _)) (h.wait _ _)
  · exact h.trans (h.trans (h.wait _ d) (h.pullUp _)) (h.wait _ _)

theorem writeSlot (b : Bool) (d : Dev) : R d (writeSlot b d) := h.trans (h.pullDown d) (h.slotTail b _)

theorem readSlot (d : Dev) : R d (readSlot d).2 :=
  h.trans (h.trans (h.trans (h.trans (h.trans (h.pullDown d) (h.wait _ _)) (h.pullUp _)) (h.wait _ _)) (h.sample _))
    (h.wait _ _)

theorem writeSlots (v : Byte) (d : Dev) : R d (writeSlots v d) := by
  have rounds : ∀ (l : List Nat) (d : Dev), R d (l.foldl (fun d k => Machine.writeSlot (v.getLsbD k) d) d) := by
    intro l
    induction l with
    | nil => exact h.refl
    | cons k l ih => exact fun d => h.trans (h.writeSlot _ d) (ih _)
  exact h.trans (rounds _ d) (h.wait _ _)

theorem readSlots (d : Dev) : R d (readSlots d).2 := by
  have rounds : ∀ (l : List Nat) (x : Byte × Dev), R x.2 (l.foldl (fun x k => readSlotInto k x) x).2 := by
    intro l
    induction l with
    | nil => exact fun x => h.refl x.2
    | cons k l ih => exact fun x => h.trans (h.readSlot x.2) (ih (readSlotInto k x))
  exact rounds _ (0, d)

theorem resetPulse (d : Dev) : R d (resetPulse d).2 :=
  h.trans (h.trans (h.trans (h.trans (h.trans (h.trans (h.pullUp d) (h.wait _ _)) (h.pullDown _)) (h.wait _ _))
    (h.pullUp _)) (h.wait _ _)) (h.sample _)

theorem owReset (d : Dev) : R d (owReset d).2.2 := by
  unfold Machine.owReset
  dsimp only
  split
  · exact h.trans (h.resetPulse d) (h.wait _ _)
  · exact h.resetPulse d

theorem ifBound {want : Bool} {d : Dev} {r : Ending} (hr : R d r.dev) : R d (Ending.ifBound want d r).dev := by
  unfold Ending.ifBound
  split
  · exact hr
  · exact h.refl d

/-- The relation holds across every line and protocol operation, a refused one included. -/
theorem endingOf {i : Instr} (hi : Instr.actsOnLine i) (l0 l1 l2 : Word) (d : Dev) :
    R d (endingOf i l0 l1 l2 d).dev := by
  rcases hi with rfl | rfl | rfl | ⟨b, rfl⟩ | ⟨v, rfl⟩ | rfl | rfl
  · exact h.ifBound (h.pullUp d)
  · exact h.ifBound (h.pullDown d)
  · exact h.ifBound (h.owReset d)
  · exact h.ifBound (h.writeSlot b d)
  · exact h.ifBound (h.writeSlots v d)
  · exact h.ifBound (h.readSlot d)
  · exact h.ifBound (h.readSlots d)

end LineClosed

/-! ## The frame of the line -/

/-- A bit that is none of the three by which the drive pin is driven. -/
def Dev.OffDriveBit (d : Dev) (x : Nat) : Prop :=
  ∀ j e, usablePin d d.bus.drivePin = some (j, e) → x ≠ e.mux ∧ x ≠ e.fsel ∧ x ≠ e.out

/-- A byte of no word that holds one of the three bits by which the drive pin is driven. -/
def Dev.OffDriveWord (d : Dev) (a : Nat) : Prop :=
  ∀ j e, usablePin d d.bus.drivePin = some (j, e) → a / 4 ≠ e.mux / 32 ∧ a / 4 ≠ e.fsel / 32 ∧ a / 4 ≠ e.out / 32

/-- Only the environment moves, and of the pins only the drive pin's bits and settings and the sampled pin's read
position. -/
structure Dev.LineOnly (d d' : Dev) : Prop where
  envOnly   : Dev.EnvOnly d d'
  bytes     : d.env.page.wf = true → ∀ a, d.OffDriveWord a → Memory.read d'.env.page a = Memory.read d.env.page a
  bits      : d.env.page.wf = true → ∀ x, (d.cfg.inMask (x / 32)).getLsbD (x % 32) = false → d.OffDriveBit x →
    d'.pageBit x = d.pageBit x
  settings  : ∀ j, (∀ e, usablePin d d.bus.drivePin ≠ some (j, e)) → d'.env.setting j = d.env.setting j
  positions : ∀ j, (∀ e, usablePin d d.bus.pinIo ≠ some (j, e)) → d'.env.position j = d.env.position j

namespace Dev.LineOnly

/-- What leaves page, settings and read positions alone. -/
theorem of_same {d d' : Dev} (h : Dev.EnvOnly d d') (hpage : d'.env.page = d.env.page)
    (hset : d'.env.settings = d.env.settings) (hpos : d'.env.valuePos = d.env.valuePos) : Dev.LineOnly d d' where
  envOnly := h
  bytes _ a _ := by rw [hpage]
  bits _ x _ _ := by unfold Dev.pageBit; rw [hpage]
  settings j _ := by unfold Env.setting; rw [hset]
  positions j _ := by unfold Env.position; rw [hpos]

theorem refl (d : Dev) : Dev.LineOnly d d := .of_same (.refl d) rfl rfl rfl

theorem trans {d1 d2 d3 : Dev} (h1 : Dev.LineOnly d1 d2) (h2 : Dev.LineOnly d2 d3) : Dev.LineOnly d1 d3 := by
  obtain ⟨hE, hbytes, hbits, hset, hpos⟩ := h2
  have hu (p : Byte) : usablePin d2 p = usablePin d1 p := usablePin_congr h1.envOnly.cfg h1.envOnly.gpio p
  unfold Dev.OffDriveWord at hbytes
  unfold Dev.OffDriveBit at hbits
  simp only [hu, h1.envOnly.bus, h1.envOnly.cfg] at hbytes hbits hset hpos
  have hw := h1.envOnly.env.wf
  exact ⟨h1.envOnly.trans hE, fun w a ha => (hbytes (hw w) a ha).trans (h1.bytes w a ha),
    fun w x hx hd => (hbits (hw w) x hx hd).trans (h1.bits w x hx hd),
    fun j hj => (hset j hj).trans (h1.settings j hj), fun j hj => (hpos j hj).trans (h1.positions j hj)⟩

end Dev.LineOnly

/-- A bit write by which the drive pin is driven. -/
theorem regBitWrite_lineOnly {d : Dev} {i : Fin 64} {e : PinEntry} (hu : usablePin d d.bus.drivePin = some (i, e))
    {off : Nat} (hoff : off = e.mux ∨ off = e.fsel ∨ off = e.out) (v : Bool) : Dev.LineOnly d (regBitWrite off v d) where
  envOnly := regBitWrite_envOnly off v d
  bytes hw a ha := by
    obtain ⟨hmux, hfsel, hout⟩ := ha i e hu
    refine regBitWrite_byte off v d hw a ?_
    rcases hoff with rfl | rfl | rfl
    · exact hmux
    · exact hfsel
    · exact hout
  bits hw x hx hd := by
    obtain ⟨hmux, hfsel, hout⟩ := hd i e hu
    rw [regBitWrite_pageBit off x v d hw hx, if_neg]
    rcases hoff with rfl | rfl | rfl
    · exact hmux.symm
    · exact hfsel.symm
    · exact hout.symm
  settings j _ := by rw [(regBitWrite_does off v d).env]; rfl
  positions j _ := by rw [(regBitWrite_does off v d).env]; rfl

/-- A string written to a file of the drive pin. -/
theorem fileWrite_lineOnly {d : Dev} {i : Fin 64} {e : PinEntry} (hu : usablePin d d.bus.drivePin = some (i, e))
    (h : Handle) (k : PinFile) (text : String) : Dev.LineOnly d (fileWrite h (.pinFile i k) text d) := by
  cases h with
  | invalid => exact .refl d
  | opened =>
    refine ⟨fileWrite_envOnly _ _ _ d, fun _ a _ => rfl, fun _ x _ _ => rfl, fun j hj => ?_, fun j _ => rfl⟩
    have hij : i ≠ j := by rintro rfl; exact hj e hu
    show ((d.env.fileWritten (.pinFile i k) text)).setting j = _
    simp [Env.fileWritten, hij]

theorem setMode_drive_lineOnly {d : Dev} {p : Byte} (hp : d.bus.drivePin = p) (m : PinMode) :
    Dev.LineOnly d (gpioSetMode p m d) := by
  subst hp
  unfold gpioSetMode
  split
  · exact .refl d
  next i e hu =>
    split
    · exact .refl d
    · have hE := regBitWrite_envOnly e.mux d.cfg.muxGpioLevel d
      have hu' : usablePin (regBitWrite e.mux d.cfg.muxGpioLevel d)
          (regBitWrite e.mux d.cfg.muxGpioLevel d).bus.drivePin = some (i, e) := by
        rw [usablePin_congr hE.cfg hE.gpio, hE.bus, hu]
      exact (regBitWrite_lineOnly hu (.inl rfl) _).trans (regBitWrite_lineOnly hu' (.inr (.inl rfl)) _)
    · exact fileWrite_lineOnly hu _ _ _

theorem setValue_drive_lineOnly {d : Dev} {p : Byte} (hp : d.bus.drivePin = p) (b : Bool) :
    Dev.LineOnly d (gpioSetValue p b d) := by
  subst hp
  unfold gpioSetValue
  split
  · exact .refl d
  next i e hu =>
    split
    · exact .refl d
    · exact regBitWrite_lineOnly hu (.inr (.inr rfl)) _
    · exact fileWrite_lineOnly hu _ _ _

theorem assertSimple_lineOnly {d : Dev} (hp : d.bus.drivePin = d.bus.pinIo) : Dev.LineOnly d (assertSimple d) := by
  have hbus := (gpioSetMode_envOnly d.bus.pinIo .output d).bus
  exact (setMode_drive_lineOnly hp .output).trans (setValue_drive_lineOnly (by rw [hbus, hp]) false)

theorem owPullUp_lineOnly (d : Dev) : Dev.LineOnly d (owPullUp d) := by
  unfold owPullUp
  split
  next hc => exact setMode_drive_lineOnly (by unfold Bus.drivePin; rw [hc]) _
  next hc => exact setMode_drive_lineOnly (by unfold Bus.drivePin; rw [hc]) _
  next hc => exact setValue_drive_lineOnly (by unfold Bus.drivePin; rw [hc]) _

theorem owPullDown_lineOnly (d : Dev) : Dev.LineOnly d (owPullDown d) := by
  unfold owPullDown
  split
  next hc => exact assertSimple_lineOnly (by unfold Bus.drivePin; rw [hc])
  next hc => exact assertSimple_lineOnly (by unfold Bus.drivePin; rw [hc])
  next hc => exact setValue_drive_lineOnly (by unfold Bus.drivePin; rw [hc]) _

theorem clockReads_valuePos (ts : List Nat) (e : Env) :
    (Env.performAll (ts.map Action.clockRead) e).valuePos = e.valuePos := by
  induction ts generalizing e with
  | nil => rfl
  | cons t ts ih => exact ih _

theorem waitNs_lineOnly (n : Nat) (d : Dev) : Dev.LineOnly d (waitNs n d) := by
  obtain ⟨ts, h⟩ := waitNs_does n d
  have hs := waitNs_sameLine n d
  refine .of_same h.envOnly hs.page hs.settings ?_
  rw [h.env, performAll_append]
  exact clockReads_valuePos ts d.env

/-- A sample moves no read position but that of the sampled pin (rule R48 (a)). -/
theorem owSample_lineOnly (d : Dev) : Dev.LineOnly d (owSample d).2 := by
  have hs := owSample_sameLine d
  have hpos : ∀ j, (∀ e, usablePin d d.bus.pinIo ≠ some (j, e)) → (owSample d).2.env.position j = d.env.position j := by
    intro j hj
    unfold owSample gpioGetValue
    split
    · rfl
    next i e hu =>
      have hij : i ≠ j := by rintro rfl; exact hj e hu
      split
      · rfl
      · show ((regBit e.inp d).2.env).position j = _
        rw [(regBit_does e.inp d).env]
        rfl
      · cases hv : (d.gpio.pin i).hValue with
        | invalid => unfold getValueFile; simp only [hv]; rfl
        | opened =>
          show ((getValueFile i d).2.env).position j = _
          rw [(getValueFile_does i d hv).env]
          show ((d.env.setPosition i 0).setPosition i ((d.env.setPosition i 0).position i + 1)).position j = _
          rw [setPosition_position, if_neg hij, setPosition_position, if_neg hij]
  exact ⟨owSample_envOnly d, fun _ a _ => by rw [hs.page], fun _ x _ _ => by unfold Dev.pageBit; rw [hs.page],
    fun j _ => by unfold Env.setting; rw [hs.settings], hpos⟩

theorem lineOnly_closed : LineClosed Dev.LineOnly where
  refl := .refl
  trans := .trans
  wait := waitNs_lineOnly
  pullUp := owPullUp_lineOnly
  pullDown := owPullDown_lineOnly
  sample := owSample_lineOnly

/-- Settles O53: waits, releases, asserts and samples keep the frame of the line, hence so does what is made of them. -/
theorem lineOperationsTouchOnlyTheDrivePin : Obligations.LineOperationsTouchOnlyTheDrivePin := by
  intro s t i hw hi h
  rw [exec_eq_finishAs] at h
  cases h
  obtain ⟨hE, hbytes, hbits, hset, hpos⟩ :=
    lineOnly_closed.endingOf hi s.opL0 s.opL1 s.opL2 s.dev
  exact ⟨⟨hE.gpio, hE.bus, hE.crc⟩, hbytes hw, hbits hw, hset, hpos⟩

end Sys2Proof.Machine
end

section
/-! PROOFS. The sequencer, line by line, reaches the end that a command has in one step (rules R24, R41, R106). The lines
of each command are followed from acceptance; loops are followed by induction on the rounds left. -/

namespace Sys2Proof.Machine

open Sys2Proof

/-! ## Following the lines of one command -/

/-- The next line of the operation of `i`, if one runs. -/
def lineStep (i : Instr) (s : State) : State :=
  match s.seq with
  | none => s
  | some q => line i q s

theorem lineStep_idle (i : Instr) {s : State} (h : s.seq = none) : lineStep i s = s := by
  unfold lineStep
  rw [h]

theorem lineStep_running (i : Instr) {s : State} {q : Seq} (h : s.seq = some q) : lineStep i s = line i q s := by
  unfold lineStep
  rw [h]

/-- A line goes on with the same latched word, if it goes on (rule R41). -/
theorem line_cmd {i : Instr} {q q' : Seq} {s : State} (h : (line i q s).seq = some q') : q'.cmd = q.cmd := by
  rcases line_cases i q s with ⟨d, e, x, y, -, -, heq⟩ | ⟨d, q1, -, hc, -, heq⟩
  · rw [heq] at h; cases h
  · rw [heq] at h; cases h; exact hc

/-- A number of lines of the operation of `i`. -/
def lineSteps (i : Instr) : Nat → State → State
  | 0, s => s
  | n + 1, s => lineSteps i n (lineStep i s)

/-- While the latched word is the word of `i`, the ticks are the lines of `i`. -/
theorem ticks_eq_lineSteps {i : Instr} (n : Nat) {s : State} (h : ∀ q, s.seq = some q → decode q.cmd = .ok i) :
    ticks n s = lineSteps i n s := by
  induction n generalizing s with
  | zero => rfl
  | succ n ih =>
    show ticks n (tick s) = lineSteps i n (lineStep i s)
    cases hq : s.seq with
    | none =>
      rw [tick_idle hq, lineStep_idle i hq]
      exact ih h
    | some q =>
      rw [tick_line hq (h q hq), lineStep_running i hq]
      refine ih fun q' hq' => ?_
      rw [line_cmd hq']
      exact h q hq

theorem lineSteps_idle (i : Instr) (n : Nat) {s : State} (h : s.seq = none) : lineSteps i n s = s := by
  induction n with
  | zero => rfl
  | succ n ih =>
    show lineSteps i n (lineStep i s) = s
    rw [lineStep_idle i h, ih]

/-- The state `s` with the operation at `q` and the units at `d`. -/
def State.running (s : State) (q : Seq) (d : Dev) : State := { s with seq := some q, dev := d }

/-- Within `n` lines the operation of `i`, at `q` with the units `d`, ends as `r` says. -/
def EndsBy (i : Instr) (s : State) (n : Nat) (q : Seq) (d : Dev) (r : Ending) : Prop :=
  lineSteps i n (s.running q d) = s.finishAs r

namespace EndsBy
variable {i : Instr} {s : State} {n : Nat} {q : Seq} {d : Dev} {r : Ending}

/-- The last line. -/
theorem stop (h : line i q (s.running q d) = s.finishAs r) : EndsBy i s (n + 1) q d r := by
  show lineSteps i n (line i q (s.running q d)) = _
  rw [h]
  exact lineSteps_idle i n rfl

/-- A line, and the lines after it. -/
theorem next {q' : Seq} {d' : Dev} (h : line i q (s.running q d) = s.running q' d') (hn : EndsBy i s n q' d' r) :
    EndsBy i s (n + 1) q d r := by
  show lineSteps i n (line i q (s.running q d)) = _
  rw [h]
  exact hn

theorem mono {m : Nat} (h : EndsBy i s n q d r) (hm : n ≤ m) : EndsBy i s m q d r := by
  have add : ∀ (n k : Nat) (x : State), lineSteps i (n + k) x = lineSteps i k (lineSteps i n x) := by
    intro n
    induction n with
    | zero => intro k x; rw [Nat.zero_add]; rfl
    | succ n ih => intro k x; rw [Nat.succ_add]; exact ih k (lineStep i x)
  obtain ⟨k, rfl⟩ := Nat.le.dest hm
  unfold EndsBy at h ⊢
  rw [add, h]
  exact lineSteps_idle i k rfl

/-- The rounds of a line that is a loop, one by one. -/
theorem rounds (q : Nat → Seq) (d : Nat → Dev) (m : Nat)
    (h : ∀ x, x < m → line i (q x) (s.running (q x) (d x)) = s.running (q (x + 1)) (d (x + 1)))
    (hn : EndsBy i s n (q m) (d m) r) : EndsBy i s (n + m) (q 0) (d 0) r := by
  induction m generalizing n with
  | zero => exact hn
  | succ m ih =>
    exact (ih (fun x hx => h x (Nat.lt_succ_of_lt hx)) (.next (h m (Nat.lt_succ_self m)) hn)).mono (by omega)

/-- A line that acts on the units. -/
theorem lineDo {f : Dev → Dev} {d' : Dev} (h : line i q (s.running q d) = (s.running q d).lineDo q f) (hf : f d = d')
    (hn : EndsBy i s n q.next d' r) : EndsBy i s (n + 1) q d r := by
  subst hf
  exact .next h hn

/-- A line that returns at once where its condition fails. -/
theorem lineIf {c : Bool} (h : line i q (s.running q d) = (s.running q d).lineIf q c) (hf : c = false → r = .silent d)
    (hn : c = true → EndsBy i s n q.next d r) : EndsBy i s (n + 1) q d r := by
  cases c with
  | true => exact .next h (hn rfl)
  | false => rw [hf rfl]; exact .stop h

/-- The bound-state check of a bus command (rule R180). -/
theorem lineBound {want : Bool} (h : line i q (s.running q d) = (s.running q d).lineBound q want)
    (hn : EndsBy i s n q.next d r) : EndsBy i s (n + 1) q d (.ifBound want d r) := by
  unfold State.lineBound at h
  unfold Ending.ifBound
  by_cases hb : d.bus.bound = want
  · rw [if_pos hb]
    exact .next (h.trans (if_pos hb)) hn
  · rw [if_neg hb]
    exact .stop (h.trans (if_neg hb))

end EndsBy

/-- The sequencer right after acceptance (rule R41). -/
def Seq.accepted (w l0 l1 l2 : Word) : Seq := { cmd := w, l0 := l0, l1 := l1, l2 := l2 }

/-! ## The loops -/

section Loops
variable {i : Instr} {s : State} {n : Nat} {r : Ending}

/-- A loop over the numbers from 0, one round more. -/
theorem foldl_range_succ {α : Type} (f : α → Nat → α) (a : α) (x : Nat) :
    (List.range (x + 1)).foldl f a = f ((List.range x).foldl f a) x := by
  rw [List.range_succ, List.foldl_concat]

/-- The block after `unexportPin` of the first `x` pins (rule R130). -/
def unexportedTo (d : Dev) (x : Nat) : Dev := (List.range x).foldl (fun d i => gpioUnexportPin (BitVec.ofNat 8 i) d) d

theorem unexportedTo_succ (d : Dev) (x : Nat) :
    unexportedTo d (x + 1) = gpioUnexportPin (BitVec.ofNat 8 x) (unexportedTo d x) := foldl_range_succ _ d x

theorem gpioUnexportAll_eq (d : Dev) : gpioUnexportAll d = unexportedTo d 64 := rfl

/-- The loop over the 64 pins (rule R130), while what makes the line such a loop holds. -/
theorem endsBy_linePins {q : Seq} {last : Dev → Dev} {d : Dev} (P : Dev → Prop)
    (hP : ∀ p d, P d → P (gpioUnexportPin p d))
    (hl : ∀ x d, P d → line i { q with pi := x } (s.running { q with pi := x } d) =
      linePins { q with pi := x } last (s.running { q with pi := x } d)) (hpi : q.pi = 0) (hd : P d)
    (hn : EndsBy i s n (Seq.next { q with pi := 63 }) (last (gpioUnexportAll d)) r) : EndsBy i s (n + 64) q d r := by
  have hafter (x : Nat) : P (unexportedTo d x) := by
    induction x with
    | zero => exact hd
    | succ x ih => rw [unexportedTo_succ]; exact hP _ _ ih
  have hlast : EndsBy i s (n + 1) { q with pi := 63 } (unexportedTo d 63) r := by
    have hloop := hl 63 _ (hafter 63)
    rw [gpioUnexportAll_eq, unexportedTo_succ d 63] at hn
    generalize unexportedTo d 63 = d63 at hn hloop ⊢
    exact .next hloop hn
  have hrounds := EndsBy.rounds (fun x => { q with pi := x }) (unexportedTo d) 63 (fun x hx => ?_) hlast
  · have hq : q = { q with pi := 0 } := by rw [← hpi]
    rw [hq]
    exact hrounds.mono (by omega)
  · rw [unexportedTo_succ]
    exact (hl x _ (hafter x)).trans (if_pos hx)

end Loops

/-! ## GPIOController -/

section Gpio
variable {s : State} {w l0 l1 l2 : Word} {d : Dev}

theorem endsBy_initialize :
    EndsBy .initGpio s 7 (.accepted w l0 l1 l2) d (.of (gpioInitialize d)) := by
  unfold gpioInitialize
  refine .lineIf (c := d.gpio.backend == .none) rfl (fun h => ?_) fun h => ?_
  · rw [if_pos (by simpa using h)]; rfl
  · rw [if_neg (by simpa using h)]
    dsimp only
    split
    next hr => exact .stop (if_pos hr)
    next hr => exact .next (if_neg hr) (.next rfl (.next rfl (.next rfl (.next rfl (.stop rfl)))))

theorem endsBy_finalize : EndsBy .finalize s 68 (.accepted w l0 l1 l2) d (.silent (gpioFinalize d)) := by
  unfold gpioFinalize
  refine .lineIf (c := d.gpio.backend != .none) rfl (fun h => ?_) fun h => ?_
  · rw [show d.gpio.backend = .none by simpa using h]
  · split
    next hb => rw [hb] at h; cases h
    next hb =>
      refine endsBy_linePins (n := 3) (fun d => d.gpio.backend = .filesystem)
        (fun p d h => (gpioUnexportPin_pinsOnly p d).backend.trans h) (fun x d h => if_pos h) rfl hb ?_
      exact .next rfl (.next rfl (.stop rfl))
    next hb =>
      have hne : ¬ d.gpio.backend = .filesystem := by rw [hb]; nofun
      exact .next (if_neg hne) (.next rfl (.next rfl (.stop rfl)))

theorem endsBy_unexportAll : EndsBy .unexportAll s 65 (.accepted w l0 l1 l2) d (.silent (gpioUnexportAll d)) := by
  refine endsBy_linePins (n := 1) (last := id) (fun _ => True) (fun _ _ _ => trivial) (fun _ _ _ => rfl) rfl trivial ?_
  generalize gpioUnexportAll d = d'
  exact .stop rfl

/-! ### Export and unexport -/

theorem onPin_of_valid {p : Byte} {j : Fin 64} {e : PinEntry} (hv : validPin d.cfg p = some (j, e))
    (f : Fin 64 → PinEntry → Dev → Dev) : onPin p f d = f j e d := by
  unfold onPin
  rw [hv]

theorem isExported_of_valid {p : Byte} {j : Fin 64} {e : PinEntry} (hv : validPin d.cfg p = some (j, e)) :
    isExported p d = (d.gpio.pin j).exported := by
  unfold isExported
  rw [hv]

/-- The pin is given back, where it is valid and exported under the filesystem backend (rule R129). -/
theorem endsBy_unexportPin (p : Byte) :
    EndsBy (.unexportPin p) s 6 (.accepted w l0 l1 l2) d (.silent (gpioUnexportPin p d)) := by
  refine .lineIf (c := (validPin d.cfg p).isSome) rfl (fun h => ?_) fun h => ?_
  · have hv : validPin d.cfg p = none := by simpa using h
    simp [gpioUnexportPin, hv]
  obtain ⟨⟨j, e⟩, hv⟩ := Option.isSome_iff_exists.mp h
  refine .lineIf (c := d.gpio.backend == .filesystem) rfl (fun hb => ?_) fun hb => ?_
  · unfold gpioUnexportPin
    rw [if_pos (by simpa using hb)]
  refine .lineIf (c := isExported p d) rfl (fun hx => ?_) fun hx => ?_
  all_goals
    rw [isExported_of_valid hv] at hx
    unfold gpioUnexportPin
    rw [if_neg (by simpa using hb), hv]
    dsimp only
  · rw [if_neg (by rw [hx]; nofun)]
  · rw [if_pos hx]
    have hc1 := (closePinFiles_spec j d).1.cfg
    have hc2 := (writeUnexport_envOnly e (closePinFiles j d)).cfg
    refine .lineDo rfl (onPin_of_valid hv _) (.lineDo rfl (onPin_of_valid (hc1.symm ▸ hv) _) (.stop ?_))
    have hc := (onPin_of_valid (d := writeUnexport e (closePinFiles j d)) (hc2.symm ▸ hc1.symm ▸ hv) fun i _ => clearExported i)
    exact congrArg (fun d => s.finishAs (.silent d)) hc

/-- How `exportPin` ends after its attempts (rule R126, steps 6 to 8). -/
def exportEnding (e : PinEntry) (r : Bool × Dev) : Ending :=
  if r.1 then { err := .ok, r0 := none, r1 := none, dev := r.2 }
  else { err := .resourceUnavailable, r0 := none, r1 := none, dev := writeUnexport e r.2 }

/-- The line of the attempts, on a valid pin (rule R126, step 6). -/
theorem lineExportPin_attempt {p : Byte} {q : Seq} {x : State} {j : Fin 64} {e : PinEntry} (hq : q.step = 5)
    (hv : validPin x.dev.cfg p = some (j, e)) :
    lineExportPin p q x =
      if x.dev.cfg.exportAttempts < q.att then x.goto q.next
      else if (exportAttempt j x.dev).1 then State.finish .ok none none { x with dev := (exportAttempt j x.dev).2 }
      else if q.att < x.dev.cfg.exportAttempts then
        State.goto { q with att := q.att + 1 }
          { x with dev := sleepNs x.dev.cfg.exportBackoffNs (exportAttempt j x.dev).2 }
      else State.goto q.next { x with dev := (exportAttempt j x.dev).2 } := by
  cases q
  cases hq
  unfold lineExportPin
  dsimp only
  rw [hv]
  rfl

/-- The lines after the last attempt has failed (rule R126, steps 7 and 8). -/
theorem endsBy_exportGiveUp {p : Byte} {q : Seq} {j : Fin 64} {e : PinEntry} (hq : q.step = 6)
    (hv : validPin d.cfg p = some (j, e)) : EndsBy (.exportPin p) s 2 q d (exportEnding e (false, d)) := by
  cases q
  cases hq
  exact .lineDo rfl (onPin_of_valid hv _) (.stop rfl)

/-- The attempts that are left, one line each (rule R126, step 6). -/
theorem endsBy_exportLoop (p : Byte) (k : Nat) {q : Seq} {j : Fin 64} {e : PinEntry} (hq : q.step = 5)
    (hv : validPin d.cfg p = some (j, e)) (hk : q.att + k = d.cfg.exportAttempts + 1) :
    EndsBy (.exportPin p) s (k + 3) q d (exportEnding e (exportLoop j k d)) := by
  induction k generalizing q d with
  | zero =>
    have hdue : d.cfg.exportAttempts < q.att := by omega
    have hline := lineExportPin_attempt (x := s.running q d) hq hv
    exact .next (hline.trans (if_pos hdue)) (endsBy_exportGiveUp (by rw [next_step, hq]) hv)
  | succ k ih =>
    have hdue : ¬ d.cfg.exportAttempts < q.att := by omega
    have hline := (lineExportPin_attempt (x := s.running q d) hq hv).trans (if_neg hdue)
    have hcfg := (exportAttempt_spec j d).1.cfg
    unfold exportLoop
    dsimp only
    split
    next hr => exact .stop (hline.trans (if_pos hr))
    next hr =>
      have hline := hline.trans (if_neg hr)
      split
      next hk0 =>
        have hlast : ¬ q.att < d.cfg.exportAttempts := by omega
        have hgive : EndsBy (.exportPin p) s 2 q.next _ _ :=
          endsBy_exportGiveUp (by rw [next_step, hq]) (hcfg.symm ▸ hv)
        exact (EndsBy.next (i := .exportPin p) (hline.trans (if_neg hlast)) hgive).mono (by omega)
      next hk0 =>
        have hmore : q.att < d.cfg.exportAttempts := by omega
        have hcfg' := (sleepNs_envOnly d.cfg.exportBackoffNs (exportAttempt j d).2).cfg.trans hcfg
        refine .next (hline.trans (if_pos hmore)) (ih hq (hcfg'.symm ▸ hv) ?_)
        show q.att + 1 + k = (sleepNs d.cfg.exportBackoffNs (exportAttempt j d).2).cfg.exportAttempts + 1
        rw [hcfg']
        omega

theorem endsBy_exportPin (p : Byte) : EndsBy (.exportPin p) s (d.cfg.exportAttempts + 8) (.accepted w l0 l1 l2) d
    (.of ((gpioExportPin p d).1, none, (gpioExportPin p d).2)) := by
  refine .lineIf (c := (validPin d.cfg p).isSome) rfl (fun h => ?_) fun h => ?_
  · have hv : validPin d.cfg p = none := by simpa using h
    simp [gpioExportPin, hv, Ending.of, Ending.silent]
  obtain ⟨⟨j, e⟩, hv⟩ := Option.isSome_iff_exists.mp h
  refine .lineIf (c := d.gpio.backend == .filesystem) rfl (fun hb => ?_) fun hb => ?_
  · unfold gpioExportPin
    rw [if_pos (by simpa using hb)]
    rfl
  have heq : gpioExportPin p d = if (d.gpio.pin j).exported then (.ok, d) else
      if (exportLoop j d.cfg.exportAttempts (writeExport e d)).1 then
        (.ok, (exportLoop j d.cfg.exportAttempts (writeExport e d)).2)
      else (.resourceUnavailable, writeUnexport e (exportLoop j d.cfg.exportAttempts (writeExport e d)).2) := by
    unfold gpioExportPin
    rw [if_neg (by simpa using hb), hv]
  refine .lineIf (c := !isExported p d) rfl (fun hx => ?_) fun hx => ?_
  all_goals rw [isExported_of_valid hv] at hx
  · rw [heq, if_pos (by simpa using hx)]
    rfl
  · have hcfg := (writeExport_envOnly e d).cfg
    have hend : Ending.of ((gpioExportPin p d).1, none, (gpioExportPin p d).2) =
        exportEnding e (exportLoop j d.cfg.exportAttempts (writeExport e d)) := by
      rw [heq, if_neg (by simpa using hx)]
      unfold exportEnding
      split <;> rfl
    rw [hend]
    refine .next rfl (.lineDo rfl (onPin_of_valid hv _) (endsBy_exportLoop p _ rfl (hcfg.symm ▸ hv) ?_))
    rw [hcfg]
    exact Nat.add_comm 1 _

/-! ### Configuration and values -/

/-- An operation that writes to a usable pin: to its bits, or to one of its files (rules R132, R134, R136). -/
def pinWrite (p : Byte) (reg : PinEntry → Dev → Dev) (file : Fin 64 → Dev → Dev) (d : Dev) : Dev :=
  match usablePin d p with
  | none => d
  | some (i, e) =>
    match d.gpio.backend with
    | .none => d
    | .register => reg e d
    | .filesystem => file i d

theorem endsBy_pinWrite {i : Instr} {p : Byte} {reg : PinEntry → Dev → Dev} {file : Fin 64 → Dev → Dev}
    (hl : ∀ q x, line i q x = linePinWrite p reg file q x) (hreg : ∀ e d, Dev.EnvOnly d (reg e d)) :
    EndsBy i s 4 (.accepted w l0 l1 l2) d (.silent (pinWrite p reg file d)) := by
  unfold pinWrite
  refine .lineIf (c := (usablePin d p).isSome) (hl _ _) (fun h => ?_) fun h => ?_
  · rw [show usablePin d p = none by simpa using h]
  obtain ⟨⟨j, e⟩, hu⟩ := Option.isSome_iff_exists.mp h
  have hv := usablePin_valid hu
  rw [hu]
  rcases usablePin_backend hu with hb | ⟨hb, -⟩
  · have hnf : ¬ (reg e d).gpio.backend = .filesystem := by rw [(hreg e d).gpio, hb]; nofun
    simp only [hb]
    exact .lineDo ((hl _ _).trans (if_pos hb)) (onPin_of_valid hv _)
      (.next ((hl _ _).trans (if_neg hnf)) (.stop (hl _ _)))
  · have hnr : ¬ d.gpio.backend = .register := by rw [hb]; nofun
    simp only [hb]
    exact .next ((hl _ _).trans (if_neg hnr))
      (.lineDo ((hl _ _).trans (if_pos hb)) (onPin_of_valid hv _) (.stop (hl _ _)))

theorem endsBy_getValue (p : Byte) : EndsBy (.getValue p) s 3 (.accepted w l0 l1 l2) d
    (.of (.ok, some (gpioGetValue p d).1.word, (gpioGetValue p d).2)) := by
  by_cases hu : (usablePin d p).isSome = true
  · refine .next (if_pos hu) ?_
    by_cases hb : d.gpio.backend = .register
    · exact .stop (if_pos hb)
    · exact .next (if_neg hb) (.stop rfl)
  · refine .stop ((if_neg hu).trans ?_)
    have hg : gpioGetValue p d = (.unreadable, d) := by
      unfold gpioGetValue
      rw [show usablePin d p = none by simpa using hu]
    rw [hg]
    rfl

end Gpio

/-! ## OneWireBus -/

section Bus
variable {s : State} {w l0 l1 l2 : Word} {d : Dev}

theorem endsBy_openSimple {i : Instr} {c : BusCfg} {p : Byte} {slots : Config → Vector Word 10}
    (hl : ∀ q x, line i q x = lineOpenSimple c p (slots x.dev.cfg) q x) :
    EndsBy i s 6 (.accepted w l0 l1 l2) d (.ifBound false d (.of (owOpenSimple c p (slots d.cfg) d))) :=
  .lineBound (hl _ _) (.next (hl _ _) (.next (hl _ _) (.next (hl _ _) (.next (hl _ _) (.stop (hl _ _))))))

theorem endsBy_openBuffered (p q : Byte) :
    EndsBy (.busOpenBuffered p q) s 8 (.accepted w l0 l1 l2) d (.ifBound false d (.of (owOpenBuffered p q d))) :=
  .lineBound rfl (.next rfl (.next rfl (.next rfl (.next rfl (.next rfl (.next rfl (.stop rfl)))))))

theorem endsBy_busClose : EndsBy .busClose s 4 (.accepted w l0 l1 l2) d (.ifBound true d (.silent (owClose d))) :=
  .lineBound rfl (.next rfl (.next rfl (.stop rfl)))

/-- How `reset` ends after its sample (rule R193, steps 8 and 9). -/
def resetEnding (v : Level) (d : Dev) : Ending :=
  if v.isLow then { err := .ok, r0 := some (boolWord true), r1 := none, dev := waitSlot slotJ d }
  else { err := .noPresence, r0 := some (boolWord false), r1 := none, dev := d }

theorem of_owReset (d : Dev) : Ending.of (owReset d) = resetEnding (resetPulse d).1 (resetPulse d).2 := by
  unfold owReset resetEnding
  dsimp only
  split <;> rfl

theorem endsBy_resetEnding {q : Seq} (hq : q.step = 8) (hout : q.out = .ok) :
    EndsBy .reset s 2 q d (resetEnding q.sample d) := by
  cases q
  cases hq
  cases hout
  unfold resetEnding
  split
  next h => exact .stop (if_pos h)
  next h => exact .next (if_neg h) (.stop rfl)

theorem endsBy_reset : EndsBy .reset s 10 (.accepted w l0 l1 l2) d (.ifBound true d (.of (owReset d))) := by
  rw [of_owReset]
  exact .lineBound rfl (.next rfl (.next rfl (.next rfl (.next rfl (.next rfl (.next rfl (.next rfl
    (endsBy_resetEnding rfl rfl))))))))

theorem endsBy_writeBit (b : Bool) :
    EndsBy (.writeBit b) s 5 (.accepted w l0 l1 l2) d (.ifBound true d (.silent (writeSlot b d))) := by
  refine .lineBound rfl (.next rfl ?_)
  cases b with
  | true => exact .next rfl (.next rfl (.stop rfl))
  | false => exact .next rfl (.next rfl (.stop rfl))

/-- The block after the first `x` write slots of a byte (rule R195). -/
def writtenTo (v : Byte) (d : Dev) (x : Nat) : Dev := (List.range x).foldl (fun d k => writeSlot (v.getLsbD k) d) d

theorem writtenTo_succ (v : Byte) (d : Dev) (x : Nat) :
    writtenTo v d (x + 1) = writeSlot (v.getLsbD x) (writtenTo v d x) := foldl_range_succ _ d x

theorem writeSlots_eq (v : Byte) (d : Dev) : writeSlots v d = waitNs d.cfg.settleNs (writtenTo v d 8) := rfl

/-- The eight rounds of `writeByte`, then the settle wait (rule R195). -/
theorem endsBy_writeByte (v : Byte) :
    EndsBy (.writeByte v) s 11 (.accepted w l0 l1 l2) d (.ifBound true d (.silent (writeSlots v d))) := by
  have hcfg : (writtenTo v d 8).cfg = d.cfg :=
    (foldl_envOnly _ (fun d k => writeSlot_envOnly (v.getLsbD k) d) (List.range 8) d).cfg
  have hlast : EndsBy (.writeByte v) s 3 { Seq.accepted w l0 l1 l2 with step := 1, k := 7 } (writtenTo v d 7)
      (.silent (writeSlots v d)) := by
    rw [writeSlots_eq, ← hcfg, writtenTo_succ v d 7]
    exact .next rfl (.next rfl (.stop rfl))
  have hrounds := EndsBy.rounds (fun x => { Seq.accepted w l0 l1 l2 with step := 1, k := x }) (writtenTo v d) 7
    (fun x hx => ?_) hlast
  · exact .lineBound rfl hrounds
  · rw [writtenTo_succ]
    exact if_pos hx

theorem endsBy_readBit : EndsBy .readBit s 8 (.accepted w l0 l1 l2) d (.ifBound true d (.of (owReadBit d))) :=
  .lineBound rfl (.next rfl (.next rfl (.next rfl (.next rfl (.next rfl (.next rfl (.stop rfl)))))))

/-- The accumulator and the block after the first `x` read slots of a byte (rule R197). -/
def readTo (d : Dev) (x : Nat) : Byte × Dev := (List.range x).foldl (fun x k => readSlotInto k x) (0, d)

theorem readTo_succ (d : Dev) (x : Nat) : readTo d (x + 1) = readSlotInto x (readTo d x) := foldl_range_succ _ (0, d) x

theorem owReadByte_eq (d : Dev) : owReadByte d = (.ok, some (byteWord (readTo d 8).1), (readTo d 8).2) := rfl

/-- The eight rounds of `readByte` (rule R197). -/
theorem endsBy_readByte :
    EndsBy .readByte s 11 (.accepted w l0 l1 l2) d (.ifBound true d (.of (owReadByte d))) := by
  have hlast : EndsBy .readByte s 2 { Seq.accepted w l0 l1 l2 with step := 2, k := 7, acc := (readTo d 7).1 }
      (readTo d 7).2 (.of (owReadByte d)) := by
    rw [owReadByte_eq, readTo_succ d 7]
    generalize readTo d 7 = x
    exact .next rfl (.stop rfl)
  have hrounds := EndsBy.rounds (fun x => { Seq.accepted w l0 l1 l2 with step := 2, k := x, acc := (readTo d x).1 })
    (fun x => (readTo d x).2) 7 (fun x hx => ?_) hlast
  · have hzero : readTo d 0 = (0, d) := rfl
    rw [hzero] at hrounds
    exact .lineBound rfl (.next rfl hrounds)
  · rw [readTo_succ]
    exact if_pos hx

end Bus

/-! ## Every command -/

section Every
variable {s : State} {w l0 l1 l2 : Word} {d : Dev}

theorem endsBy_clockRead :
    EndsBy .clockRead s 2 (.accepted w l0 l1 l2) d (endingOf .clockRead l0 l1 l2 d) := by
  unfold endingOf
  rw [← (now_envOnly d).cfg]
  exact .next rfl (.stop rfl)

theorem endsBy_crcValid : EndsBy .crcValid s 2 (.accepted w l0 l1 l2) d (.of (crcVerdict d)) := by
  unfold crcVerdict
  split
  next h => exact .stop (if_pos h)
  next h => exact .next (if_neg h) (.stop rfl)

/-- Within 80 lines, and one for each attempt to take a pin, the lines of a command reach its ending. -/
theorem endsBy_endingOf (i : Instr) :
    EndsBy i s (80 + d.cfg.exportAttempts) (.accepted w l0 l1 l2) d (endingOf i l0 l1 l2 d) := by
  have within {n : Nat} {r : Ending} (h : EndsBy i s n (.accepted w l0 l1 l2) d r) (hn : n ≤ 80) :
      EndsBy i s (80 + d.cfg.exportAttempts) (.accepted w l0 l1 l2) d r := h.mono (by omega)
  cases i with
  | initGpio => exact within endsBy_initialize (by decide)
  | finalize => exact within endsBy_finalize (by decide)
  | exportPin p => exact (endsBy_exportPin p).mono (by omega)
  | unexportPin p => exact within (endsBy_unexportPin p) (by decide)
  | unexportAll => exact within endsBy_unexportAll (by decide)
  | setMode p m => exact within (endsBy_pinWrite (fun _ _ => rfl) fun e => setModeRegister_envOnly e m) (by decide)
  | setPullDisable p =>
    exact within (endsBy_pinWrite (fun _ _ => rfl) fun e => setPullRegister_envOnly e .disable) (by decide)
  | setPullUp p => exact within (endsBy_pinWrite (fun _ _ => rfl) fun e => setPullRegister_envOnly e .up) (by decide)
  | setPullDown p =>
    exact within (endsBy_pinWrite (fun _ _ => rfl) fun e => setPullRegister_envOnly e .down) (by decide)
  | setValue p b => exact within (endsBy_pinWrite (fun _ _ => rfl) fun e => setValueRegister_envOnly e b) (by decide)
  | getValue p => exact within (endsBy_getValue p) (by decide)
  | delay f => exact within (n := 4) (.next rfl (.next rfl (.next rfl (.stop rfl)))) (by decide)
  | clockRead => exact within endsBy_clockRead (by decide)
  | busOpenLegacy p =>
    exact within (endsBy_openSimple (slots := fun c => slotsOf c.legacyNs) fun _ _ => rfl) (by decide)
  | busOpenTunable p =>
    exact within (endsBy_openSimple (slots := fun c => slotsOf c.tunableNs) fun _ _ => rfl) (by decide)
  | busOpenBuffered p q => exact within (endsBy_openBuffered p q) (by decide)
  | busClose => exact within endsBy_busClose (by decide)
  | setSlot n => exact within (n := 2) (.lineBound rfl (.stop rfl)) (by decide)
  | getSlot n => exact within (n := 2) (.lineBound rfl (.stop rfl)) (by decide)
  | pullUp => exact within (n := 2) (.lineBound rfl (.stop rfl)) (by decide)
  | pullDown => exact within (n := 2) (.lineBound rfl (.stop rfl)) (by decide)
  | reset => exact within endsBy_reset (by decide)
  | writeBit b => exact within (endsBy_writeBit b) (by decide)
  | writeByte v => exact within (endsBy_writeByte v) (by decide)
  | readBit => exact within endsBy_readBit (by decide)
  | readByte => exact within endsBy_readByte (by decide)
  | crcReset => exact within (n := 1) (.stop rfl) (by decide)
  | crcUpdate v => exact within (n := 2) (.next rfl (.stop rfl)) (by decide)
  | crcValid => exact within endsBy_crcValid (by decide)

end Every

/-- Settles O17: the ticks are the lines of the accepted command, and these reach the command's ending. -/
theorem sequencerReachesExec : Obligations.SequencerReachesExec := by
  intro i w s t hd h
  rw [exec_eq_finishAs] at h
  cases h
  have hcmd : ∀ q, (s.accept w).seq = some q → decode q.cmd = .ok i := by
    rintro q ⟨⟩
    exact hd
  rw [ticks_eq_lineSteps _ hcmd]
  exact endsBy_endingOf (s := s.accept w) (d := (s.accept w).dev) i

end Sys2Proof.Machine
end

section
/-! PROOFS. Page and control files (rules R60, R63, R66): a bit write is a read and a write of its word, and a command
acts on the page under the register backend only, on control files under the other two only. -/

namespace Sys2Proof.Machine

open Sys2Proof

/-- Settles O36: `regBitWrite_does` gives the two actions, `memRead_bit` and `getLsbD_putBit` their bits. -/
theorem bitWriteIsReadThenWrite : Obligations.BitWriteIsReadThenWrite := by
  intro d off v
  refine ⟨rfl, (memRead (off / 32) d).1, (regBitWrite_does off v d).actionsSince,
    fun k hk => memRead_bit (off / 32) k d hk, fun k => ?_⟩
  rw [getLsbD_putBit _ _ _ _ (Nat.mod_lt off (by decide))]
  exact if_congr eq_comm rfl rfl

/-! ## The actions that fit a backend -/

/-- The action may happen under the backend: no file action under the register backend, no page access under the other
two (rule R60). -/
def Action.Fits (b : Backend) (a : Action) : Prop :=
  (b = .register → a.isFile = false) ∧ (b ≠ .register → a.pageAccess = none)

/-- One environment comes from another by actions that fit a backend, and by draws. -/
def Env.ReachesUnder (b : Backend) (e e' : Env) : Prop :=
  ∃ acts, (∀ a ∈ acts, a.Fits b) ∧ e' = { Env.performAll acts e with draws := e'.draws }

/-- What touches neither page nor files fits every backend. -/
theorem Action.Fits.of_neither {b : Backend} {a : Action} (hf : a.isFile = false) (hp : a.pageAccess = none) :
    a.Fits b := ⟨fun _ => hf, fun _ => hp⟩

theorem Action.Fits.of_file {b : Backend} {a : Action} (hb : b ≠ .register) (hp : a.pageAccess = none) : a.Fits b :=
  ⟨fun h => absurd h hb, fun _ => hp⟩

theorem Action.Fits.of_page {a : Action} (hf : a.isFile = false) : a.Fits .register :=
  ⟨fun _ => hf, fun h => absurd rfl h⟩

/-- No action but those on files changes the settings behind the files (rule R31). -/
theorem effect_settings {a : Action} (h : a.isFile = false) (e : Env) : (e.effect a).settings = e.settings := by
  cases a with
  | fileOpen f ok => cases h
  | fileWrite f t => cases h
  | fileSeek f => cases h
  | fileRead f c => cases h
  | fileClose f => cases h
  | _ => rfl

/-- No action but those on the page changes the page (rule R62). -/
theorem effect_page {a : Action} (h : a.pageAccess = none) (e : Env) : (e.effect a).page = e.page := by
  cases a with
  | pageRead w v => cases h
  | pageWrite w v => cases h
  | fileOpen f ok => cases ok <;> simp [Env.effect, moveValuePos_page]
  | _ => simp [Env.effect, moveValuePos_page, fileWritten_page]

namespace Env.ReachesUnder
variable {b : Backend}

theorem refl (e : Env) : Env.ReachesUnder b e e := ⟨[], nofun, rfl⟩

theorem trans {e1 e2 e3 : Env} (h1 : Env.ReachesUnder b e1 e2) (h2 : Env.ReachesUnder b e2 e3) :
    Env.ReachesUnder b e1 e3 := by
  obtain ⟨l1, hl1, he1⟩ := h1
  obtain ⟨l2, hl2, he2⟩ := h2
  refine ⟨l1 ++ l2, List.forall_mem_append.mpr ⟨hl1, hl2⟩, ?_⟩
  rw [performAll_append, he2, he1, performAll_draws]

theorem of_does {acts : List Action} {d d' : Dev} (h : Dev.Does acts d d') (hf : ∀ a ∈ acts, a.Fits b) :
    Env.ReachesUnder b d.env d'.env := ⟨acts, hf, h.env⟩

theorem perform (e : Env) {a : Action} (h : a.Fits b) : Env.ReachesUnder b e (e.perform a) :=
  ⟨[a], List.forall_mem_singleton.mpr h, rfl⟩

theorem fits {e e' : Env} (h : Env.ReachesUnder b e e') : ∀ a ∈ e'.log.drop e.log.length, a.Fits b := by
  obtain ⟨acts, hf, he⟩ := h
  rw [Env.Reaches.drop he]
  exact hf

theorem settings {e e' : Env} (h : Env.ReachesUnder b e e') (hb : b = .register) : e'.settings = e.settings := by
  obtain ⟨acts, hf, he⟩ := h
  rw [he]
  clear he
  show (Env.performAll acts e).settings = e.settings
  induction acts generalizing e with
  | nil => rfl
  | cons a acts ih =>
    obtain ⟨ha, hrest⟩ := List.forall_mem_cons.mp hf
    exact (ih hrest).trans (effect_settings (ha.1 hb) e)

theorem page {e e' : Env} (h : Env.ReachesUnder b e e') (hb : b ≠ .register) : e'.page = e.page := by
  obtain ⟨acts, hf, he⟩ := h
  rw [he]
  clear he
  show (Env.performAll acts e).page = e.page
  induction acts generalizing e with
  | nil => rfl
  | cons a acts ih =>
    obtain ⟨ha, hrest⟩ := List.forall_mem_cons.mp hf
    exact (ih hrest).trans (effect_page (ha.2 hb) e)

end Env.ReachesUnder

/-! ## Waits, bits and files -/

section Shared
variable {b : Backend}

theorem clockRead_fits (t : Nat) : (Action.clockRead t).Fits b := .of_neither rfl rfl

theorem wait_fits (n : Nat) : (Action.wait n).Fits b := .of_neither rfl rfl

theorem result_fits (x y : Option Word) (w : Word) : (Action.result x y w).Fits b := .of_neither rfl rfl

/-- The actions of a wait, which are clock reads and the mark of its end. -/
theorem waitActions_fit (ts : List Nat) (n : Nat) : ∀ a ∈ ts.map Action.clockRead ++ [.wait n], a.Fits b :=
  List.forall_mem_append.mpr
    ⟨List.forall_mem_map.mpr fun t _ => clockRead_fits t, List.forall_mem_singleton.mpr (wait_fits n)⟩

theorem now_under (d : Dev) : Env.ReachesUnder b d.env (now d).2.env :=
  .of_does (now_does d) (List.forall_mem_singleton.mpr (clockRead_fits _))

theorem spinUntil_under (t0 n : Nat) (d : Dev) : Env.ReachesUnder b d.env (spinUntil t0 n d).env := by
  obtain ⟨ts, h⟩ := spinUntil_does t0 n d
  exact .of_does h (waitActions_fit ts n)

theorem waitNs_under (n : Nat) (d : Dev) : Env.ReachesUnder b d.env (waitNs n d).env :=
  (now_under d).trans (spinUntil_under _ _ _)

theorem readAll_under (ns : List Nat) (d : Dev) : Env.ReachesUnder b d.env (readAll ns d).env := by
  induction ns generalizing d with
  | nil => exact .refl _
  | cons n ns ih => exact .trans (.perform _ (clockRead_fits _)) (ih (perform (.clockRead (d.env.clk + n)) d))

theorem anchoredWait_under (n sec nsec : Nat) (d : Dev) : Env.ReachesUnder b d.env (anchoredWait n sec nsec d).env := by
  have hread : Env.ReachesUnder b d.env (anchoredRead (clampNs d.cfg n) sec nsec d).2.env :=
    .of_does (anchoredRead_does _ sec nsec d) (List.forall_mem_singleton.mpr (clockRead_fits _))
  unfold anchoredWait
  dsimp only
  split
  · split
    · exact hread.trans (.perform _ (wait_fits _))
    · exact hread.trans (spinUntil_under _ _ _)
  · have hcount := Env.ReachesUnder.of_does (b := b)
      (Dev.Does.countDraw (anchoredRead (clampNs d.cfg n) sec nsec d).2) nofun
    exact ((hread.trans hcount).trans (readAll_under _ _)).trans (.perform _ (wait_fits _))

theorem sleepNs_under (n : Nat) (d : Dev) : Env.ReachesUnder b d.env (sleepNs n d).env :=
  .of_does (sleepNs_does n d) (List.forall_mem_singleton.mpr (.of_neither rfl rfl))

theorem clockDelay_under (f : Bool) (l0 l1 l2 : Word) (d : Dev) :
    Env.ReachesUnder b d.env (clockDelay f l0 l1 l2 d).env := by
  unfold clockDelay
  split
  · exact anchoredWait_under _ _ _ d
  · exact waitNs_under _ d

theorem regBit_under (off : Nat) (d : Dev) : Env.ReachesUnder .register d.env (regBit off d).2.env :=
  .of_does (regBit_does off d) (List.forall_mem_singleton.mpr (.of_page rfl))

theorem regBitWrite_under (off : Nat) (v : Bool) (d : Dev) :
    Env.ReachesUnder .register d.env (regBitWrite off v d).env :=
  .of_does (regBitWrite_does off v d)
    (List.forall_mem_cons.mpr ⟨.of_page rfl, List.forall_mem_singleton.mpr (.of_page rfl)⟩)

section Files
variable (hb : b ≠ .register)
include hb

theorem fileOpen_under (f : CtlFile) (d : Dev) : Env.ReachesUnder b d.env (fileOpen f d).2.env :=
  .of_does (fileOpen_does f d) (List.forall_mem_singleton.mpr (.of_file hb rfl))

theorem fileWrite_under (h : Handle) (f : CtlFile) (text : String) (d : Dev) :
    Env.ReachesUnder b d.env (fileWrite h f text d).env := by
  cases h with
  | invalid => exact .refl _
  | opened => exact .perform _ (.of_file hb rfl)

theorem fileClose_under (h : Handle) (f : CtlFile) (d : Dev) : Env.ReachesUnder b d.env (fileClose h f d).env := by
  cases h with
  | invalid => exact .refl _
  | opened => exact .perform _ (.of_file hb rfl)

theorem getValueFile_under (i : Fin 64) (d : Dev) : Env.ReachesUnder b d.env (getValueFile i d).2.env := by
  cases hv : (d.gpio.pin i).hValue with
  | invalid => unfold getValueFile; rw [hv]; exact .refl _
  | opened =>
    exact .of_does (getValueFile_does i d hv)
      (List.forall_mem_cons.mpr ⟨.of_file hb rfl, List.forall_mem_singleton.mpr (.of_file hb rfl)⟩)

/-! ## Exporting and unexporting -/

theorem closeHandles_under (i : Fin 64) (x y z : Handle) (d : Dev) :
    Env.ReachesUnder b d.env (closeHandles i x y z d).env :=
  ((fileClose_under hb _ _ d).trans (fileClose_under hb _ _ _)).trans (fileClose_under hb _ _ _)

theorem exportAttempt_under (i : Fin 64) (d : Dev) : Env.ReachesUnder b d.env (exportAttempt i d).2.env := by
  have hopens := ((fileOpen_under hb (.pinFile i .direction) d).trans (fileOpen_under hb (.pinFile i .pull) _)).trans
    (fileOpen_under hb (.pinFile i .value) _)
  unfold exportAttempt
  dsimp only
  split
  · exact hopens
  · exact hopens.trans (closeHandles_under hb _ _ _ _ _)

theorem exportLoop_under (i : Fin 64) (n : Nat) (d : Dev) : Env.ReachesUnder b d.env (exportLoop i n d).2.env := by
  induction n generalizing d with
  | zero => exact .refl _
  | succ n ih =>
    have hattempt := exportAttempt_under hb i d
    unfold exportLoop
    dsimp only
    split
    · exact hattempt
    · split
      · exact hattempt
      · exact (hattempt.trans (sleepNs_under _ _)).trans (ih _)

theorem closeGlobals_under (d : Dev) : Env.ReachesUnder b d.env (closeGlobals d).env :=
  (fileClose_under hb _ _ d).trans (fileClose_under hb _ _ _)

end Files
end Shared

/-! ## The operations of the backend in use -/

/-- The backend stays, and every action fits it. -/
structure Dev.Exclusive (d d' : Dev) : Prop where
  backend : d'.gpio.backend = d.gpio.backend
  under   : Env.ReachesUnder d.gpio.backend d.env d'.env

namespace Dev.Exclusive

theorem refl (d : Dev) : Dev.Exclusive d d := ⟨rfl, .refl _⟩

theorem trans {d1 d2 d3 : Dev} (h1 : Dev.Exclusive d1 d2) (h2 : Dev.Exclusive d2 d3) : Dev.Exclusive d1 d3 :=
  ⟨h2.backend.trans h1.backend, h1.under.trans (h1.backend ▸ h2.under)⟩

theorem setBus (b : Bus) (d : Dev) : Dev.Exclusive d (setBus b d) := ⟨rfl, .refl _⟩

end Dev.Exclusive

/-- A bit write, under the register backend. -/
theorem regBitWrite_exclusive (off : Nat) (v : Bool) {d : Dev} (hb : d.gpio.backend = .register) :
    Dev.Exclusive d (regBitWrite off v d) :=
  ⟨by rw [(regBitWrite_envOnly off v d).gpio], hb ▸ regBitWrite_under off v d⟩

theorem regBitWrite_regBitWrite_exclusive (off off' : Nat) (v v' : Bool) {d : Dev} (hb : d.gpio.backend = .register) :
    Dev.Exclusive d (regBitWrite off' v' (regBitWrite off v d)) :=
  have h := regBitWrite_exclusive off v hb
  h.trans (regBitWrite_exclusive off' v' (h.backend.trans hb))

/-- A write to a file, under the filesystem backend. -/
theorem fileWrite_exclusive (h : Handle) (f : CtlFile) (text : String) {d : Dev}
    (hb : d.gpio.backend = .filesystem) : Dev.Exclusive d (fileWrite h f text d) :=
  ⟨by rw [(fileWrite_envOnly h f text d).gpio], fileWrite_under (by rw [hb]; nofun) h f text d⟩

theorem setPullRegister_exclusive (e : PinEntry) (x : Pull) {d : Dev} (hb : d.gpio.backend = .register) :
    Dev.Exclusive d (setPullRegister e x d) := by
  cases x with
  | disable => exact regBitWrite_exclusive _ _ hb
  | up => exact regBitWrite_regBitWrite_exclusive _ _ _ _ hb
  | down => exact regBitWrite_regBitWrite_exclusive _ _ _ _ hb

theorem gpioSetMode_exclusive (p : Byte) (m : PinMode) (d : Dev) : Dev.Exclusive d (gpioSetMode p m d) := by
  unfold gpioSetMode
  split
  · exact .refl d
  · split
    · exact .refl d
    next hb => exact regBitWrite_regBitWrite_exclusive _ _ _ _ hb
    next hb => exact fileWrite_exclusive _ _ _ hb

theorem gpioSetPullState_exclusive (p : Byte) (x : Pull) (d : Dev) : Dev.Exclusive d (gpioSetPullState p x d) := by
  unfold gpioSetPullState
  split
  · exact .refl d
  · split
    · exact .refl d
    next hb => exact setPullRegister_exclusive _ x hb
    next hb => exact fileWrite_exclusive _ _ _ hb

theorem gpioSetValue_exclusive (p : Byte) (v : Bool) (d : Dev) : Dev.Exclusive d (gpioSetValue p v d) := by
  unfold gpioSetValue
  split
  · exact .refl d
  · split
    · exact .refl d
    next hb => exact regBitWrite_exclusive _ _ hb
    next hb => exact fileWrite_exclusive _ _ _ hb

theorem gpioGetValue_exclusive (p : Byte) (d : Dev) : Dev.Exclusive d (gpioGetValue p d).2 := by
  refine ⟨by rw [(gpioGetValue_envOnly p d).gpio], ?_⟩
  unfold gpioGetValue
  split
  · exact .refl _
  · split
    · exact .refl _
    next hb => rw [hb]; exact regBit_under _ d
    next hb => rw [hb]; exact getValueFile_under (b := .filesystem) nofun _ d

/-- Exporting acts on files, and under the filesystem backend only (rule R126). -/
theorem gpioExportPin_exclusive (p : Byte) (d : Dev) : Dev.Exclusive d (gpioExportPin p d).2 := by
  refine ⟨(gpioExportPin_pinsOnly p d).backend, ?_⟩
  unfold gpioExportPin
  split
  · exact .refl _
  next hb =>
    have hb : d.gpio.backend ≠ .register := by rw [not_not.mp hb]; nofun
    split
    · exact .refl _
    next i e _ =>
      split
      · exact .refl _
      · have hloop := (fileWrite_under hb d.gpio.hExport .exportFile (decLine e.hw) d).trans
          (exportLoop_under hb i d.cfg.exportAttempts _)
        dsimp only
        split
        · exact hloop
        · exact hloop.trans (fileWrite_under hb _ _ _ _)

/-- Unexporting acts on files, and under the filesystem backend only (rule R129). -/
theorem gpioUnexportPin_exclusive (p : Byte) (d : Dev) : Dev.Exclusive d (gpioUnexportPin p d) := by
  refine ⟨(gpioUnexportPin_pinsOnly p d).backend, ?_⟩
  unfold gpioUnexportPin
  split
  · exact .refl _
  next hb =>
    have hb : d.gpio.backend ≠ .register := by rw [not_not.mp hb]; nofun
    split
    · exact .refl _
    · split
      · exact (closeHandles_under hb _ _ _ _ d).trans (fileWrite_under hb _ _ _ _)
      · exact .refl _

theorem gpioUnexportAll_exclusive (d : Dev) : Dev.Exclusive d (gpioUnexportAll d) := by
  unfold gpioUnexportAll
  induction List.range 64 generalizing d with
  | nil => exact .refl d
  | cons n ns ih => exact (gpioUnexportPin_exclusive _ d).trans (ih _)

/-! ## The bus -/

theorem owPullUp_exclusive (d : Dev) : Dev.Exclusive d (owPullUp d) := by
  unfold owPullUp
  split
  · exact gpioSetMode_exclusive _ _ d
  · exact gpioSetMode_exclusive _ _ d
  · exact gpioSetValue_exclusive _ _ d

theorem owPullDown_exclusive (d : Dev) : Dev.Exclusive d (owPullDown d) := by
  unfold owPullDown
  split
  · exact (gpioSetMode_exclusive _ _ d).trans (gpioSetValue_exclusive _ _ _)
  · exact (gpioSetMode_exclusive _ _ d).trans (gpioSetValue_exclusive _ _ _)
  · exact gpioSetValue_exclusive _ _ d

theorem exclusive_closed : LineClosed Dev.Exclusive where
  refl := .refl
  trans := .trans
  wait n d := ⟨by rw [(waitNs_envOnly n d).gpio], waitNs_under n d⟩
  pullUp := owPullUp_exclusive
  pullDown := owPullDown_exclusive
  sample d := gpioGetValue_exclusive _ d

theorem owOpenSimple_exclusive (c : BusCfg) (p : Byte) (slots : Vector Word 10) (d : Dev) :
    Dev.Exclusive d (owOpenSimple c p slots d).2.2 :=
  (((Dev.Exclusive.setBus _ d).trans (gpioExportPin_exclusive p _)).trans (owPullUp_exclusive _)).trans (.setBus _ _)

theorem owOpenBuffered_exclusive (p q : Byte) (d : Dev) : Dev.Exclusive d (owOpenBuffered p q d).2.2 :=
  (((((Dev.Exclusive.setBus _ d).trans (gpioExportPin_exclusive p _)).trans (gpioExportPin_exclusive q _)).trans
    ((gpioSetMode_exclusive p .input _).trans (gpioSetMode_exclusive q .output _))).trans
      (owPullUp_exclusive _)).trans (.setBus _ _)

theorem unexportOut_exclusive (d : Dev) : Dev.Exclusive d (unexportOut d) := by
  unfold unexportOut
  split
  · exact gpioUnexportPin_exclusive _ d
  · exact .refl d

theorem owClose_exclusive (d : Dev) : Dev.Exclusive d (owClose d) :=
  ((gpioUnexportPin_exclusive _ d).trans (unexportOut_exclusive _)).trans (.setBus _ _)

/-! ## Every command -/

theorem crcVerdict_exclusive (d : Dev) : Dev.Exclusive d (crcVerdict d).2.2 := by
  unfold crcVerdict
  split
  · exact .refl d
  · exact .refl d

/-- `initialize` acts only where no backend is in use, and on the two global files (rule R124). -/
theorem gpioInitialize_under (d : Dev) : Env.ReachesUnder d.gpio.backend d.env (gpioInitialize d).2.2.env := by
  unfold gpioInitialize
  split
  · exact .refl _
  next hb =>
    have hb : d.gpio.backend ≠ .register := by rw [not_not.mp hb]; nofun
    have hdraw := Env.ReachesUnder.of_does (b := d.gpio.backend) (drawRegAccess_does d) nofun
    dsimp only
    split
    · exact hdraw
    · exact (hdraw.trans (fileOpen_under hb .exportFile _)).trans (fileOpen_under hb .unexportFile _)

/-- `finalize` closes files under the filesystem backend, and does nothing outside under the other two (rule R125). -/
theorem gpioFinalize_under (d : Dev) : Env.ReachesUnder d.gpio.backend d.env (gpioFinalize d).env := by
  unfold gpioFinalize
  split
  · exact .refl _
  next hb =>
    have hb : d.gpio.backend ≠ .register := by rw [hb]; nofun
    have hall := (gpioUnexportAll_exclusive d).under
    generalize gpioUnexportAll d = d1 at hall ⊢
    exact hall.trans (closeGlobals_under hb d1)
  · exact .refl _

/-- Every command acts as the backend it finds in use allows. -/
theorem endingOf_under (i : Instr) (l0 l1 l2 : Word) (d : Dev) :
    Env.ReachesUnder d.gpio.backend d.env (endingOf i l0 l1 l2 d).dev.env := by
  have bound {want : Bool} {r : Ending} (h : Dev.Exclusive d r.dev) := (exclusive_closed.ifBound (want := want) h).under
  cases i with
  | initGpio => exact gpioInitialize_under d
  | finalize => exact gpioFinalize_under d
  | exportPin p => exact (gpioExportPin_exclusive p d).under
  | unexportPin p => exact (gpioUnexportPin_exclusive p d).under
  | unexportAll => exact (gpioUnexportAll_exclusive d).under
  | setMode p m => exact (gpioSetMode_exclusive p m d).under
  | setPullDisable p => exact (gpioSetPullState_exclusive p .disable d).under
  | setPullUp p => exact (gpioSetPullState_exclusive p .up d).under
  | setPullDown p => exact (gpioSetPullState_exclusive p .down d).under
  | setValue p b => exact (gpioSetValue_exclusive p b d).under
  | getValue p => exact (gpioGetValue_exclusive p d).under
  | delay f => exact clockDelay_under f l0 l1 l2 d
  | clockRead => exact now_under d
  | busOpenLegacy p => exact bound (owOpenSimple_exclusive .legacy p _ d)
  | busOpenTunable p => exact bound (owOpenSimple_exclusive .tunable p _ d)
  | busOpenBuffered p q => exact bound (owOpenBuffered_exclusive p q d)
  | busClose => exact bound (owClose_exclusive d)
  | setSlot n => exact bound (.setBus _ d)
  | getSlot n => exact bound (.refl d)
  | pullUp => exact bound (owPullUp_exclusive d)
  | pullDown => exact bound (owPullDown_exclusive d)
  | reset => exact bound (exclusive_closed.owReset d)
  | writeBit b => exact bound (exclusive_closed.writeSlot b d)
  | writeByte v => exact bound (exclusive_closed.writeSlots v d)
  | readBit => exact bound (exclusive_closed.readSlot d)
  | readByte => exact bound (exclusive_closed.readSlots d)
  | crcReset => exact .refl _
  | crcUpdate v => exact .refl _
  | crcValid => exact (crcVerdict_exclusive d).under

/-- A command acts as the backend it finds in use allows, the record of its end included. -/
theorem exec_under {i : Instr} {s t : State} (h : exec i s = .next t) :
    Env.ReachesUnder s.dev.gpio.backend s.dev.env t.dev.env := by
  rw [exec_eq_finishAs] at h
  cases h
  exact (endingOf_under i _ _ _ s.dev).trans (.perform _ (result_fits _ _ _))

/-- Settles O21: the actions of a command fit the backend, so what the other backend uses stays. -/
theorem backendsAreExclusive : Obligations.BackendsAreExclusive := by
  intro i s t h
  have hu := exec_under h
  exact ⟨fun hb => ⟨fun a ha => (hu.fits a ha).1 hb, hu.settings hb⟩,
    fun hb => ⟨fun a ha => (hu.fits a ha).2 hb, fun x => by rw [hu.page hb]⟩⟩

end Sys2Proof.Machine
end

section
/-! PROOFS. Encoding and decoding are inverse to each other (rules R90 to R95): decoding the word of a well-formed command
gives the command back, and a word that decodes is the word of its command. -/

namespace Sys2Proof

/-! ## The small operand codes, read back -/

/-- A byte with no bit above bit 0 is the code of its bit 0 (rule R90). -/
theorem bitV_bit0 {v : Byte} (h : v >>> 1 = 0) : bitV (bit0 v) = v := by
  revert v; decide

/-- A byte with no bit above bit 0 is the code of the mode it names (rule R93). -/
theorem modeV_modeOf {v : Byte} (h : v >>> 1 = 0) : modeV (modeOf v) = v := by
  revert v; decide

/-- A byte with no bit above bit 3 is the code of the slot number in it (rule R90). -/
theorem slotQ_of_high_zero {q : Byte} (h : q.extractLsb' 4 4 = 0) : slotQ (q.extractLsb' 0 4) = q := by
  revert q; decide

/-! ## From the command to the word and back -/

/-- The slot number of an assembled `setSlot` or `getSlot` is read where it is legal (rules R91, R103). -/
theorem decodeSlot_slotQ {n : BitVec 4} (h : slotOk n = true) (mk : BitVec 4 → Instr) :
    decodeSlot 0 (slotQ n) 0 mk = .ok (mk n) := by
  simp [decodeSlot, h]

/-- Settles O3: the fields of an assembled word are the ones it was assembled from, and each operand code is read back. -/
theorem decodeOfEncode : Obligations.DecodeOfEncode := by
  intro i hw
  cases i with
  | initGpio | finalize | unexportAll | clockRead | busClose | pullUp | pullDown | reset | readBit | readByte
  | crcReset | crcValid => exact decode_formatC _ _ _ _
  | exportPin p | unexportPin p | setPullDisable p | setPullUp p | setPullDown p | getValue p | busOpenLegacy p
  | busOpenTunable p => exact decode_formatC _ _ _ _
  | busOpenBuffered p q => exact decode_formatC _ _ _ _
  | writeByte v | crcUpdate v => exact decode_formatC _ _ _ _
  | setMode p m => simp [encode, decode_formatC, decodeFields, allowIf]
  | setValue p b => simp [encode, decode_formatC, decodeFields, allowIf]
  | delay f => simp [encode, decode_formatC, decodeFields, allowIf]
  | writeBit b => simp [encode, decode_formatC, decodeFields, allowIf]
  | setSlot n => exact (decode_formatC _ _ _ _).trans (decodeSlot_slotQ hw .setSlot)
  | getSlot n => exact (decode_formatC _ _ _ _).trans (decodeSlot_slotQ hw .getSlot)

/-! ## From the word to the command and back -/

/-- The command read from the fields `o p q v` is `j`: `j` is well-formed and its word has these fields. -/
def Instr.HasFields (j : Instr) (o p q v : Byte) : Prop := encode j = formatC o p q v ∧ j.wf = true

section Rows
variable {o p q v : Byte} {k : Nat} {i j : Instr}

/-- A row whose only condition is on the fields, with the opcode `k`. -/
theorem allowIf_hasFields {c : Bool} (h : allowIf c i = .ok j) (ho : o.toNat = k) (hw : i.wf = true)
    (he : c = true → encode i = formatC (BitVec.ofNat 8 k) p q v) : j.HasFields o p q v := by
  subst ho
  rw [BitVec.ofNat_toNat, BitVec.setWidth_eq] at he
  unfold allowIf at h
  split at h
  next hc => cases h; exact ⟨he hc, hw⟩
  next => cases h

theorem noFields_hasFields (h : noFields p q v i = .ok j) (ho : o.toNat = k) (hw : i.wf = true)
    (he : encode i = formatC (BitVec.ofNat 8 k) 0 0 0) : j.HasFields o p q v :=
  allowIf_hasFields h ho hw fun hc => by
    simp only [Bool.and_eq_true, beq_iff_eq] at hc
    rw [he, hc.1.1, hc.1.2, hc.2]

theorem onlyP_hasFields (h : onlyP q v i = .ok j) (ho : o.toNat = k) (hw : i.wf = true)
    (he : encode i = formatC (BitVec.ofNat 8 k) p 0 0) : j.HasFields o p q v :=
  allowIf_hasFields h ho hw fun hc => by
    simp only [Bool.and_eq_true, beq_iff_eq] at hc
    rw [he, hc.1, hc.2]

theorem onlyV_hasFields (h : allowIf (p == 0 && q == 0) i = .ok j) (ho : o.toNat = k) (hw : i.wf = true)
    (he : encode i = formatC (BitVec.ofNat 8 k) 0 0 v) : j.HasFields o p q v :=
  allowIf_hasFields h ho hw fun hc => by
    simp only [Bool.and_eq_true, beq_iff_eq] at hc
    rw [he, hc.1, hc.2]

/-- A row with the field `P` and one bit of `V`, whose code is `x`. -/
theorem pAndBit_hasFields {x : Byte} (h : allowIf (q == 0 && v >>> 1 == 0) i = .ok j) (ho : o.toNat = k)
    (hw : i.wf = true) (he : encode i = formatC (BitVec.ofNat 8 k) p 0 x) (hx : v >>> 1 = 0 → x = v) :
    j.HasFields o p q v :=
  allowIf_hasFields h ho hw fun hc => by
    simp only [Bool.and_eq_true, beq_iff_eq] at hc
    rw [he, hc.1, hx hc.2]

/-- A row with one bit of `V`. -/
theorem onlyBit_hasFields (h : allowIf (p == 0 && q == 0 && v >>> 1 == 0) i = .ok j) (ho : o.toNat = k)
    (hw : i.wf = true) (he : encode i = formatC (BitVec.ofNat 8 k) 0 0 (bitV (bit0 v))) : j.HasFields o p q v :=
  allowIf_hasFields h ho hw fun hc => by
    simp only [Bool.and_eq_true, beq_iff_eq] at hc
    rw [he, hc.1.1, hc.1.2, bitV_bit0 hc.2]

/-- `setPullState`: the row of each legal pull code (rules R93, R103). -/
theorem decodePull_hasFields (h : decodePull p v = .ok j) : j.HasFields 0x16 p 0 v := by
  unfold decodePull at h
  split at h
  next hv => cases h; exact ⟨congrArg (formatC 0x16 p 0) (BitVec.eq_of_toNat_eq (x := 0) hv.symm), rfl⟩
  next hv => cases h; exact ⟨congrArg (formatC 0x16 p 0) (BitVec.eq_of_toNat_eq (x := 1) hv.symm), rfl⟩
  next hv => cases h; exact ⟨congrArg (formatC 0x16 p 0) (BitVec.eq_of_toNat_eq (x := 2) hv.symm), rfl⟩
  next => cases h

/-- `setSlot` and `getSlot`: a legal slot number with every other bit zero (rules R91, R103). -/
theorem decodeSlot_hasFields {mk : BitVec 4 → Instr} (h : decodeSlot p q v mk = .ok j)
    (hmk : ∀ n, slotOk n = true → (mk n).HasFields o 0 (slotQ n) 0) : j.HasFields o p q v := by
  unfold decodeSlot at h
  split at h
  next hc =>
    simp only [Bool.and_eq_true, beq_iff_eq] at hc
    obtain ⟨⟨hp, hv⟩, hq⟩ := hc
    split at h
    next hn =>
      cases h
      have hf := hmk _ hn
      rw [slotQ_of_high_zero hq] at hf
      rwa [hp, hv]
    next => cases h
  next => cases h

end Rows

/-- A command is decoded from the fields of its own word only, one row of the opcode map after the other (rule R95). -/
theorem decodeFields_hasFields {o p q v : Byte} {j : Instr} (h : decodeFields o p q v = .ok j) :
    j.HasFields o p q v := by
  unfold decodeFields at h
  split at h
  next ho => exact noFields_hasFields h ho rfl rfl
  next ho => exact noFields_hasFields h ho rfl rfl
  next ho => exact onlyP_hasFields h ho rfl rfl
  next ho => exact onlyP_hasFields h ho rfl rfl
  next ho => exact noFields_hasFields h ho rfl rfl
  next ho => exact pAndBit_hasFields h ho rfl rfl modeV_modeOf
  next ho =>
    split at h
    next hq =>
      rw [BitVec.eq_of_toNat_eq (y := 0x16) ho, eq_of_beq hq]
      exact decodePull_hasFields h
    next => cases h
  next ho => exact pAndBit_hasFields h ho rfl rfl bitV_bit0
  next ho => exact onlyP_hasFields h ho rfl rfl
  next ho => exact onlyBit_hasFields h ho rfl rfl
  next ho => exact noFields_hasFields h ho rfl rfl
  next ho => exact onlyP_hasFields h ho rfl rfl
  next ho => exact onlyP_hasFields h ho rfl rfl
  next ho => exact allowIf_hasFields h ho rfl fun hv => congrArg (formatC 0x32 p q) (eq_of_beq hv).symm
  next ho => exact noFields_hasFields h ho rfl rfl
  next ho =>
    rw [BitVec.eq_of_toNat_eq (y := 0x34) ho]
    exact decodeSlot_hasFields h fun n hn => ⟨rfl, hn⟩
  next ho =>
    rw [BitVec.eq_of_toNat_eq (y := 0x35) ho]
    exact decodeSlot_hasFields h fun n hn => ⟨rfl, hn⟩
  next ho => exact noFields_hasFields h ho rfl rfl
  next ho => exact noFields_hasFields h ho rfl rfl
  next ho => exact noFields_hasFields h ho rfl rfl
  next ho => exact onlyBit_hasFields h ho rfl rfl
  next ho => exact onlyV_hasFields h ho rfl rfl
  next ho => exact noFields_hasFields h ho rfl rfl
  next ho => exact noFields_hasFields h ho rfl rfl
  next ho => exact noFields_hasFields h ho rfl rfl
  next ho => exact onlyV_hasFields h ho rfl rfl
  next ho => exact noFields_hasFields h ho rfl rfl
  next => cases h

/-- Settles O4: the command has the word's fields, and a word is its four fields. -/
theorem encodeOfDecode : Obligations.EncodeOfDecode := by
  intro w i h
  obtain ⟨he, hw⟩ := decodeFields_hasFields h
  exact ⟨he.trans (formatC_fields w), hw⟩

end Sys2Proof
end

section
/-! PROOFS. How commands and undecodable words end (rules R105, R123, R294, R341). -/

namespace Sys2Proof.Machine

open Sys2Proof

/-- A word that decodes to no command, issued to an idle block, is accepted and refused (rule R105). -/
theorem issue_undecodable {w : Word} {s : State} {e : Reject} (hs : s.seq = none) (hd : decode w = .error e) :
    issue w s = .next ((s.accept w).refuse .illegalCommand) := by
  unfold issue
  rw [hs]
  dsimp only
  rw [hd]

/-- The history of acceptance is one write of `STATUS` (rule R41). -/
theorem accept_actions (w : Word) (s : State) :
    s.dev.actionsSince (s.accept w).dev = [.status (packStatus s.err s.dev.bus s.dev.gpio.backend true)] :=
  (Dev.Does.perform (Nat.le_refl _)).actionsSince

/-- A command refused as soon as it is accepted has no effect but its end: the two records it leaves are the block's own
(rules R41, R105). -/
theorem accept_refuse_noEffect (w : Word) (e : ErrCode) (s : State) :
    s.NoEffect ((s.accept w).refuse e) e s.r0 s.r1 where
  ends := finish_ends (s := s) (d := (s.accept w).dev) (accept_reaches w s) rfl e none none
  units := ⟨rfl, rfl, rfl⟩
  pins := ⟨fun _ => rfl, rfl, rfl⟩
  clk := rfl
  draws := rfl
  own := by
    have hacts := finish_actions (accept_reaches w s) e none none
    rw [accept_actions] at hacts
    intro a ha
    rcases List.mem_pair.mp (hacts ▸ ha) with rfl | rfl <;> rfl

/-- Settles O8: the step issues the word, which is accepted and refused at once. -/
theorem undecodableWordEndsAtOnce : Obligations.UndecodableWordEndsAtOnce := by
  intro s w e rest h hs hd
  refine ⟨_, ?_, accept_refuse_noEffect w .illegalCommand { s with agenda := rest }, rfl⟩
  rw [step_eq_turn, h]
  exact issue_undecodable (s := { s with agenda := rest }) hs hd

/-- Settles O15: every command ends by `State.finish`, with an outcome and results as `exec_finish` says. -/
theorem everyCommandEnds : Obligations.EveryCommandEnds := by
  intro i s
  obtain ⟨t, d, e, x, y, ht, hend, ⟨henv, hcfg⟩, hwritten, hr0, hr1⟩ := exec_finish i s
  subst hend
  refine ⟨_, ht, finish_ends henv hcfg e x y, hwritten, fun hi => ?_, fun hi => ?_⟩
  · rw [finish_r0, hr0 hi, Option.getD_none]
  · rw [finish_r1, hr1 hi, Option.getD_none]

end Sys2Proof.Machine
end

section
/-! PROOFS. The decoder is the opcode table (rules R91, R95, R102, R103). A word that a row covers is the word of a
well-formed command with the row's mnemonic, and the word of every well-formed command is covered by its row. -/

namespace Sys2Proof

/-! ## A row, field by field -/

@[simp] theorem opcField_and (a b : Word) : opcField (a &&& b) = opcField a &&& opcField b := BitVec.extractLsb'_and
@[simp] theorem pField_and (a b : Word) : pField (a &&& b) = pField a &&& pField b := BitVec.extractLsb'_and
@[simp] theorem qField_and (a b : Word) : qField (a &&& b) = qField a &&& qField b := BitVec.extractLsb'_and
@[simp] theorem vField_and (a b : Word) : vField (a &&& b) = vField a &&& vField b := BitVec.extractLsb'_and

/-- The masked word of a covered word is the value of the row (rule R91). -/
theorem OpRow.covers_value {r : OpRow} {w : Word} (h : r.covers w = true) : w &&& r.mask = r.value := by
  simp only [OpRow.covers, Bool.and_eq_true, beq_iff_eq] at h
  exact h.1

/-- The slot number of a word covered by a row with the constraint is legal (rule R91). -/
theorem OpRow.covers_slotOk {r : OpRow} {w : Word} (h : r.covers w = true) (hs : r.slotBound = true) :
    slotOk ((qField w).extractLsb' 0 4) = true := by
  have hq : (qField w).extractLsb' 0 4 = w.extractLsb' 8 4 := by
    apply BitVec.eq_of_getLsbD_eq
    intro i hi
    have h8 : i < 8 := by omega
    simp [qField, hi, h8]
  simp only [OpRow.covers, Bool.and_eq_true, hs, Bool.not_true, Bool.false_or] at h
  rw [hq]
  exact h.2

/-- A field that the mask takes whole has the value of the row. -/
theorem field_fixed {x y : Byte} (h : x &&& 0xFF = y) : y = x := by
  rw [← h]; exact BitVec.and_allOnes

/-- A field that the mask leaves out can have any value. -/
theorem field_free {x : Byte} (_ : x &&& 0 = 0) : x = x := rfl

/-- A field of which the mask takes all bits but bit 0, and these are zero. -/
theorem field_bit {x : Byte} (h : x &&& 0xFE = 0) : x >>> 1 = 0 := by
  revert x; decide

/-- A field of which the mask takes the upper four bits, and these are zero. -/
theorem field_slot {x : Byte} (h : x &&& 0xF0 = 0) : slotQ (x.extractLsb' 0 4) = x :=
  slotQ_of_high_zero (by revert x; decide)

/-- A covered word is put together from the opcode of the row and, for each other field, what the mask and the value say
of it. -/
theorem OpRow.word_of_covers {r : OpRow} {w : Word} {o p q v mp mq mv vp vq vv : Byte} (h : r.covers w = true)
    (hp : pField w &&& mp = vp → p = pField w) (hq : qField w &&& mq = vq → q = qField w)
    (hv : vField w &&& mv = vv → v = vField w) (hmask : r.mask = formatC 0xFF mp mq mv := by decide)
    (hvalue : r.value = formatC o vp vq vv := by decide) : formatC o p q v = w := by
  have hval := OpRow.covers_value h
  rw [hmask, hvalue] at hval
  have ho : o = opcField w := field_fixed (by simpa using congrArg opcField hval)
  rw [ho, hp (by simpa using congrArg pField hval), hq (by simpa using congrArg qField hval),
    hv (by simpa using congrArg vField hval), formatC_fields]

/-! ## Every covered word is the word of a command of its row -/

/-- The words that a row covers are words of well-formed commands with the mnemonic of the row. -/
def OpRow.Reads (r : OpRow) : Prop :=
  ∀ w : Word, r.covers w = true → ∃ i : Instr, i.wf = true ∧ i.mnemonic = r.mnemonic ∧ encode i = w

/-- A row with no field but the opcode. -/
theorem OpRow.reads_fixed {r : OpRow} (i : Instr) (hm : r.mask = 0xFFFFFFFF) (hw : i.wf = true)
    (hn : i.mnemonic = r.mnemonic) (he : encode i = r.value) : r.Reads := by
  intro w h
  refine ⟨i, hw, hn, ?_⟩
  rw [he, ← OpRow.covers_value h, hm]
  exact BitVec.and_allOnes

theorem gpioRows_reads : gpioRows.Forall OpRow.Reads :=
  ⟨OpRow.reads_fixed .initGpio rfl rfl rfl rfl,
    OpRow.reads_fixed .finalize rfl rfl rfl rfl,
    fun w h => ⟨.exportPin (pField w), rfl, rfl, OpRow.word_of_covers h field_free field_fixed field_fixed⟩,
    fun w h => ⟨.unexportPin (pField w), rfl, rfl, OpRow.word_of_covers h field_free field_fixed field_fixed⟩,
    OpRow.reads_fixed .unexportAll rfl rfl rfl rfl,
    fun w h => ⟨.setMode (pField w) (modeOf (vField w)), rfl, rfl,
      OpRow.word_of_covers h field_free field_fixed (modeV_modeOf ∘ field_bit)⟩,
    fun w h => ⟨.setPullDisable (pField w), rfl, rfl, OpRow.word_of_covers h field_free field_fixed field_fixed⟩,
    fun w h => ⟨.setPullUp (pField w), rfl, rfl, OpRow.word_of_covers h field_free field_fixed field_fixed⟩,
    fun w h => ⟨.setPullDown (pField w), rfl, rfl, OpRow.word_of_covers h field_free field_fixed field_fixed⟩,
    fun w h => ⟨.setValue (pField w) (bit0 (vField w)), rfl, rfl,
      OpRow.word_of_covers h field_free field_fixed (bitV_bit0 ∘ field_bit)⟩,
    fun w h => ⟨.getValue (pField w), rfl, rfl, OpRow.word_of_covers h field_free field_fixed field_fixed⟩⟩

theorem clockRows_reads : clockRows.Forall OpRow.Reads :=
  ⟨fun w h => ⟨.delay (bit0 (vField w)), rfl, rfl,
      OpRow.word_of_covers h field_fixed field_fixed (bitV_bit0 ∘ field_bit)⟩,
    OpRow.reads_fixed .clockRead rfl rfl rfl rfl⟩

theorem busRows_reads : busRows.Forall OpRow.Reads :=
  ⟨fun w h => ⟨.busOpenLegacy (pField w), rfl, rfl, OpRow.word_of_covers h field_free field_fixed field_fixed⟩,
    fun w h => ⟨.busOpenTunable (pField w), rfl, rfl, OpRow.word_of_covers h field_free field_fixed field_fixed⟩,
    fun w h => ⟨.busOpenBuffered (pField w) (qField w), rfl, rfl,
      OpRow.word_of_covers h field_free field_free field_fixed⟩,
    OpRow.reads_fixed .busClose rfl rfl rfl rfl,
    fun w h => ⟨.setSlot ((qField w).extractLsb' 0 4), OpRow.covers_slotOk h rfl, rfl,
      OpRow.word_of_covers h field_fixed field_slot field_fixed⟩,
    fun w h => ⟨.getSlot ((qField w).extractLsb' 0 4), OpRow.covers_slotOk h rfl, rfl,
      OpRow.word_of_covers h field_fixed field_slot field_fixed⟩,
    OpRow.reads_fixed .pullUp rfl rfl rfl rfl,
    OpRow.reads_fixed .pullDown rfl rfl rfl rfl,
    OpRow.reads_fixed .reset rfl rfl rfl rfl,
    fun w h => ⟨.writeBit (bit0 (vField w)), rfl, rfl,
      OpRow.word_of_covers h field_fixed field_fixed (bitV_bit0 ∘ field_bit)⟩,
    fun w h => ⟨.writeByte (vField w), rfl, rfl, OpRow.word_of_covers h field_fixed field_fixed field_free⟩,
    OpRow.reads_fixed .readBit rfl rfl rfl rfl,
    OpRow.reads_fixed .readByte rfl rfl rfl rfl⟩

theorem crcRows_reads : crcRows.Forall OpRow.Reads :=
  ⟨OpRow.reads_fixed .crcReset rfl rfl rfl rfl,
    fun w h => ⟨.crcUpdate (vField w), rfl, rfl, OpRow.word_of_covers h field_fixed field_fixed field_free⟩,
    OpRow.reads_fixed .crcValid rfl rfl rfl rfl⟩

theorem opTable_reads {r : OpRow} (hr : r ∈ opTable) : r.Reads := by
  simp only [opTable, List.mem_append] at hr
  rcases hr with ((hr | hr) | hr) | hr
  · exact List.forall_iff_forall_mem.mp gpioRows_reads r hr
  · exact List.forall_iff_forall_mem.mp clockRows_reads r hr
  · exact List.forall_iff_forall_mem.mp busRows_reads r hr
  · exact List.forall_iff_forall_mem.mp crcRows_reads r hr

/-! ## The row of a command -/

/-- `Laws.EncodedWord.Statement` of every command. -/
theorem encodedWord (i : Instr) : Laws.EncodedWord.Statement i := by
  cases i with
  | initGpio => exact Laws.EncodedWord.initGpio
  | finalize => exact Laws.EncodedWord.finalize
  | exportPin p => exact Laws.EncodedWord.exportPin p
  | unexportPin p => exact Laws.EncodedWord.unexportPin p
  | unexportAll => exact Laws.EncodedWord.unexportAll
  | setMode p m => exact Laws.EncodedWord.setMode p m
  | setPullDisable p => exact Laws.EncodedWord.setPullDisable p
  | setPullUp p => exact Laws.EncodedWord.setPullUp p
  | setPullDown p => exact Laws.EncodedWord.setPullDown p
  | setValue p b => exact Laws.EncodedWord.setValue p b
  | getValue p => exact Laws.EncodedWord.getValue p
  | delay f => exact Laws.EncodedWord.delay f
  | clockRead => exact Laws.EncodedWord.clockRead
  | busOpenLegacy p => exact Laws.EncodedWord.busOpenLegacy p
  | busOpenTunable p => exact Laws.EncodedWord.busOpenTunable p
  | busOpenBuffered p q => exact Laws.EncodedWord.busOpenBuffered p q
  | busClose => exact Laws.EncodedWord.busClose
  | setSlot n => exact Laws.EncodedWord.setSlot n
  | getSlot n => exact Laws.EncodedWord.getSlot n
  | pullUp => exact Laws.EncodedWord.pullUp
  | pullDown => exact Laws.EncodedWord.pullDown
  | reset => exact Laws.EncodedWord.reset
  | writeBit b => exact Laws.EncodedWord.writeBit b
  | writeByte v => exact Laws.EncodedWord.writeByte v
  | readBit => exact Laws.EncodedWord.readBit
  | readByte => exact Laws.EncodedWord.readByte
  | crcReset => exact Laws.EncodedWord.crcReset
  | crcUpdate v => exact Laws.EncodedWord.crcUpdate v
  | crcValid => exact Laws.EncodedWord.crcValid

/-- No two rows have the same mnemonic (rule R95). -/
theorem row_eq_of_mnemonic {r r' : OpRow} (hr : r ∈ opTable) (hr' : r' ∈ opTable) (h : r.mnemonic = r'.mnemonic) :
    r = r' :=
  List.inj_on_of_nodup_map (f := OpRow.mnemonic) (by decide) hr hr' h

/-- A word that decodes is covered by the row with the mnemonic of its command (rules R91, R95). -/
theorem exists_row_of_decode {w : Word} {i : Instr} (h : decode w = .ok i) :
    ∃ r ∈ opTable, r.mnemonic = i.mnemonic ∧ r.covers w = true := by
  obtain ⟨rfl, hw⟩ := encodeOfDecode w i h
  exact encodedWord i hw

/-- A word is the command of a row exactly when the row covers it (rule R91). -/
theorem covers_iff_decode {r : OpRow} (hr : r ∈ opTable) (w : Word) :
    r.covers w = true ↔ ∃ i, decode w = .ok i ∧ i.mnemonic = r.mnemonic := by
  constructor
  · intro h
    obtain ⟨i, hw, hn, rfl⟩ := opTable_reads hr w h
    exact ⟨i, decodeOfEncode i hw, hn⟩
  · rintro ⟨i, hd, hn⟩
    obtain ⟨r', hr', hn', hc⟩ := exists_row_of_decode hd
    rwa [row_eq_of_mnemonic hr hr' (hn.symm.trans hn'.symm)]

/-- No two rows cover the same word (rule R91). -/
theorem row_unique {r r' : OpRow} (hr : r ∈ opTable) (hr' : r' ∈ opTable) {w : Word} (h : r.covers w = true)
    (h' : r'.covers w = true) : r = r' := by
  obtain ⟨i, hd, hn⟩ := (covers_iff_decode hr w).mp h
  obtain ⟨i', hd', hn'⟩ := (covers_iff_decode hr' w).mp h'
  cases hd.symm.trans hd'
  exact row_eq_of_mnemonic hr hr' (hn.symm.trans hn')

/-- A word that no row covers is no command (rule R91). -/
theorem decode_error_of_uncovered {w : Word} (h : ∀ r ∈ opTable, r.covers w = false) :
    ∃ e, decode w = .error e := by
  cases hd : decode w with
  | error e => exact ⟨e, rfl⟩
  | ok i =>
    obtain ⟨r, hr, -, hc⟩ := exists_row_of_decode hd
    rw [h r hr] at hc
    cases hc

/-- Settles O5: `covers_iff_decode` for each row; the mnemonic of the one command of a word names its row. -/
theorem decoderIsTheTable : Obligations.DecoderIsTheTable := by
  refine ⟨fun r hr w => covers_iff_decode hr w, fun r hr r' hr' w => row_unique hr hr',
    fun w => decode_error_of_uncovered, fun s w hs h => ?_⟩
  obtain ⟨e, hd⟩ := decode_error_of_uncovered h
  exact Machine.issue_undecodable hs hd

/-! ## Reserved opcodes and illegal operands -/

/-- The opcodes that rule R102 lists as reserved. -/
def ReservedOpcode (o : Byte) : Prop :=
  o.toNat ≤ 0x0F ∨ (0x19 ≤ o.toNat ∧ o.toNat ≤ 0x1F) ∨ (0x22 ≤ o.toNat ∧ o.toNat ≤ 0x2F) ∨
    (0x3D ≤ o.toNat ∧ o.toNat ≤ 0x3F) ∨ 0x43 ≤ o.toNat

/-- The opcodes of the table, row by row (rule R95). -/
theorem opTable_opcodes : opTable.map (fun r => opcField r.value) =
    [0x10, 0x11, 0x12, 0x13, 0x14, 0x15, 0x16, 0x16, 0x16, 0x17, 0x18, 0x20, 0x21, 0x30, 0x31, 0x32, 0x33, 0x34, 0x35,
      0x36, 0x37, 0x38, 0x39, 0x3A, 0x3B, 0x3C, 0x40, 0x41, 0x42] := by decide

/-- The reserved opcodes are those of no row (rule R102). -/
theorem reservedOpcode_iff (o : Byte) : ReservedOpcode o ↔ ∀ r ∈ opTable, opcField r.value ≠ o := by
  have hmem : (∀ r ∈ opTable, opcField r.value ≠ o) ↔ o ∉ opTable.map (fun r => opcField r.value) := by
    simp only [List.mem_map, not_exists, not_and, ne_eq]
  rw [hmem, opTable_opcodes]
  simp only [ReservedOpcode, List.mem_cons, List.not_mem_nil, BitVec.toNat_eq, BitVec.ofNat_eq_ofNat,
    BitVec.toNat_ofNat, not_or, not_false_eq_true, and_true]
  omega

/-- A reserved opcode is in no arm of the opcode map (rule R102). -/
theorem decodeFields_reserved {o : Byte} (h : ReservedOpcode o) (p q v : Byte) :
    decodeFields o p q v = .error .reservedOpcode := by
  unfold ReservedOpcode at h
  unfold decodeFields
  split
  case h_28 => rfl
  all_goals omega

/-- A pull code from 3 is no command, whatever the other fields hold (rule R103). -/
theorem decode_illegal_pull (p q : Byte) {v : Byte} (h : 3 ≤ v.toNat) : ∃ e, decode (formatC 0x16 p q v) = .error e := by
  rw [decode_formatC]
  show ∃ e, (if q == 0 then decodePull p v else .error .mustBeZero) = .error e
  split
  · unfold decodePull
    split
    case h_4 => exact ⟨_, rfl⟩
    all_goals omega
  · exact ⟨_, rfl⟩

/-- A slot number from 10 is no command, whatever the other fields hold (rule R103). -/
theorem decodeSlot_illegal (p v : Byte) {q : Byte} (h : 10 ≤ (q.extractLsb' 0 4).toNat) (mk : BitVec 4 → Instr) :
    ∃ e, decodeSlot p q v mk = .error e := by
  have hs : slotOk (q.extractLsb' 0 4) = false := decide_eq_false (by omega)
  unfold decodeSlot
  rw [hs]
  split
  · exact ⟨_, rfl⟩
  · exact ⟨_, rfl⟩

/-- Settles O6: `reservedOpcode_iff` and `decodeFields_reserved` for the opcodes, then the illegal operands, then the pin
operands, each word being that of a well-formed command. -/
theorem reservedAndIllegalWords : Obligations.ReservedAndIllegalWords := by
  refine ⟨fun w => reservedOpcode_iff (opcField w), fun s w hs h => ?_, by decide, by decide,
    fun p q v => decode_illegal_pull p q, fun o p q v ho h => ?_, fun p q => ?_⟩
  · have hd : decode w = .error .reservedOpcode := decodeFields_reserved ((reservedOpcode_iff _).mpr h) _ _ _
    exact ⟨hd, Machine.issue_undecodable hs hd⟩
  · rw [decode_formatC]
    rcases ho with rfl | rfl
    · exact decodeSlot_illegal p v h .setSlot
    · exact decodeSlot_illegal p v h .getSlot
  · exact ⟨decodeOfEncode (.exportPin p) rfl, decodeOfEncode (.unexportPin p) rfl,
      decodeOfEncode (.setMode p .output) rfl, decodeOfEncode (.setPullUp p) rfl, decodeOfEncode (.setValue p false) rfl,
      decodeOfEncode (.getValue p) rfl, decodeOfEncode (.busOpenLegacy p) rfl, decodeOfEncode (.busOpenTunable p) rfl,
      decodeOfEncode (.busOpenBuffered p q) rfl⟩

end Sys2Proof
end

section
/-! PROOFS. Which pins are usable, and the commands that do nothing (rules R121, R122, R126, R129, R141, R142). -/

namespace Sys2Proof.Machine

open Sys2Proof

/-! ## Pins -/

/-- The operand that names a pin is the pin's number (rule R92). -/
theorem pinIndex_eq_some (p : Byte) (i : Fin 64) : pinIndex p = some i ↔ p.toInt = i.val := by
  have hi := i.isLt
  have hp := BitVec.toInt_eq_toNat_cond p
  unfold pinIndex
  split
  · exact ⟨nofun, fun h => by omega⟩
  · rw [Option.some.injEq, Fin.ext_iff, Fin.val_ofNat]
    split at hp <;> omega

/-- The board entries that count are the ones listed and inside the page (rules R28, R61). -/
theorem entry_eq_some (c : Config) (n : Nat) (e : PinEntry) :
    c.entry n = some e ↔ c.board[n]? = some (some e) ∧ e.inPage c.regWords = true := by
  unfold Config.entry
  split
  next x hx =>
    simp only [hx, Option.some.injEq, Option.ite_none_right_eq_some]
    exact ⟨fun ⟨h, hxe⟩ => ⟨hxe, hxe ▸ h⟩, fun ⟨hxe, h⟩ => ⟨hxe ▸ h, hxe⟩⟩
  next h => exact ⟨nofun, fun ⟨hb, _⟩ => absurd hb (h e)⟩

theorem validPin_eq_some (c : Config) (p : Byte) (i : Fin 64) (e : PinEntry) :
    validPin c p = some (i, e) ↔ pinIndex p = some i ∧ c.entry i.val = some e := by
  unfold validPin
  split
  next h => rw [h]; exact ⟨nofun, fun h => nomatch h.1⟩
  next j h =>
    simp only [h, Option.map_eq_some_iff, Prod.mk.injEq, Option.some.injEq]
    exact ⟨fun ⟨_, he, hj, hx⟩ => ⟨hj, hj ▸ hx ▸ he⟩, fun ⟨hj, he⟩ => ⟨e, hj ▸ he, hj, rfl⟩⟩

/-- A usable pin is a valid one that the backend in use can reach (rule R122). -/
theorem usablePin_eq_some (d : Dev) (p : Byte) (i : Fin 64) (e : PinEntry) :
    usablePin d p = some (i, e) ↔ validPin d.cfg p = some (i, e) ∧
      (d.gpio.backend = .register ∨ d.gpio.backend = .filesystem ∧ (d.gpio.pin i).exported = true) := by
  constructor
  · exact fun h => ⟨usablePin_valid h, usablePin_backend h⟩
  · rintro ⟨hv, hb | ⟨hb, hx⟩⟩
    · simp [usablePin, hb, hv]
    · simp [usablePin, hb, hv, hx]

/-- Settles O25: a usable pin is a valid one that the backend reaches, and a valid one has its number and its entry. -/
theorem usablePin_iff : Obligations.UsablePin := by
  intro d p i e
  rw [usablePin_eq_some, validPin_eq_some, pinIndex_eq_some, entry_eq_some]
  have := i.isLt
  refine and_congr_left fun _ => ⟨fun ⟨hp, hb, he⟩ => ⟨by omega, by omega, hp, hb, he⟩, fun ⟨_, _, h⟩ => h⟩

/-! ## Commands without effect -/

section NoEffect
variable {s : State} {d : Dev} {p : Byte}

theorem run_noEffect {f : Dev → Dev} (h : f s.dev = s.dev) : s.NoEffect (s.run f) .ok s.r0 s.r1 := by
  unfold State.run
  rw [h]
  exact finish_noEffect s .ok none none

theorem runWith_noEffect {f : Dev → ErrCode × Option Word × Dev} {e : ErrCode} {x : Option Word}
    (h : f s.dev = (e, x, s.dev)) : s.NoEffect (s.runWith f) e (x.getD s.r0) s.r1 := by
  unfold State.runWith
  rw [h]
  exact finish_noEffect s e x none

theorem pinWrite_unusable (reg : PinEntry → Dev → Dev) (file : Fin 64 → Dev → Dev) (h : usablePin d p = none) :
    pinWrite p reg file d = d := by
  unfold pinWrite
  rw [h]

theorem gpioGetValue_unusable (h : usablePin d p = none) : gpioGetValue p d = (.unreadable, d) := by
  unfold gpioGetValue
  rw [h]

/-- Settles O26: `pinWrite_unusable` for the commands that write, `gpioGetValue_unusable` for the one that reads. -/
theorem unusablePinIsANoOp : Obligations.UnusablePinIsANoOp := by
  intro s p hu
  have hwrite {reg : PinEntry → Dev → Dev} {file : Fin 64 → Dev → Dev} :
      s.NoEffect (s.run (pinWrite p reg file)) .ok s.r0 s.r1 := run_noEffect (pinWrite_unusable reg file hu)
  exact ⟨fun m => ⟨_, rfl, hwrite⟩, ⟨_, rfl, hwrite⟩, ⟨_, rfl, hwrite⟩, ⟨_, rfl, hwrite⟩, fun b => ⟨_, rfl, hwrite⟩,
    ⟨_, rfl, runWith_noEffect (e := .ok) (x := some Level.unreadable.word) (by rw [gpioGetValue_unusable hu])⟩⟩

theorem usablePin_of_not_valid (h : validPin d.cfg p = none) : usablePin d p = none :=
  Option.eq_none_iff_forall_ne_some.mpr fun _ hx => nomatch h.symm.trans (usablePin_valid hx)

theorem gpioExportPin_of_not_valid (h : validPin d.cfg p = none) : gpioExportPin p d = (.ok, d) := by
  unfold gpioExportPin
  rw [h]
  exact ite_self _

theorem exportPin_noEffect (h : gpioExportPin p s.dev = (.ok, s.dev)) :
    ∃ t, exec (.exportPin p) s = .next t ∧ s.NoEffect t .ok s.r0 s.r1 :=
  ⟨_, rfl, runWith_noEffect (e := .ok) (x := none) (by rw [h])⟩

theorem gpioUnexportPin_of_not_valid (h : validPin d.cfg p = none) : gpioUnexportPin p d = d := by
  unfold gpioUnexportPin
  rw [h]
  exact ite_self _

/-- Settles O27: an invalid pin is not usable, and the export operations return at once. -/
theorem sentinelPin : Obligations.SentinelPin := by
  intro s p hv
  obtain ⟨hmode, hdisable, hup, hdown, hvalue, hget⟩ := unusablePinIsANoOp s p (usablePin_of_not_valid hv)
  exact ⟨hmode, hdisable, hup, hdown, hvalue,
    exportPin_noEffect (gpioExportPin_of_not_valid hv),
    ⟨_, rfl, run_noEffect (gpioUnexportPin_of_not_valid hv)⟩, hget⟩

/-- Where there is nothing to export `exportPin` returns at once (rule R126, steps 1 to 3). -/
theorem gpioExportPin_idle {i : Fin 64} (hi : pinIndex p = some i)
    (h : d.gpio.backend ≠ .filesystem ∨ (d.gpio.pin i).exported = true) : gpioExportPin p d = (.ok, d) := by
  rcases gpioExportPin_cases p d with hd | ⟨j, e, hv, hb, hx, -, -⟩
  · exact hd
  · cases hi.symm.trans (validPin_mapped hv).1
    rcases h with h | h
    · exact absurd hb h
    · exact nomatch hx.symm.trans h

/-- Where there is nothing to give back `unexportPin` returns at once (rule R129, steps 1 to 3). -/
theorem gpioUnexportPin_idle {i : Fin 64} (hi : pinIndex p = some i)
    (h : d.gpio.backend ≠ .filesystem ∨ (d.gpio.pin i).exported = false) : gpioUnexportPin p d = d := by
  rcases gpioUnexportPin_cases p d with ⟨hd, -⟩ | ⟨j, e, hv, hb, hx, -, -⟩
  · exact hd
  · cases hi.symm.trans (validPin_mapped hv).1
    rcases h with h | h
    · exact absurd hb h
    · exact nomatch hx.symm.trans h

end NoEffect

/-- Settles O33: `gpioExportPin_idle`, for the second `exportPin` on the state that the first one leaves. -/
theorem exportIsIdempotent : Obligations.ExportIsIdempotent := by
  exact ⟨fun s p i hi h => exportPin_noEffect (gpioExportPin_idle hi h),
    fun s t p i hi _ hx => exportPin_noEffect (gpioExportPin_idle hi (.inr hx))⟩

end Sys2Proof.Machine
end

section
/-! PROOFS. What a known list of actions says of a command: its trace, and what it spares (rules R13, R48, R66). -/

namespace Sys2Proof.Machine

open Sys2Proof

/-! ## Exactly these actions, whatever becomes of the units -/

/-- One environment comes from another by exactly the actions `acts`, which never put the clock back, and by draws. -/
def Env.Does (acts : List Action) (e e' : Env) : Prop :=
  Env.Timed acts e ∧ e' = { Env.performAll acts e with draws := e'.draws }

theorem Dev.Does.envDoes {acts : List Action} {d d' : Dev} (h : Dev.Does acts d d') : Env.Does acts d.env d'.env :=
  ⟨h.timed, h.env⟩

theorem Env.Does.refl (e : Env) : Env.Does [] e e := (Dev.Does.refl { cfg := resetConfig, env := e }).envDoes

theorem Env.Does.trans {a b : List Action} {e1 e2 e3 : Env} (h1 : Env.Does a e1 e2) (h2 : Env.Does b e2 e3) :
    Env.Does (a ++ b) e1 e3 := by
  obtain ⟨ta, ha⟩ := h1
  obtain ⟨tb, hb⟩ := h2
  rw [ha, timed_draws] at tb
  refine ⟨(timed_append a b e1).mpr ⟨ta, tb⟩, ?_⟩
  rw [performAll_append, hb, ha, performAll_draws]

theorem Env.Does.reaches {acts : List Action} {e e' : Env} (h : Env.Does acts e e') : Env.Reaches e e' := ⟨acts, h⟩

theorem Env.Does.actionsSince {acts : List Action} {d d' : Dev} (h : Env.Does acts d.env d'.env) :
    d.actionsSince d' = acts := Env.Reaches.drop h.2

/-- The action stands in the traces of 95_test_vectors.md. -/
def Action.Traced (a : Action) : Prop := a.isClockRead = false ∧ a.isOwn = false

theorem Env.Does.traceSince {acts : List Action} {d d' : Dev} (h : Env.Does acts d.env d'.env)
    (ht : ∀ a ∈ acts, a.Traced) : d.traceSince d' = acts := by
  unfold Dev.traceSince
  rw [h.actionsSince, List.filter_eq_self]
  intro a ha
  obtain ⟨hc, ho⟩ := ht a ha
  rw [hc, ho]
  rfl

/-- The trace of a command whose operation makes the actions `acts`. -/
theorem Env.Does.finish_trace {acts : List Action} {s : State} {d : Dev} (h : Env.Does acts s.dev.env d.env)
    (ht : ∀ a ∈ acts, a.Traced) (e : ErrCode) (x y : Option Word) :
    s.dev.traceSince (State.finish e x y { s with dev := d }).dev = acts :=
  (Machine.finish_trace h.reaches e x y).trans (h.traceSince ht)

/-! ## What actions spare -/

/-- The action leaves what `view` shows of the environment as it was. -/
def Action.Spares {α : Type} (view : Env → α) (a : Action) : Prop := ∀ e : Env, view (e.perform a) = view e

theorem performAll_spares {α : Type} {view : Env → α} {acts : List Action} (h : ∀ a ∈ acts, a.Spares view) (e : Env) :
    view (Env.performAll acts e) = view e := by
  induction acts generalizing e with
  | nil => rfl
  | cons a acts ih =>
    obtain ⟨ha, hacts⟩ := List.forall_mem_cons.mp h
    exact (ih hacts _).trans (ha e)

/-- What the agent behind the control files holds: the settings and the read positions (rules R31, R48). -/
def Env.behindFiles (e : Env) : Vector PinSettings 64 × Vector Nat 64 := (e.settings, e.valuePos)

/-- What stands outside the block of the pins: the page, and what the agent behind the control files holds. -/
def Env.pins (e : Env) : Memory × Vector PinSettings 64 × Vector Nat 64 := (e.page, e.behindFiles)

theorem Env.Does.behindFiles {acts : List Action} {e e' : Env} (h : Env.Does acts e e')
    (hs : ∀ a ∈ acts, a.Spares Env.behindFiles) : e'.behindFiles = e.behindFiles := by
  rw [h.2]
  exact performAll_spares hs e

theorem Env.Does.pins {acts : List Action} {e e' : Env} (h : Env.Does acts e e') (hs : ∀ a ∈ acts, a.Spares Env.pins) :
    e'.pins = e.pins := by
  rw [h.2]
  exact performAll_spares hs e

theorem samePins_of_pins {e e' : Env} (h : e'.pins = e.pins) : e.SamePins e' := by
  simp only [Env.pins, Env.behindFiles, Prod.mk.injEq] at h
  obtain ⟨hpage, hsettings, hpositions⟩ := h
  exact ⟨fun _ => by rw [hpage], hsettings, hpositions⟩

theorem Env.Does.samePins {acts : List Action} {e e' : Env} (h : Env.Does acts e e')
    (hs : ∀ a ∈ acts, a.Spares Env.pins) : e.SamePins e' := samePins_of_pins (h.pins hs)

/-- A command spares the pins where its operation does. -/
theorem finish_samePins {s : State} {d : Dev} (h : s.dev.env.SamePins d.env) (e : ErrCode) (x y : Option Word) :
    s.dev.env.SamePins (State.finish e x y { s with dev := d }).dev.env := ⟨h.page, h.settings, h.positions⟩

/-- No action takes a draw. -/
theorem effect_keeps_draws (a : Action) (e : Env) : (e.effect a).draws = e.draws := by
  rw [effect_draws a e e.draws]

/-! ## Files -/

theorem fileWrite_acts (h : Handle) (f : CtlFile) (t : String) (d : Dev) :
    Dev.Does (h.acts [.fileWrite f t]) d (fileWrite h f t d) := by
  cases h with
  | invalid => exact .refl d
  | opened => exact fileWrite_does f t d

theorem fileClose_acts (h : Handle) (f : CtlFile) (d : Dev) : Dev.Does (h.acts [.fileClose f]) d (fileClose h f d) := by
  cases h with
  | invalid => exact .refl d
  | opened => exact fileClose_does f d

theorem writeExport_does (e : PinEntry) (d : Dev) :
    Dev.Does (d.gpio.hExport.acts [.fileWrite .exportFile (decLine e.hw)]) d (writeExport e d) := fileWrite_acts _ _ _ d

theorem writeUnexport_does (e : PinEntry) (d : Dev) :
    Dev.Does (d.gpio.hUnexport.acts [.fileWrite .unexportFile (decLine e.hw)]) d (writeUnexport e d) :=
  fileWrite_acts _ _ _ d

theorem acts_eq_ite (h : Handle) (l : List Action) : h.acts l = if h = .opened then l else [] := by
  cases h <;> rfl

/-- What holds of the actions on a file holds where there may be no handle. -/
theorem forall_mem_acts {P : Action → Prop} {l : List Action} (hl : ∀ a ∈ l, P a) (h : Handle) :
    ∀ a ∈ h.acts l, P a := by
  cases h with
  | invalid => exact nofun
  | opened => exact hl

end Sys2Proof.Machine
end

section
/-! PROOFS. The pin operations under each backend (rules R132, R134, R136, R138, R140). -/

namespace Sys2Proof.Machine

open Sys2Proof

section PinWrite
variable {d : Dev} {p : Byte} {i : Fin 64} {e : PinEntry} (reg : PinEntry → Dev → Dev) (file : Fin 64 → Dev → Dev)

theorem pinWrite_register (hu : usablePin d p = some (i, e)) (hb : d.gpio.backend = .register) :
    pinWrite p reg file d = reg e d := by
  unfold pinWrite
  simp only [hu, hb]

theorem pinWrite_filesystem (hu : usablePin d p = some (i, e)) (hb : d.gpio.backend = .filesystem) :
    pinWrite p reg file d = file i d := by
  unfold pinWrite
  simp only [hu, hb]

end PinWrite

/-! ## Bit writes -/

/-- A list of bit writes, the first one first (rule R63). -/
def writeBits (ws : List (Nat × Bool)) (d : Dev) : Dev := ws.foldl (fun d w => regBitWrite w.1 w.2 d) d

/-- The accesses of a list of bit writes: a read and a write of the word of each bit. -/
theorem writeBits_does (ws : List (Nat × Bool)) (d : Dev) :
    ∃ acts, Dev.Does acts d (writeBits ws d) ∧
      acts.map Action.pageAccess = ws.flatMap (fun w => [some (false, w.1 / 32), some (true, w.1 / 32)]) ∧
      ∀ a ∈ acts, a.Traced ∧ a.Spares Env.behindFiles := by
  induction ws generalizing d with
  | nil => exact ⟨[], .refl d, rfl, nofun⟩
  | cons w ws ih =>
    obtain ⟨acts, hd, hmap, hacts⟩ := ih (regBitWrite w.1 w.2 d)
    refine ⟨_, (regBitWrite_does w.1 w.2 d).trans hd, ?_, ?_⟩
    · rw [List.map_append, hmap]
      rfl
    · simp only [List.cons_append, List.nil_append, List.forall_mem_cons]
      exact ⟨⟨⟨rfl, rfl⟩, fun _ => rfl⟩, ⟨⟨rfl, rfl⟩, fun _ => rfl⟩, hacts⟩

theorem writeBits_pageBit (ws : List (Nat × Bool)) (d : Dev) (hw : d.env.page.wf = true) (x : Nat)
    (hx : (d.cfg.inMask (x / 32)).getLsbD (x % 32) = false) :
    (writeBits ws d).pageBit x = bitAfter ws x (d.pageBit x) := by
  induction ws generalizing d with
  | nil => rfl
  | cons w ws ih =>
    have hE := regBitWrite_envOnly w.1 w.2 d
    refine (ih (regBitWrite w.1 w.2 d) (hE.env.wf hw) (by rw [hE.cfg]; exact hx)).trans ?_
    rw [regBitWrite_pageBit _ _ _ _ hw hx]
    rfl

theorem writeBits_byte (ws : List (Nat × Bool)) (d : Dev) (hw : d.env.page.wf = true) (a : Nat)
    (ha : ∀ w ∈ ws, a / 4 ≠ w.1 / 32) : Memory.read (writeBits ws d).env.page a = Memory.read d.env.page a := by
  induction ws generalizing d with
  | nil => rfl
  | cons w ws ih =>
    obtain ⟨haw, haws⟩ := List.forall_mem_cons.mp ha
    exact (ih (regBitWrite w.1 w.2 d) ((regBitWrite_envOnly w.1 w.2 d).env.wf hw) haws).trans
      (regBitWrite_byte _ _ _ hw a haw)

/-- A command that is a list of bit writes. -/
theorem run_writeBits {s : State} {f : Dev → Dev} (ws : List (Nat × Bool)) (hw : s.dev.env.page.wf = true)
    (hf : f s.dev = writeBits ws s.dev) :
    s.EndsAs (s.run f) .ok s.r0 s.r1 ∧ s.dev.SameUnits (s.run f).dev ∧ State.StoresBits ws s (s.run f) := by
  obtain ⟨acts, hd, hmap, hacts⟩ := writeBits_does ws s.dev
  have hfiles := hd.envDoes.behindFiles fun a ha => (hacts a ha).2
  unfold State.run
  rw [hf]
  refine ⟨finish_ends hd.envOnly.env hd.cfg .ok none none, ⟨hd.gpio, hd.bus, hd.crc⟩, ?_⟩
  exact {
    bits := writeBits_pageBit ws s.dev hw
    bytes := writeBits_byte ws s.dev hw
    accesses := by rw [hd.envDoes.finish_trace fun a ha => (hacts a ha).1, hmap]
    settings := congrArg Prod.fst hfiles
    positions := congrArg Prod.snd hfiles }

/-- Settles O37: under the register backend the two operations are lists of bit writes. -/
theorem setModeAndSetValueWriteBits : Obligations.SetModeAndSetValueWriteBits := by
  intro s p i e hu hb hw
  refine ⟨fun m => ⟨_, rfl, run_writeBits _ hw ((pinWrite_register _ _ hu hb).trans ?_)⟩,
    fun b => ⟨_, rfl, run_writeBits _ hw ((pinWrite_register _ _ hu hb).trans ?_)⟩⟩
  · cases m <;> rfl
  · cases b <;> rfl

/-- Settles O38: under the register backend each pull state is a list of bit writes. -/
theorem setPullWritesItsBits : Obligations.SetPullWritesItsBits := by
  intro s p i e hu hb hw
  exact ⟨⟨_, rfl, run_writeBits _ hw (pinWrite_register _ _ hu hb)⟩,
    ⟨_, rfl, run_writeBits _ hw (pinWrite_register _ _ hu hb)⟩,
    ⟨_, rfl, run_writeBits _ hw (pinWrite_register _ _ hu hb)⟩⟩

/-! ## Writes to the files of a pin -/

/-- A command that writes one string to an open file of a pin. -/
theorem run_fileWrite {s : State} {f : Dev → Dev} {i : Fin 64} {k : PinFile} {text : String}
    (hf : f s.dev = fileWrite .opened (.pinFile i k) text s.dev) :
    s.EndsAs (s.run f) .ok s.r0 s.r1 ∧ s.dev.SameUnits (s.run f).dev ∧
      State.WritesFile i k text (PinSettings.written k text (s.dev.env.setting i)) s (s.run f) := by
  have hd := fileWrite_does (.pinFile i k) text s.dev
  unfold State.run
  rw [hf]
  refine ⟨finish_ends hd.envOnly.env hd.cfg .ok none none, ⟨hd.gpio, hd.bus, hd.crc⟩, ?_⟩
  have hset (j : Fin 64) : (s.dev.env.setSetting i (PinSettings.written k text (s.dev.env.setting i))).setting j =
      if i = j then PinSettings.written k text (s.dev.env.setting i) else s.dev.env.setting j :=
    setSetting_setting _ _ _ _
  exact {
    trace := hd.envDoes.finish_trace (List.forall_mem_singleton.mpr ⟨rfl, rfl⟩) _ _ _
    setting := (hset i).trans (if_pos rfl)
    settings := fun j hj => (hset j).trans (if_neg hj.symm)
    positions := rfl
    page := fun _ => rfl }

/-- An exported pin has its files open (rule R30). -/
theorem usablePin_full {d : Dev} {p : Byte} {i : Fin 64} {e : PinEntry} (hu : usablePin d p = some (i, e))
    (hb : d.gpio.backend = .filesystem) (hs : (d.gpio.pin i).settled = true) : d.gpio.pin i = PinFiles.full := by
  rcases usablePin_backend hu with h | ⟨-, hx⟩
  · exact nomatch hb.symm.trans h
  · exact settled_full hs hx

/-- Settles O39: the files of a usable pin are open, and each string names its setting. -/
theorem settingsThroughFiles : Obligations.SettingsThroughFiles := by
  intro s p i e hu hb hs
  have hfull := usablePin_full hu hb hs
  have hdir (m : PinMode) : setModeFile i m s.dev = fileWrite .opened (.pinFile i .direction) (modeText m) s.dev := by
    unfold setModeFile; rw [hfull]; rfl
  have hpull (x : Pull) : setPullFile i x s.dev = fileWrite .opened (.pinFile i .pull) (pullText x) s.dev := by
    unfold setPullFile; rw [hfull]; rfl
  have hvalue (b : Bool) : setValueFile i b s.dev = fileWrite .opened (.pinFile i .value) (valueText b) s.dev := by
    unfold setValueFile; rw [hfull]; rfl
  refine ⟨fun m => ⟨_, rfl, ?_⟩, ⟨_, rfl, run_fileWrite ((pinWrite_filesystem _ _ hu hb).trans (hpull .disable))⟩,
    ⟨_, rfl, run_fileWrite ((pinWrite_filesystem _ _ hu hb).trans (hpull .up))⟩,
    ⟨_, rfl, run_fileWrite ((pinWrite_filesystem _ _ hu hb).trans (hpull .down))⟩, fun b => ⟨_, rfl, ?_⟩⟩
  · have h := run_fileWrite (f := gpioSetMode p m) ((pinWrite_filesystem _ _ hu hb).trans (hdir m))
    cases m <;> exact h
  · have h := run_fileWrite (f := gpioSetValue p b) ((pinWrite_filesystem _ _ hu hb).trans (hvalue b))
    cases b <;> exact h

end Sys2Proof.Machine
end

section
/-! PROOFS. What `getValue` reads and what `initialize` opens: answers of the environment (rules R47, R124, R138). -/

namespace Sys2Proof.Machine

open Sys2Proof

/-! ## Reading a pin -/

/-- The `in` bits of a word, with those of pin `n` added to a mask (rule R62): one round of `Config.inMask`. -/
def addInBit (c : Config) (word : Nat) (m : Word) (n : Nat) : Word :=
  match c.entry n with
  | some e => if e.inp / 32 = word then m ||| (1#32 <<< (e.inp % 32)) else m
  | none => m

theorem inMask_eq (c : Config) (word : Nat) : c.inMask word = (List.range 64).foldl (addInBit c word) 0 := rfl

theorem addInBit_keeps (c : Config) (word n : Nat) {m : Word} {k : Nat} (h : m.getLsbD k = true) :
    (addInBit c word m n).getLsbD k = true := by
  unfold addInBit
  split
  · split
    · rw [BitVec.getLsbD_or, h, Bool.true_or]
    · exact h
  · exact h

theorem addInBit_sets {c : Config} {n : Nat} {e : PinEntry} (he : c.entry n = some e) (m : Word) :
    (addInBit c (e.inp / 32) m n).getLsbD (e.inp % 32) = true := by
  have hlt : e.inp % 32 < 32 := Nat.mod_lt _ (by decide)
  simp [addInBit, he, hlt]

/-- The `in` bit of a mapped pin is among the drawn bits of its word (rules R47, R62). -/
theorem inMask_inp {c : Config} {i : Fin 64} {e : PinEntry} (he : c.entry i.val = some e) :
    (c.inMask (e.inp / 32)).getLsbD (e.inp % 32) = true := by
  have key (l : List Nat) (m : Word) (h : m.getLsbD (e.inp % 32) = true ∨ i.val ∈ l) :
      (l.foldl (addInBit c (e.inp / 32)) m).getLsbD (e.inp % 32) = true := by
    induction l generalizing m with
    | nil => exact h.resolve_right List.not_mem_nil
    | cons n l ih =>
      rcases h with hm | hi
      · exact ih _ (.inl (addInBit_keeps c _ n hm))
      · rcases List.mem_cons.mp hi with rfl | hi
        · exact ih _ (.inl (addInBit_sets he m))
        · exact ih _ (.inr hi)
  rw [inMask_eq]
  exact key _ 0 (.inr (List.mem_range.mpr i.isLt))

/-- A bit that is drawn is read as drawn, and the read takes one draw (rules R47, R62). -/
theorem memRead_drawn {w k : Nat} {d : Dev} (h : (d.cfg.inMask w).getLsbD k = true) :
    (memRead w d).1.getLsbD k = (drawIn d).1.getLsbD k ∧ (memRead w d).2.env.draws = (drawIn d).2.env.draws := by
  have hmask : d.cfg.inMask w ≠ 0 := fun h0 => by rw [h0] at h; simp at h
  have hk : k < 32 := by
    by_contra hk
    rw [BitVec.getLsbD_of_ge _ _ (by omega)] at h
    cases h
  unfold memRead
  dsimp only
  rw [if_neg hmask]
  refine ⟨?_, rfl⟩
  simp only [mixIn, BitVec.getLsbD_or, BitVec.getLsbD_and, BitVec.getLsbD_not, h]
  simp

/-- The character read after the seek is the one the environment has next (rules R47, R140). -/
theorem getValueFile_draw {i : Fin 64} {d : Dev} (h : (d.gpio.pin i).hValue = .opened) :
    (getValueFile i d).1 = levelOfChar (drawChar d).1 ∧
      (getValueFile i d).2.env.draws = (drawChar d).2.env.draws := by
  have hdraws : (perform (.fileSeek (.pinFile i .value)) d).env.draws = d.env.draws := effect_keeps_draws _ _
  unfold getValueFile
  simp only [h, fileSeek0, fileRead1, perform_env, env_perform_draws, effect_keeps_draws]
  unfold drawChar
  rw [hdraws]
  split <;> exact ⟨rfl, by simp [countDraw, effect_keeps_draws]⟩

/-- Where the read of an open `value` file leaves the read positions (rules R48, R140). -/
theorem getValueFile_position {i : Fin 64} {d : Dev} (h : (d.gpio.pin i).hValue = .opened) (j : Fin 64) :
    (getValueFile i d).2.env.position j = if i = j then 1 else d.env.position j := by
  rw [(getValueFile_does i d h).env]
  show ((d.env.setPosition i 0).setPosition i ((d.env.setPosition i 0).position i + 1)).position j = _
  simp only [setPosition_position, if_true]
  split <;> rfl

section GetValue
variable {d : Dev} {p : Byte} {i : Fin 64} {e : PinEntry}

theorem gpioGetValue_register (hu : usablePin d p = some (i, e)) (hb : d.gpio.backend = .register) :
    gpioGetValue p d = (levelOfBit ((drawIn d).1.getLsbD (e.inp % 32)), (regBit e.inp d).2) := by
  have he := ((validPin_eq_some _ _ _ _).mp (usablePin_valid hu)).2
  rw [← (memRead_drawn (d := d) (inMask_inp he)).1]
  unfold gpioGetValue
  simp only [hu, hb]
  rfl

theorem gpioGetValue_filesystem (hu : usablePin d p = some (i, e)) (hb : d.gpio.backend = .filesystem)
    (h : (d.gpio.pin i).hValue = .opened) :
    gpioGetValue p d = (levelOfChar (drawChar d).1, (getValueFile i d).2) := by
  rw [← (getValueFile_draw h).1]
  unfold gpioGetValue
  simp only [hu, hb]

end GetValue

theorem levelOfBit_word (b : Bool) : (levelOfBit b).word = if b then 1 else 0 := by cases b <;> rfl

theorem levelOfChar_word (c : ReadChar) :
    (levelOfChar c).word = match c with | .zero => 0 | .one => 1 | .other => 0xFFFFFFFF := by cases c <;> rfl

/-- A `getValue` whose operation is known ends with the word of the level it gives. -/
theorem exec_getValue {s : State} {p : Byte} {v : Level} {d : Dev} (h : gpioGetValue p s.dev = (v, d)) :
    exec (.getValue p) s = .next (State.finish .ok (some v.word) none { s with dev := d }) := by
  show Host.Outcome.next (State.finish .ok (some (gpioGetValue p s.dev).1.word) none
    { s with dev := (gpioGetValue p s.dev).2 }) = _
  rw [h]

/-- Settles O40: the bit of the word read, or the character read after the seek, is the one drawn. -/
theorem getValueReturnsTheDraw : Obligations.GetValueReturnsTheDraw := by
  intro s p i e hu
  refine ⟨fun hb => ⟨_, exec_getValue (gpioGetValue_register hu hb), ?_⟩, fun hb hs => ?_⟩
  · have hd := regBit_does e.inp s.dev
    have he := ((validPin_eq_some _ _ _ _).mp (usablePin_valid hu)).2
    refine ⟨levelOfBit_word _ ▸ finish_ends hd.envOnly.env hd.cfg _ _ none, ⟨hd.gpio, hd.bus, hd.crc⟩,
      finish_samePins (hd.envDoes.samePins (List.forall_mem_singleton.mpr fun _ => rfl)) _ _ _,
      (memRead_drawn (d := s.dev) (inMask_inp he)).2, ?_⟩
    rw [hd.envDoes.finish_trace (List.forall_mem_singleton.mpr ⟨rfl, rfl⟩)]
    rfl
  · have hopen : (s.dev.gpio.pin i).hValue = .opened := by rw [usablePin_full hu hb hs]; rfl
    have hd := getValueFile_does i s.dev hopen
    have hpage : (getValueFile i s.dev).2.env.page = s.dev.env.page := by rw [hd.env]; rfl
    have hsettings : (getValueFile i s.dev).2.env.settings = s.dev.env.settings := by rw [hd.env]; rfl
    have hpos := getValueFile_position hopen
    refine ⟨_, exec_getValue (gpioGetValue_filesystem hu hb hopen),
      levelOfChar_word _ ▸ finish_ends hd.envOnly.env hd.cfg _ _ none, ⟨hd.gpio, hd.bus, hd.crc⟩,
      fun a => congrArg (Memory.read · a) hpage, hsettings, (hpos i).trans (if_pos rfl),
      fun j hj => (hpos j).trans (if_neg hj.symm), (getValueFile_draw hopen).2, ?_⟩
    exact hd.envDoes.finish_trace (List.forall_mem_cons.mpr
      ⟨⟨rfl, rfl⟩, List.forall_mem_singleton.mpr ⟨rfl, rfl⟩⟩) _ _ _

/-! ## Opening files -/

/-- The answer to an open is the one the environment has queued (rule R47). -/
theorem fileOpen_queued (f : CtlFile) {d : Dev} {b : Bool} {rest : List Bool} (h : d.env.draws.opens = b :: rest) :
    (drawOpen d).1 = b ∧ (fileOpen f d).2.env.draws.opens = rest := by
  have hdraw : drawOpen d = (b, setDraws { d.env.draws with opens := rest } d) := by
    unfold drawOpen
    rw [h]
  refine ⟨by rw [hdraw], ?_⟩
  show ((drawOpen d).2.env.effect (.fileOpen f (drawOpen d).1)).draws.opens = rest
  rw [effect_keeps_draws, hdraw]
  rfl

/-! ## Initialization -/

theorem gpioInitialize_idle {d : Dev} (hb : d.gpio.backend ≠ .none) : gpioInitialize d = (.ok, none, d) := by
  unfold gpioInitialize
  rw [if_pos hb]

theorem gpioInitialize_register {d : Dev} (hb : d.gpio.backend = .none) (hr : (drawRegAccess d).1 = true) :
    gpioInitialize d = (.ok, none, setBackend .register (drawRegAccess d).2) := by
  unfold gpioInitialize
  rw [if_neg (not_not.mpr hb)]
  exact if_pos hr

theorem gpioInitialize_filesystem {d : Dev} (hb : d.gpio.backend = .none) (hr : (drawRegAccess d).1 = false) :
    gpioInitialize d = (globalOutcome (openGlobalUnexport (openGlobalExport (drawRegAccess d).2)), none,
      setBackend .filesystem (openGlobalUnexport (openGlobalExport (drawRegAccess d).2))) := by
  unfold gpioInitialize
  rw [if_neg (not_not.mpr hb)]
  exact if_neg (by rw [hr]; nofun)

/-- The two global files are opened, `export` first; nothing else happens (rule R124, steps 3 and 4). -/
theorem openGlobals_spec (d : Dev) : ∃ x y,
    Env.Does [.fileOpen .exportFile x, .fileOpen .unexportFile y] d.env (openGlobalUnexport (openGlobalExport d)).env ∧
    openGlobalUnexport (openGlobalExport d) = { d with
      gpio := { d.gpio with
        hExport := if x then .opened else .invalid
        hUnexport := if y then .opened else .invalid }
      env := (openGlobalUnexport (openGlobalExport d)).env } ∧
    ∀ x' y' rest, d.env.draws.opens = x' :: y' :: rest → x = x' ∧ y = y' := by
  have h1 := fileOpen_does .exportFile d
  have h2 := fileOpen_does .unexportFile (openGlobalExport d)
  refine ⟨(drawOpen d).1, (drawOpen (openGlobalExport d)).1, h1.envDoes.trans h2.envDoes, ?_, ?_⟩
  · have e1 := h1.eq
    have e2 := h2.eq
    have e3 : openGlobalExport d = { d with
      gpio := { d.gpio with hExport := (fileOpen .exportFile d).1 }, env := (openGlobalExport d).env } := by
      unfold openGlobalExport
      dsimp only
      rw [e1]
    conv_lhs => unfold openGlobalUnexport
    dsimp only
    rw [e2, e3]
    rfl
  · intro x' y' rest h
    obtain ⟨hx, hrest⟩ := fileOpen_queued .exportFile h
    exact ⟨hx, (fileOpen_queued .unexportFile (d := openGlobalExport d) hrest).1⟩

theorem exec_initialize {s : State} {e : ErrCode} {d : Dev} (h : gpioInitialize s.dev = (e, none, d)) :
    exec .initGpio s = .next (State.finish e none none { s with dev := d }) := by
  show Host.Outcome.next (State.finish (gpioInitialize s.dev).1 (gpioInitialize s.dev).2.1 none
    { s with dev := (gpioInitialize s.dev).2.2 }) = _
  rw [h]

theorem globalOutcome_eq {d : Dev} {x y : Bool} (hx : d.gpio.hExport = if x then .opened else .invalid)
    (hy : d.gpio.hUnexport = if y then .opened else .invalid) :
    globalOutcome d = if x && y then .ok else .resourceUnavailable := by
  unfold globalOutcome
  rw [hx, hy]
  cases x <;> cases y <;> rfl

theorem drawRegAccess_opens (d : Dev) : (drawRegAccess d).2.env.draws.opens = d.env.draws.opens := by
  unfold drawRegAccess
  split <;> rfl

/-- Settles O28: the three ways of `gpioInitialize`; the files it opens are those of `openGlobals_spec`. -/
theorem initializeSelectsTheBackend : Obligations.InitializeSelectsTheBackend := by
  intro s
  have hr := drawRegAccess_does s.dev
  refine ⟨fun hb => ⟨_, exec_initialize (gpioInitialize_idle hb), finish_noEffect s .ok none none⟩,
    fun hb ha => ?_, fun hb ha => ?_⟩
  · have hdoes : Env.Does [] s.dev.env (setBackend .register (drawRegAccess s.dev).2).env := hr.envDoes
    refine ⟨_, exec_initialize (gpioInitialize_register hb ha), finish_ends hdoes.reaches hr.cfg _ none none, ?_,
      hr.bus, hr.crc, finish_samePins (hdoes.samePins nofun) _ _ _, hdoes.finish_trace nofun _ _ _⟩
    show { (drawRegAccess s.dev).2.gpio with backend := .register } = _
    rw [hr.gpio]
  · obtain ⟨x, y, hacts, hdev, hqueue⟩ := openGlobals_spec (drawRegAccess s.dev).2
    generalize hd : openGlobalUnexport (openGlobalExport (drawRegAccess s.dev).2) = d at hacts hdev
    have hdoes : Env.Does [.fileOpen .exportFile x, .fileOpen .unexportFile y] s.dev.env d.env := hr.envDoes.trans hacts
    have hgpio : d.gpio = { s.dev.gpio with
        hExport := if x then .opened else .invalid
        hUnexport := if y then .opened else .invalid } := by rw [hdev, hr.gpio]
    have hout := globalOutcome_eq (d := d) (x := x) (y := y) (by rw [hgpio]) (by rw [hgpio])
    have hinit := gpioInitialize_filesystem hb ha
    rw [hd, hout] at hinit
    have hspares : ∀ a ∈ [Action.fileOpen .exportFile x, .fileOpen .unexportFile y], a.Spares Env.pins :=
      List.forall_mem_cons.mpr ⟨fun _ => by cases x <;> rfl, List.forall_mem_singleton.mpr fun _ => by cases y <;> rfl⟩
    refine ⟨_, x, y, exec_initialize hinit,
      finish_ends (d := setBackend .filesystem d) hdoes.reaches (by rw [hdev]; exact hr.cfg) _ none none, ?_,
      by rw [hdev]; exact hr.bus, by rw [hdev]; exact hr.crc,
      finish_samePins (d := setBackend .filesystem d) (hdoes.samePins hspares) _ _ _,
      hdoes.finish_trace (d := setBackend .filesystem d) (List.forall_mem_cons.mpr
        ⟨⟨rfl, rfl⟩, List.forall_mem_singleton.mpr ⟨rfl, rfl⟩⟩) _ _ _,
      fun x' y' rest h => hqueue x' y' rest (drawRegAccess_opens s.dev ▸ h)⟩
    show { d.gpio with backend := .filesystem } = _
    rw [hgpio]

end Sys2Proof.Machine
end

section
/-! PROOFS. Giving pins back: `unexportPin`, `unexportAll`, `finalize` (rules R125, R129, R130). -/

namespace Sys2Proof.Machine

open Sys2Proof

/-! ## The actions of `unexportPin` -/

/-- What `unexportPin` does under the filesystem backend, whatever handles the pin has: a close for each open handle,
then the pin's line to `unexport` (rule R129). Where the handles of an exported pin are open this is `Dev.giveBack`. -/
def Dev.unexportActs (d : Dev) (p : Byte) : List Action :=
  match validPin d.cfg p with
  | none => []
  | some (i, e) =>
    if (d.gpio.pin i).exported then
      (d.gpio.pin i).hDir.acts [.fileClose (.pinFile i .direction)] ++
      (d.gpio.pin i).hPull.acts [.fileClose (.pinFile i .pull)] ++
      (d.gpio.pin i).hValue.acts [.fileClose (.pinFile i .value)] ++
      d.gpio.hUnexport.acts [.fileWrite .unexportFile (decLine e.hw)]
    else []

theorem closeHandles_does (i : Fin 64) (hd hp hv : Handle) (d : Dev) :
    Dev.Does (hd.acts [.fileClose (.pinFile i .direction)] ++ hp.acts [.fileClose (.pinFile i .pull)] ++
      hv.acts [.fileClose (.pinFile i .value)]) d (closeHandles i hd hp hv d) :=
  ((fileClose_acts hd _ d).trans (fileClose_acts hp _ _)).trans (fileClose_acts hv _ _)

section OnePin
variable {d : Dev} {p : Byte} {i : Fin 64} {e : PinEntry}

theorem gpioUnexportPin_exported (hb : d.gpio.backend = .filesystem) (hv : validPin d.cfg p = some (i, e))
    (hx : (d.gpio.pin i).exported = true) :
    gpioUnexportPin p d = clearExported i (writeUnexport e (closePinFiles i d)) := by
  unfold gpioUnexportPin
  rw [if_neg (not_not.mpr hb), hv]
  exact if_pos hx

theorem gpioUnexportPin_does (p : Byte) (hb : d.gpio.backend = .filesystem) :
    Env.Does (d.unexportActs p) d.env (gpioUnexportPin p d).env := by
  unfold Dev.unexportActs
  split
  next hv => rw [gpioUnexportPin_of_not_valid hv]; exact .refl _
  next i e hv =>
    split
    next hx =>
      rw [gpioUnexportPin_exported hb hv hx]
      have hclose := closeHandles_does i (d.gpio.pin i).hDir (d.gpio.pin i).hPull (d.gpio.pin i).hValue d
      have hwrite := writeUnexport_does e (closePinFiles i d)
      rw [(closePinFiles_spec i d).1.hUnexport] at hwrite
      exact hclose.envDoes.trans hwrite.envDoes
    next hx =>
      rw [gpioUnexportPin_idle (validPin_mapped hv).1 (.inr (Bool.eq_false_iff.mpr hx))]
      exact .refl _

/-- The actions of `unexportPin` are file actions that spare the pins (assumption log, entry 27). -/
theorem unexportActs_spare (d : Dev) (p : Byte) : ∀ a ∈ d.unexportActs p, a.Traced ∧ a.Spares Env.pins := by
  have hclose (f : CtlFile) : ∀ a ∈ [Action.fileClose f], a.Traced ∧ a.Spares Env.pins :=
    List.forall_mem_singleton.mpr ⟨⟨rfl, rfl⟩, fun _ => rfl⟩
  have hwrite (t : String) : ∀ a ∈ [Action.fileWrite .unexportFile t], a.Traced ∧ a.Spares Env.pins :=
    List.forall_mem_singleton.mpr ⟨⟨rfl, rfl⟩, fun _ => rfl⟩
  unfold Dev.unexportActs
  split
  · exact nofun
  · split
    · simp only [List.forall_mem_append]
      exact ⟨⟨⟨forall_mem_acts (hclose _) _, forall_mem_acts (hclose _) _⟩, forall_mem_acts (hclose _) _⟩,
        forall_mem_acts (hwrite _) _⟩
    · exact nofun

/-- A pin whose three files are open while it is exported is given back in full (rule R30). -/
theorem unexportActs_eq_giveBack (p : Byte) (hs : ∀ j, (d.gpio.pin j).settled = true) :
    d.unexportActs p = d.giveBack p := by
  unfold Dev.unexportActs Dev.giveBack
  cases validPin d.cfg p with
  | none => rfl
  | some x =>
    cases hx : (d.gpio.pin x.1).exported with
    | false => simp [hx]
    | true =>
      simp only [settled_full (hs x.1) hx, acts_eq_ite d.gpio.hUnexport]
      rfl

/-- What `unexport` receives from the actions of `unexportPin`, where that file is open. -/
theorem unexportActs_unexports (i : Fin 64) (hu : d.gpio.hUnexport = .opened) :
    (d.unexportActs (BitVec.ofNat 8 i.val)).filterMap Action.unexports =
      (if (d.gpio.pin i).exported then (d.cfg.entry i.val).map fun e => decLine e.hw else none).toList := by
  have hclose (h : Handle) (f : CtlFile) : (h.acts [.fileClose f]).filterMap Action.unexports = [] := by
    cases h <;> rfl
  unfold Dev.unexportActs
  rw [validPin_ofNat, hu]
  cases d.cfg.entry i.val with
  | none => simp
  | some e =>
    simp only [Option.map_some]
    split
    · simp only [List.filterMap_append, hclose]
      rfl
    · rfl

end OnePin

/-- The pins of two numbers are two pins, so what is done to give one back does not depend on the other. -/
theorem unexportActs_congr {d d' : Dev} {i : Fin 64} (hc : d'.cfg = d.cfg) (hp : d'.gpio.pin i = d.gpio.pin i)
    (hu : d'.gpio.hUnexport = d.gpio.hUnexport) :
    d'.unexportActs (BitVec.ofNat 8 i.val) = d.unexportActs (BitVec.ofNat 8 i.val) := by
  unfold Dev.unexportActs
  rw [hc, validPin_ofNat]
  cases d.cfg.entry i.val with
  | none => rfl
  | some e => simp only [Option.map_some, hp, hu]

/-- Giving one pin back leaves the files of the others alone. -/
theorem gpioUnexportPin_pin_ne {i j : Fin 64} (h : j ≠ i) (d : Dev) :
    (gpioUnexportPin (BitVec.ofNat 8 i.val) d).gpio.pin j = d.gpio.pin j := by
  rcases gpioUnexportPin_cases (BitVec.ofNat 8 i.val) d with ⟨hd, -⟩ | ⟨k, e, hv, -, -, hp, -⟩
  · rw [hd]
  · cases (pinIndex_ofNat i).symm.trans (validPin_mapped hv).1
    exact hp.pins j h

/-! ## The actions of `unexportAll` -/

/-- What `unexportAll` does under the filesystem backend, in ascending order (rule R130). -/
def Dev.unexportAllActs (d : Dev) : List Action :=
  (List.finRange 64).flatMap fun i => d.unexportActs (BitVec.ofNat 8 i.val)

theorem gpioUnexportAll_foldl (d : Dev) :
    gpioUnexportAll d = (List.finRange 64).foldl (fun d i => gpioUnexportPin (BitVec.ofNat 8 i.val) d) d := by
  unfold gpioUnexportAll
  rw [← List.map_coe_finRange_eq_range, List.foldl_map]

theorem gpioUnexportAll_does {d : Dev} (hb : d.gpio.backend = .filesystem) :
    Env.Does d.unexportAllActs d.env (gpioUnexportAll d).env := by
  have key (l : List (Fin 64)) (hl : l.Nodup) (d : Dev) (hb : d.gpio.backend = .filesystem) :
      Env.Does (l.flatMap fun i => d.unexportActs (BitVec.ofNat 8 i.val)) d.env
        (l.foldl (fun d i => gpioUnexportPin (BitVec.ofNat 8 i.val) d) d).env := by
    induction l generalizing d with
    | nil => exact .refl _
    | cons i l ih =>
      obtain ⟨hi, hl⟩ := List.nodup_cons.mp hl
      have hpins := gpioUnexportPin_pinsOnly (BitVec.ofNat 8 i.val) d
      have hrest := ih hl (gpioUnexportPin (BitVec.ofNat 8 i.val) d) (hpins.backend.trans hb)
      have hsame : ∀ j ∈ l, (gpioUnexportPin (BitVec.ofNat 8 i.val) d).unexportActs (BitVec.ofNat 8 j.val) =
          d.unexportActs (BitVec.ofNat 8 j.val) := fun j hj =>
        unexportActs_congr hpins.cfg (gpioUnexportPin_pin_ne (ne_of_mem_of_not_mem hj hi) d) hpins.hUnexport
      rw [List.flatMap_congr hsame] at hrest
      exact (gpioUnexportPin_does _ hb).trans hrest
  rw [gpioUnexportAll_foldl]
  exact key _ (List.nodup_finRange 64) d hb

theorem unexportAllActs_spare (d : Dev) : ∀ a ∈ d.unexportAllActs, a.Traced ∧ a.Spares Env.pins := by
  intro a ha
  obtain ⟨i, -, hi⟩ := List.mem_flatMap.mp ha
  exact unexportActs_spare d _ a hi

theorem unexportAllActs_eq_giveBackAll {d : Dev} (hs : ∀ j, (d.gpio.pin j).settled = true) :
    d.unexportAllActs = d.giveBackAll := by
  unfold Dev.unexportAllActs Dev.giveBackAll
  rw [← List.map_coe_finRange_eq_range, List.flatMap_map]
  exact List.flatMap_congr fun i _ => unexportActs_eq_giveBack _ hs

theorem unexportAllActs_unexports {d : Dev} (hu : d.gpio.hUnexport = .opened) :
    d.unexportAllActs.filterMap Action.unexports = d.exportedLines := by
  unfold Dev.unexportAllActs Dev.exportedLines
  rw [List.filterMap_flatMap, List.filterMap_eq_flatMap_toList]
  exact List.flatMap_congr fun i _ => unexportActs_unexports i hu

/-- Outside the filesystem backend no pin is given back. -/
theorem gpioUnexportAll_idle {d : Dev} (hb : d.gpio.backend ≠ .filesystem) : gpioUnexportAll d = d := by
  rw [gpioUnexportAll_foldl]
  induction List.finRange 64 with
  | nil => rfl
  | cons i l ih => rw [List.foldl_cons, gpioUnexportPin_idle (pinIndex_ofNat i) (.inl hb), ih]

/-- A settled pin that is not exported has no handle. -/
theorem settled_empty {x : PinFiles} (hs : x.settled = true) (hx : x.exported = false) : x = { } := by
  simp only [PinFiles.settled, Bool.or_eq_true, beq_iff_eq] at hs
  rcases hs with h | rfl
  · exact h
  · cases hx

/-- After `unexportAll` under the filesystem backend a mapped pin that was exported has no handle. -/
theorem gpioUnexportAll_exported {d : Dev} (hb : d.gpio.backend = .filesystem) {j : Fin 64}
    (he : (d.cfg.entry j.val).isSome = true) (hx : (d.gpio.pin j).exported = true) :
    (gpioUnexportAll d).gpio.pin j = { } := by
  obtain ⟨-, hmoves, hclear⟩ := gpioUnexportAll_spec d
  rcases hmoves j with h | h
  · have hn := hclear hb j he
    rw [h, hx] at hn
    cases hn
  · exact h

theorem gpioUnexportAll_settled {d : Dev} (hs : d.Settled) (j : Fin 64) : (gpioUnexportAll d).gpio.pin j = { } := by
  cases hx : (d.gpio.pin j).exported with
  | false =>
    rcases (gpioUnexportAll_spec d).2.1 j with h | h
    · rw [h]; exact settled_empty (hs.pins j) hx
    · exact h
  | true =>
    have hb : d.gpio.backend = .filesystem := by
      by_contra hb
      exact nomatch (hs.exports hb j).symm.trans hx
    exact gpioUnexportAll_exported hb (hs.board j hx) hx

/-! ## The commands -/

/-- The strings that `unexport` receives from a command whose operation makes the actions `acts`. -/
theorem Env.Does.finish_unexports {acts : List Action} {s : State} {d : Dev} (h : Env.Does acts s.dev.env d.env)
    (e : ErrCode) (x y : Option Word) :
    (s.dev.actionsSince (State.finish e x y { s with dev := d }).dev).filterMap Action.unexports =
      acts.filterMap Action.unexports := by
  rw [finish_actions h.reaches, h.actionsSince, List.filterMap_append]
  exact List.append_nil _

theorem exec_unexportAll (s : State) :
    exec .unexportAll s = .next (State.finish .ok none none { s with dev := gpioUnexportAll s.dev }) := by
  rw [exec, execUnexportAll, State.run]

/-- Settles O34: `gpioUnexportPin_does` for a pin whose files are open, `gpioUnexportPin_idle` for the others. -/
theorem unexportGivesThePinBack : Obligations.UnexportGivesThePinBack := by
  refine ⟨fun s p i e hb hv hfull => ?_, fun s p i hi h => ⟨_, rfl, run_noEffect (gpioUnexportPin_idle hi h)⟩⟩
  have hx : (s.dev.gpio.pin i).exported = true := by rw [hfull]; rfl
  have hdoes := gpioUnexportPin_does p hb
  have hspare := unexportActs_spare s.dev p
  have hacts : s.dev.unexportActs p =
      [.fileClose (.pinFile i .direction), .fileClose (.pinFile i .pull), .fileClose (.pinFile i .value)] ++
      (if s.dev.gpio.hUnexport = .opened then [.fileWrite .unexportFile (decLine e.hw)] else []) := by
    unfold Dev.unexportActs
    simp only [hv, hx, if_true]
    rw [hfull, acts_eq_ite s.dev.gpio.hUnexport]
    rfl
  rcases gpioUnexportPin_cases p s.dev with ⟨-, hno⟩ | ⟨j, e', hv', -, -, hp, hempty⟩
  · exact nomatch (hno hb i e hv).symm.trans hx
  · cases hv.symm.trans hv'
    exact ⟨_, rfl, finish_ends hp.env hp.cfg _ none none,
      (hdoes.finish_trace (fun a ha => (hspare a ha).1) _ _ _).trans hacts, hempty, hp.pins, hp.backend, hp.hExport,
      hp.hUnexport, hp.bus, hp.crc, finish_samePins (hdoes.samePins fun a ha => (hspare a ha).2) _ _ _⟩

/-- Settles O35: `gpioUnexportAll_does` gives the actions, `gpioUnexportAll_spec` what becomes of the units. -/
theorem unexportAllInAscendingOrder : Obligations.UnexportAllInAscendingOrder := by
  refine fun s => ⟨fun hb => ⟨_, exec_unexportAll s, ?_⟩, fun hb => ?_⟩
  · rw [gpioUnexportAll_idle hb]
    exact finish_noEffect s .ok none none
  have hexec := exec_unexportAll s
  obtain ⟨hp, -, hclear⟩ := gpioUnexportAll_spec s.dev
  have hdoes := gpioUnexportAll_does hb
  have hgiven (i : Fin 64) := gpioUnexportAll_exported hb (j := i)
  have hempty := gpioUnexportAll_settled (d := s.dev)
  generalize gpioUnexportAll s.dev = d at *
  have hspare := unexportAllActs_spare s.dev
  have htrace := hdoes.finish_trace (fun a ha => (hspare a ha).1) .ok none none
  exact ⟨_, hexec, finish_ends hp.env hp.cfg _ none none, hclear hb, hgiven,
    fun hs => ⟨hempty hs, htrace.trans (unexportAllActs_eq_giveBackAll hs.pins)⟩, hp.backend, hp.hExport,
    hp.hUnexport, hp.bus, hp.crc, finish_samePins (hdoes.samePins fun a ha => (hspare a ha).2) _ _ _,
    fun hu => (hdoes.finish_unexports _ _ _).trans (unexportAllActs_unexports hu)⟩

end Sys2Proof.Machine
end

section
/-! PROOFS. `finalize` gives everything back and leaves the pins as they are set (rules R125, R337). -/

namespace Sys2Proof.Machine

open Sys2Proof

/-! ## The views of the pins, while the units change -/

section Views
variable {d d' : Dev} (hc : d'.cfg = d.cfg) (hm : d'.gpio.medium = d.gpio.medium) (hp : d'.env.pins = d.env.pins)
include hc hm hp

theorem pinMode_congr (p : Byte) : d'.pinMode p = d.pinMode p := by
  simp only [Env.pins, Env.behindFiles, Prod.mk.injEq] at hp
  unfold Dev.pinMode Dev.pageBit Env.setting
  rw [hc, hm, hp.1, hp.2.1]

theorem pinLevel_congr (p : Byte) : d'.pinLevel p = d.pinLevel p := by
  simp only [Env.pins, Env.behindFiles, Prod.mk.injEq] at hp
  unfold Dev.pinLevel Dev.pageBit Env.setting
  rw [hc, hm, hp.1, hp.2.1]

theorem asserted_congr (hb : d'.bus = d.bus) : d'.asserted = d.asserted := by
  unfold Dev.asserted
  simp only [hb, hc, pinMode_congr hc hm hp, pinLevel_congr hc hm hp]

theorem released_congr (hb : d'.bus = d.bus) : d'.released = d.released := by
  unfold Dev.released
  simp only [hb, hc, pinMode_congr hc hm hp, pinLevel_congr hc hm hp]

end Views

/-! ## `finalize` -/

/-- What `finalize` does between commands: nothing outside the filesystem backend, else the pins are given back and the
two global files closed (rule R125). -/
def Dev.finalizeActs (d : Dev) : List Action :=
  if d.gpio.backend = .filesystem then
    d.giveBackAll ++ (if d.gpio.hExport = .opened then [.fileClose .exportFile] else []) ++
      (if d.gpio.hUnexport = .opened then [.fileClose .unexportFile] else [])
  else []

/-- The block after `finalize`: no backend, no handle, and the settings of the pins where they were. -/
structure Dev.Finalized (d d' : Dev) : Prop where
  acts      : Env.Does d.finalizeActs d.env d'.env
  cfg       : d'.cfg = d.cfg
  bus       : d'.bus = d.bus
  crc       : d'.crc = d.crc
  backend   : d'.gpio.backend = .none
  hExport   : d'.gpio.hExport = .invalid
  hUnexport : d'.gpio.hUnexport = .invalid
  pins      : ∀ i, d'.gpio.pin i = { }
  medium    : d'.gpio.medium = d.gpio.medium

theorem closeGlobals_does (d : Dev) :
    Env.Does (d.gpio.hExport.acts [.fileClose .exportFile] ++ d.gpio.hUnexport.acts [.fileClose .unexportFile]) d.env
      (closeGlobals d).env :=
  ((fileClose_acts d.gpio.hExport .exportFile d).trans (fileClose_acts d.gpio.hUnexport .unexportFile _)).envDoes

/-- Outside the filesystem backend there is no handle to give up. -/
theorem finalized_of_no_files {d d' : Dev} (hs : d.Settled) (hb : d.gpio.backend ≠ .filesystem) (henv : d'.env = d.env)
    (hcfg : d'.cfg = d.cfg) (hbus : d'.bus = d.bus) (hcrc : d'.crc = d.crc)
    (hgpio : d'.gpio = { d.gpio with backend := .none, last := d.gpio.medium }) : Dev.Finalized d d' where
  acts := by unfold Dev.finalizeActs; rw [if_neg hb, henv]; exact .refl _
  cfg := hcfg
  bus := hbus
  crc := hcrc
  backend := by rw [hgpio]
  hExport := by rw [hgpio]; exact (hs.handles hb).1
  hUnexport := by rw [hgpio]; exact (hs.handles hb).2
  pins i := by rw [hgpio]; exact settled_empty (hs.pins i) (hs.exports hb i)
  medium := by rw [hgpio]; rfl

theorem gpioFinalize_finalized {d : Dev} (hs : d.Settled) : Dev.Finalized d (gpioFinalize d) := by
  unfold gpioFinalize
  split
  next hb =>
    refine finalized_of_no_files hs (by rw [hb]; nofun) rfl rfl rfl rfl ?_
    rw [Gpio.medium, if_pos hb, ← hb]
  next hb =>
    have hp := (gpioUnexportAll_spec d).1
    have hacts := gpioUnexportAll_does hb
    have hempty := gpioUnexportAll_settled hs
    generalize gpioUnexportAll d = d1 at *
    have hclose := closeGlobals_does d1
    obtain ⟨d2, hE, heq⟩ := closeGlobals_eq d1
    rw [heq] at hclose ⊢
    exact {
      acts := by
        rw [unexportAllActs_eq_giveBackAll hs.pins] at hacts
        unfold Dev.finalizeActs
        rw [if_pos hb, ← acts_eq_ite d.gpio.hExport, ← acts_eq_ite d.gpio.hUnexport, ← hp.hExport, ← hp.hUnexport,
          List.append_assoc]
        exact hacts.trans hclose
      cfg := hE.cfg.trans hp.cfg
      bus := hE.bus.trans hp.bus
      crc := hE.crc.trans hp.crc
      backend := rfl
      hExport := rfl
      hUnexport := rfl
      pins := fun i => (congrArg (Gpio.pin · i) hE.gpio).trans (hempty i)
      medium := by
        have hb2 : d2.gpio.backend = .filesystem := by rw [hE.gpio, hp.backend, hb]
        rw [giveUpBackend_medium, medium_eq hb nofun]
        exact medium_eq hb2 nofun }
  next hb => exact finalized_of_no_files hs (by rw [hb]; nofun) rfl rfl rfl rfl rfl

theorem finalizeActs_spare {d : Dev} (hs : d.Settled) : ∀ a ∈ d.finalizeActs, a.Traced ∧ a.Spares Env.pins := by
  have hgive := unexportAllActs_spare d
  rw [unexportAllActs_eq_giveBackAll hs.pins] at hgive
  have hclose (h : Handle) (f : CtlFile) : ∀ a ∈ h.acts [.fileClose f], a.Traced ∧ a.Spares Env.pins :=
    forall_mem_acts (List.forall_mem_singleton.mpr ⟨⟨rfl, rfl⟩, fun _ => rfl⟩) h
  unfold Dev.finalizeActs
  split
  · rw [← acts_eq_ite d.gpio.hExport, ← acts_eq_ite d.gpio.hUnexport]
    exact List.forall_mem_append.mpr ⟨List.forall_mem_append.mpr ⟨hgive, hclose _ _⟩, hclose _ _⟩
  · exact nofun

/-- What `unexport` receives from `finalize`: the lines of the pins given back. -/
theorem finalizeActs_unexports {d : Dev} (hs : d.Settled) (hb : d.gpio.backend = .filesystem)
    (hu : d.gpio.hUnexport = .opened) : d.finalizeActs.filterMap Action.unexports = d.exportedLines := by
  unfold Dev.finalizeActs
  rw [if_pos hb, if_pos hu, List.filterMap_append, List.filterMap_append, ← unexportAllActs_eq_giveBackAll hs.pins,
    unexportAllActs_unexports hu]
  split <;> simp [Action.unexports]

theorem exec_finalize (s : State) :
    exec .finalize s = .next (State.finish .ok none none { s with dev := gpioFinalize s.dev }) := by
  rw [exec, execFinalize, State.run]

/-- Settles O29: `gpioFinalize_finalized`; the views follow from the settings, which no action of `finalize` touches. -/
theorem finalizeReleasesEverything : Obligations.FinalizeReleasesEverything := by
  intro s hs
  have hexec := exec_finalize s
  have hf := gpioFinalize_finalized hs
  generalize gpioFinalize s.dev = d at *
  obtain ⟨hacts, hcfg, hbus, hcrc, hbackend, hexport, hunexport, hpins, hmedium⟩ := hf
  have hspare := finalizeActs_spare hs
  have houtside : d.env.pins = s.dev.env.pins := hacts.pins fun a ha => (hspare a ha).2
  have htrace := hacts.finish_trace (fun a ha => (hspare a ha).1) .ok none none
  exact ⟨_, hexec, finish_ends hacts.reaches hcfg _ none none, hbackend, hexport, hunexport, hpins, hbus, hcrc,
    finish_samePins (samePins_of_pins houtside) _ _ _,
    fun p => ⟨pinMode_congr hcfg hmedium houtside p, pinLevel_congr hcfg hmedium houtside p⟩,
    asserted_congr hcfg hmedium houtside hbus, released_congr hcfg hmedium houtside hbus,
    fun hb => htrace.trans (if_neg hb), fun hb => htrace.trans (if_pos hb),
    fun hb hu => (hacts.finish_unexports _ _ _).trans (finalizeActs_unexports hs hb hu)⟩

end Sys2Proof.Machine
end

section
/-! PROOFS. The attempts of `exportPin` (rule R126): what one attempt does, and the histories that the loop of
attempts can have, whatever the environment answers. -/

namespace Sys2Proof.Machine

open Sys2Proof

/-! ## One attempt -/

/-- The three opens of an attempt, with their answers. -/
def openThree (i : Fin 64) (a b c : Bool) : List Action :=
  [.fileOpen (.pinFile i .direction) a, .fileOpen (.pinFile i .pull) b, .fileOpen (.pinFile i .value) c]

/-- The closes of an attempt that failed: those of the files that opened. -/
def closeOpened (i : Fin 64) (a b c : Bool) : List Action :=
  (if a then [.fileClose (.pinFile i .direction)] else []) ++ (if b then [.fileClose (.pinFile i .pull)] else []) ++
    (if c then [.fileClose (.pinFile i .value)] else [])

/-- An attempt with given answers (rule R126, step 6). -/
def attemptActs (i : Fin 64) (a b c : Bool) : List Action :=
  openThree i a b c ++ (if a && b && c then [] else closeOpened i a b c)

theorem attemptActs_success {i : Fin 64} {a b c : Bool} (h : (a && b && c) = true) :
    attemptActs i a b c = openThree i a b c := by
  rw [attemptActs, if_pos h, List.append_nil]

theorem attemptActs_failed {i : Fin 64} {a b c : Bool} (h : (a && b && c) = false) :
    attemptActs i a b c = openThree i a b c ++ closeOpened i a b c := by
  rw [attemptActs, if_neg (by rw [h]; nofun)]

/-- The handle that an answer gives (rule R66). -/
def handleOf (b : Bool) : Handle := if b then .opened else .invalid

theorem handleOf_acts (b : Bool) (l : List Action) : (handleOf b).acts l = if b then l else [] := by cases b <;> rfl

theorem closeHandles_draws (i : Fin 64) (hd hp hv : Handle) (d : Dev) :
    (closeHandles i hd hp hv d).env.draws = d.env.draws := by
  have hclose (h : Handle) (f : CtlFile) (d : Dev) : (fileClose h f d).env.draws = d.env.draws := by cases h <;> rfl
  unfold closeHandles
  rw [hclose, hclose, hclose]

/-- The block after the three opens of an attempt. -/
def afterOpens (i : Fin 64) (d : Dev) : Dev :=
  (fileOpen (.pinFile i .value) (fileOpen (.pinFile i .pull) (fileOpen (.pinFile i .direction) d).2).2).2

/-- An attempt ends well exactly when all three files open. -/
theorem attempt_result (i : Fin 64) (a b c : Bool) (d : Dev) :
    (if handleOf a = .opened ∧ handleOf b = .opened ∧ handleOf c = .opened then
      (true, setPinFiles i { exported := true, hDir := handleOf a, hPull := handleOf b, hValue := handleOf c } d)
    else (false, closeHandles i (handleOf a) (handleOf b) (handleOf c) d)) =
    if a && b && c then (true, setPinFiles i PinFiles.full d)
    else (false, closeHandles i (handleOf a) (handleOf b) (handleOf c) d) := by
  cases a <;> cases b <;> cases c <;> rfl

/-- An attempt opens the three files; the answers are those the environment has queued, in order. -/
theorem exportAttempt_opens (i : Fin 64) (d : Dev) : ∃ a b c, Dev.Does (openThree i a b c) d (afterOpens i d) ∧
    (∀ a' b' c' rest, d.env.draws.opens = a' :: b' :: c' :: rest →
      (a = a' ∧ b = b' ∧ c = c') ∧ (afterOpens i d).env.draws.opens = rest) ∧
    exportAttempt i d = if a && b && c then (true, setPinFiles i PinFiles.full (afterOpens i d))
      else (false, closeHandles i (handleOf a) (handleOf b) (handleOf c) (afterOpens i d)) := by
  refine ⟨_, _, _, ((fileOpen_does _ d).trans (fileOpen_does _ _)).trans (fileOpen_does _ _), ?_,
    attempt_result i _ _ _ (afterOpens i d)⟩
  intro a b c rest h
  obtain ⟨ha, h⟩ := fileOpen_queued (.pinFile i .direction) h
  obtain ⟨hb, h⟩ := fileOpen_queued (.pinFile i .pull) h
  obtain ⟨hc, h⟩ := fileOpen_queued (.pinFile i .value) h
  exact ⟨⟨ha, hb, hc⟩, h⟩

/-- What one attempt does: the opens, and where one of them failed the closes of the others. -/
theorem exportAttempt_does (i : Fin 64) (d : Dev) : ∃ a b c, (exportAttempt i d).1 = (a && b && c) ∧
    Env.Does (attemptActs i a b c) d.env (exportAttempt i d).2.env ∧
    (∀ a' b' c' rest, d.env.draws.opens = a' :: b' :: c' :: rest →
      (a = a' ∧ b = b' ∧ c = c') ∧ (exportAttempt i d).2.env.draws.opens = rest) ∧
    ((a && b && c) = false → Dev.EnvOnly d (exportAttempt i d).2) := by
  obtain ⟨a, b, c, hopen, hqueue, heq⟩ := exportAttempt_opens i d
  refine ⟨a, b, c, ?_⟩
  cases habc : a && b && c with
  | true =>
    rw [heq, habc, if_pos rfl, attemptActs_success habc]
    exact ⟨rfl, hopen.envDoes, hqueue, nofun⟩
  | false =>
    have hclose := hopen.trans (closeHandles_does i (handleOf a) (handleOf b) (handleOf c) (afterOpens i d))
    simp only [handleOf_acts] at hclose
    rw [heq, habc, if_neg nofun, attemptActs_failed habc]
    refine ⟨rfl, hclose.envDoes, fun a' b' c' rest h => ?_, fun _ => hclose.envOnly⟩
    rw [closeHandles_draws]
    exact hqueue a' b' c' rest h

/-! ## The loop -/

theorem exportLoop_success {i : Fin 64} {n : Nat} {d : Dev} (h : (exportAttempt i d).1 = true) :
    exportLoop i (n + 1) d = (true, (exportAttempt i d).2) := if_pos h

theorem exportLoop_last {i : Fin 64} {d : Dev} (h : (exportAttempt i d).1 = false) :
    exportLoop i 1 d = (false, (exportAttempt i d).2) := by
  unfold exportLoop
  dsimp only
  rw [h]
  rfl

theorem exportLoop_again {i : Fin 64} {n : Nat} {d : Dev} (h : (exportAttempt i d).1 = false) :
    exportLoop i (n + 2) d = exportLoop i (n + 1) (sleepNs d.cfg.exportBackoffNs (exportAttempt i d).2) := by
  conv_lhs => unfold exportLoop
  dsimp only
  rw [h]
  rfl

/-- A loop of attempts that failed has moved only the environment. -/
theorem exportLoop_failed_envOnly (i : Fin 64) (n : Nat) (d : Dev) (h : (exportLoop i n d).1 = false) :
    Dev.EnvOnly d (exportLoop i n d).2 := by
  induction n generalizing d with
  | zero => exact .refl d
  | succ n ih =>
    obtain ⟨a, b, c, hok, -, -, hE⟩ := exportAttempt_does i d
    cases habc : a && b && c with
    | true =>
      rw [exportLoop_success (hok.trans habc)] at h
      cases h
    | false =>
      have hfail := hok.trans habc
      cases n with
      | zero => rw [exportLoop_last hfail]; exact hE habc
      | succ n =>
        rw [exportLoop_again hfail] at h ⊢
        exact ((hE habc).trans (sleepNs_envOnly _ _)).trans (ih _ h)

/-- The histories of the loop of attempts, by the number of attempts it may make and whether it succeeds. -/
inductive ExportHistory (i : Fin 64) (backoff : Nat) : Nat → Bool → List Action → Prop where
  /-- Where no attempt may be made none is made. -/
  | none : ExportHistory i backoff 0 false []
  /-- An attempt in which all three files open is the last one. -/
  | success {n : Nat} {a b c : Bool} (h : (a && b && c) = true) :
      ExportHistory i backoff (n + 1) true (attemptActs i a b c)
  /-- After the last attempt there is no backoff (decision D19). -/
  | last {a b c : Bool} (h : (a && b && c) = false) : ExportHistory i backoff 1 false (attemptActs i a b c)
  /-- Between two attempts there is a backoff. -/
  | again {n t : Nat} {a b c ok : Bool} {l : List Action} (h : (a && b && c) = false)
      (hl : ExportHistory i backoff (n + 1) ok l) :
      ExportHistory i backoff (n + 2) ok (attemptActs i a b c ++ .sleep backoff t :: l)

/-- The loop has one of these histories, which begins with the attempt whose answers are queued first. -/
theorem exportLoop_history (i : Fin 64) (n : Nat) (d : Dev) : ∃ l,
    ExportHistory i d.cfg.exportBackoffNs n (exportLoop i n d).1 l ∧ Env.Does l d.env (exportLoop i n d).2.env ∧
    ∀ a b c rest, 0 < n → d.env.draws.opens = a :: b :: c :: rest → attemptActs i a b c <+: l := by
  induction n generalizing d with
  | zero => exact ⟨[], .none, .refl _, fun a b c rest h => absurd h (Nat.lt_irrefl 0)⟩
  | succ n ih =>
    obtain ⟨a, b, c, hok, hdoes, hqueue, hE⟩ := exportAttempt_does i d
    have hfirst (l : List Action) : ∀ a' b' c' rest, 0 < n + 1 → d.env.draws.opens = a' :: b' :: c' :: rest →
        attemptActs i a' b' c' <+: attemptActs i a b c ++ l := by
      intro a' b' c' rest _ h
      obtain ⟨⟨rfl, rfl, rfl⟩, -⟩ := hqueue a' b' c' rest h
      exact List.prefix_append _ _
    cases habc : a && b && c with
    | true =>
      rw [exportLoop_success (hok.trans habc)]
      exact ⟨_, .success habc, hdoes, by simpa using hfirst []⟩
    | false =>
      have hfail := hok.trans habc
      cases n with
      | zero =>
        rw [exportLoop_last hfail]
        exact ⟨_, .last habc, hdoes, by simpa using hfirst []⟩
      | succ n =>
        have hsleep := sleepNs_does d.cfg.exportBackoffNs (exportAttempt i d).2
        obtain ⟨l, hl, hldoes, -⟩ := ih (sleepNs d.cfg.exportBackoffNs (exportAttempt i d).2)
        rw [hsleep.cfg, (hE habc).cfg] at hl
        rw [exportLoop_again hfail]
        exact ⟨_, .again habc hl, hdoes.trans (hsleep.envDoes.trans hldoes), hfirst _⟩

/-! ## What the histories have in common -/

/-- An action of the loop of attempts: in the traces, on a file but for the backoffs, and harmless to the settings. -/
structure Action.InExport (backoff : Nat) (a : Action) : Prop where
  traced    : a.Traced
  spares    : a.Spares Env.settings
  unexports : a.unexports = none
  sleeps    : a.isFile = false → a.untimed = .sleep backoff 0

theorem attemptActs_inExport (i : Fin 64) (a b c : Bool) (backoff : Nat) :
    ∀ x ∈ attemptActs i a b c, x.InExport backoff := by
  have hopen (k : PinFile) (ok : Bool) : (Action.fileOpen (.pinFile i k) ok).InExport backoff :=
    ⟨⟨rfl, rfl⟩, fun _ => by cases ok <;> cases k <;> rfl, rfl, nofun⟩
  have hclose (k : PinFile) (ok : Bool) : ∀ x ∈ (if ok then [Action.fileClose (.pinFile i k)] else []),
      x.InExport backoff := by
    cases ok with
    | false => exact nofun
    | true => exact List.forall_mem_singleton.mpr ⟨⟨rfl, rfl⟩, fun _ => rfl, rfl, nofun⟩
  refine List.forall_mem_append.mpr ⟨?_, ?_⟩
  · simp only [openThree, List.forall_mem_cons]
    exact ⟨hopen _ _, hopen _ _, hopen _ _, nofun⟩
  · split
    · exact nofun
    · exact List.forall_mem_append.mpr ⟨List.forall_mem_append.mpr ⟨hclose _ _, hclose _ _⟩, hclose _ _⟩

/-- The answer of an attempt for each of the three files. -/
def answerOf (a b c : Bool) : PinFile → Bool
  | .direction => a
  | .pull => b
  | .value => c

theorem openThree_count (i : Fin 64) (a b c : Bool) (k : PinFile) (ok : Bool) :
    (openThree i a b c).count (.fileOpen (.pinFile i k) ok) = if answerOf a b c k = ok then 1 else 0 := by
  cases k <;> simp [openThree, answerOf, List.count_cons] <;> rfl

theorem closeOpened_count (i : Fin 64) (a b c : Bool) (k : PinFile) :
    (closeOpened i a b c).count (.fileClose (.pinFile i k)) = if answerOf a b c k then 1 else 0 := by
  have hone (ok : Bool) (j : PinFile) : (if ok then [Action.fileClose (.pinFile i j)] else []).count
      (.fileClose (.pinFile i k)) = if ok = true ∧ j = k then 1 else 0 := by cases ok <;> simp [List.count_cons]
  simp only [closeOpened, List.count_append, hone]
  cases k <;> simp [answerOf] <;> rfl

/-- Opens and closes are different actions. -/
theorem closeOpened_count_open (i : Fin 64) (a b c : Bool) (f : CtlFile) (ok : Bool) :
    (closeOpened i a b c).count (.fileOpen f ok) = 0 := by
  simp only [closeOpened, List.count_eq_zero, List.mem_append, not_or]
  refine ⟨⟨?_, ?_⟩, ?_⟩ <;> split <;> simp

theorem openThree_count_close (i : Fin 64) (a b c : Bool) (f : CtlFile) :
    (openThree i a b c).count (.fileClose f) = 0 := by simp [openThree]

theorem attemptActs_count_open (i : Fin 64) (a b c : Bool) (k : PinFile) (ok : Bool) :
    (attemptActs i a b c).count (.fileOpen (.pinFile i k) ok) = if answerOf a b c k = ok then 1 else 0 := by
  cases h : a && b && c with
  | true => rw [attemptActs_success h, openThree_count]
  | false => rw [attemptActs_failed h, List.count_append, openThree_count, closeOpened_count_open]; rfl

/-- Each file is opened once in an attempt. -/
theorem attemptActs_opens (i : Fin 64) (a b c : Bool) (k : PinFile) :
    (attemptActs i a b c).count (.fileOpen (.pinFile i k) true) +
      (attemptActs i a b c).count (.fileOpen (.pinFile i k) false) = 1 := by
  rw [attemptActs_count_open, attemptActs_count_open]
  cases answerOf a b c k <;> rfl

/-- A file that opened in an attempt is closed again, unless the attempt succeeds. -/
theorem attemptActs_closes (i : Fin 64) (a b c : Bool) (k : PinFile) :
    (attemptActs i a b c).count (.fileOpen (.pinFile i k) true) =
      (attemptActs i a b c).count (.fileClose (.pinFile i k)) + if a && b && c then 1 else 0 := by
  rw [attemptActs_count_open]
  cases h : a && b && c with
  | true =>
    have hall : (a = true ∧ b = true) ∧ c = true := by simpa using h
    obtain ⟨⟨rfl, rfl⟩, rfl⟩ := hall
    cases k <;> rfl
  | false =>
    rw [attemptActs_failed h, List.count_append, openThree_count_close, closeOpened_count, Nat.zero_add]
    rfl

theorem attemptActs_files (i : Fin 64) (a b c : Bool) : (attemptActs i a b c).filter (fun x => !x.isFile) = [] := by
  have hclose (ok : Bool) (f : CtlFile) :
      (if ok then [Action.fileClose f] else []).filter (fun x => !x.isFile) = [] := by
    cases ok <;> rfl
  cases h : a && b && c with
  | true => rw [attemptActs_success h]; rfl
  | false => simp only [attemptActs_failed h, closeOpened, List.filter_append, hclose]; rfl

/-- A backoff is no action on a file. -/
theorem count_sleep_cons {x : Action} (hx : x.isFile = true) (n t : Nat) (l : List Action) :
    (Action.sleep n t :: l).count x = l.count x :=
  List.count_cons_of_ne fun h => by rw [← h] at hx; cases hx

section History
variable {i : Fin 64} {backoff n : Nat} {ok : Bool} {l : List Action}

theorem ExportHistory.inExport (h : ExportHistory i backoff n ok l) : ∀ x ∈ l, x.InExport backoff := by
  induction h with
  | none => exact nofun
  | success _ => exact attemptActs_inExport i _ _ _ backoff
  | last _ => exact attemptActs_inExport i _ _ _ backoff
  | again _ _ ih =>
    refine List.forall_mem_append.mpr ⟨attemptActs_inExport i _ _ _ backoff, List.forall_mem_cons.mpr ⟨?_, ih⟩⟩
    exact ⟨⟨rfl, rfl⟩, fun _ => rfl, rfl, fun _ => rfl⟩

/-- Each file is closed as often as it opened, but for the handles that an exported pin keeps. -/
theorem ExportHistory.closes (h : ExportHistory i backoff n ok l) (k : PinFile) :
    l.count (.fileOpen (.pinFile i k) true) = l.count (.fileClose (.pinFile i k)) + if ok then 1 else 0 := by
  induction h with
  | none => rfl
  | success h => rw [attemptActs_closes, h]
  | last h => rw [attemptActs_closes, h]
  | @again n t a b c ok l h _ ih =>
    have hfirst := attemptActs_closes i a b c k
    rw [h, if_neg nofun, Nat.add_zero] at hfirst
    rw [List.count_append, List.count_append, count_sleep_cons rfl, count_sleep_cons rfl, hfirst, ih, Nat.add_assoc]

/-- The attempts made are all that may be made where the loop fails; each opens every file once, and between two of them
there is a backoff. -/
theorem ExportHistory.rounds (h : ExportHistory i backoff n ok l) :
    ∃ m, m ≤ n ∧ (0 < n → 0 < m) ∧ (ok = false → m = n) ∧
    (∀ k, l.count (.fileOpen (.pinFile i k) true) + l.count (.fileOpen (.pinFile i k) false) = m) ∧
    (l.filter fun x => !x.isFile).length = m - 1 := by
  induction h with
  | none => exact ⟨0, le_refl 0, id, fun _ => rfl, fun _ => rfl, rfl⟩
  | success _ =>
    exact ⟨1, Nat.le_add_left 1 _, fun _ => Nat.one_pos, nofun, attemptActs_opens i _ _ _,
      by rw [attemptActs_files]; rfl⟩
  | last _ =>
    exact ⟨1, le_refl 1, id, fun _ => rfl, attemptActs_opens i _ _ _, by rw [attemptActs_files]; rfl⟩
  | @again n t a b c ok l _ _ ih =>
    obtain ⟨m, hle, hpos, hall, hopens, hsleeps⟩ := ih
    have hpos := hpos (Nat.succ_pos _)
    refine ⟨m + 1, Nat.succ_le_succ hle, fun _ => Nat.succ_pos m, fun hok => congrArg _ (hall hok), fun k => ?_, ?_⟩
    · have hfirst := attemptActs_opens i a b c k
      have hrest := hopens k
      rw [List.count_append, List.count_append, count_sleep_cons rfl, count_sleep_cons rfl]
      omega
    · rw [List.filter_append, attemptActs_files, List.nil_append, List.filter_cons_of_pos rfl, List.length_cons,
        hsleeps]
      omega

end History

end Sys2Proof.Machine
end

section
/-! PROOFS. `exportPin` (rules R126, R128): the number written to `export`, the attempts, and where they all fail the
number written to `unexport`. -/

namespace Sys2Proof.Machine

open Sys2Proof

/-! ## The whole operation -/

section ExportPin
variable {d : Dev} {p : Byte} {i : Fin 64} {e : PinEntry}

/-- The loop of attempts that `exportPin` runs on a pin it has to export. -/
def exportRun (i : Fin 64) (e : PinEntry) (d : Dev) : Bool × Dev := exportLoop i d.cfg.exportAttempts (writeExport e d)

theorem gpioExportPin_runs (hb : d.gpio.backend = .filesystem) (hv : validPin d.cfg p = some (i, e))
    (hx : (d.gpio.pin i).exported = false) :
    gpioExportPin p d = if (exportRun i e d).1 then (.ok, (exportRun i e d).2)
      else (.resourceUnavailable, writeUnexport e (exportRun i e d).2) := by
  unfold gpioExportPin
  rw [if_neg (not_not.mpr hb), hv]
  exact if_neg (by rw [hx]; nofun)

theorem writeExport_draws (e : PinEntry) (d : Dev) : (writeExport e d).env.draws = d.env.draws := by
  unfold writeExport
  cases d.gpio.hExport with
  | invalid => rfl
  | opened => exact effect_keeps_draws _ _

/-- What `exportPin` does up to the end of its attempts. -/
theorem exportRun_history (i : Fin 64) (e : PinEntry) (d : Dev) : ∃ l,
    ExportHistory i d.cfg.exportBackoffNs d.cfg.exportAttempts (exportRun i e d).1 l ∧
    Env.Does (d.gpio.hExport.acts [.fileWrite .exportFile (decLine e.hw)] ++ l) d.env (exportRun i e d).2.env ∧
    ∀ a b c rest, 0 < d.cfg.exportAttempts → d.env.draws.opens = a :: b :: c :: rest → attemptActs i a b c <+: l := by
  have hwrite := writeExport_does e d
  obtain ⟨l, hl, hdoes, hfirst⟩ := exportLoop_history i d.cfg.exportAttempts (writeExport e d)
  rw [hwrite.cfg] at hl
  rw [writeExport_draws] at hfirst
  exact ⟨l, hl, hwrite.envDoes.trans hdoes, hfirst⟩

/-- The attempts touch the files of the pin only, and leave it exported or as it was. -/
theorem exportRun_spec (i : Fin 64) (e : PinEntry) (d : Dev) : Dev.PinOnly i d (exportRun i e d).2 ∧
    (exportRun i e d).2.gpio.pin i = if (exportRun i e d).1 then PinFiles.full else d.gpio.pin i := by
  have hwrite := writeExport_envOnly e d
  obtain ⟨hp, hi⟩ := exportLoop_spec i d.cfg.exportAttempts (writeExport e d)
  rw [hwrite.gpio] at hi
  exact ⟨.trans (.of_envOnly hwrite) hp, hi⟩

/-- What `exportPin` hands to `unexport`: the pin's line, where the attempts failed and the file is open. -/
def unexportLine (ok : Bool) (h : Handle) (e : PinEntry) : List Action :=
  if ok then [] else h.acts [.fileWrite .unexportFile (decLine e.hw)]

/-- The actions of `exportPin`, with those of its attempts in the middle. -/
def exportActs (d : Dev) (e : PinEntry) (ok : Bool) (l : List Action) : List Action :=
  d.gpio.hExport.acts [.fileWrite .exportFile (decLine e.hw)] ++ l ++ unexportLine ok d.gpio.hUnexport e

/-- The actions of `exportPin` on a pin it has to export, its outcome and the files of the pin. -/
theorem gpioExportPin_history (hb : d.gpio.backend = .filesystem) (hv : validPin d.cfg p = some (i, e))
    (hx : (d.gpio.pin i).exported = false) : ∃ ok l,
    ExportHistory i d.cfg.exportBackoffNs d.cfg.exportAttempts ok l ∧
    Env.Does (exportActs d e ok l) d.env (gpioExportPin p d).2.env ∧
    (gpioExportPin p d).1 = (if ok then .ok else .resourceUnavailable) ∧
    (gpioExportPin p d).2.gpio.pin i = (if ok then PinFiles.full else d.gpio.pin i) ∧
    Dev.PinOnly i d (gpioExportPin p d).2 ∧
    ∀ a b c rest, 0 < d.cfg.exportAttempts → d.env.draws.opens = a :: b :: c :: rest → attemptActs i a b c <+: l := by
  obtain ⟨l, hl, hdoes, hfirst⟩ := exportRun_history i e d
  obtain ⟨hp, hi⟩ := exportRun_spec i e d
  have hruns := gpioExportPin_runs hb hv hx
  refine ⟨(exportRun i e d).1, l, hl, ?_⟩
  cases hok : (exportRun i e d).1 with
  | true =>
    rw [hok, if_pos rfl] at hruns hi
    rw [hruns, exportActs, unexportLine, if_pos rfl, List.append_nil]
    exact ⟨hdoes, rfl, hi, hp, hfirst⟩
  | false =>
    have hwrite := writeUnexport_does e (exportRun i e d).2
    rw [hok, if_neg nofun] at hruns hi
    rw [hruns, exportActs, unexportLine, if_neg nofun, ← hp.hUnexport]
    exact ⟨hdoes.trans hwrite.envDoes, rfl, (congrArg (Gpio.pin · i) hwrite.gpio).trans hi,
      hp.trans (.of_envOnly hwrite.envOnly), hfirst⟩

theorem exec_exportPin (p : Byte) (s : State) : exec (.exportPin p) s =
    .next (State.finish (gpioExportPin p s.dev).1 none none { s with dev := (gpioExportPin p s.dev).2 }) := by
  rw [exec, execExportPin, State.runWith]

end ExportPin

/-! ## The first attempt succeeds -/

theorem exportRun_success {i : Fin 64} {e : PinEntry} {d : Dev} {rest : List Bool} (hn : 0 < d.cfg.exportAttempts)
    (hq : d.env.draws.opens = true :: true :: true :: rest) : (exportRun i e d).1 = true ∧
    Env.Does (d.gpio.hExport.acts [.fileWrite .exportFile (decLine e.hw)] ++ openThree i true true true) d.env
      (exportRun i e d).2.env := by
  obtain ⟨a, b, c, hok, hdoes, hqueue, -⟩ := exportAttempt_does i (writeExport e d)
  rw [writeExport_draws] at hqueue
  obtain ⟨⟨rfl, rfl, rfl⟩, -⟩ := hqueue _ _ _ _ hq
  obtain ⟨n, hn⟩ := Nat.exists_eq_succ_of_ne_zero (Nat.ne_of_gt hn)
  unfold exportRun
  rw [hn, exportLoop_success hok]
  exact ⟨rfl, (writeExport_does e d).envDoes.trans hdoes⟩


theorem writeExport_inExport (h : Handle) (t : String) (backoff : Nat) :
    ∀ a ∈ h.acts [.fileWrite .exportFile t], a.InExport backoff :=
  forall_mem_acts (List.forall_mem_singleton.mpr ⟨⟨rfl, rfl⟩, fun _ => rfl, rfl, nofun⟩) h

theorem Env.Does.settings {acts : List Action} {e e' : Env} (h : Env.Does acts e e')
    (hs : ∀ a ∈ acts, a.Spares Env.settings) : e'.settings = e.settings := by
  rw [h.2]
  exact performAll_spares hs e

/-- Exporting leaves the page alone (rule R60). -/
theorem gpioExportPin_page {p : Byte} {d : Dev} (hb : d.gpio.backend = .filesystem) :
    (gpioExportPin p d).2.env.page = d.env.page := (gpioExportPin_exclusive p d).under.page (by rw [hb]; nofun)

/-- Settles O30: `exportRun_success` gives the actions, `exportRun_spec` the units. -/
theorem exportAtTheFirstAttempt : Obligations.ExportAtTheFirstAttempt := by
  intro s p i e rest hb hv hx hn hq
  have hexec := exec_exportPin p s
  have hpage := gpioExportPin_page (p := p) hb
  obtain ⟨hok, hdoes⟩ := exportRun_success (i := i) (e := e) hn hq
  obtain ⟨hp, hi⟩ := exportRun_spec i e s.dev
  rw [hok, if_pos rfl] at hi
  rw [gpioExportPin_runs hb hv hx, hok, if_pos rfl] at hexec hpage
  have hacts := List.forall_mem_append.mpr ⟨writeExport_inExport s.dev.gpio.hExport (decLine e.hw) 0,
    attemptActs_inExport i true true true 0⟩
  have htrace := hdoes.finish_trace (fun a ha => (hacts a ha).traced) .ok none none
  rw [acts_eq_ite] at htrace
  exact ⟨_, hexec, finish_ends hp.env hp.cfg _ none none, htrace, hi, hp.pins, hp.backend, hp.hExport, hp.hUnexport,
    hp.bus, hp.crc, fun a => congrArg (Memory.read · a) hpage, hdoes.settings fun a ha => (hacts a ha).spares⟩

/-! ## Whatever the environment answers -/

section Acts
variable (d : Dev) (e : PinEntry) (ok : Bool) (l : List Action)

/-- Outside the attempts `exportPin` does nothing but write to the two global files. -/
theorem exportActs_filter {f : Action → Bool} (hf : ∀ g t, f (.fileWrite g t) = false) :
    (exportActs d e ok l).filter f = l.filter f := by
  have hwrite (h : Handle) (g : CtlFile) (t : String) : (h.acts [.fileWrite g t]).filter f = [] := by
    cases h with
    | invalid => rfl
    | opened => exact List.filter_eq_nil_iff.mpr (List.forall_mem_singleton.mpr (by rw [hf]; nofun))
  unfold exportActs unexportLine
  rw [List.filter_append, List.filter_append, hwrite]
  split
  · exact List.append_nil _
  · rw [hwrite]
    exact List.append_nil _

theorem exportActs_count {x : Action} (hx : ∀ g t, x ≠ .fileWrite g t) : (exportActs d e ok l).count x = l.count x := by
  simp only [List.count_eq_length_filter]
  rw [exportActs_filter d e ok l fun g t => by simpa using (hx g t).symm]

theorem exportActs_count_open (f : CtlFile) (b : Bool) :
    (exportActs d e ok l).count (.fileOpen f b) = l.count (.fileOpen f b) := exportActs_count d e ok l nofun

theorem exportActs_count_close (f : CtlFile) :
    (exportActs d e ok l).count (.fileClose f) = l.count (.fileClose f) := exportActs_count d e ok l nofun

variable {l} {backoff : Nat} (hl : ∀ a ∈ l, a.InExport backoff)
include hl

theorem exportActs_forall {P : Action → Prop} (hP : ∀ a, a.InExport backoff → P a)
    (hu : P (.fileWrite .unexportFile (decLine e.hw))) : ∀ a ∈ exportActs d e ok l, P a := by
  refine List.forall_mem_append.mpr ⟨List.forall_mem_append.mpr ⟨?_, fun a ha => hP a (hl a ha)⟩, ?_⟩
  · exact fun a ha => hP a (writeExport_inExport _ _ backoff a ha)
  · unfold unexportLine
    split
    · exact nofun
    · exact forall_mem_acts (List.forall_mem_singleton.mpr hu) _

/-- What `unexport` receives from `exportPin`: the pin's line, where the attempts failed. -/
theorem exportActs_unexports : (exportActs d e ok l).filterMap Action.unexports =
    if ok = false ∧ d.gpio.hUnexport = .opened then [decLine e.hw] else [] := by
  have hnone : (d.gpio.hExport.acts [.fileWrite .exportFile (decLine e.hw)] ++ l).filterMap Action.unexports = [] :=
    List.filterMap_eq_nil_iff.mpr (List.forall_mem_append.mpr
      ⟨fun a ha => (writeExport_inExport _ _ backoff a ha).unexports, fun a ha => (hl a ha).unexports⟩)
  rw [exportActs, List.filterMap_append, hnone, unexportLine, acts_eq_ite]
  cases ok <;> cases d.gpio.hUnexport <;> rfl

end Acts

/-- The line to `unexport` is the last action. -/
theorem exportActs_getLast (d : Dev) (e : PinEntry) (l : List Action) (hu : d.gpio.hUnexport = .opened) :
    (exportActs d e false l).getLast? = some (.fileWrite .unexportFile (decLine e.hw)) := by
  rw [exportActs, unexportLine, hu]
  exact List.getLast?_concat

/-- A first attempt that fails stands at the head of the history, after the write to `export`. -/
theorem exportActs_begin {d : Dev} {e : PinEntry} {ok : Bool} {l : List Action} {i : Fin 64} {a b c : Bool}
    (habc : (a && b && c) = false) (h : attemptActs i a b c <+: l) :
    (if d.gpio.hExport = .opened then [Action.fileWrite .exportFile (decLine e.hw)] else []) ++ openThree i a b c ++
      (if a then [Action.fileClose (.pinFile i .direction)] else []) ++
      (if b then [Action.fileClose (.pinFile i .pull)] else []) ++
      (if c then [Action.fileClose (.pinFile i .value)] else []) <+: exportActs d e ok l := by
  rw [attemptActs_failed habc, closeOpened] at h
  rw [exportActs, acts_eq_ite d.gpio.hExport]
  simp only [List.append_assoc] at h ⊢
  exact (List.prefix_append_right_inj _).mpr (h.trans (List.prefix_append _ _))

/-- Settles O32: `gpioExportPin_history` gives the actions and the units, the lemmas on `ExportHistory` what is asked of
the actions. -/
theorem exportOrGiveUp : Obligations.ExportOrGiveUp := by
  intro s p i e hb hv hx
  have hexec := exec_exportPin p s
  have hpage := gpioExportPin_page (p := p) hb
  obtain ⟨ok, l, hl, hdoes, herr, hi, hp, hfirst⟩ := gpioExportPin_history hb hv hx
  rw [herr] at hexec
  generalize (gpioExportPin p s.dev).2 = d at *
  have hin := hl.inExport
  have htrace := hdoes.finish_trace (exportActs_forall s.dev e ok hin (fun a h => h.traced) ⟨rfl, rfl⟩)
    (if ok then .ok else .resourceUnavailable) none none
  have hfailed : (if ok then ErrCode.ok else .resourceUnavailable) ≠ .ok ↔ ok = false := by cases ok <;> decide
  have hexported : (d.gpio.pin i).exported = ok := by
    rw [hi]
    cases ok with
    | false => exact hx
    | true => rfl
  obtain ⟨m, hle, -, hall, hopens, hsleeps⟩ := hl.rounds
  refine ⟨_, hexec, ?_, hp.pins, hp.backend, hp.hExport, hp.hUnexport, hp.bus, hp.crc,
    fun a => congrArg (Memory.read · a) hpage,
    hdoes.settings (exportActs_forall s.dev e ok hin (fun a h => h.spares) fun _ => rfl), ?_⟩
  · have hends := finish_ends hp.env hp.cfg (if ok then .ok else .resourceUnavailable) none none
    cases ok with
    | false => exact .inr ⟨hends, hi⟩
    | true => exact .inl ⟨hends, hi⟩
  · rw [htrace]
    refine ⟨fun k => ?_, fun a b c rest hn hq habc => exportActs_begin habc (hfirst a b c rest hn hq),
      exportActs_forall s.dev e ok hin (fun a h => h.sleeps) nofun,
      ⟨m, hle, fun h => hall (hfailed.mp h), fun k => ?_, ?_⟩, ?_, fun h hu => ?_⟩
    · rw [exportActs_count_open, exportActs_count_close, hl.closes k]
      exact congrArg (fun x : Bool => _ + if x then 1 else 0) hexported.symm
    · rw [exportActs_count_open, exportActs_count_open, hopens k]
    · rw [exportActs_filter _ _ _ _ fun _ _ => rfl, hsleeps]
    · rw [exportActs_unexports s.dev e ok hin]
      exact if_congr (and_congr_left' hfailed.symm) rfl rfl
    · cases hfailed.mp h
      exact exportActs_getLast s.dev e l hu

/-! ## No file ever opens -/

theorem drawAdvance_opens (d : Dev) : (drawAdvance d).2.env.draws.opens = d.env.draws.opens := by
  unfold drawAdvance
  split <;> rfl

theorem sleepNs_opens (n : Nat) (d : Dev) : (sleepNs n d).env.draws.opens = d.env.draws.opens :=
  (congrArg Draws.opens (effect_keeps_draws _ _)).trans (drawAdvance_opens d)

theorem sleepNs_clk (n : Nat) (d : Dev) : d.env.clk + n ≤ (sleepNs n d).env.clk := by
  rw [(sleepNs_does n d).env]
  exact Nat.le_add_right _ _

/-- The actions of a number of attempts none of which opens a file, without the times at which the backoffs end. -/
def exhaustedActs (i : Fin 64) (backoff n : Nat) : List Action :=
  (List.range n).flatMap fun k => openThree i false false false ++ (if k + 1 < n then [Action.sleep backoff 0] else [])

theorem exhaustedActs_again (i : Fin 64) (backoff n : Nat) : exhaustedActs i backoff (n + 2) =
    openThree i false false false ++ .sleep backoff 0 :: exhaustedActs i backoff (n + 1) := by
  unfold exhaustedActs
  rw [List.range_succ_eq_map, List.flatMap_cons, List.flatMap_map]
  simp

/-- Where no file opens, all attempts are made, with the backoff between each two of them. -/
theorem exportLoop_exhausted (i : Fin 64) (n : Nat) {d : Dev} {rest : List Bool}
    (hq : d.env.draws.opens = List.replicate (3 * n) false ++ rest) : (exportLoop i n d).1 = false ∧
    ∃ l, Env.Does l d.env (exportLoop i n d).2.env ∧ l.map Action.untimed = exhaustedActs i d.cfg.exportBackoffNs n ∧
      (∀ a ∈ l, a.Traced ∧ a.Spares Env.pins) ∧
      d.env.clk + (n - 1) * d.cfg.exportBackoffNs ≤ (exportLoop i n d).2.env.clk := by
  have hopens : ∀ a ∈ openThree i false false false, a.Traced ∧ a.Spares Env.pins := by
    simp only [openThree, List.forall_mem_cons]
    exact ⟨⟨⟨rfl, rfl⟩, fun _ => rfl⟩, ⟨⟨rfl, rfl⟩, fun _ => rfl⟩, ⟨⟨rfl, rfl⟩, fun _ => rfl⟩, nofun⟩
  induction n generalizing d with
  | zero => exact ⟨rfl, [], .refl _, rfl, nofun, by rw [Nat.zero_sub, Nat.zero_mul]; exact Nat.le_refl _⟩
  | succ n ih =>
    obtain ⟨a, b, c, hok, hdoes, hqueue, hE⟩ := exportAttempt_does i d
    have hthree : d.env.draws.opens = false :: false :: false :: (List.replicate (3 * n) false ++ rest) := hq
    obtain ⟨⟨rfl, rfl, rfl⟩, hrest⟩ := hqueue _ _ _ _ hthree
    have hdoes : Env.Does (openThree i false false false) d.env (exportAttempt i d).2.env := hdoes
    cases n with
    | zero =>
      rw [exportLoop_last hok]
      exact ⟨rfl, _, hdoes, rfl, hopens, by rw [Nat.sub_self, Nat.zero_mul]; exact hdoes.reaches.clk⟩
    | succ n =>
      have hsleep := sleepNs_does d.cfg.exportBackoffNs (exportAttempt i d).2
      have hcfg := hsleep.cfg.trans (hE rfl).cfg
      have hclk := sleepNs_clk d.cfg.exportBackoffNs (exportAttempt i d).2
      obtain ⟨hfail, l, hl, hmap, hspare, htime⟩ := ih ((sleepNs_opens _ _).trans hrest)
      rw [hcfg] at hmap htime
      rw [exportLoop_again hok]
      refine ⟨hfail, _, hdoes.trans (hsleep.envDoes.trans hl), ?_, ?_, ?_⟩
      · rw [List.map_append, List.map_append, hmap, exhaustedActs_again]
        rfl
      · exact List.forall_mem_append.mpr ⟨hopens, List.forall_mem_cons.mpr ⟨⟨⟨rfl, rfl⟩, fun _ => rfl⟩, hspare⟩⟩
      · have hfirst := hdoes.reaches.clk
        simp only [Nat.add_sub_cancel] at htime ⊢
        rw [Nat.succ_mul]
        omega

/-- Settles O31: `exportLoop_exhausted`; a loop that failed has moved only the environment. -/
theorem exportExhaustion : Obligations.ExportExhaustion := by
  refine ⟨⟨rfl, rfl⟩, fun s p i e rest hb hv hx hq => ?_⟩
  have hexec := exec_exportPin p s
  have hstart := writeExport_does e s.dev
  have hq' : (writeExport e s.dev).env.draws.opens = List.replicate (3 * s.dev.cfg.exportAttempts) false ++ rest := by
    rw [writeExport_draws]
    exact hq
  obtain ⟨hfail, l, hl, hmap, hspare, htime⟩ := exportLoop_exhausted i s.dev.cfg.exportAttempts hq'
  have hE := exportLoop_failed_envOnly i s.dev.cfg.exportAttempts _ hfail
  rw [gpioExportPin_runs hb hv hx, exportRun, hfail, if_neg nofun] at hexec
  generalize (exportLoop i s.dev.cfg.exportAttempts (writeExport e s.dev)).2 = d at *
  rw [hstart.cfg] at hmap htime
  have hend := writeUnexport_does e d
  have hall := (hstart.envOnly.trans hE).trans hend.envOnly
  have hdoes := (hstart.envDoes.trans hl).trans hend.envDoes
  rw [hE.gpio, hstart.gpio] at hdoes
  have hwrite (h : Handle) {f : CtlFile} (hf : f = .exportFile ∨ f = .unexportFile) :
      ∀ a ∈ h.acts [.fileWrite f (decLine e.hw)], a.Traced ∧ a.Spares Env.pins :=
    forall_mem_acts (List.forall_mem_singleton.mpr
      ⟨⟨rfl, rfl⟩, fun _ => by rcases hf with rfl | rfl <;> rfl⟩) h
  have hacts := List.forall_mem_append.mpr ⟨List.forall_mem_append.mpr
    ⟨hwrite s.dev.gpio.hExport (.inl rfl), hspare⟩, hwrite s.dev.gpio.hUnexport (.inr rfl)⟩
  have huntimed (h : Handle) (f : CtlFile) (t : String) :
      (h.acts [.fileWrite f t]).map Action.untimed = if h = .opened then [.fileWrite f t] else [] := by
    cases h <;> rfl
  refine ⟨_, hexec, finish_ends hall.env hall.cfg _ none none, ⟨hall.gpio, hall.bus, hall.crc⟩,
    finish_samePins (hdoes.samePins fun a ha => (hacts a ha).2) _ _ _, ?_, ?_⟩
  · exact (Nat.add_le_add_right hstart.clk _).trans (htime.trans hend.clk)
  · rw [hdoes.finish_trace fun a ha => (hacts a ha).1, List.map_append, List.map_append, hmap, huntimed, huntimed]
    rfl

end Sys2Proof.Machine
end

section
/-! PROOFS. The BusyWaitClock operations (41_clock.md): the clock reads and the waits they make, and how long these
last (rules R163 to R166, R169). -/

namespace Sys2Proof.Machine

open Sys2Proof

/-! ## Commands that only read the clock and wait -/

/-- The only effect outside the block is that the clock is read, at the times `ts`, and then waits of the durations `ns`
end. -/
structure State.ReadsClock (ts ns : List Nat) (s t : State) : Prop where
  units : s.dev.SameUnits t.dev
  pins  : s.dev.env.SamePins t.dev.env
  trace : s.dev.traceSince t.dev = ns.map Action.wait
  shows : (s.dev.actionsSince t.dev).filterMap Action.shows = ts

theorem clockActs_spare (ts ns : List Nat) :
    ∀ a ∈ ts.map Action.clockRead ++ ns.map Action.wait, a.Spares Env.pins :=
  List.forall_mem_append.mpr
    ⟨List.forall_mem_map.mpr fun _ _ _ => rfl, List.forall_mem_map.mpr fun _ _ _ => rfl⟩

theorem filterMap_shows_clockActs (ts ns : List Nat) :
    (ts.map Action.clockRead ++ ns.map Action.wait).filterMap Action.shows = ts := by
  have hreads : (ts.map Action.clockRead).filterMap Action.shows = ts :=
    List.filterMap_map.trans List.filterMap_some
  have hwaits : (ns.map Action.wait).filterMap Action.shows = [] :=
    List.filterMap_eq_nil_iff.mpr (List.forall_mem_map.mpr fun _ _ => rfl)
  rw [List.filterMap_append, hreads, hwaits, List.append_nil]

/-- The clock reads are no part of the trace, the ends of the waits are. -/
theorem Dev.Does.traceSince_clockActs {ts ns : List Nat} {d d' : Dev}
    (h : Dev.Does (ts.map Action.clockRead ++ ns.map Action.wait) d d') : d.traceSince d' = ns.map Action.wait := by
  rw [Dev.traceSince, h.actionsSince, List.filter_append, List.filter_eq_nil_iff.mpr ?reads,
    List.filter_eq_self.mpr ?waits, List.nil_append]
  case reads => exact List.forall_mem_map.mpr fun _ _ => nofun
  case waits => exact List.forall_mem_map.mpr fun _ _ => rfl

/-- A command whose operation reads the clock and waits, with the end every command has. -/
theorem finish_readsClock {ts ns : List Nat} {s : State} {d : Dev}
    (h : Dev.Does (ts.map Action.clockRead ++ ns.map Action.wait) s.dev d) (e : ErrCode) (x y : Option Word) :
    State.ReadsClock ts ns s (State.finish e x y { s with dev := d }) where
  units := ⟨h.gpio, h.bus, h.crc⟩
  pins := finish_samePins (h.envDoes.samePins (clockActs_spare ts ns)) e x y
  trace := (finish_trace h.envOnly.env e x y).trans h.traceSince_clockActs
  shows := by
    rw [finish_actions h.envOnly.env, h.actionsSince, List.filterMap_append, filterMap_shows_clockActs]
    exact List.append_nil ts

/-! ## The wait with no anchor -/

/-- The upper bound of rule R169, from the first clock read of the wait on. -/
theorem waitNs_clk_le {dur m : Nat} {d : Dev} (hm : d.cfg.overrunMaxNs = some m) :
    (waitNs dur d).env.clk ≤ (now d).1 + clampNs d.cfg dur + m := by
  have hcfg := (now_envOnly d).cfg
  have hstart : (now d).2.env.clk ≤ (now d).1 + clampNs d.cfg dur + m := by
    rw [(now_clk d).1]
    omega
  rw [waitNs, busyWait, hcfg]
  exact spinUntil_le _ _ _ _ (by rw [hcfg]; exact hm) hstart

/-- Settles O41: the wait with no anchor makes only clock reads and the mark of its end (`waitNs_does`), lasts long
enough (`waitNs_spec`) and keeps the bound (`waitNs_clk_le`). -/
theorem delayLastsItsDuration : Obligations.DelayLastsItsDuration := by
  intro s
  obtain ⟨ts, hdoes⟩ := waitNs_does s.opL0.toNat s.dev
  have hreads := finish_readsClock (ns := [_]) hdoes .ok none none
  exact ⟨_, rfl, finish_ends hdoes.envOnly.env hdoes.cfg .ok none none, hreads.units, hreads.pins, hreads.trace,
    (waitNs_spec _ _).2, fun _ => waitNs_clk_le⟩

/-! ## The wait with an anchor -/

theorem anchorFresh_iff (sec nsec t : Nat) : anchorFresh sec nsec t = true ↔
    nsec < nsPerSec ∧ sec * nsPerSec + nsec ≤ t ∧ t < sec * nsPerSec + nsec + nsPerSec := by
  simp only [anchorFresh, Bool.and_eq_true, decide_eq_true_eq, and_assoc]

theorem readAll_does (ns : List Nat) (d : Dev) :
    ∃ ts : List Nat, Dev.Does (ts.map Action.clockRead) d (readAll ns d) := by
  induction ns generalizing d with
  | nil => exact ⟨[], .refl d⟩
  | cons n ns ih =>
    obtain ⟨ts, h⟩ := ih (perform (.clockRead (d.env.clk + n)) d)
    exact ⟨(d.env.clk + n) :: ts, Dev.Does.trans (.perform (keepsTime_clockRead (Nat.le_add_right _ _))) h⟩

/-- The first read of a wait from an anchor, whose duration is clamped (rules R164, R166). -/
def firstRead (dur sec nsec : Nat) (d : Dev) : Nat × Dev := anchoredRead (clampNs d.cfg dur) sec nsec d

theorem firstRead_does (dur sec nsec : Nat) (d : Dev) :
    Dev.Does [.clockRead (firstRead dur sec nsec d).1] d (firstRead dur sec nsec d).2 := anchoredRead_does _ sec nsec d

section Anchored
variable {dur sec nsec : Nat} {d : Dev}

/-- The duration of a recent anchor has passed at the first read. -/
theorem anchoredWait_passed (hf : anchorFresh sec nsec (firstRead dur sec nsec d).1 = true)
    (ho : isOver (sec * nsPerSec + nsec) (clampNs d.cfg dur) (firstRead dur sec nsec d).1 = true) :
    anchoredWait dur sec nsec d = perform (.wait (clampNs d.cfg dur)) (firstRead dur sec nsec d).2 :=
  (if_pos hf).trans (if_pos ho)

/-- The duration of a recent anchor has not passed at the first read. -/
theorem anchoredWait_spins (hf : anchorFresh sec nsec (firstRead dur sec nsec d).1 = true)
    (ho : ¬ isOver (sec * nsPerSec + nsec) (clampNs d.cfg dur) (firstRead dur sec nsec d).1 = true) :
    anchoredWait dur sec nsec d =
      spinUntil (sec * nsPerSec + nsec) (clampNs d.cfg dur) (firstRead dur sec nsec d).2 :=
  (if_pos hf).trans (if_neg ho)

/-- The anchor is not recent at the first read. -/
theorem anchoredWait_stale (hf : ¬ anchorFresh sec nsec (firstRead dur sec nsec d).1 = true) :
    anchoredWait dur sec nsec d = perform (.wait (clampNs d.cfg dur))
      (readAll (Config.freeOddPolls (firstRead dur sec nsec d).2.env.draws.count)
        (countDraw (firstRead dur sec nsec d).2)) :=
  if_neg hf

/-- A wait from an anchor makes clock reads and the mark of its end; the first read is the only one where by then the
duration of a recent anchor has passed. -/
theorem anchoredWait_does (dur sec nsec : Nat) (d : Dev) : ∃ later : List Nat,
    Dev.Does (((firstRead dur sec nsec d).1 :: later).map Action.clockRead ++ [.wait (clampNs d.cfg dur)]) d
      (anchoredWait dur sec nsec d) ∧
    (anchorFresh sec nsec (firstRead dur sec nsec d).1 = true →
      sec * nsPerSec + nsec + clampNs d.cfg dur ≤ (firstRead dur sec nsec d).1 → later = []) := by
  have hread := firstRead_does dur sec nsec d
  by_cases hf : anchorFresh sec nsec (firstRead dur sec nsec d).1 = true
  · by_cases ho : isOver (sec * nsPerSec + nsec) (clampNs d.cfg dur) (firstRead dur sec nsec d).1 = true
    · rw [anchoredWait_passed hf ho]
      exact ⟨[], hread.trans (.perform (Nat.le_refl _)), fun _ _ => rfl⟩
    · rw [anchoredWait_spins hf ho]
      obtain ⟨ts, hspin⟩ := spinUntil_does (sec * nsPerSec + nsec) (clampNs d.cfg dur) (firstRead dur sec nsec d).2
      exact ⟨ts, hread.trans hspin, fun _ hle => absurd ((isOver_iff _ _ _).mpr hle) ho⟩
  · rw [anchoredWait_stale hf]
    obtain ⟨ts, hall⟩ := readAll_does (Config.freeOddPolls (firstRead dur sec nsec d).2.env.draws.count)
      (countDraw (firstRead dur sec nsec d).2)
    have hcount := Dev.Does.countDraw (firstRead dur sec nsec d).2
    exact ⟨ts, hread.trans (hcount.trans (hall.trans (.perform (Nat.le_refl _)))), fun h => absurd h hf⟩

/-- The mark of a wait's end leaves the clock alone. -/
theorem perform_wait_clk (n : Nat) (d : Dev) : (perform (.wait n) d).env.clk = d.env.clk := rfl

/-- From a recent anchor on at least the clamped duration passes (rule R164), and no longer than rule R169 allows. -/
theorem anchoredWait_clk (hf : anchorFresh sec nsec (firstRead dur sec nsec d).1 = true) :
    sec * nsPerSec + nsec + clampNs d.cfg dur ≤ (anchoredWait dur sec nsec d).env.clk ∧
    ∀ m, d.cfg.overrunMaxNs = some m → d.env.clk ≤ sec * nsPerSec + nsec + clampNs d.cfg dur + m →
      (anchoredWait dur sec nsec d).env.clk ≤ sec * nsPerSec + nsec + clampNs d.cfg dur + m := by
  have hcfg := (firstRead_does dur sec nsec d).cfg
  obtain ⟨-, hclk, hle, hbound⟩ := anchoredRead_spec (clampNs d.cfg dur) sec nsec d
  rw [← firstRead] at hclk hle hbound
  obtain ⟨hnsec, -, hlt⟩ := (anchorFresh_iff _ _ _).mp hf
  have hfirst (m : Nat) (hm : d.cfg.overrunMaxNs = some m) := hbound m hm hnsec (hle.trans_lt hlt)
  rw [← hclk] at hfirst
  by_cases ho : isOver (sec * nsPerSec + nsec) (clampNs d.cfg dur) (firstRead dur sec nsec d).1 = true
  · have hpassed := (isOver_iff _ _ _).mp ho
    rw [← hclk] at hpassed
    rw [anchoredWait_passed hf ho, perform_wait_clk]
    exact ⟨hpassed, hfirst⟩
  · rw [anchoredWait_spins hf ho]
    exact ⟨(spinUntil_spec _ _ _).2,
      fun m hm hle => spinUntil_le _ _ _ _ (by rw [hcfg]; exact hm) (hfirst m hm hle)⟩

end Anchored

/-- Settles O42: `anchoredWait_does` gives the actions, `anchoredWait_clk` the length of a wait from a recent anchor,
`anchoredRead_spec` the bound on the first read. -/
theorem anchoredDelay : Obligations.AnchoredDelay := by
  intro s
  obtain ⟨later, hdoes, honly⟩ := anchoredWait_does s.opL0.toNat s.opL1.toNat s.opL2.toNat s.dev
  have hreads := finish_readsClock (ns := [_]) hdoes .ok none none
  obtain ⟨-, -, hle, hbound⟩ := anchoredRead_spec (clampNs s.dev.cfg s.opL0.toNat) s.opL1.toNat s.opL2.toNat s.dev
  refine ⟨_, _, later, rfl, finish_ends hdoes.envOnly.env hdoes.cfg .ok none none, hreads.units, hreads.pins,
    hreads.trace, hreads.shows, hle, fun h => congrArg Prod.fst (anchoredRead_eq_now _ _ _ _ h),
    fun hnsec hfrom hto => ?_, hbound⟩
  have hfresh := (anchorFresh_iff _ _ _).mpr ⟨hnsec, hfrom, hto⟩
  obtain ⟨hlasts, hends⟩ := anchoredWait_clk hfresh
  exact ⟨hlasts, honly hfresh, hends⟩

/-! ## One read of the clock -/

/-- `NSEC` is less than a second (rule R33). -/
theorem nsecWord_le (t : Nat) : (nsecWord t).toNat ≤ 999999999 := by
  rw [nsecWord, nsPerSec, BitVec.toNat_ofNat]
  omega

/-- Settles O43: the operation is `now`, of which `now_does` gives the one action. -/
theorem clockReadIsOneRead : Obligations.ClockReadIsOneRead := by
  intro s
  have hdoes := now_does s.dev
  have hreads := finish_readsClock (ts := [_]) (ns := []) hdoes .ok (some (secWord s.dev.cfg (now s.dev).1))
    (some (nsecWord (now s.dev).1))
  exact ⟨_, rfl, finish_ends hdoes.envOnly.env hdoes.cfg .ok _ _, nsecWord_le _, (now_clk s.dev).1, hreads.units,
    hreads.pins, hreads.trace, hreads.shows⟩

end Sys2Proof.Machine
end

section
/-! PROOFS. The bound state a bus command needs, and the slots (rules R180, R186, R189, R190). -/

namespace Sys2Proof.Machine

open Sys2Proof

/-! ## The bound state -/

/-- A bus command is an ending behind the check of its bound state (rule R180). -/
theorem endingOf_wantsBound {i : Instr} {b : Bool} (hi : i.wantsBound = some b) (l0 l1 l2 : Word) (d : Dev) :
    ∃ r, endingOf i l0 l1 l2 d = .ifBound b d r := by
  cases i <;> cases hi <;> exact ⟨_, rfl⟩

/-- Settles O9: the check of `endingOf_wantsBound` fails, and a refusal has no effect but its outcome. -/
theorem wrongBoundStateIsRefused : Obligations.WrongBoundStateIsRefused := by
  intro i s b hi hb
  obtain ⟨r, hr⟩ := endingOf_wantsBound hi s.opL0 s.opL1 s.opL2 s.dev
  have hexec := exec_eq_finishAs i s
  rw [hr, Ending.ifBound, if_neg hb] at hexec
  exact ⟨_, hexec, finish_noEffect s .busState none none, rfl⟩

/-- In the right bound state a bus command is its operation. -/
theorem next_ifBound {s : State} {want : Bool} (hb : s.dev.bus.bound = want) (f : State → State) :
    (Host.Outcome.next (s.ifBound want f) : Host.Outcome State Fault Refusal) = .next (f s) :=
  congrArg Host.Outcome.next (if_pos hb)

/-! ## The slots -/

/-- Changing the bus context moves nothing outside the block (rules R186, R189). -/
theorem setBus_does (b : Bus) (d : Dev) : Env.Does [] d.env (setBus b d).env := .refl d.env

/-- A slot number of a command is the slot's place (rule R93). -/
theorem slotIndex_eq {n : BitVec 4} {k : Fin 10} (h : n.toNat = k.val) : slotIndex n = k := by
  rw [slotIndex, h]
  exact Fin.ofNat_val_eq_self k

/-- Settles O48: `setSlot` is a change of one slot of the bus context, `getSlot` no change. -/
theorem slotsAreStoredAndRead : Obligations.SlotsAreStoredAndRead := by
  intro s n k hb hn
  have hk := slotIndex_eq hn
  refine ⟨⟨_, next_ifBound hb _, ?_⟩, _, next_ifBound hb _, ?_⟩
  · have hdoes := setBus_does (s.dev.bus.setSlot (slotIndex n) s.opL0) s.dev
    have hslot (j : Fin 10) : (s.dev.bus.setSlot (slotIndex n) s.opL0).slot j =
        if k = j then s.opL0 else s.dev.bus.slot j := by rw [setSlot_slot, hk]
    exact ⟨finish_ends (d := setSlotTo _ _ s.dev) hdoes.reaches rfl _ none none, (hslot k).trans (if_pos rfl),
      fun j hj => (hslot j).trans (if_neg hj.symm), hb, rfl, rfl, rfl, rfl, rfl,
      finish_samePins (d := setSlotTo _ _ s.dev) (hdoes.samePins nofun) _ _ _,
      hdoes.finish_trace (d := setSlotTo _ _ s.dev) nofun _ _ _⟩
  · have hread := runWith_noEffect (s := s) (f := fun d => (.ok, some (d.bus.slot (slotIndex n)), d)) rfl
    rw [hk] at hread ⊢
    exact hread

/-! ## The bus context that opening a bus leaves -/

theorem owOpenSimple_bus (c : BusCfg) (p : Byte) (slots : Vector Word 10) (d : Dev) :
    (owOpenSimple c p slots d).2.2.bus = { bound := true, cfg := c, pinIo := p, pinOut := 0xFF, slots := slots } := by
  have hexport := (gpioExportPin_pinsOnly p (bindBus c p 0xFF slots d)).bus
  have hpull := (owPullUp_envOnly (gpioExportPin p (bindBus c p 0xFF slots d)).2).bus
  rw [hexport] at hpull
  exact congrArg (fun b : Bus => { b with bound := true }) hpull

theorem owOpenBuffered_bus (p q : Byte) (d : Dev) : (owOpenBuffered p q d).2.2.bus =
    { bound := true, cfg := .buffered, pinIo := p, pinOut := q, slots := slotsOf d.cfg.tunableNs } := by
  have hp := (gpioExportPin_pinsOnly p (bindBus .buffered p q (slotsOf d.cfg.tunableNs) d)).bus
  have hq := (gpioExportPin_pinsOnly q (gpioExportPin p (bindBus .buffered p q (slotsOf d.cfg.tunableNs) d)).2).bus
  have hset := (((gpioSetMode_envOnly p .input (gpioExportPin q
    (gpioExportPin p (bindBus .buffered p q (slotsOf d.cfg.tunableNs) d)).2).2).trans
      (gpioSetMode_envOnly q .output _)).trans (owPullUp_envOnly _)).bus
  rw [hq, hp] at hset
  exact congrArg (fun b : Bus => { b with bound := true }) hset

/-- A bus that has the slots of a column has each of its durations in its place (rule R186). -/
theorem slot_of_slotsOf {b : Bus} {x : SlotSet} (h : b.slots = slotsOf x) :
    b.slot 0 = x.a ∧ b.slot 1 = x.b ∧ b.slot 2 = x.c ∧ b.slot 3 = x.d ∧ b.slot 4 = x.e ∧ b.slot 5 = x.f ∧
      b.slot 6 = x.g ∧ b.slot 7 = x.h ∧ b.slot 8 = x.i ∧ b.slot 9 = x.j := by
  unfold Bus.slot
  rw [h]
  exact ⟨rfl, rfl, rfl, rfl, rfl, rfl, rfl, rfl, rfl, rfl⟩

/-- Settles O44: the slots are those of the bus context that opening leaves. -/
theorem defaultSlots : Obligations.DefaultSlots := by
  intro s p q hb
  have hsimple (c : BusCfg) (x : SlotSet) :=
    slot_of_slotsOf (congrArg Bus.slots (owOpenSimple_bus c p (slotsOf x) s.dev))
  refine ⟨⟨_, next_ifBound hb _, hsimple .legacy _⟩, ?_, rfl, rfl⟩
  rintro i (rfl | rfl)
  · exact ⟨_, next_ifBound hb _, hsimple .tunable _⟩
  · exact ⟨_, next_ifBound hb _, slot_of_slotsOf (congrArg Bus.slots (owOpenBuffered_bus p q s.dev))⟩

end Sys2Proof.Machine
end

section
/-! PROOFS. Lists of pin settings: what `setMode` and `setValue` do one after another, as bit writes under the register
backend and as strings under the filesystem backend (rules R132, R136), and what releasing and asserting the line come to
(rules R181, R182). -/

namespace Sys2Proof.Machine

open Sys2Proof

/-! ## Strings written to the files of pins -/

/-- Strings for the files of pins, the first one first. -/
abbrev PinWrites := List (Fin 64 × PinFile × String)

/-- The actions that write the strings. -/
def fileActs (ws : PinWrites) : List Action := ws.map fun w => .fileWrite (.pinFile w.1 w.2.1) w.2.2

/-- The strings are written, each to an open file. -/
def writeFiles (ws : PinWrites) (d : Dev) : Dev :=
  ws.foldl (fun d w => perform (.fileWrite (.pinFile w.1 w.2.1) w.2.2) d) d

/-- The settings of pin `j` after the strings (rule R31). -/
def settingAfter (j : Fin 64) (ws : PinWrites) (x : PinSettings) : PinSettings :=
  ws.foldl (fun x w => if w.1 = j then PinSettings.written w.2.1 w.2.2 x else x) x

theorem writeFiles_does (ws : PinWrites) (d : Dev) : Dev.Does (fileActs ws) d (writeFiles ws d) := by
  induction ws generalizing d with
  | nil => exact .refl d
  | cons w ws ih => exact (fileWrite_does (.pinFile w.1 w.2.1) w.2.2 d).trans (ih _)

theorem writeFiles_setting (ws : PinWrites) (d : Dev) (j : Fin 64) :
    (writeFiles ws d).env.setting j = settingAfter j ws (d.env.setting j) := by
  induction ws generalizing d with
  | nil => rfl
  | cons w ws ih =>
    have hset : (perform (.fileWrite (.pinFile w.1 w.2.1) w.2.2) d).env.setting j =
        if w.1 = j then PinSettings.written w.2.1 w.2.2 (d.env.setting j) else d.env.setting j := by
      show (d.env.setSetting w.1 (PinSettings.written w.2.1 w.2.2 (d.env.setting w.1))).setting j = _
      rw [setSetting_setting]
      split
      next h => rw [h]
      next => rfl
    exact (ih _).trans (congrArg (settingAfter j ws) hset)

theorem settingAfter_other {j : Fin 64} {ws : PinWrites} (h : ∀ w ∈ ws, w.1 ≠ j) (x : PinSettings) :
    settingAfter j ws x = x := by
  induction ws with
  | nil => rfl
  | cons w ws ih =>
    obtain ⟨hw, hws⟩ := List.forall_mem_cons.mp h
    exact (congrArg (settingAfter j ws) (if_neg hw)).trans (ih hws)

/-- What stands outside the block of the pins, but for the settings behind the files. -/
def Env.besideSettings (e : Env) : Memory × Vector Nat 64 := (e.page, e.valuePos)

theorem fileActs_traced (ws : PinWrites) : ∀ a ∈ fileActs ws, a.Traced ∧ a.Spares Env.besideSettings :=
  List.forall_mem_map.mpr fun _ _ => ⟨⟨rfl, rfl⟩, fun _ => rfl⟩

theorem fileActs_pinWrite (ws : PinWrites) : (fileActs ws).filterMap Action.pinWrite = ws :=
  List.filterMap_map.trans List.filterMap_some

theorem writeFiles_besideSettings (ws : PinWrites) (d : Dev) :
    (writeFiles ws d).env.besideSettings = d.env.besideSettings := by
  rw [(writeFiles_does ws d).env]
  exact performAll_spares (fun a ha => (fileActs_traced ws a ha).2) d.env

/-! ## Settings of pins -/

/-- One `setMode` or `setValue`. -/
inductive PinSet where
  | mode (p : Byte) (m : PinMode)
  | value (p : Byte) (b : Bool)

/-- The pin that is set. -/
def PinSet.pin : PinSet → Byte
  | .mode p _ => p
  | .value p _ => p

/-- The operation (rules R132, R136). -/
def PinSet.run : PinSet → Dev → Dev
  | .mode p m => gpioSetMode p m
  | .value p b => gpioSetValue p b

/-- The bits it writes, of the pin's entry (rules R132, R136). -/
def PinSet.entryBits (c : Config) (e : PinEntry) : PinSet → List (Nat × Bool)
  | .mode _ m => [(e.mux, c.muxGpioLevel), (e.fsel, polarity c.fselOutputLevel (m == .output))]
  | .value _ b => [(e.out, polarity c.outHighLevel b)]

/-- The string for the file of a handle: none where there is no handle (rule R66). -/
def Handle.writes (h : Handle) (i : Fin 64) (k : PinFile) (text : String) : PinWrites :=
  match h with
  | .invalid => []
  | .opened => [(i, k, text)]

/-- The string it writes to a file of the pin (rules R132, R136). -/
def PinSet.fileWrites (x : PinFiles) (i : Fin 64) : PinSet → PinWrites
  | .mode _ m => x.hDir.writes i .direction (modeText m)
  | .value _ b => x.hValue.writes i .value (valueText b)

/-- The bits it writes under the register backend: none where the pin is not usable (rule R122). -/
def PinSet.bits (d : Dev) (a : PinSet) : List (Nat × Bool) :=
  match usablePin d a.pin with
  | none => []
  | some (_, e) => a.entryBits d.cfg e

/-- The strings it writes under the filesystem backend: none where the pin is not usable (rule R122). -/
def PinSet.writes (d : Dev) (a : PinSet) : PinWrites :=
  match usablePin d a.pin with
  | none => []
  | some (i, _) => a.fileWrites (d.gpio.pin i) i

theorem fileWrite_eq_writeFiles (h : Handle) (i : Fin 64) (k : PinFile) (text : String) (d : Dev) :
    fileWrite h (.pinFile i k) text d = writeFiles (h.writes i k text) d := by cases h <;> rfl

section PinSet
variable {d d' : Dev} (a : PinSet)

theorem PinSet.run_envOnly (d : Dev) : Dev.EnvOnly d (a.run d) := by
  cases a with
  | mode p m => exact gpioSetMode_envOnly p m d
  | value p b => exact gpioSetValue_envOnly p b d

theorem PinSet.bits_congr (hc : d'.cfg = d.cfg) (hg : d'.gpio = d.gpio) : a.bits d' = a.bits d := by
  unfold PinSet.bits
  rw [usablePin_congr hc hg, hc]

theorem PinSet.writes_congr (hc : d'.cfg = d.cfg) (hg : d'.gpio = d.gpio) : a.writes d' = a.writes d := by
  unfold PinSet.writes
  rw [usablePin_congr hc hg, hg]

theorem PinSet.run_unusable (h : usablePin d a.pin = none) : a.run d = d := by
  cases a with
  | mode p m => exact pinWrite_unusable (fun e => setModeRegister e m) (fun i => setModeFile i m) h
  | value p b => exact pinWrite_unusable (fun e => setValueRegister e b) (fun i => setValueFile i b) h

theorem PinSet.run_register (hb : d.gpio.backend = .register) : a.run d = writeBits (a.bits d) d := by
  unfold PinSet.bits
  cases hu : usablePin d a.pin with
  | none => exact a.run_unusable hu
  | some x =>
    cases a with
    | mode p m => exact pinWrite_register (fun e => setModeRegister e m) (fun i => setModeFile i m) hu hb
    | value p b => exact pinWrite_register (fun e => setValueRegister e b) (fun i => setValueFile i b) hu hb

theorem PinSet.run_filesystem (hb : d.gpio.backend = .filesystem) : a.run d = writeFiles (a.writes d) d := by
  unfold PinSet.writes
  cases hu : usablePin d a.pin with
  | none => exact a.run_unusable hu
  | some x =>
    cases a with
    | mode p m =>
      exact (pinWrite_filesystem (fun e => setModeRegister e m) (fun i => setModeFile i m) hu hb).trans
        (fileWrite_eq_writeFiles _ _ _ _ d)
    | value p b =>
      exact (pinWrite_filesystem (fun e => setValueRegister e b) (fun i => setValueFile i b) hu hb).trans
        (fileWrite_eq_writeFiles _ _ _ _ d)

/-- The strings go to the files of the pin that is set, where it is usable. -/
theorem PinSet.writes_pin {w : Fin 64 × PinFile × String} (hw : w ∈ a.writes d) :
    ∃ e, usablePin d a.pin = some (w.1, e) := by
  have hown (h : Handle) (i : Fin 64) (k : PinFile) (t : String) (hw : w ∈ h.writes i k t) : w.1 = i := by
    cases h with
    | invalid => cases hw
    | opened => rw [List.mem_singleton.mp hw]
  unfold PinSet.writes at hw
  cases hu : usablePin d a.pin with
  | none => rw [hu] at hw; cases hw
  | some x =>
    obtain ⟨i, e⟩ := x
    rw [hu] at hw
    refine ⟨e, ?_⟩
    cases a with
    | mode p m => rw [hown _ _ _ _ hw]
    | value p b => rw [hown _ _ _ _ hw]

end PinSet

/-- Pins set one after another. -/
def setPins (l : List PinSet) (d : Dev) : Dev := l.foldl (fun d a => a.run d) d

/-- The bits that a list of settings writes under the register backend. -/
def bitsOf (d : Dev) (l : List PinSet) : List (Nat × Bool) := l.flatMap (PinSet.bits d)

/-- The strings that a list of settings writes under the filesystem backend. -/
def writesOf (d : Dev) (l : List PinSet) : PinWrites := l.flatMap (PinSet.writes d)

section SetPins
variable {d d' : Dev} (l : List PinSet)

theorem setPins_envOnly (d : Dev) : Dev.EnvOnly d (setPins l d) := foldl_envOnly _ (fun d a => a.run_envOnly d) l d

theorem bitsOf_congr (hc : d'.cfg = d.cfg) (hg : d'.gpio = d.gpio) : bitsOf d' l = bitsOf d l :=
  List.flatMap_congr fun a _ => a.bits_congr hc hg

theorem writesOf_congr (hc : d'.cfg = d.cfg) (hg : d'.gpio = d.gpio) : writesOf d' l = writesOf d l :=
  List.flatMap_congr fun a _ => a.writes_congr hc hg

theorem setPins_unusable (h : ∀ a ∈ l, usablePin d a.pin = none) : setPins l d = d := by
  induction l with
  | nil => rfl
  | cons a l ih =>
    obtain ⟨ha, hl⟩ := List.forall_mem_cons.mp h
    exact (congrArg (setPins l) (a.run_unusable ha)).trans (ih hl)

theorem setPins_register (hb : d.gpio.backend = .register) : setPins l d = writeBits (bitsOf d l) d := by
  induction l generalizing d with
  | nil => rfl
  | cons a l ih =>
    have hE := a.run_envOnly d
    have hrest := ih (d := a.run d) (by rw [hE.gpio, hb])
    rw [bitsOf_congr l hE.cfg hE.gpio, a.run_register hb] at hrest
    exact (congrArg (setPins l) (a.run_register hb)).trans (hrest.trans (List.foldl_append ..).symm)

theorem setPins_filesystem (hb : d.gpio.backend = .filesystem) : setPins l d = writeFiles (writesOf d l) d := by
  induction l generalizing d with
  | nil => rfl
  | cons a l ih =>
    have hE := a.run_envOnly d
    have hrest := ih (d := a.run d) (by rw [hE.gpio, hb])
    rw [writesOf_congr l hE.cfg hE.gpio, a.run_filesystem hb] at hrest
    exact (congrArg (setPins l) (a.run_filesystem hb)).trans (hrest.trans (List.foldl_append ..).symm)

/-- Only the settings of usable pins of the list are written. -/
theorem writesOf_other {j : Fin 64} (h : ∀ a ∈ l, ∀ e, usablePin d a.pin ≠ some (j, e)) :
    ∀ w ∈ writesOf d l, w.1 ≠ j := by
  rintro w hw rfl
  obtain ⟨a, ha, hwa⟩ := List.mem_flatMap.mp hw
  obtain ⟨e, he⟩ := a.writes_pin hwa
  exact h a ha e he

end SetPins

/-! ## Releasing and asserting the line -/

/-- The settings by which the line is released (rule R181). -/
def releaseSets (d : Dev) : List PinSet :=
  if d.bus.cfg = .buffered then [.value d.bus.pinOut (!d.cfg.bufAssertLevel)] else [.mode d.bus.pinIo .input]

/-- The settings by which the line is asserted (rule R182). -/
def assertSets (d : Dev) : List PinSet :=
  if d.bus.cfg = .buffered then [.value d.bus.pinOut d.cfg.bufAssertLevel]
  else [.mode d.bus.pinIo .output, .value d.bus.pinIo false]

theorem owPullUp_eq_setPins (d : Dev) : owPullUp d = setPins (releaseSets d) d := by
  unfold owPullUp releaseSets
  split
  next h => rw [h]; rfl
  next h => rw [h]; rfl
  next h => rw [h]; rfl

theorem owPullDown_eq_setPins (d : Dev) : owPullDown d = setPins (assertSets d) d := by
  unfold owPullDown assertSets
  split
  next h => rw [h]; rfl
  next h => rw [h]; rfl
  next h => rw [h]; rfl

theorem drivePin_buffered {b : Bus} (h : b.cfg = .buffered) : b.drivePin = b.pinOut := by
  unfold Bus.drivePin
  rw [h]

theorem drivePin_simple {b : Bus} (h : b.cfg ≠ .buffered) : b.drivePin = b.pinIo := by
  unfold Bus.drivePin
  cases hc : b.cfg with
  | buffered => exact absurd hc h
  | legacy => rfl
  | tunable => rfl

/-- The line is driven through its drive pin alone (rule R38). -/
theorem releaseSets_pin (d : Dev) : ∀ a ∈ releaseSets d, a.pin = d.bus.drivePin := by
  unfold releaseSets
  split
  next h => exact List.forall_mem_singleton.mpr (drivePin_buffered h).symm
  next h => exact List.forall_mem_singleton.mpr (drivePin_simple h).symm

theorem assertSets_pin (d : Dev) : ∀ a ∈ assertSets d, a.pin = d.bus.drivePin := by
  unfold assertSets
  split
  next h => exact List.forall_mem_singleton.mpr (drivePin_buffered h).symm
  next h =>
    exact List.forall_mem_cons.mpr
      ⟨(drivePin_simple h).symm, List.forall_mem_singleton.mpr (drivePin_simple h).symm⟩

/-! ## Commands that set pins -/

/-- A command that sets pins none of which is usable. -/
theorem run_setPins_unusable {s : State} {f : Dev → Dev} {l : List PinSet} (hf : f s.dev = setPins l s.dev) {p : Byte}
    (hl : ∀ a ∈ l, a.pin = p) (hu : usablePin s.dev p = none) : s.NoEffect (s.run f) .ok s.r0 s.r1 :=
  run_noEffect (hf.trans (setPins_unusable l fun a ha => by rw [hl a ha, hu]))

/-- A command that writes strings to open files of pins. -/
theorem run_writeFiles {s : State} {f : Dev → Dev} {ws : PinWrites} (hf : f s.dev = writeFiles ws s.dev) :
    s.dev.traceSince (s.run f).dev = fileActs ws ∧
    (∀ j, (s.run f).dev.env.setting j = settingAfter j ws (s.dev.env.setting j)) ∧
    (s.run f).dev.env.besideSettings = s.dev.env.besideSettings := by
  have hdoes := writeFiles_does ws s.dev
  unfold State.run
  rw [hf]
  exact ⟨hdoes.envDoes.finish_trace (fun a ha => (fileActs_traced ws a ha).1) _ _ _, writeFiles_setting ws s.dev,
    writeFiles_besideSettings ws s.dev⟩

/-- A command that writes one string to an open file of a pin. -/
theorem run_writeFile {s : State} {f : Dev → Dev} {i : Fin 64} {k : PinFile} {text : String}
    (hf : f s.dev = writeFiles [(i, k, text)] s.dev) :
    State.WritesFile i k text (PinSettings.written k text (s.dev.env.setting i)) s (s.run f) :=
  (run_fileWrite (hf.trans (fileWrite_eq_writeFiles .opened i k text s.dev).symm)).2.2

/-- The string for a level, by the level (rule R136). -/
theorem valueText_eq (b : Bool) : valueText b = if b then "1" else "0" := rfl

theorem valueText_not (b : Bool) : valueText (!b) = if b then "0" else "1" := by cases b <;> rfl

theorem written_value (b : Bool) (x : PinSettings) :
    PinSettings.written .value (valueText b) x = { x with level := b } := by cases b <;> rfl

theorem written_direction (m : PinMode) (x : PinSettings) :
    PinSettings.written .direction (modeText m) x = { x with mode := m } := by cases m <;> rfl

theorem polarity_not (onLevel b : Bool) : polarity onLevel (!b) = if b then !onLevel else onLevel := by
  cases b <;> rfl

section Drive
variable {d : Dev} {i : Fin 64} {e : PinEntry} (hu : usablePin d d.bus.drivePin = some (i, e))
include hu

/-- The bits by which a usable drive pin releases the line. -/
theorem bitsOf_releaseSets : bitsOf d (releaseSets d) =
    if d.bus.cfg = .buffered then
      [(e.out, if d.cfg.bufAssertLevel then !d.cfg.outHighLevel else d.cfg.outHighLevel)]
    else [(e.mux, d.cfg.muxGpioLevel), (e.fsel, !d.cfg.fselOutputLevel)] := by
  unfold releaseSets
  split
  next h =>
    rw [drivePin_buffered h] at hu
    simp [bitsOf, PinSet.bits, PinSet.pin, hu, PinSet.entryBits, polarity_not]
  next h =>
    rw [drivePin_simple h] at hu
    simp [bitsOf, PinSet.bits, PinSet.pin, hu, PinSet.entryBits, polarity]

/-- The bits by which a usable drive pin asserts the line. -/
theorem bitsOf_assertSets : bitsOf d (assertSets d) =
    if d.bus.cfg = .buffered then
      [(e.out, if d.cfg.bufAssertLevel then d.cfg.outHighLevel else !d.cfg.outHighLevel)]
    else [(e.mux, d.cfg.muxGpioLevel), (e.fsel, d.cfg.fselOutputLevel), (e.out, !d.cfg.outHighLevel)] := by
  unfold assertSets
  split
  next h =>
    rw [drivePin_buffered h] at hu
    simp [bitsOf, PinSet.bits, PinSet.pin, hu, PinSet.entryBits, polarity]
  next h =>
    rw [drivePin_simple h] at hu
    simp [bitsOf, PinSet.bits, PinSet.pin, hu, PinSet.entryBits, polarity]

variable (hf : d.gpio.pin i = PinFiles.full)
include hf

/-- The string by which a drive pin with open files releases the line. -/
theorem writesOf_releaseSets : writesOf d (releaseSets d) =
    if d.bus.cfg = .buffered then [(i, .value, valueText (!d.cfg.bufAssertLevel))]
    else [(i, .direction, modeText .input)] := by
  unfold releaseSets
  split
  next h =>
    rw [drivePin_buffered h] at hu
    simp [writesOf, PinSet.writes, PinSet.pin, hu, PinSet.fileWrites, hf, PinFiles.full, Handle.writes]
  next h =>
    rw [drivePin_simple h] at hu
    simp [writesOf, PinSet.writes, PinSet.pin, hu, PinSet.fileWrites, hf, PinFiles.full, Handle.writes]

/-- The strings by which a drive pin with open files asserts the line. -/
theorem writesOf_assertSets : writesOf d (assertSets d) =
    if d.bus.cfg = .buffered then [(i, .value, valueText d.cfg.bufAssertLevel)]
    else [(i, .direction, modeText .output), (i, .value, valueText false)] := by
  unfold assertSets
  split
  next h =>
    rw [drivePin_buffered h] at hu
    simp [writesOf, PinSet.writes, PinSet.pin, hu, PinSet.fileWrites, hf, PinFiles.full, Handle.writes]
  next h =>
    rw [drivePin_simple h] at hu
    simp [writesOf, PinSet.writes, PinSet.pin, hu, PinSet.fileWrites, hf, PinFiles.full, Handle.writes]

end Drive

/-- Settles O49: releasing is `releaseSets`, bit writes under one backend and a string under the other. -/
theorem pullUpReleases : Obligations.PullUpReleases := by
  refine ⟨fun s hb hu => ⟨_, next_ifBound hb _, run_setPins_unusable (owPullUp_eq_setPins _) (releaseSets_pin _) hu⟩,
    fun s i e hb hu hw => ⟨_, next_ifBound hb _, ?_⟩⟩
  have hacts := owPullUp_pinActs s.dev
  have hE := owPullUp_envOnly s.dev
  have hpull := owPullUp_eq_setPins s.dev
  refine ⟨finish_ends hE.env hE.cfg _ none none, ⟨hE.gpio, hE.bus, hE.crc⟩, hacts.clk, owPullUp_released s.dev,
    fun hreg => ?_, fun hfs hs => ?_⟩
  · rw [← bitsOf_releaseSets hu]
    exact (run_writeBits _ (hw hreg) (hpull.trans (setPins_register _ hreg))).2.2
  · have hrun := hpull.trans (setPins_filesystem _ hfs)
    rw [writesOf_releaseSets hu (usablePin_full hu hfs hs)] at hrun
    split
    next h =>
      rw [if_pos h] at hrun
      rw [← written_value, ← valueText_not]
      exact run_writeFile hrun
    next h =>
      rw [if_neg h] at hrun
      exact written_direction .input _ ▸ run_writeFile hrun

/-- Settles O50: asserting is `assertSets`, bit writes under one backend and strings under the other. -/
theorem pullDownAsserts : Obligations.PullDownAsserts := by
  refine ⟨fun s hb hu => ⟨_, next_ifBound hb _, run_setPins_unusable (owPullDown_eq_setPins _) (assertSets_pin _) hu⟩,
    fun s i e hb hu hw => ⟨_, next_ifBound hb _, ?_⟩⟩
  have hacts := owPullDown_pinActs s.dev
  have hE := owPullDown_envOnly s.dev
  have hpull := owPullDown_eq_setPins s.dev
  refine ⟨finish_ends hE.env hE.cfg _ none none, ⟨hE.gpio, hE.bus, hE.crc⟩, hacts.clk, owPullDown_asserted s.dev,
    fun hreg => ?_, fun hfs hs => ?_⟩
  · rw [← bitsOf_assertSets hu]
    exact (run_writeBits _ (hw hreg) (hpull.trans (setPins_register _ hreg))).2.2
  · have hrun := hpull.trans (setPins_filesystem _ hfs)
    rw [writesOf_assertSets hu (usablePin_full hu hfs hs)] at hrun
    split
    next h =>
      rw [if_pos h] at hrun
      rw [← written_value, ← valueText_eq]
      exact run_writeFile hrun
    next h =>
      rw [if_neg h] at hrun
      obtain ⟨htrace, hset, hbeside⟩ := run_writeFiles hrun
      obtain ⟨hpage, hpos⟩ := Prod.mk.inj hbeside
      refine ⟨htrace, (hset i).trans ?_, fun j hj => (hset j).trans (settingAfter_other ?_ _), hpos,
        fun a => congrArg (Memory.read · a) hpage⟩
      · simp [settingAfter, written_direction, written_value]
      · simpa using hj.symm

end Sys2Proof.Machine
end

section
/-! PROOFS. Closing a bus (rule R188): its pins are given back one after the other, and the context is emptied. -/

namespace Sys2Proof.Machine

open Sys2Proof

theorem gpioUnexportPin_of_backend {p : Byte} {d : Dev} (hb : d.gpio.backend ≠ .filesystem) : gpioUnexportPin p d = d :=
  if_pos hb

/-- Operands that name the same pin are the same (rule R121). -/
theorem pinIndex_inj {p q : Byte} {i : Fin 64} (hp : pinIndex p = some i) (hq : pinIndex q = some i) : p = q :=
  BitVec.eq_of_toInt_eq (((pinIndex_eq_some p i).mp hp).trans ((pinIndex_eq_some q i).mp hq).symm)

/-- Giving a pin back leaves the files of every other pin. -/
theorem gpioUnexportPin_other {p : Byte} {j : Fin 64} (h : pinIndex p ≠ some j) (d : Dev) :
    (gpioUnexportPin p d).gpio.pin j = d.gpio.pin j := by
  rcases gpioUnexportPin_cases p d with ⟨hd, -⟩ | ⟨i, e, hv, -, -, hp, -⟩
  · rw [hd]
  · exact hp.pins j fun hj => h (hj ▸ (validPin_mapped hv).1)

theorem gpioUnexportPin_exported_false {p : Byte} {d : Dev} {j : Fin 64} {e : PinEntry}
    (hb : d.gpio.backend = .filesystem) (hv : validPin d.cfg p = some (j, e)) :
    ((gpioUnexportPin p d).gpio.pin j).exported = false := by
  rcases gpioUnexportPin_cases p d with ⟨hd, hno⟩ | ⟨i, e', hv', -, -, -, hi⟩
  · rw [hd]; exact hno hb j e hv
  · cases hv.symm.trans hv'
    rw [hi]

/-- A pin that is not exported stays so when a pin is given back. -/
theorem gpioUnexportPin_keeps_unexported (p : Byte) {d : Dev} {j : Fin 64} (h : (d.gpio.pin j).exported = false) :
    ((gpioUnexportPin p d).gpio.pin j).exported = false := by
  rcases gpioUnexportPin_pin p d j with hj | hj
  · rw [hj, h]
  · rw [hj]

/-- What giving a pin back does depends on the files of that pin and on the handle of `unexport`. -/
theorem unexportActs_of_pin {d d' : Dev} {p : Byte} (hc : d'.cfg = d.cfg) (hu : d'.gpio.hUnexport = d.gpio.hUnexport)
    (hp : ∀ j, pinIndex p = some j → d'.gpio.pin j = d.gpio.pin j) : d'.unexportActs p = d.unexportActs p := by
  unfold Dev.unexportActs
  rw [hc, hu]
  cases hv : validPin d.cfg p with
  | none => rfl
  | some x => simp only [hp x.1 (validPin_mapped hv).1]

/-- A pin that has been given back is not given back again. -/
theorem unexportActs_again {p : Byte} {d : Dev} (hb : d.gpio.backend = .filesystem) :
    (gpioUnexportPin p d).unexportActs p = [] := by
  have hcfg := (gpioUnexportPin_pinsOnly p d).cfg
  unfold Dev.unexportActs
  rw [hcfg]
  cases hv : validPin d.cfg p with
  | none => rfl
  | some x => exact if_neg (by rw [gpioUnexportPin_exported_false hb hv]; nofun)

/-- What giving a second pin back does after a first one. -/
theorem unexportActs_after {p : Byte} {d : Dev} (hb : d.gpio.backend = .filesystem) (q : Byte) :
    (gpioUnexportPin p d).unexportActs q = if q ≠ p then d.unexportActs q else [] := by
  split
  next hqp =>
    have hpins := gpioUnexportPin_pinsOnly p d
    exact unexportActs_of_pin hpins.cfg hpins.hUnexport fun j hj =>
      gpioUnexportPin_other (fun hp => hqp (pinIndex_inj hj hp)) d
  next hqp =>
    rw [not_not.mp hqp]
    exact unexportActs_again hb

/-! ## The actions of `busClose` -/

/-- What `busClose` does under the filesystem backend (rule R188). -/
def Dev.closeActs (d : Dev) : List Action :=
  d.unexportActs d.bus.pinIo ++
    (if d.bus.cfg = .buffered ∧ d.bus.pinOut ≠ d.bus.pinIo then d.unexportActs d.bus.pinOut else [])

theorem unexportOut_of_backend {d : Dev} (hb : d.gpio.backend ≠ .filesystem) : unexportOut d = d := by
  unfold unexportOut
  split
  · exact gpioUnexportPin_of_backend hb
  · rfl

theorem owClose_of_backend {d : Dev} (hb : d.gpio.backend ≠ .filesystem) : owClose d = unbind d := by
  rw [owClose, gpioUnexportPin_of_backend hb, unexportOut_of_backend hb]

theorem owClose_does {d : Dev} (hb : d.gpio.backend = .filesystem) : Env.Does d.closeActs d.env (owClose d).env := by
  have hpins := gpioUnexportPin_pinsOnly d.bus.pinIo d
  have hfirst := gpioUnexportPin_does d.bus.pinIo hb
  have hsecond : Env.Does (if d.bus.cfg = .buffered ∧ d.bus.pinOut ≠ d.bus.pinIo then d.unexportActs d.bus.pinOut else [])
      (gpioUnexportPin d.bus.pinIo d).env (unexportOut (gpioUnexportPin d.bus.pinIo d)).env := by
    have hout := gpioUnexportPin_does d.bus.pinOut (d := gpioUnexportPin d.bus.pinIo d) (hpins.backend.trans hb)
    rw [unexportActs_after hb] at hout
    unfold unexportOut
    rw [hpins.bus]
    by_cases hc : d.bus.cfg = .buffered
    · simpa only [hc, true_and, if_true] using hout
    · simp only [hc, false_and, if_false]
      exact .refl _
  exact hfirst.trans hsecond

theorem closeActs_spare (d : Dev) : ∀ a ∈ d.closeActs, a.Traced ∧ a.Spares Env.pins := by
  refine List.forall_mem_append.mpr ⟨unexportActs_spare d _, ?_⟩
  split
  · exact unexportActs_spare d _
  · exact nofun

theorem owClose_samePins (d : Dev) : d.env.SamePins (owClose d).env := by
  by_cases hb : d.gpio.backend = .filesystem
  · exact (owClose_does hb).samePins fun a ha => (closeActs_spare d a ha).2
  · rw [owClose_of_backend hb]
    exact samePins_of_pins rfl

/-! ## The files of the pins -/

theorem owClose_other {d : Dev} {j : Fin 64} (hio : pinIndex d.bus.pinIo ≠ some j)
    (hout : d.bus.cfg = .buffered → pinIndex d.bus.pinOut ≠ some j) : (owClose d).gpio.pin j = d.gpio.pin j := by
  have hsecond : (unexportOut (gpioUnexportPin d.bus.pinIo d)).gpio.pin j =
      (gpioUnexportPin d.bus.pinIo d).gpio.pin j := by
    unfold unexportOut
    rw [(gpioUnexportPin_pinsOnly d.bus.pinIo d).bus]
    split
    next hc => exact gpioUnexportPin_other (hout hc) _
    next => rfl
  exact hsecond.trans (gpioUnexportPin_other hio d)

theorem owClose_exported {d : Dev} (hb : d.gpio.backend = .filesystem) {j : Fin 64} {e : PinEntry}
    (h : validPin d.cfg d.bus.pinIo = some (j, e) ∨
      d.bus.cfg = .buffered ∧ validPin d.cfg d.bus.pinOut = some (j, e)) :
    ((owClose d).gpio.pin j).exported = false := by
  have hpins := gpioUnexportPin_pinsOnly d.bus.pinIo d
  show ((unexportOut (gpioUnexportPin d.bus.pinIo d)).gpio.pin j).exported = false
  unfold unexportOut
  rw [hpins.bus]
  rcases h with hv | ⟨hc, hv⟩
  · have hfirst := gpioUnexportPin_exported_false hb hv
    split
    · exact gpioUnexportPin_keeps_unexported _ hfirst
    · exact hfirst
  · rw [if_pos hc]
    exact gpioUnexportPin_exported_false (hpins.backend.trans hb) (by rw [hpins.cfg, hv])

/-- Settles O47: `owClose_does` gives the actions, `owClose_other` and `owClose_exported` the files of the pins. -/
theorem closeBus : Obligations.CloseBus := by
  intro s hb
  have hreach := owClose_reach s.dev
  have hpins := (gpioUnexportPin_pinsOnly s.dev.bus.pinIo s.dev).trans (unexportOut_pinsOnly _)
  have hslots : (owClose s.dev).bus.slots = s.dev.bus.slots := (congrArg Bus.slots hpins.bus :)
  refine ⟨_, next_ifBound hb _, finish_ends hreach.1 hreach.2 _ none none, rfl, rfl, rfl, rfl, hslots, hpins.crc,
    finish_samePins (owClose_samePins s.dev) _ _ _, fun hn => ?_, fun hfs hs => ?_, hpins.backend, hpins.hExport,
    hpins.hUnexport, fun hfs j x => owClose_exported hfs, fun j => owClose_other⟩
  · have hidle := owClose_of_backend hn
    have hgpio : (owClose s.dev).gpio = s.dev.gpio := (congrArg Dev.gpio hidle :)
    have hdoes : Env.Does [] s.dev.env (owClose s.dev).env := by
      rw [hidle]
      exact .refl _
    exact ⟨hgpio, hdoes.finish_trace nofun _ _ _⟩
  · rw [← unexportActs_eq_giveBack _ hs, ← unexportActs_eq_giveBack _ hs]
    exact (owClose_does hfs).finish_trace (fun a ha => (closeActs_spare s.dev a ha).1) _ _ _

end Sys2Proof.Machine
end

section
/-! PROOFS. What an export does, seen from a bus that is opened (rules R126, R184, R187): it exports its pin or leaves it,
and its actions touch neither page nor settings. -/

namespace Sys2Proof.Machine

open Sys2Proof

/-! ## The files of the pins -/

section Export
variable {p : Byte} {d : Dev}

theorem gpioExportPin_of_backend (hb : d.gpio.backend ≠ .filesystem) : gpioExportPin p d = (.ok, d) := if_pos hb

/-- Exporting a pin leaves the files of every other pin. -/
theorem gpioExportPin_other {j : Fin 64} (h : pinIndex p ≠ some j) (d : Dev) :
    (gpioExportPin p d).2.gpio.pin j = d.gpio.pin j := by
  rcases gpioExportPin_cases p d with hd | ⟨i, e, hv, -, -, hp, -⟩
  · rw [hd]
  · exact hp.pins j fun hj => h (hj ▸ (validPin_mapped hv).1)

/-- Under the filesystem backend a valid pin ends exported exactly where the outcome is OK. -/
theorem gpioExportPin_exported_iff {j : Fin 64} {e : PinEntry} (hb : d.gpio.backend = .filesystem)
    (hv : validPin d.cfg p = some (j, e)) :
    ((gpioExportPin p d).2.gpio.pin j).exported = true ↔ (gpioExportPin p d).1 = .ok := by
  by_cases hx : (d.gpio.pin j).exported = true
  · rw [gpioExportPin_idle (validPin_mapped hv).1 (.inr hx)]
    exact iff_of_true hx rfl
  · have hx := Bool.eq_false_iff.mpr hx
    obtain ⟨ok, -, -, -, herr, hpin, -⟩ := gpioExportPin_history hb hv hx
    rw [herr, hpin]
    cases ok with
    | true => exact iff_of_true rfl rfl
    | false => exact iff_of_false (by simp [hx]) nofun

/-- An exported pin stays exported when a pin is exported. -/
theorem gpioExportPin_keeps_exported (p : Byte) {j : Fin 64} (h : (d.gpio.pin j).exported = true) :
    ((gpioExportPin p d).2.gpio.pin j).exported = true := by
  rcases gpioExportPin_cases p d with hd | ⟨i, e, -, -, hx, hp, -⟩
  · rw [hd, h]
  · rwa [hp.pins j fun hj => nomatch (hj ▸ hx).symm.trans h]

/-- Exporting keeps the agreement of handles and exported state (rule R30). -/
theorem gpioExportPin_settled (p : Byte) (h : ∀ j, (d.gpio.pin j).settled = true) (j : Fin 64) :
    ((gpioExportPin p d).2.gpio.pin j).settled = true := by
  rcases (gpioExportPin_filesMove p d).moves j with hj | hj | ⟨hj, -, -⟩
  · rw [hj]; exact h j
  · rw [hj]; rfl
  · rw [hj]; rfl

/-- The outcome is OK, or under the filesystem backend `ResourceUnavailable`. -/
theorem gpioExportPin_err (p : Byte) (d : Dev) :
    (gpioExportPin p d).1 = .ok ∨ (gpioExportPin p d).1 = .resourceUnavailable ∧ d.gpio.backend = .filesystem := by
  rcases gpioExportPin_cases p d with hd | ⟨i, e, -, hb, -, -, ⟨ho, -⟩ | ⟨ho, -⟩⟩
  · exact .inl (by rw [hd])
  · exact .inl ho
  · exact .inr ⟨ho, hb⟩

/-- Where no valid pin of the operand is left to export the outcome is OK (rule R292). -/
theorem gpioExportPin_ok (h : ∀ j e, validPin d.cfg p = some (j, e) → (d.gpio.pin j).exported = true) :
    gpioExportPin p d = (.ok, d) := by
  cases hv : validPin d.cfg p with
  | none => exact gpioExportPin_of_not_valid hv
  | some x => exact gpioExportPin_idle (validPin_mapped hv).1 (.inr (h x.1 x.2 hv))

/-- What one export leaves: its outcome `e` and the files of the pins. -/
structure Dev.Exported (p : Byte) (d : Dev) (e : ErrCode) (d' : Dev) : Prop where
  err      : e = .ok ∨ e = .resourceUnavailable ∧ d.gpio.backend = .filesystem
  other    : ∀ j, pinIndex p ≠ some j → d'.gpio.pin j = d.gpio.pin j
  ready    : (∀ j x, validPin d.cfg p = some (j, x) → (d.gpio.pin j).exported = true) → e = .ok
  exported : d.gpio.backend = .filesystem → ∀ j x, validPin d.cfg p = some (j, x) →
    ((d'.gpio.pin j).exported = true ↔ e = .ok)
  keeps    : ∀ j, (d.gpio.pin j).exported = true → (d'.gpio.pin j).exported = true
  settled  : (∀ j, (d.gpio.pin j).settled = true) → ∀ j, (d'.gpio.pin j).settled = true

theorem gpioExportPin_exported (p : Byte) (d : Dev) : Dev.Exported p d (gpioExportPin p d).1 (gpioExportPin p d).2 where
  err := gpioExportPin_err p d
  other _ hj := gpioExportPin_other hj d
  ready h := congrArg Prod.fst (gpioExportPin_ok h)
  exported hb _ _ hv := gpioExportPin_exported_iff hb hv
  keeps _ := gpioExportPin_keeps_exported p
  settled := gpioExportPin_settled p

end Export

/-! ## The actions -/

/-- What an action on files spares that is no write to a file of a pin. -/
def Env.pageAndSettings (e : Env) : Memory × Vector PinSettings 64 := (e.page, e.settings)

/-- An action of an export: in the traces, and harmless to page and settings. -/
structure Action.Exporting (a : Action) : Prop where
  traced   : a.Traced
  spares   : a.Spares Env.pageAndSettings
  pinWrite : a.pinWrite = none

theorem fileOpen_exporting (i : Fin 64) (k : PinFile) (ok : Bool) :
    (Action.fileOpen (.pinFile i k) ok).Exporting ∧ (Action.fileOpen (.pinFile i k) ok).exports = none :=
  ⟨⟨⟨rfl, rfl⟩, fun _ => by cases ok <;> cases k <;> rfl, rfl⟩, rfl⟩

theorem closeOpened_exporting (i : Fin 64) (a b c : Bool) :
    ∀ x ∈ closeOpened i a b c, x.Exporting ∧ x.exports = none := by
  have hclose (k : PinFile) (ok : Bool) : ∀ x ∈ (if ok then [Action.fileClose (.pinFile i k)] else []),
      x.Exporting ∧ x.exports = none := by
    cases ok with
    | false => exact nofun
    | true => exact List.forall_mem_singleton.mpr ⟨⟨⟨rfl, rfl⟩, fun _ => rfl, rfl⟩, rfl⟩
  exact List.forall_mem_append.mpr ⟨List.forall_mem_append.mpr ⟨hclose _ _, hclose _ _⟩, hclose _ _⟩

theorem attemptActs_exporting (i : Fin 64) (a b c : Bool) :
    ∀ x ∈ attemptActs i a b c, x.Exporting ∧ x.exports = none := by
  refine List.forall_mem_append.mpr ⟨?_, ?_⟩
  · simp only [openThree, List.forall_mem_cons]
    exact ⟨fileOpen_exporting i _ a, fileOpen_exporting i _ b, fileOpen_exporting i _ c, nofun⟩
  · split
    · exact nofun
    · exact closeOpened_exporting i a b c

theorem ExportHistory.exporting {i : Fin 64} {backoff n : Nat} {ok : Bool} {l : List Action}
    (h : ExportHistory i backoff n ok l) : ∀ x ∈ l, x.Exporting ∧ x.exports = .none := by
  induction h with
  | none => exact nofun
  | success _ => exact attemptActs_exporting i _ _ _
  | last _ => exact attemptActs_exporting i _ _ _
  | again _ _ ih =>
    exact List.forall_mem_append.mpr ⟨attemptActs_exporting i _ _ _,
      List.forall_mem_cons.mpr ⟨⟨⟨⟨rfl, rfl⟩, fun _ => rfl, rfl⟩, rfl⟩, ih⟩⟩

/-- Where an attempt is made each file of the pin is opened. -/
theorem ExportHistory.opens {i : Fin 64} {backoff n : Nat} {ok : Bool} {l : List Action}
    (h : ExportHistory i backoff n ok l) (hn : 0 < n) (k : PinFile) : ∃ b, .fileOpen (.pinFile i k) b ∈ l := by
  obtain ⟨m, -, hpos, -, hcount, -⟩ := h.rounds
  have hk := hcount k
  have := hpos hn
  by_cases h1 : 0 < l.count (.fileOpen (.pinFile i k) true)
  · exact ⟨true, List.count_pos_iff.mp h1⟩
  · exact ⟨false, List.count_pos_iff.mp (by omega)⟩

/-- The line that `export` receives, where its file is open and the backend has one. -/
def Dev.lineToExport (d : Dev) (p : Byte) : List String :=
  if d.gpio.backend = .filesystem ∧ d.gpio.hExport = .opened then d.exportLine p else []

/-- What `export` receives when the pin has to be exported. -/
theorem exportActs_exports {d : Dev} {e : PinEntry} {ok : Bool} {l : List Action}
    (hl : ∀ x ∈ l, x.Exporting ∧ x.exports = none) :
    (exportActs d e ok l).filterMap Action.exports = if d.gpio.hExport = .opened then [decLine e.hw] else [] := by
  have hnone : (l ++ unexportLine ok d.gpio.hUnexport e).filterMap Action.exports = [] := by
    refine List.filterMap_eq_nil_iff.mpr (List.forall_mem_append.mpr ⟨fun x hx => (hl x hx).2, ?_⟩)
    unfold unexportLine
    split
    · exact nofun
    · exact forall_mem_acts (P := fun x => x.exports = none) (List.forall_mem_singleton.mpr rfl) _
  rw [exportActs, List.append_assoc, List.filterMap_append, hnone, acts_eq_ite]
  split <;> rfl

/-- What an export does, whatever the pin and the backend. -/
structure Dev.ExportDoes (p : Byte) (d : Dev) (acts : List Action) : Prop where
  does      : Env.Does acts d.env (gpioExportPin p d).2.env
  exporting : ∀ a ∈ acts, a.Exporting
  exports   : acts.filterMap Action.exports = d.lineToExport p
  opens     : d.gpio.backend = .filesystem → 0 < d.cfg.exportAttempts → ∀ j e k, validPin d.cfg p = some (j, e) →
    (d.gpio.pin j).exported = false → ∃ ok, .fileOpen (.pinFile j k) ok ∈ acts

/-- An export that has nothing to do. -/
theorem exportDoes_idle {p : Byte} {d : Dev} (h : gpioExportPin p d = (.ok, d)) (hline : d.lineToExport p = [])
    (hno : d.gpio.backend = .filesystem → ∀ j e, validPin d.cfg p = some (j, e) → (d.gpio.pin j).exported = true) :
    Dev.ExportDoes p d [] where
  does := by rw [h]; exact .refl _
  exporting := nofun
  exports := hline.symm
  opens hb _ j e _ hv hx := nomatch (hno hb j e hv).symm.trans hx

theorem gpioExportPin_does (p : Byte) (d : Dev) : ∃ acts, Dev.ExportDoes p d acts := by
  by_cases hb : d.gpio.backend = .filesystem
  · cases hv : validPin d.cfg p with
    | none =>
      exact ⟨[], exportDoes_idle (gpioExportPin_of_not_valid hv) (by simp [Dev.lineToExport, Dev.exportLine, hv])
        (by rw [hv]; nofun)⟩
    | some x =>
      obtain ⟨i, e⟩ := x
      cases hx : (d.gpio.pin i).exported with
      | true =>
        exact ⟨[], exportDoes_idle (gpioExportPin_idle (validPin_mapped hv).1 (.inr hx))
          (by simp [Dev.lineToExport, Dev.exportLine, hv, hx]) (by rw [hv]; rintro - j e' ⟨⟩; exact hx)⟩
      | false =>
        obtain ⟨ok, l, hl, hdoes, -⟩ := gpioExportPin_history hb hv hx
        have hwrite (h : Handle) (f : CtlFile) (hf : f = .exportFile ∨ f = .unexportFile) (t : String) :
            ∀ a ∈ h.acts [.fileWrite f t], a.Exporting := by
          refine forall_mem_acts (List.forall_mem_singleton.mpr ⟨⟨rfl, rfl⟩, ?_, ?_⟩) h
          · rcases hf with rfl | rfl <;> exact fun _ => rfl
          · rcases hf with rfl | rfl <;> rfl
        refine ⟨exportActs d e ok l, hdoes, ?_, ?_, ?_⟩
        · refine List.forall_mem_append.mpr ⟨List.forall_mem_append.mpr
            ⟨hwrite _ _ (.inl rfl) _, fun a ha => (hl.exporting a ha).1⟩, ?_⟩
          unfold unexportLine
          split
          · exact nofun
          · exact hwrite _ _ (.inr rfl) _
        · rw [exportActs_exports hl.exporting]
          simp [Dev.lineToExport, Dev.exportLine, hv, hx, hb]
        · rintro - hn j e' k hv' -
          cases hv.symm.trans hv'
          obtain ⟨b, hopen⟩ := hl.opens hn k
          exact ⟨b, List.mem_append_left _ (List.mem_append_right _ hopen)⟩
  · exact ⟨[], exportDoes_idle (gpioExportPin_of_backend hb) (if_neg fun h => hb h.1) fun h => absurd h hb⟩

end Sys2Proof.Machine
end

section
/-! PROOFS. Opening a bus (rules R184, R185, R187): the exports, then the settings of the bus's pins. -/

namespace Sys2Proof.Machine

open Sys2Proof

/-! ## After the exports -/

/-- What the exports of a bus that is opened have done: nothing but where the backend is the filesystem, and there only
actions of exports. -/
structure Dev.AfterExports (acts : List Action) (d d' : Dev) : Prop where
  does      : Env.Does acts d.env d'.env
  exporting : ∀ a ∈ acts, a.Exporting
  cfg       : d'.cfg = d.cfg
  crc       : d'.crc = d.crc
  backend   : d'.gpio.backend = d.gpio.backend
  hExport   : d'.gpio.hExport = d.gpio.hExport
  hUnexport : d'.gpio.hUnexport = d.gpio.hUnexport
  idle      : d.gpio.backend ≠ .filesystem → d'.env = d.env ∧ d'.gpio = d.gpio

theorem Dev.AfterExports.trans {a b : List Action} {d1 d2 d3 : Dev} (h1 : Dev.AfterExports a d1 d2)
    (h2 : Dev.AfterExports b d2 d3) : Dev.AfterExports (a ++ b) d1 d3 where
  does := h1.does.trans h2.does
  exporting := List.forall_mem_append.mpr ⟨h1.exporting, h2.exporting⟩
  cfg := h2.cfg.trans h1.cfg
  crc := h2.crc.trans h1.crc
  backend := h2.backend.trans h1.backend
  hExport := h2.hExport.trans h1.hExport
  hUnexport := h2.hUnexport.trans h1.hUnexport
  idle hb := by
    obtain ⟨henv, hgpio⟩ := h1.idle hb
    obtain ⟨henv', hgpio'⟩ := h2.idle (h1.backend ▸ hb)
    exact ⟨henv'.trans henv, hgpio'.trans hgpio⟩

/-- The bus context is no part of what the exports see. -/
theorem afterExports_bindBus (c : BusCfg) (p q : Byte) (slots : Vector Word 10) (d : Dev) :
    Dev.AfterExports [] d (bindBus c p q slots d) where
  does := setBus_does _ d
  exporting := nofun
  cfg := rfl
  crc := rfl
  backend := rfl
  hExport := rfl
  hUnexport := rfl
  idle _ := ⟨rfl, rfl⟩

theorem Dev.ExportDoes.afterExports {p : Byte} {d : Dev} {acts : List Action} (h : Dev.ExportDoes p d acts) :
    Dev.AfterExports acts d (gpioExportPin p d).2 := by
  have hp := gpioExportPin_pinsOnly p d
  exact {
    does := h.does
    exporting := h.exporting
    cfg := hp.cfg
    crc := hp.crc
    backend := hp.backend
    hExport := hp.hExport
    hUnexport := hp.hUnexport
    idle := fun hb => by rw [gpioExportPin_of_backend hb]; exact ⟨rfl, rfl⟩ }

/-- One export: its outcome and the files of the pins, and its actions. -/
structure Dev.ExportStep (p : Byte) (d : Dev) (e : ErrCode) (d' : Dev) (acts : List Action) : Prop where
  files   : Dev.Exported p d e d'
  after   : Dev.AfterExports acts d d'
  bus     : d'.bus = d.bus
  exports : acts.filterMap Action.exports = d.lineToExport p
  opens   : d.gpio.backend = .filesystem → 0 < d.cfg.exportAttempts → ∀ j x k, validPin d.cfg p = some (j, x) →
    (d.gpio.pin j).exported = false → ∃ ok, .fileOpen (.pinFile j k) ok ∈ acts

theorem gpioExportPin_step (p : Byte) (d : Dev) :
    ∃ acts, Dev.ExportStep p d (gpioExportPin p d).1 (gpioExportPin p d).2 acts := by
  obtain ⟨acts, h⟩ := gpioExportPin_does p d
  exact ⟨acts, gpioExportPin_exported p d, h.afterExports, (gpioExportPin_pinsOnly p d).bus, h.exports, h.opens⟩

/-! ## A bus that was opened -/

/-- The end of a command that opens a bus: the outcome of its exports, on the block `d` after them, its pins set. -/
def State.opened (s : State) (e : ErrCode) (l : List PinSet) (d : Dev) : State :=
  State.finish e none none { s with dev := setBound true (setPins l d) }

section Opened
variable {s : State} {d : Dev} {acts : List Action} (h : Dev.AfterExports acts s.dev d) (e : ErrCode) (l : List PinSet)

theorem opened_gpio : (s.opened e l d).dev.gpio = d.gpio := (setPins_envOnly l d).gpio

theorem opened_bus : (s.opened e l d).dev.bus = { d.bus with bound := true } :=
  congrArg (fun b : Bus => { b with bound := true }) (setPins_envOnly l d).bus

theorem opened_usable (p : Byte) : usablePin (s.opened e l d).dev p = usablePin d p :=
  usablePin_congr (d' := (s.opened e l d).dev) (setPins_envOnly l d).cfg (opened_gpio e l) p

include h

theorem opened_ends : s.EndsAs (s.opened e l d) e s.r0 s.r1 := by
  have hE := setPins_envOnly l d
  exact finish_ends (d := setBound true (setPins l d)) (h.does.reaches.trans hE.env) (hE.cfg.trans h.cfg) e none none

/-- The units but for the bus context and the files of the pins. -/
theorem opened_units : (s.opened e l d).dev.crc = s.dev.crc ∧
    (s.opened e l d).dev.gpio.backend = s.dev.gpio.backend ∧
    (s.opened e l d).dev.gpio.hExport = s.dev.gpio.hExport ∧
    (s.opened e l d).dev.gpio.hUnexport = s.dev.gpio.hUnexport := by
  rw [opened_gpio]
  exact ⟨(setPins_envOnly l d).crc.trans h.crc, h.backend, h.hExport, h.hUnexport⟩

theorem opened_unusable (hu : ∀ a ∈ l, usablePin d a.pin = none) :
    (s.opened e l d).dev.env.pageAndSettings = s.dev.env.pageAndSettings := by
  show (setPins l d).env.pageAndSettings = _
  rw [setPins_unusable l hu, h.does.2]
  exact performAll_spares (fun a ha => (h.exporting a ha).spares) s.dev.env

/-- Under the register backend the bits of the usable pins are all that is stored. -/
theorem opened_storesBits (hb : s.dev.gpio.backend = .register) (hw : s.dev.env.page.wf = true) :
    State.StoresBits (bitsOf s.dev l) s (s.opened e l d) := by
  obtain ⟨henv, hgpio⟩ := h.idle (by rw [hb]; nofun)
  have hset : setPins l d = writeBits (bitsOf s.dev l) d := by
    rw [setPins_register l (h.backend.trans hb), bitsOf_congr l h.cfg hgpio]
  obtain ⟨acts', hdoes, hmap, hacts⟩ := writeBits_does (bitsOf s.dev l) d
  have hw' : d.env.page.wf = true := by rw [henv, hw]
  have hbit (x : Nat) : d.pageBit x = s.dev.pageBit x := by unfold Dev.pageBit; rw [henv]
  have hfiles := hdoes.envDoes.behindFiles fun a ha => (hacts a ha).2
  have hends := hdoes.envDoes
  rw [henv] at hfiles hends
  unfold State.opened
  rw [hset]
  exact {
    bits := fun x hx => (writeBits_pageBit _ d hw' x (by rw [h.cfg, hx])).trans (by rw [hbit])
    bytes := fun a ha => (writeBits_byte _ d hw' a ha).trans (by rw [henv])
    accesses := by
      rw [hends.finish_trace (d := setBound true (writeBits (bitsOf s.dev l) d)) fun a ha => (hacts a ha).1, hmap]
    settings := congrArg Prod.fst hfiles
    positions := congrArg Prod.snd hfiles }

/-- Under the filesystem backend the strings of the usable pins follow the actions of the exports. -/
theorem opened_files (hb : s.dev.gpio.backend = .filesystem) :
    s.dev.traceSince (s.opened e l d).dev = acts ++ fileActs (writesOf d l) ∧
    (∀ j, (s.opened e l d).dev.env.setting j = settingAfter j (writesOf d l) (s.dev.env.setting j)) ∧
    (s.opened e l d).dev.env.page = s.dev.env.page := by
  have hset := setPins_filesystem l (h.backend.trans hb)
  have hspare : d.env.pageAndSettings = s.dev.env.pageAndSettings := by
    rw [h.does.2]
    exact performAll_spares (fun a ha => (h.exporting a ha).spares) s.dev.env
  obtain ⟨hpage, hsettings⟩ := Prod.mk.inj hspare
  have hwrite := h.does.trans (writeFiles_does (writesOf d l) d).envDoes
  have htraced := List.forall_mem_append.mpr
    ⟨fun a ha => (h.exporting a ha).traced, fun a ha => (fileActs_traced (writesOf d l) a ha).1⟩
  unfold State.opened
  rw [hset]
  refine ⟨hwrite.finish_trace (d := setBound true (writeFiles (writesOf d l) d)) htraced e none none, fun j => ?_, ?_⟩
  · have hj : d.env.setting j = s.dev.env.setting j := by unfold Env.setting; rw [hsettings]
    exact (writeFiles_setting _ d j).trans (by rw [hj])
  · exact (congrArg Prod.fst (writeFiles_besideSettings (writesOf d l) d)).trans hpage

/-- The settings of a pin that the list does not set stay (rule R31). -/
theorem opened_setting_other (hw : s.dev.env.page.wf = true) {j : Fin 64}
    (hj : ∀ a ∈ l, ∀ x, usablePin d a.pin ≠ some (j, x)) :
    (s.opened e l d).dev.env.setting j = s.dev.env.setting j := by
  cases hb : s.dev.gpio.backend with
  | none =>
    have hnone := opened_unusable h e l fun a _ => by unfold usablePin; rw [h.backend, hb]
    exact congrArg (fun v : Memory × Vector PinSettings 64 => v.2[j]) hnone
  | register => exact congrArg (fun v : Vector PinSettings 64 => v[j]) (opened_storesBits h e l hb hw).settings
  | filesystem => exact ((opened_files h e l hb).2.1 j).trans (settingAfter_other (writesOf_other l hj) _)

/-- Outside the register backend the page stays (rule R60). -/
theorem opened_page (hb : s.dev.gpio.backend ≠ .register) : (s.opened e l d).dev.env.page = s.dev.env.page := by
  cases hb' : s.dev.gpio.backend with
  | none => exact congrArg Prod.fst (opened_unusable h e l fun a _ => by unfold usablePin; rw [h.backend, hb'])
  | register => exact absurd hb' hb
  | filesystem => exact (opened_files h e l hb').2.2

/-- The strings written to files of pins are those of the settings. -/
theorem opened_pinWrites (hb : s.dev.gpio.backend = .filesystem) :
    (s.dev.traceSince (s.opened e l d).dev).filterMap Action.pinWrite = writesOf d l := by
  rw [(opened_files h e l hb).1, List.filterMap_append, fileActs_pinWrite,
    List.filterMap_eq_nil_iff.mpr fun a ha => (h.exporting a ha).pinWrite, List.nil_append]

/-- The strings that `export` receives are those of the exports. -/
theorem opened_exports (hb : s.dev.gpio.backend = .filesystem) :
    (s.dev.traceSince (s.opened e l d).dev).filterMap Action.exports = acts.filterMap Action.exports := by
  have hnone : (fileActs (writesOf d l)).filterMap Action.exports = [] :=
    List.filterMap_eq_nil_iff.mpr (List.forall_mem_map.mpr fun _ _ => rfl)
  rw [(opened_files h e l hb).1, List.filterMap_append, hnone, List.append_nil]

/-- A pin that can be driven at the end can be driven once the exports are done. -/
theorem drivable_of_opened (hw : s.dev.env.page.wf = true) {p : Byte} (hd : (s.opened e l d).dev.Drivable p) :
    d.Drivable p := by
  obtain ⟨i, x, hu, hr, hf⟩ := hd
  have hcfg : (s.opened e l d).dev.cfg = d.cfg := (setPins_envOnly l d).cfg
  rw [opened_usable] at hu
  rw [opened_gpio, hcfg] at hr
  rw [opened_gpio] at hf
  exact ⟨i, x, hu, fun hb => ⟨h.does.reaches.wf hw, (hr hb).2⟩, hf⟩

end Opened

/-- A bus that was opened released the line where its last settings did. -/
theorem opened_released (s : State) (e : ErrCode) (l : List PinSet) (d : Dev) :
    (s.opened e l d).dev.released = (setPins l d).released := rfl

/-- The string of one pin's direction, where the files of exported pins are open. -/
theorem writes_mode {d : Dev} (hs : ∀ j, (d.gpio.pin j).settled = true) (hb : d.gpio.backend = .filesystem) (p : Byte)
    (m : PinMode) : PinSet.writes d (.mode p m) =
      match usablePin d p with | none => [] | some (j, _) => [(j, .direction, modeText m)] := by
  unfold PinSet.writes PinSet.pin
  cases hu : usablePin d p with
  | none => rfl
  | some x =>
    have hfull := usablePin_full hu hb (hs x.1)
    simp [PinSet.fileWrites, hfull, PinFiles.full, Handle.writes]

/-- The string of one pin's level, where the files of exported pins are open. -/
theorem writes_value {d : Dev} (hs : ∀ j, (d.gpio.pin j).settled = true) (hb : d.gpio.backend = .filesystem) (p : Byte)
    (b : Bool) : PinSet.writes d (.value p b) =
      match usablePin d p with | none => [] | some (j, _) => [(j, .value, valueText b)] := by
  unfold PinSet.writes PinSet.pin
  cases hu : usablePin d p with
  | none => rfl
  | some x =>
    have hfull := usablePin_full hu hb (hs x.1)
    simp [PinSet.fileWrites, hfull, PinFiles.full, Handle.writes]

/-! ## A bus with one pin -/

theorem releaseSets_simple {d : Dev} (hc : d.bus.cfg ≠ .buffered) : releaseSets d = [.mode d.bus.pinIo .input] := if_neg hc

/-- `busOpenLegacy` and `busOpenTunable` are one operation, but for the configuration and the column of slots: an export,
and the pin made an input. -/
theorem exec_openSimple {s : State} {p : Byte} {i : Instr} {c : BusCfg} (hb : s.dev.bus.bound = false)
    (hi : i = .busOpenLegacy p ∧ c = .legacy ∨ i = .busOpenTunable p ∧ c = .tunable) :
    ∃ slots e d acts, exec i s = .next (s.opened e [.mode p .input] d) ∧
      Dev.ExportStep p (bindBus c p 0xFF slots s.dev) e d acts ∧ releaseSets d = [.mode p .input] := by
  have hrun {c : BusCfg} (hc : c ≠ .buffered) (slots : Vector Word 10) : ∃ e d acts,
      s.runWith (owOpenSimple c p slots) = s.opened e [.mode p .input] d ∧
      Dev.ExportStep p (bindBus c p 0xFF slots s.dev) e d acts ∧ releaseSets d = [.mode p .input] := by
    obtain ⟨acts, hstep⟩ := gpioExportPin_step p (bindBus c p 0xFF slots s.dev)
    have hsets := releaseSets_simple (d := (gpioExportPin p (bindBus c p 0xFF slots s.dev)).2)
      (by rw [hstep.bus]; exact hc)
    have hend : s.runWith (owOpenSimple c p slots) = State.finish (gpioExportPin p (bindBus c p 0xFF slots s.dev)).1
        none none { s with dev := setBound true (owPullUp (gpioExportPin p (bindBus c p 0xFF slots s.dev)).2) } := rfl
    rw [owPullUp_eq_setPins, hsets, hstep.bus] at hend
    rw [hstep.bus] at hsets
    exact ⟨_, _, _, hend, hstep, hsets⟩
  rcases hi with ⟨rfl, rfl⟩ | ⟨rfl, rfl⟩
  · obtain ⟨e, d, acts, hend, h⟩ := hrun (c := .legacy) nofun (slotsOf s.dev.cfg.legacyNs)
    exact ⟨_, e, d, acts, (next_ifBound hb _).trans (congrArg _ hend), h⟩
  · obtain ⟨e, d, acts, hend, h⟩ := hrun (c := .tunable) nofun (slotsOf s.dev.cfg.tunableNs)
    exact ⟨_, e, d, acts, (next_ifBound hb _).trans (congrArg _ hend), h⟩

/-- Settles O45: one export and one setting, for which the lemmas on `State.opened` say what is asked. -/
theorem openSimpleBus : Obligations.OpenSimpleBus := by
  intro s p i c hb hw hi
  obtain ⟨slots, e, d, acts, hexec, hstep, hsets⟩ := exec_openSimple hb hi
  have hexp := hstep.files
  have hready : (∀ j x, validPin s.dev.cfg p = some (j, x) → (s.dev.gpio.pin j).exported = true) → e = .ok := hexp.ready
  have hafter := (afterExports_bindBus c p 0xFF slots s.dev).trans hstep.after
  have huse := opened_usable (s := s) (d := d) e [.mode p .input] p
  have hgpio := opened_gpio (s := s) (d := d) e [.mode p .input]
  have hbus := opened_bus (s := s) (d := d) e [.mode p .input]
  rw [hstep.bus] at hbus
  obtain ⟨hcrc, hbackend, hexport, hunexport⟩ := opened_units hafter e [.mode p .input]
  have hsingle {P : PinSet → Prop} (h : P (.mode p .input)) : ∀ a ∈ [PinSet.mode p .input], P a :=
    List.forall_mem_singleton.mpr h
  refine ⟨_, e, hexec, opened_ends hafter e _, rfl, congrArg Bus.cfg hbus,
    congrArg Bus.pinIo hbus, congrArg (fun b : Bus => b.pinOut.toInt) hbus, hcrc, hexp.err, hbackend, hexport, hunexport,
    fun j hj => (congrArg (Gpio.pin · j) hgpio).trans (hexp.other j hj),
    fun hfs j x hv => hgpio ▸ hexp.exported hfs j x hv, fun hv => hready fun _ _ h => (nomatch hv.symm.trans h),
    fun j x hv hx => hready fun _ _ h => by cases hv.symm.trans h; exact hx, fun hd => ?_, fun hu => ?_, fun hreg => ?_,
    fun j hj => ?_, fun hfs hs => ?_⟩
  · have hdrive : d.bus.drivePin = p :=
      (releaseSets_pin d (.mode p .input) (by rw [hsets]; exact List.mem_singleton.mpr rfl)).symm
    rw [opened_released, ← hsets, ← owPullUp_eq_setPins]
    exact (owPullUp_released d (hdrive ▸ drivable_of_opened hafter e _ hw hd)).1
  · obtain ⟨hpage, hsettings⟩ := Prod.mk.inj (opened_unusable hafter e _ (hsingle (huse.symm.trans hu)))
    exact ⟨fun a => congrArg (Memory.read · a) hpage, hsettings⟩
  · have hstore := opened_storesBits hafter e [.mode p .input] hreg hw
    rw [bitsOf, List.flatMap_singleton] at hstore
    exact hstore
  · exact opened_setting_other hafter e _ hw (hsingle fun x hx => hj x (huse.trans hx))
  · have hwrites := writes_mode (hexp.settled hs) (hafter.backend.trans hfs) p .input
    have hall : writesOf d [.mode p .input] = PinSet.writes d (.mode p .input) := List.flatMap_singleton ..
    rw [huse]
    refine ⟨(opened_pinWrites hafter e _ hfs).trans (hall.trans hwrites), fun j x hu => ?_⟩
    have hset := (opened_files hafter e [.mode p .input] hfs).2.1 j
    rw [hall, hwrites, hu] at hset
    simpa [settingAfter, written_direction] using hset

/-! ## A bus with two pins -/

/-- The settings of a buffered bus (rule R187, steps 5 to 7). -/
def bufferedSets (p q : Byte) (c : Config) : List PinSet :=
  [.mode p .input, .mode q .output, .value q (!c.bufAssertLevel)]

theorem releaseSets_buffered {d : Dev} (hc : d.bus.cfg = .buffered) :
    releaseSets d = [.value d.bus.pinOut (!d.cfg.bufAssertLevel)] := if_pos hc

/-- The last steps of `busOpenBuffered` are three settings of pins. -/
theorem setPins_buffered {p q : Byte} {d : Dev} (hc : d.bus.cfg = .buffered) (hq : d.bus.pinOut = q) :
    owPullUp (gpioSetMode q .output (gpioSetMode p .input d)) = setPins (bufferedSets p q d.cfg) d := by
  have hE := (gpioSetMode_envOnly p .input d).trans (gpioSetMode_envOnly q .output _)
  rw [owPullUp_eq_setPins, releaseSets_buffered (by rw [hE.bus, hc]), hE.bus, hE.cfg, hq]
  rfl

/-- `busOpenBuffered`: two exports, the second whatever the first gave, then the settings. -/
theorem exec_openBuffered {s : State} (p q : Byte) (hb : s.dev.bus.bound = false) :
    ∃ e1 e2 d1 d2 acts1 acts2, exec (.busOpenBuffered p q) s =
        .next (s.opened (worse e1 e2) (bufferedSets p q s.dev.cfg) d2) ∧
      Dev.ExportStep p (bindBus .buffered p q (slotsOf s.dev.cfg.tunableNs) s.dev) e1 d1 acts1 ∧
      Dev.ExportStep q d1 e2 d2 acts2 := by
  obtain ⟨acts1, h1⟩ := gpioExportPin_step p (bindBus .buffered p q (slotsOf s.dev.cfg.tunableNs) s.dev)
  obtain ⟨acts2, h2⟩ :=
    gpioExportPin_step q (gpioExportPin p (bindBus .buffered p q (slotsOf s.dev.cfg.tunableNs) s.dev)).2
  have hbus := h2.bus.trans h1.bus
  have hset := setPins_buffered (p := p) (congrArg Bus.cfg hbus) (congrArg Bus.pinOut hbus)
  rw [h2.after.cfg.trans h1.after.cfg] at hset
  refine ⟨_, _, _, _, acts1, acts2, (next_ifBound hb _).trans (congrArg Host.Outcome.next ?_), h1, h2⟩
  exact congrArg (fun d => State.finish _ none none { s with dev := setBound true d }) hset

theorem worse_eq_ok {a b : ErrCode} : worse a b = .ok ↔ a = .ok ∧ b = .ok := by
  unfold worse
  split
  next h => simp [h]
  next h => simp [h]

section TwoExports
variable {d0 d1 d2 : Dev} {p q : Byte} {e1 e2 : ErrCode} (h1 : Dev.Exported p d0 e1 d1) (h2 : Dev.Exported q d1 e2 d2)
include h1 h2

theorem twoExports_other {j : Fin 64} (hp : pinIndex p ≠ some j) (hq : pinIndex q ≠ some j) :
    d2.gpio.pin j = d0.gpio.pin j := (h2.other j hq).trans (h1.other j hp)

variable (hc : d1.cfg = d0.cfg) (hb : d1.gpio.backend = d0.gpio.backend)
include hb

theorem twoExports_err : worse e1 e2 = .ok ∨ worse e1 e2 = .resourceUnavailable ∧ d0.gpio.backend = .filesystem := by
  unfold worse
  split
  · exact hb ▸ h2.err
  · exact h1.err

include hc

/-- Both pins end exported where the outcome is OK. -/
theorem twoExports_ok (hfs : d0.gpio.backend = .filesystem) (hok : worse e1 e2 = .ok) :
    (∀ j x, validPin d0.cfg p = some (j, x) → (d2.gpio.pin j).exported = true) ∧
      ∀ j x, validPin d0.cfg q = some (j, x) → (d2.gpio.pin j).exported = true := by
  obtain ⟨hp, hq⟩ := worse_eq_ok.mp hok
  exact ⟨fun j x hv => h2.keeps j ((h1.exported hfs j x hv).mpr hp),
    fun j x hv => (h2.exported (hb.trans hfs) j x (by rw [hc, hv])).mpr hq⟩

omit hb in
/-- Where neither pin needs an export the outcome is OK. -/
theorem twoExports_ready (hp : ∀ j x, validPin d0.cfg p = some (j, x) → (d0.gpio.pin j).exported = true)
    (hq : ∀ j x, validPin d0.cfg q = some (j, x) → (d0.gpio.pin j).exported = true) : worse e1 e2 = .ok :=
  worse_eq_ok.mpr ⟨h1.ready hp, h2.ready fun j x hv => h1.keeps j (hq j x (by rw [← hc, hv]))⟩

/-- Where the outcome is not OK one of the two pins is not exported. -/
theorem twoExports_failed (hne : p ≠ q) (hfail : worse e1 e2 ≠ .ok) :
    ∃ j x, (validPin d0.cfg p = some (j, x) ∨ validPin d0.cfg q = some (j, x)) ∧
      (d2.gpio.pin j).exported = false := by
  have hfs := ((twoExports_err h1 h2 hb).resolve_left hfail).2
  by_cases hp : e1 = .ok
  · have hq : e2 ≠ .ok := fun hq => hfail (worse_eq_ok.mpr ⟨hp, hq⟩)
    have hno := mt h2.ready hq
    push Not at hno
    obtain ⟨j, x, hv, -⟩ := hno
    exact ⟨j, x, .inr (by rw [← hc, hv]),
      Bool.eq_false_iff.mpr (mt (h2.exported (hb.trans hfs) j x hv).mp hq)⟩
  · have hno := mt h1.ready hp
    push Not at hno
    obtain ⟨j, x, hv, -⟩ := hno
    refine ⟨j, x, .inl hv, ?_⟩
    rw [h2.other j fun hq => hne (pinIndex_inj (validPin_mapped hv).1 hq)]
    exact Bool.eq_false_iff.mpr (mt (h1.exported hfs j x hv).mp hp)

end TwoExports

/-- The second pin needs an export after the first one as it did before, where the two are different. -/
theorem lineToExport_after {p q : Byte} {d d' : Dev} {e : ErrCode} {acts : List Action}
    (h : Dev.ExportStep p d e d' acts) (hne : p ≠ q) : d'.lineToExport q = d.lineToExport q := by
  unfold Dev.lineToExport Dev.exportLine
  rw [h.after.backend, h.after.hExport, h.after.cfg]
  cases hv : validPin d.cfg q with
  | none => rfl
  | some x => simp only [h.files.other x.1 fun hp => hne (pinIndex_inj hp (validPin_mapped hv).1)]

/-- Each file of a pin that needs an export is opened, of either pin. -/
theorem twoExports_opens {p q : Byte} {d0 d1 d2 : Dev} {e1 e2 : ErrCode} {acts1 acts2 : List Action}
    (h1 : Dev.ExportStep p d0 e1 d1 acts1) (h2 : Dev.ExportStep q d1 e2 d2 acts2)
    (hfs : d0.gpio.backend = .filesystem) (hn : 0 < d0.cfg.exportAttempts) {j : Fin 64} {x : PinEntry} (k : PinFile)
    (hv : validPin d0.cfg p = some (j, x) ∨ validPin d0.cfg q = some (j, x))
    (hx : (d0.gpio.pin j).exported = false) : ∃ ok, .fileOpen (.pinFile j k) ok ∈ acts1 ++ acts2 := by
  have hcfg := h1.after.cfg
  by_cases hp : validPin d0.cfg p = some (j, x)
  · obtain ⟨ok, h⟩ := h1.opens hfs hn j x k hp hx
    exact ⟨ok, List.mem_append_left _ h⟩
  · have hq := hv.resolve_left hp
    have hother : pinIndex p ≠ some j := fun h => hp (pinIndex_inj h (validPin_mapped hq).1 ▸ hq)
    obtain ⟨ok, h⟩ := h2.opens (h1.after.backend.trans hfs) (by rw [hcfg]; exact hn) j x k (by rw [hcfg, hq])
      (by rw [h1.files.other j hother, hx])
    exact ⟨ok, List.mem_append_right _ h⟩

/-! ## The settings of a buffered bus -/

/-- The bits of a buffered bus's pins (rule R187). -/
theorem bitsOf_bufferedSets (p q : Byte) (d : Dev) : bitsOf d (bufferedSets p q d.cfg) =
    (match usablePin d p with
      | none => []
      | some (_, x) => [(x.mux, d.cfg.muxGpioLevel), (x.fsel, !d.cfg.fselOutputLevel)]) ++
    (match usablePin d q with
      | none => []
      | some (_, y) => [(y.mux, d.cfg.muxGpioLevel), (y.fsel, d.cfg.fselOutputLevel),
        (y.out, if d.cfg.bufAssertLevel then !d.cfg.outHighLevel else d.cfg.outHighLevel)]) := by
  have hp : PinSet.bits d (.mode p .input) = match usablePin d p with
      | none => []
      | some (_, x) => [(x.mux, d.cfg.muxGpioLevel), (x.fsel, !d.cfg.fselOutputLevel)] := rfl
  have hq : PinSet.bits d (.mode q .output) ++ PinSet.bits d (.value q (!d.cfg.bufAssertLevel)) =
      match usablePin d q with
      | none => []
      | some (_, y) => [(y.mux, d.cfg.muxGpioLevel), (y.fsel, d.cfg.fselOutputLevel),
        (y.out, if d.cfg.bufAssertLevel then !d.cfg.outHighLevel else d.cfg.outHighLevel)] := by
    unfold PinSet.bits PinSet.pin
    cases usablePin d q with
    | none => rfl
    | some y => rw [← polarity_not]; rfl
  rw [← hp, ← hq]
  simp [bitsOf, bufferedSets]

/-- The strings of a buffered bus's pins, where the files of exported pins are open (rule R187). -/
theorem writesOf_bufferedSets {d : Dev} (hs : ∀ j, (d.gpio.pin j).settled = true) (hb : d.gpio.backend = .filesystem)
    (p q : Byte) (c : Config) : writesOf d (bufferedSets p q c) =
      (match usablePin d p with | none => [] | some (j, _) => [(j, .direction, "in")]) ++
      (match usablePin d q with
        | none => []
        | some (k, _) => [(k, .direction, "out"), (k, .value, if c.bufAssertLevel then "0" else "1")]) := by
  have hp := writes_mode hs hb p .input
  have hq : PinSet.writes d (.mode q .output) ++ PinSet.writes d (.value q (!c.bufAssertLevel)) =
      match usablePin d q with
      | none => []
      | some (k, _) => [(k, .direction, "out"), (k, .value, if c.bufAssertLevel then "0" else "1")] := by
    rw [writes_mode hs hb, writes_value hs hb, valueText_not]
    cases usablePin d q with
    | none => rfl
    | some y => rfl
  rw [← hq]
  simp only [writesOf, bufferedSets, List.flatMap_cons, List.flatMap_nil, List.append_nil]
  exact congrArg (· ++ _) hp

section Settings
variable {d : Dev} (hs : ∀ j, (d.gpio.pin j).settled = true) (hb : d.gpio.backend = .filesystem) {p q : Byte}
  (c : Config) (z : PinSettings)
include hs hb

/-- The input pin of a buffered bus is made an input (rule R187). -/
theorem settingAfter_input {j : Fin 64} {x : PinEntry} (hu : usablePin d p = some (j, x)) (hq : pinIndex q ≠ some j) :
    settingAfter j (writesOf d (bufferedSets p q c)) z = { z with mode := .input } := by
  rw [writesOf_bufferedSets hs hb, hu]
  have hother : ∀ w ∈ (match usablePin d q with
      | none => []
      | some (k, _) => [(k, PinFile.direction, "out"), (k, .value, if c.bufAssertLevel then "0" else "1")]), w.1 ≠ j := by
    cases hq' : usablePin d q with
    | none => exact nofun
    | some y =>
      have hk : y.1 ≠ j := fun h => hq (h ▸ (validPin_mapped (usablePin_valid hq')).1)
      exact List.forall_mem_cons.mpr ⟨hk, List.forall_mem_singleton.mpr hk⟩
  refine (settingAfter_other hother _).trans ?_
  exact (if_pos rfl).trans (written_direction .input z)

/-- The output pin of a buffered bus is made an output and released (rule R187). -/
theorem settingAfter_output {k : Fin 64} {y : PinEntry} (hu : usablePin d q = some (k, y)) :
    settingAfter k (writesOf d (bufferedSets p q c)) z = { z with mode := .output, level := !c.bufAssertLevel } := by
  have hset (w : PinSettings) : settingAfter k
      [(k, .direction, modeText .output), (k, .value, valueText (!c.bufAssertLevel))] w =
      { w with mode := .output, level := !c.bufAssertLevel } := by
    simp [settingAfter, written_direction, written_value]
  rw [writesOf_bufferedSets hs hb, hu, settingAfter, List.foldl_append]
  rw [valueText_not] at hset
  refine (hset _).trans ?_
  cases hp : usablePin d p with
  | none => rfl
  | some x =>
    by_cases hj : x.1 = k
    · simp [hj, PinSettings.written]
    · simp [hj]

end Settings

/-- The output pin of a buffered bus that can be driven is an output, and releases the line. -/
theorem buffered_released {p q : Byte} {d : Dev} (hc : d.bus.cfg = .buffered) (hq : d.bus.pinOut = q)
    (hd : d.Drivable q) : (setPins (bufferedSets p q d.cfg) d).released = true ∧
      (setPins (bufferedSets p q d.cfg) d).pinMode q = some .output := by
  have hE := (gpioSetMode_envOnly p .input d).trans (gpioSetMode_envOnly q .output _)
  have hmode := (gpioSetMode_view q .output _ ((gpioSetMode_envOnly p .input d).drivable q hd)).1
  have hset := setPins_buffered (p := p) hc hq
  refine ⟨hset ▸ (owPullUp_released _ ?_).1,
    (gpioSetValue_view q (!d.cfg.bufAssertLevel) _ (hE.drivable q hd)).2.trans hmode⟩
  rw [hE.bus, drivePin_buffered hc, hq]
  exact hE.drivable q hd

/-- Settles O46: two exports and three settings, for which the lemmas on `State.opened` say what is asked. -/
theorem openBufferedBus : Obligations.OpenBufferedBus := by
  intro s p q hb hw
  obtain ⟨e1, e2, d1, d, acts1, acts2, hexec, h1, h2⟩ := exec_openBuffered p q hb
  have hafter := (afterExports_bindBus .buffered p q (slotsOf s.dev.cfg.tunableNs) s.dev).trans (h1.after.trans h2.after)
  have hd' := h2.bus.trans h1.bus
  have hgpio := opened_gpio (s := s) (d := d) (worse e1 e2) (bufferedSets p q s.dev.cfg)
  have hbus := opened_bus (s := s) (d := d) (worse e1 e2) (bufferedSets p q s.dev.cfg)
  have huse := opened_usable (s := s) (d := d) (worse e1 e2) (bufferedSets p q s.dev.cfg)
  rw [hd'] at hbus
  obtain ⟨hcrc, hbackend, hexport, hunexport⟩ := opened_units hafter (worse e1 e2) (bufferedSets p q s.dev.cfg)
  have herr := twoExports_err h1.files h2.files h1.after.backend
  have hboth := twoExports_ok h1.files h2.files h1.after.cfg h1.after.backend
  have hready := twoExports_ready h1.files h2.files h1.after.cfg
  have hfailed := twoExports_failed h1.files h2.files h1.after.cfg h1.after.backend
  have hother (j : Fin 64) := twoExports_other (j := j) h1.files h2.files
  rw [← hgpio] at hboth hfailed hother
  have hsets {P : PinSet → Prop} (hm : ∀ m, P (.mode p m)) (hq : ∀ m, P (.mode q m)) (hv : ∀ b, P (.value q b)) :
      ∀ a ∈ bufferedSets p q s.dev.cfg, P a := by
    simp only [bufferedSets, List.forall_mem_cons]
    exact ⟨hm _, hq _, hv _, nofun⟩
  refine ⟨_, worse e1 e2, hexec, opened_ends hafter _ _, rfl, congrArg Bus.cfg hbus, congrArg Bus.pinIo hbus,
    congrArg Bus.pinOut hbus, hcrc, herr, hbackend, hexport, hunexport, hother, hboth, hready,
    fun hfail hne => hfailed hne hfail, fun hfs hopen hne => ?_, fun hfs hn j x k hv hx => ?_, fun hd => ?_,
    fun hreg => ?_, fun j hp hq => ?_, fun hreg a => congrArg (Memory.read · a) (opened_page hafter _ _ hreg),
    fun hfs hs => ?_⟩
  · have hfirst : (bindBus .buffered p q (slotsOf s.dev.cfg.tunableNs) s.dev).lineToExport p = s.dev.exportLine p :=
      if_pos ⟨hfs, hopen⟩
    have hsecond : (bindBus .buffered p q (slotsOf s.dev.cfg.tunableNs) s.dev).lineToExport q = s.dev.exportLine q :=
      if_pos ⟨hfs, hopen⟩
    rw [opened_exports hafter _ _ hfs, List.nil_append, List.filterMap_append, h1.exports, h2.exports,
      lineToExport_after h1 hne, hfirst, hsecond]
  · obtain ⟨ok, hmem⟩ := twoExports_opens h1 h2 hfs hn k hv hx
    rw [(opened_files hafter _ _ hfs).1]
    exact ⟨ok, List.mem_append_left _ hmem⟩
  · have hrel := buffered_released (p := p) (congrArg Bus.cfg hd') (congrArg Bus.pinOut hd')
      (drivable_of_opened hafter _ _ hw hd)
    rw [hafter.cfg] at hrel
    exact hrel
  · have hstore := opened_storesBits hafter (worse e1 e2) (bufferedSets p q s.dev.cfg) hreg hw
    rw [bitsOf_bufferedSets] at hstore
    exact hstore
  · simp only [huse] at hp hq
    exact opened_setting_other hafter _ _ hw (hsets (fun _ => hp) (fun _ => hq) fun _ => hq)
  · have hs' := h2.files.settled (h1.files.settled hs)
    have hfs' := hafter.backend.trans hfs
    have hset := (opened_files hafter (worse e1 e2) (bufferedSets p q s.dev.cfg) hfs).2.1
    simp only [huse]
    exact ⟨(opened_pinWrites hafter _ _ hfs).trans (writesOf_bufferedSets hs' hfs' p q s.dev.cfg),
      fun j x hu hq => (hset j).trans (settingAfter_input hs' hfs' _ _ hu hq),
      fun k y hu => (hset k).trans (settingAfter_output hs' hfs' _ _ hu)⟩

end Sys2Proof.Machine
end

section
/-! PROOFS. The protocol operations as scripts: lists of releases, asserts, waits and samples (rules R193 to R197). What a
script does is said once, by induction on its steps; each operation is one script. -/

namespace Sys2Proof.Machine

open Sys2Proof

/-! ## Scripts -/

/-- One step of a protocol operation (rules R181 to R183, R193 to R195). -/
inductive LineAct where
  | release
  | assert
  | slot (i : Fin 10)
  | settle
  | sample

/-- What a step does. -/
def LineAct.run : LineAct → Dev → Dev
  | .release => owPullUp
  | .assert => owPullDown
  | .slot i => waitSlot i
  | .settle => fun d => waitNs d.cfg.settleNs d
  | .sample => fun d => (owSample d).2

/-- The steps of a script, one after another. -/
def play (l : List LineAct) (d : Dev) : Dev := l.foldl (fun d a => a.run d) d

/-- A write slot (rule R194). -/
def writeScript (b : Bool) : List LineAct :=
  [.assert, .slot (if b then slotA else slotC), .release, .slot (if b then slotB else slotD)]

/-- A read slot (rule R196). -/
def readScript : List LineAct := [.assert, .slot slotA, .release, .slot slotE, .sample, .slot slotF]

/-- `writeByte` (rule R195). -/
def writeByteScript (v : Byte) : List LineAct :=
  ((List.range 8).flatMap fun k => writeScript (v.getLsbD k)) ++ [.settle]

/-- `readByte` (rule R197). -/
def readByteScript : List LineAct := (List.range 8).flatMap fun _ => readScript

/-- The reset pulse and its sample (rule R193, steps 2 to 8). -/
def pulseScript : List LineAct :=
  [.release, .slot slotG, .assert, .slot slotH, .release, .slot slotI, .sample]

/-- `reset`, by whether a device answered (rule R193). -/
def resetScript (present : Bool) : List LineAct := pulseScript ++ if present then [.slot slotJ] else []

theorem play_append (l m : List LineAct) (d : Dev) : play (l ++ m) d = play m (play l d) := List.foldl_append

theorem play_flatMap {α : Type} (f : α → List LineAct) (ks : List α) (d : Dev) :
    play (ks.flatMap f) d = ks.foldl (fun d k => play (f k) d) d := by
  induction ks generalizing d with
  | nil => rfl
  | cons k ks ih =>
    rw [List.flatMap_cons, play_append]
    exact ih _

theorem LineAct.run_envOnly (a : LineAct) (d : Dev) : Dev.EnvOnly d (a.run d) := by
  cases a with
  | release => exact owPullUp_envOnly d
  | assert => exact owPullDown_envOnly d
  | slot i => exact waitSlot_envOnly i d
  | settle => exact waitNs_envOnly _ d
  | sample => exact owSample_envOnly d

theorem play_envOnly (l : List LineAct) (d : Dev) : Dev.EnvOnly d (play l d) :=
  foldl_envOnly _ (fun d a => a.run_envOnly d) l d

/-! ## The operations are scripts -/

theorem writeSlot_eq_play (b : Bool) (d : Dev) : writeSlot b d = play (writeScript b) d := by cases b <;> rfl

theorem writeSlots_eq_play (v : Byte) (d : Dev) : writeSlots v d = play (writeByteScript v) d := by
  have hcfg := (play_envOnly ((List.range 8).flatMap fun k => writeScript (v.getLsbD k)) d).cfg
  rw [writeByteScript, play_append]
  show _ = waitNs (play _ d).cfg.settleNs (play _ d)
  rw [hcfg, play_flatMap]
  simp only [← writeSlot_eq_play]
  rfl

/-- Rounds of `readByte` are read slots. -/
theorem readRounds_eq_play (ks : List Nat) (x : Byte × Dev) : (ks.foldl (fun x k => readSlotInto k x) x).2 =
    play (ks.flatMap fun _ => readScript) x.2 := by
  induction ks generalizing x with
  | nil => rfl
  | cons k ks ih =>
    rw [List.flatMap_cons, play_append]
    exact ih _

theorem readSlots_eq_play (d : Dev) : (readSlots d).2 = play readByteScript d := readRounds_eq_play (List.range 8) (0, d)

/-- The end of a command that is a script. -/
def State.played (s : State) (e : ErrCode) (x : Option Word) (l : List LineAct) : State :=
  State.finish e x none { s with dev := play l s.dev }

section Exec
variable {s : State} (hb : s.dev.bus.bound = true)
include hb

theorem exec_writeBit (b : Bool) : exec (.writeBit b) s = .next (s.played .ok none (writeScript b)) := by
  refine (next_ifBound hb _).trans ?_
  rw [State.played, ← writeSlot_eq_play]
  rfl

theorem exec_writeByte (v : Byte) : exec (.writeByte v) s = .next (s.played .ok none (writeByteScript v)) := by
  refine (next_ifBound hb _).trans ?_
  rw [State.played, ← writeSlots_eq_play]
  rfl

theorem exec_readBit :
    exec .readBit s = .next (s.played .ok (some (boolWord (readSlot s.dev).1.bit)) readScript) := next_ifBound hb _

theorem exec_readByte :
    exec .readByte s = .next (s.played .ok (some (byteWord (readSlots s.dev).1)) readByteScript) := by
  refine (next_ifBound hb _).trans ?_
  rw [State.played, ← readSlots_eq_play]
  rfl

/-- `reset`, by whether its sample is low (rule R193). -/
theorem exec_reset {low : Bool} (hlow : (resetPulse s.dev).1.isLow = low) : exec .reset s =
    .next (s.played (if low then .ok else .noPresence) (some (boolWord low)) (resetScript low)) := by
  have hreset : owReset s.dev =
      (if low then .ok else .noPresence, some (boolWord low), play (resetScript low) s.dev) := by
    unfold owReset
    dsimp only
    rw [hlow]
    cases low <;> rfl
  refine (next_ifBound hb _).trans (congrArg Host.Outcome.next ?_)
  unfold State.runWith
  dsimp only
  rw [hreset]
  rfl

end Exec

/-! ## The kinds of steps -/

/-- The waits of a step, after the clamp (rules R36, R37, R166). -/
def LineAct.waits (d : Dev) : LineAct → List Nat
  | .slot i => [d.slotWait i]
  | .settle => [clampNs d.cfg d.cfg.settleNs]
  | _ => []

/-- A step acts on pins, or it is a wait. -/
theorem LineAct.run_cases (a : LineAct) (d : Dev) :
    (Dev.PinActs d (a.run d) ∧ a.waits d = []) ∨ ∃ n, a.run d = waitNs n d ∧ a.waits d = [clampNs d.cfg n] := by
  cases a with
  | release => exact .inl ⟨owPullUp_pinActs d, rfl⟩
  | assert => exact .inl ⟨owPullDown_pinActs d, rfl⟩
  | slot i => exact .inr ⟨_, rfl, rfl⟩
  | settle => exact .inr ⟨_, rfl, rfl⟩
  | sample => exact .inl ⟨owSample_pinActs d, rfl⟩

section Congr
variable {d d' : Dev} (h : Dev.EnvOnly d d')
include h

theorem LineAct.waits_congr : LineAct.waits d' = LineAct.waits d := by
  funext a
  cases a with
  | slot i => simp only [LineAct.waits, Dev.slotWait, h.cfg, h.bus]
  | settle => simp only [LineAct.waits, h.cfg]
  | _ => rfl

/-- The history between the two states takes the one to the other. -/
theorem Dev.EnvOnly.doesSince : Dev.Does (d.actionsSince d') d d' := by
  obtain ⟨acts, hdoes⟩ := h.does
  rw [hdoes.actionsSince]
  exact hdoes

/-- The history of two operations is that of the one and then that of the other. -/
theorem actionsSince_trans {d'' : Dev} (h' : Dev.EnvOnly d' d'') :
    d.actionsSince d'' = d.actionsSince d' ++ d'.actionsSince d'' := (h.doesSince.trans h'.doesSince).actionsSince

end Congr

/-! ## The history of a script -/

/-- The history of a script is that of its first step and then that of the rest. -/
theorem play_cons_actions (a : LineAct) (l : List LineAct) (d : Dev) : d.actionsSince (play (a :: l) d) =
    d.actionsSince (a.run d) ++ (a.run d).actionsSince (play l (a.run d)) :=
  actionsSince_trans (a.run_envOnly d) (play_envOnly l (a.run d))

theorem play_nil_actions (d : Dev) : d.actionsSince (play [] d) = [] := (Dev.Does.refl d).actionsSince

/-- What is read off the actions of a script step by step. -/
theorem play_history {β : Type} {F : List Action → List β} (hF : ∀ a b, F (a ++ b) = F a ++ F b)
    {G : Dev → LineAct → List β} (hG : ∀ {d d'}, Dev.EnvOnly d d' → G d' = G d)
    (hstep : ∀ a d, F (d.actionsSince (a.run d)) = G d a) (l : List LineAct) (d : Dev) :
    F (d.actionsSince (play l d)) = l.flatMap (G d) := by
  induction l generalizing d with
  | nil =>
    have hnil : F [] = [] := by simpa using hF [] []
    rw [play_nil_actions, hnil]
    rfl
  | cons a l ih => rw [play_cons_actions, hF, hstep, ih, hG (a.run_envOnly d), List.flatMap_cons]

/-- The waits of a script are those of its steps, in order (rule R199). -/
theorem waitsSince_play (l : List LineAct) (d : Dev) : d.waitsSince (play l d) = l.flatMap (LineAct.waits d) := by
  refine play_history (F := List.filterMap Action.waited) (fun _ _ => List.filterMap_append) LineAct.waits_congr ?_ l d
  intro a d
  rcases a.run_cases d with ⟨⟨acts, hdoes, hpins⟩, hw⟩ | ⟨n, hrun, hw⟩
  · rw [hdoes.actionsSince, hw]
    exact List.filterMap_eq_nil_iff.mpr fun x hx => (hpins x hx).1
  · obtain ⟨ts, hdoes⟩ := waitNs_does n d
    have hreads : (ts.map Action.clockRead).filterMap Action.waited = [] :=
      List.filterMap_eq_nil_iff.mpr (List.forall_mem_map.mpr fun _ _ => rfl)
    rw [hrun, hdoes.actionsSince, hw, List.filterMap_append, hreads]
    rfl

/-- A script lasts at least as long as its waits (rule R169). -/
theorem play_clk (l : List LineAct) (d : Dev) :
    d.env.clk + (l.flatMap (LineAct.waits d)).sum ≤ (play l d).env.clk := by
  induction l generalizing d with
  | nil => exact Nat.le_refl _
  | cons a l ih =>
    have hstep : d.env.clk + (a.waits d).sum ≤ (a.run d).env.clk := by
      rcases a.run_cases d with ⟨hpins, hw⟩ | ⟨n, hrun, hw⟩
      · rw [hw, hpins.clk]
        exact Nat.le_refl _
      · rw [hw, hrun, List.sum_singleton]
        exact (waitNs_spec n d).2
    have hrest : (a.run d).env.clk + (l.flatMap (LineAct.waits d)).sum ≤ (play (a :: l) d).env.clk :=
      LineAct.waits_congr (a.run_envOnly d) ▸ ih (a.run d)
    rw [List.flatMap_cons, List.sum_append]
    omega

/-! ## A command that is a script -/

section Played
variable (s : State) (e : ErrCode) (x : Option Word) (l : List LineAct)

theorem played_ends : s.EndsAs (s.played e x l) e (x.getD s.r0) s.r1 :=
  finish_ends (play_envOnly l s.dev).env (play_envOnly l s.dev).cfg e x none

theorem played_units : s.dev.SameUnits (s.played e x l).dev := by
  have hE := play_envOnly l s.dev
  exact ⟨hE.gpio, hE.bus, hE.crc⟩

theorem played_waits : s.dev.waitsSince (s.played e x l).dev = l.flatMap (LineAct.waits s.dev) :=
  (finish_waits (play_envOnly l s.dev).env e x none).trans (waitsSince_play l s.dev)

theorem played_clk : s.dev.env.clk + (s.dev.waitsSince (s.played e x l).dev).sum ≤ (s.played e x l).dev.env.clk := by
  rw [played_waits]
  exact play_clk l s.dev

end Played

theorem writeScript_waits (b : Bool) (d : Dev) : (writeScript b).flatMap (LineAct.waits d) =
    if b then [d.slotWait slotA, d.slotWait slotB] else [d.slotWait slotC, d.slotWait slotD] := by cases b <;> rfl

theorem writeByteScript_waits (v : Byte) (d : Dev) : (writeByteScript v).flatMap (LineAct.waits d) =
    ((List.range 8).flatMap fun k => if v.getLsbD k then [d.slotWait slotA, d.slotWait slotB]
      else [d.slotWait slotC, d.slotWait slotD]) ++ [min d.cfg.settleNs d.cfg.delayMaxNs] := by
  rw [writeByteScript, List.flatMap_append, List.flatMap_assoc]
  simp only [writeScript_waits]
  rfl

/-- Settles O55: both operations are scripts, whose waits are those of their steps. -/
theorem writeBitAndWriteByte : Obligations.WriteBitAndWriteByte := by
  refine ⟨rfl, fun s hb => ⟨fun b => ⟨_, exec_writeBit hb b, played_ends .., played_units .., ?_, played_clk ..⟩,
    fun v => ⟨_, exec_writeByte hb v, played_ends .., played_units .., ?_, played_clk ..⟩⟩⟩
  · rw [played_waits, writeScript_waits]
  · rw [played_waits, writeByteScript_waits]

end Sys2Proof.Machine
end

section
/-! PROOFS. The master's line trace of the protocol operations (rules R199, R200): what the line does during each wait, in
which order the actions come, and how long each wait lasts. -/

namespace Sys2Proof.Machine

open Sys2Proof

/-! ## The line during a script -/

/-- Whether the master asserts the line, and whether it has released it (rule R38). -/
def Dev.line (d : Dev) : Bool × Bool := (d.asserted, d.released)

/-- What a step makes of the line of a pin that can be driven. -/
def LineAct.line (x : Bool × Bool) : LineAct → Bool × Bool
  | .release => (false, true)
  | .assert => (true, false)
  | _ => x

/-- The line after a script. -/
def lineAfter (x : Bool × Bool) (l : List LineAct) : Bool × Bool := l.foldl LineAct.line x

/-- The line trace of a script that finds the line at `x`. -/
def lineTrace (d : Dev) : Bool × Bool → List LineAct → List (Bool × Bool × Nat)
  | _, [] => []
  | x, a :: l => (a.waits d).map (fun n => (x.1, x.2, n)) ++ lineTrace d (a.line x) l

theorem lineTrace_congr {d d' : Dev} (h : Dev.EnvOnly d d') (l : List LineAct) (x : Bool × Bool) :
    lineTrace d' x l = lineTrace d x l := by
  induction l generalizing x with
  | nil => rfl
  | cons a l ih => rw [lineTrace, lineTrace, LineAct.waits_congr h, ih]

theorem Dev.SameLine.line {d d' : Dev} (h : Dev.SameLine d d') : d'.line = d.line := by
  rw [Dev.line, h.asserted, h.released, Dev.line]

section Drivable
variable {d : Dev} (hd : d.Drivable d.bus.drivePin)
include hd

theorem LineAct.run_line (a : LineAct) : (a.run d).line = a.line d.line := by
  cases a with
  | release =>
    obtain ⟨hrel, has⟩ := owPullUp_released d hd
    exact Prod.ext has hrel
  | assert =>
    obtain ⟨has, hrel⟩ := owPullDown_asserted d hd
    exact Prod.ext has hrel
  | slot i => exact (waitNs_sameLine _ d).line
  | settle => exact (waitNs_sameLine _ d).line
  | sample => exact (owSample_sameLine d).line

theorem LineAct.run_drivable (a : LineAct) : (a.run d).Drivable (a.run d).bus.drivePin := by
  have hE := a.run_envOnly d
  rw [hE.bus]
  exact hE.drivable _ hd

end Drivable

theorem play_line {d : Dev} (hd : d.Drivable d.bus.drivePin) (l : List LineAct) :
    (play l d).line = lineAfter d.line l := by
  induction l generalizing d with
  | nil => rfl
  | cons a l ih =>
    have hrest := ih (LineAct.run_drivable hd a)
    rw [LineAct.run_line hd a] at hrest
    exact hrest

/-- The line trace of one step: its wait, with the line as it stood. -/
theorem LineAct.run_segments (a : LineAct) (d : Dev) :
    d.segments (d.actionsSince (a.run d)) = (a.waits d).map fun n => (d.asserted, d.released, n) := by
  rcases a.run_cases d with ⟨⟨acts, hdoes, hpins⟩, hw⟩ | ⟨n, hrun, hw⟩
  · rw [hdoes.actionsSince, hw]
    exact segments_pins d hpins
  · obtain ⟨acts, hdoes, hseg⟩ := waitNs_segments n d
    rw [hrun, hdoes.actionsSince, hw, hseg]
    rfl

/-- The line trace of a script (rule R199). -/
theorem play_segments {d : Dev} (hd : d.Drivable d.bus.drivePin) (l : List LineAct) :
    d.segments (d.actionsSince (play l d)) = lineTrace d d.line l := by
  induction l generalizing d with
  | nil =>
    rw [play_nil_actions]
    rfl
  | cons a l ih =>
    have hE := a.run_envOnly d
    rw [play_cons_actions, segments_append hE.doesSince, LineAct.run_segments, ih (LineAct.run_drivable hd a),
      LineAct.run_line hd a, lineTrace_congr hE]
    rfl

theorem played_segments {s : State} (hd : s.dev.Drivable s.dev.bus.drivePin) (e : ErrCode) (x : Option Word)
    (l : List LineAct) :
    s.dev.segments (s.dev.actionsSince (s.played e x l).dev) = lineTrace s.dev s.dev.line l := by
  have hE := play_envOnly l s.dev
  have hend : (play l s.dev).segments [.result x none (packStatus e (play l s.dev).bus (play l s.dev).gpio.backend false)] =
      [] := rfl
  rw [State.played, finish_actions hE.env, segments_append hE.doesSince, play_segments hd, hend, List.append_nil]

/-! ## The line trace of each operation -/

/-- The line trace of a write slot. -/
def writeSegments (d : Dev) (b : Bool) : List (Bool × Bool × Nat) :=
  if b then [(true, false, d.slotWait slotA), (false, true, d.slotWait slotB)]
  else [(true, false, d.slotWait slotC), (false, true, d.slotWait slotD)]

/-- The line trace of a read slot. -/
def readSegments (d : Dev) : List (Bool × Bool × Nat) :=
  [(true, false, d.slotWait slotA), (false, true, d.slotWait slotE), (false, true, d.slotWait slotF)]

section Traces
variable (d : Dev) (x : Bool × Bool) (l : List LineAct)

theorem lineTrace_writeScript (b : Bool) :
    lineTrace d x (writeScript b ++ l) = writeSegments d b ++ lineTrace d (false, true) l := by cases b <;> rfl

theorem lineTrace_readScript : lineTrace d x (readScript ++ l) = readSegments d ++ lineTrace d (false, true) l := rfl

/-- The line trace of slots that each end with the line released. -/
theorem lineTrace_flatMap {α : Type} {f : α → List LineAct} {g : α → List (Bool × Bool × Nat)}
    (h : ∀ k x l, lineTrace d x (f k ++ l) = g k ++ lineTrace d (false, true) l) (ks : List α) :
    lineTrace d x (ks.flatMap f ++ l) = ks.flatMap g ++ lineTrace d (if ks = [] then x else (false, true)) l := by
  induction ks generalizing x with
  | nil => rfl
  | cons k ks ih =>
    rw [List.flatMap_cons, List.append_assoc, h, ih, ite_self, List.flatMap_cons, List.append_assoc]
    rfl

end Traces

theorem lineTrace_writeByteScript (d : Dev) (x : Bool × Bool) (v : Byte) : lineTrace d x (writeByteScript v) =
    ((List.range 8).flatMap fun k => writeSegments d (v.getLsbD k)) ++
      [(false, true, clampNs d.cfg d.cfg.settleNs)] := by
  rw [writeByteScript, lineTrace_flatMap d x _ (fun k x l => lineTrace_writeScript d x l (v.getLsbD k))]
  rfl

theorem lineTrace_readByteScript (d : Dev) (x : Bool × Bool) : lineTrace d x readByteScript =
    (List.replicate 8 (readSegments d)).flatten := by
  have h := lineTrace_flatMap d x [] (fun (_ : Nat) x l => lineTrace_readScript d x l) (List.range 8)
  rw [List.append_nil] at h
  rw [readByteScript, h]
  rfl

/-! ## The order of the actions -/

/-- The accesses of a list of bit writes in outline. -/
theorem writeBits_outline (ws : List (Nat × Bool)) (d : Dev) :
    (d.traceSince (writeBits ws d)).map Action.outline = ws.flatMap fun w => bitWriteOutline w.1 := by
  have key : ∃ acts, Dev.Does acts d (writeBits ws d) ∧
      acts.map Action.outline = (ws.flatMap fun w => bitWriteOutline w.1) ∧ ∀ a ∈ acts, a.Traced := by
    induction ws generalizing d with
    | nil => exact ⟨[], .refl d, rfl, nofun⟩
    | cons w ws ih =>
      obtain ⟨acts, hdoes, hmap, htraced⟩ := ih (regBitWrite w.1 w.2 d)
      refine ⟨_, (regBitWrite_does w.1 w.2 d).trans hdoes, ?_, ?_⟩
      · rw [List.map_append, hmap]
        rfl
      · simp only [List.cons_append, List.nil_append, List.forall_mem_cons]
        exact ⟨⟨rfl, rfl⟩, ⟨rfl, rfl⟩, htraced⟩
  obtain ⟨acts, hdoes, hmap, htraced⟩ := key
  rw [hdoes.envDoes.traceSince htraced, hmap]

theorem writeFiles_outline (ws : PinWrites) (d : Dev) :
    (d.traceSince (writeFiles ws d)).map Action.outline = fileActs ws := by
  rw [(writeFiles_does ws d).envDoes.traceSince fun a ha => (fileActs_traced ws a ha).1, fileActs, List.map_map]
  rfl

theorem traceSince_self (d : Dev) : d.traceSince d = [] := (Dev.Does.refl d).envDoes.traceSince nofun

/-- The outline of a setting of a pin. -/
def PinSet.outline (d : Dev) (a : PinSet) : List Action :=
  d.pinOutline a.pin (fun e => (a.entryBits d.cfg e).flatMap fun w => bitWriteOutline w.1)
    (fun i => fileActs (a.fileWrites (d.gpio.pin i) i))

/-- The outline of settings of pins, under each backend. -/
theorem setPins_outline (l : List PinSet) (d : Dev) :
    (d.traceSince (setPins l d)).map Action.outline = l.flatMap (PinSet.outline d) := by
  cases hb : d.gpio.backend with
  | none =>
    have hu (p : Byte) : usablePin d p = none := by unfold usablePin; rw [hb]
    rw [setPins_unusable l fun a _ => hu a.pin, traceSince_self]
    refine (List.flatMap_eq_nil_iff.mpr fun a _ => ?_).symm
    unfold PinSet.outline Dev.pinOutline
    rw [hu]
  | register =>
    rw [setPins_register l hb, writeBits_outline, bitsOf, List.flatMap_assoc]
    refine List.flatMap_congr fun a _ => ?_
    unfold PinSet.outline Dev.pinOutline PinSet.bits
    cases usablePin d a.pin with
    | none => rfl
    | some y => simp only [hb]
  | filesystem =>
    rw [setPins_filesystem l hb, writeFiles_outline, writesOf, fileActs, List.map_flatMap]
    refine List.flatMap_congr fun a _ => ?_
    unfold PinSet.outline Dev.pinOutline PinSet.writes
    cases usablePin d a.pin with
    | none => rfl
    | some y => simp only [hb]; rfl

theorem fileActs_writes (h : Handle) (i : Fin 64) (k : PinFile) (t : String) :
    fileActs (h.writes i k t) = h.acts [.fileWrite (.pinFile i k) t] := by cases h <;> rfl

theorem pinOutline_congr {d : Dev} {p : Byte} {reg reg' : PinEntry → List Action} {files files' : Fin 64 → List Action}
    (hr : ∀ e, reg e = reg' e) (hf : ∀ i, files i = files' i) : d.pinOutline p reg files = d.pinOutline p reg' files' := by
  rw [funext hr, funext hf]

theorem pinOutline_append (d : Dev) (p : Byte) (reg reg' : PinEntry → List Action) (files files' : Fin 64 → List Action) :
    d.pinOutline p reg files ++ d.pinOutline p reg' files' =
      d.pinOutline p (fun e => reg e ++ reg' e) fun i => files i ++ files' i := by
  unfold Dev.pinOutline
  split
  · rfl
  · split <;> rfl

theorem owPullUp_outline (d : Dev) : (d.traceSince (owPullUp d)).map Action.outline = d.releaseOutline := by
  rw [owPullUp_eq_setPins, setPins_outline]
  unfold releaseSets Dev.releaseOutline
  split
  · rw [List.flatMap_singleton]
    exact pinOutline_congr (fun e => rfl) fun i => by rw [← valueText_not]; exact fileActs_writes _ _ _ _
  · rw [List.flatMap_singleton]
    exact pinOutline_congr (fun e => rfl) fun i => fileActs_writes _ _ _ _

theorem owPullDown_outline (d : Dev) : (d.traceSince (owPullDown d)).map Action.outline = d.assertOutline := by
  rw [owPullDown_eq_setPins, setPins_outline]
  unfold assertSets Dev.assertOutline
  split
  · rw [List.flatMap_singleton]
    exact pinOutline_congr (fun e => rfl) fun i => fileActs_writes _ _ _ _
  · rw [List.flatMap_cons, List.flatMap_singleton]
    refine (pinOutline_append ..).trans (pinOutline_congr (fun e => rfl) fun i => ?_)
    exact congrArg₂ (· ++ ·) (fileActs_writes _ _ _ _) (fileActs_writes _ _ _ _)

/-- The sample in outline (rule R183), which follows `gpioGetValue` along the pin, the backend and the handle. -/
theorem owSample_outline (d : Dev) : (d.traceSince (owSample d).2).map Action.outline = d.sampleOutline := by
  unfold Dev.sampleOutline Dev.pinOutline
  cases hu : usablePin d d.bus.pinIo with
  | none =>
    have hread : (owSample d).2 = d := by rw [owSample, gpioGetValue_unusable hu]
    rw [hread, traceSince_self]
    rfl
  | some x =>
    obtain ⟨i, e⟩ := x
    rcases usablePin_backend hu with hb | ⟨hb, -⟩
    · have hread : (owSample d).2 = (regBit e.inp d).2 := by rw [owSample, gpioGetValue_register hu hb]
      rw [hread, (regBit_does e.inp d).envDoes.traceSince (List.forall_mem_singleton.mpr ⟨rfl, rfl⟩), hb]
      rfl
    · rw [hb]
      show _ = (d.gpio.pin i).hValue.acts _
      cases hv : (d.gpio.pin i).hValue with
      | invalid =>
        have hread : (owSample d).2 = d := by
          unfold owSample gpioGetValue getValueFile
          simp only [hu, hb, hv]
          rfl
        rw [hread, traceSince_self]
        rfl
      | opened =>
        have hread : (owSample d).2 = (getValueFile i d).2 := by rw [owSample, gpioGetValue_filesystem hu hb hv]
        rw [hread, (getValueFile_does i d hv).envDoes.traceSince (List.forall_mem_cons.mpr
          ⟨⟨rfl, rfl⟩, List.forall_mem_singleton.mpr ⟨rfl, rfl⟩⟩)]
        rfl

/-- The outline of a step (rules R181 to R183). -/
def LineAct.outline (d : Dev) : LineAct → List Action
  | .release => d.releaseOutline
  | .assert => d.assertOutline
  | .slot i => [.wait (d.slotWait i)]
  | .settle => [.wait (clampNs d.cfg d.cfg.settleNs)]
  | .sample => d.sampleOutline

theorem LineAct.outline_congr {d d' : Dev} (h : Dev.EnvOnly d d') : LineAct.outline d' = LineAct.outline d := by
  have hpin (p : Byte) (reg : PinEntry → List Action) (files : Fin 64 → List Action) :
      d'.pinOutline p reg files = d.pinOutline p reg files := by
    unfold Dev.pinOutline
    rw [usablePin_congr h.cfg h.gpio, h.gpio]
  funext a
  cases a with
  | release => simp only [LineAct.outline, Dev.releaseOutline, hpin, h.cfg, h.gpio, h.bus]
  | assert => simp only [LineAct.outline, Dev.assertOutline, hpin, h.cfg, h.gpio, h.bus]
  | slot i => simp only [LineAct.outline, Dev.slotWait, h.cfg, h.bus]
  | settle => simp only [LineAct.outline, h.cfg]
  | sample => simp only [LineAct.outline, Dev.sampleOutline, hpin, h.gpio, h.bus]

theorem waitNs_outline (n : Nat) (d : Dev) :
    (d.traceSince (waitNs n d)).map Action.outline = [.wait (clampNs d.cfg n)] := by
  obtain ⟨ts, hdoes⟩ := waitNs_does n d
  rw [hdoes.traceSince_clockActs (ns := [clampNs d.cfg n])]
  rfl

/-- The whole sequence of actions of a script but for the values (rule R199). -/
theorem outline_play (l : List LineAct) (d : Dev) :
    (d.traceSince (play l d)).map Action.outline = l.flatMap (LineAct.outline d) := by
  refine play_history (F := fun l => (l.filter fun a => !a.isClockRead && !a.isOwn).map Action.outline)
    (fun a b => by rw [List.filter_append, List.map_append]) LineAct.outline_congr (fun a d => ?_) l d
  cases a with
  | release => exact owPullUp_outline d
  | assert => exact owPullDown_outline d
  | slot i => exact waitNs_outline _ d
  | settle => exact waitNs_outline _ d
  | sample => exact owSample_outline d

theorem writeScript_outline (b : Bool) (d : Dev) : (writeScript b).flatMap (LineAct.outline d) =
    d.assertOutline ++ [.wait (d.slotWait (if b then slotA else slotC))] ++ d.releaseOutline ++
      [.wait (d.slotWait (if b then slotB else slotD))] := by
  simp [writeScript, LineAct.outline]

theorem readScript_outline (d : Dev) : readScript.flatMap (LineAct.outline d) =
    d.assertOutline ++ [.wait (d.slotWait slotA)] ++ d.releaseOutline ++ [.wait (d.slotWait slotE)] ++
      d.sampleOutline ++ [.wait (d.slotWait slotF)] := by
  simp [readScript, LineAct.outline]

theorem writeByteScript_outline (v : Byte) (d : Dev) : (writeByteScript v).flatMap (LineAct.outline d) =
    ((List.range 8).flatMap fun k =>
      d.assertOutline ++ [.wait (d.slotWait (if v.getLsbD k then slotA else slotC))] ++
      d.releaseOutline ++ [.wait (d.slotWait (if v.getLsbD k then slotB else slotD))]) ++
    [.wait (clampNs d.cfg d.cfg.settleNs)] := by
  rw [writeByteScript, List.flatMap_append, List.flatMap_assoc]
  simp only [writeScript_outline]
  rfl

theorem readByteScript_outline (d : Dev) : readByteScript.flatMap (LineAct.outline d) =
    (List.replicate 8 (d.assertOutline ++ [.wait (d.slotWait slotA)] ++ d.releaseOutline ++
      [.wait (d.slotWait slotE)] ++ d.sampleOutline ++ [.wait (d.slotWait slotF)])).flatten := by
  rw [readByteScript, List.flatMap_assoc]
  simp only [readScript_outline]
  rfl

theorem resetScript_outline (present : Bool) (d : Dev) : (resetScript present).flatMap (LineAct.outline d) =
    d.releaseOutline ++ [.wait (d.slotWait slotG)] ++ d.assertOutline ++ [.wait (d.slotWait slotH)] ++
      d.releaseOutline ++ [.wait (d.slotWait slotI)] ++ d.sampleOutline ++
      (if present then [.wait (d.slotWait slotJ)] else []) := by
  cases present <;> simp [resetScript, pulseScript, LineAct.outline]

theorem played_outline (s : State) (e : ErrCode) (x : Option Word) (l : List LineAct) :
    (s.dev.traceSince (s.played e x l).dev).map Action.outline = l.flatMap (LineAct.outline s.dev) := by
  rw [State.played, finish_trace (play_envOnly l s.dev).env, outline_play]

/-! ## How long each wait lasts -/

/-- A wait and the times its clock reads show: it lasts its duration from the first read to the last, and no longer than
rule R169 allows. -/
def WaitKept (c : Config) (w : Nat × List Nat) : Prop :=
  ∃ first last, w.2.head? = some first ∧ w.2.getLast? = some last ∧ first + w.1 ≤ last ∧
    ∀ m, c.overrunMaxNs = some m → last ≤ first + w.1 + m

/-- The waits of actions that begin a wait anew, before those of later actions. -/
theorem waitReads_pins {acts : List Action} (h : ∀ a ∈ acts, Action.onPins a) (rest : List Action) :
    waitReads [] (acts ++ rest) = waitReads [] rest := by
  induction acts with
  | nil => rfl
  | cons a acts ih =>
    obtain ⟨⟨hwaited, hshows⟩, hacts⟩ := List.forall_mem_cons.mp h
    cases a with
    | clockRead t => cases hshows
    | wait n => cases hwaited
    | _ => exact ih hacts

theorem waitReads_wait (us ts : List Nat) (n : Nat) (rest : List Action) :
    waitReads us (ts.map Action.clockRead ++ [.wait n] ++ rest) = (n, us ++ ts) :: waitReads [] rest := by
  induction ts generalizing us with
  | nil => rw [List.append_nil]; rfl
  | cons t ts ih => exact (ih (us ++ [t])).trans (by rw [List.append_assoc]; rfl)

/-- The clock stands at the last time that was read. -/
theorem clockReads_clk (t : Nat) (ts : List Nat) (e : Env) :
    (Env.performAll ((t :: ts).map Action.clockRead) e).clk = ts.getLast?.getD t := by
  induction ts generalizing t e with
  | nil => rfl
  | cons u ts ih => exact (ih u _).trans (by rw [List.getLast?_cons]; rfl)

theorem waitNs_eq_spinUntil (n : Nat) (d : Dev) : waitNs n d = spinUntil (now d).1 (clampNs d.cfg n) (now d).2 := by
  rw [waitNs, busyWait, (now_envOnly d).cfg]

/-- A wait makes a first clock read, perhaps later ones, and lasts from the first to the last (rules R163, R169). -/
theorem waitNs_kept (n : Nat) (d : Dev) : ∃ ts : List Nat,
    Dev.Does (ts.map Action.clockRead ++ [.wait (clampNs d.cfg n)]) d (waitNs n d) ∧
    WaitKept d.cfg (clampNs d.cfg n, ts) := by
  obtain ⟨later, hspin⟩ := spinUntil_does (now d).1 (clampNs d.cfg n) (now d).2
  have hdoes := (now_does d).trans hspin
  have hlasts := (spinUntil_spec (now d).1 (clampNs d.cfg n) (now d).2).2
  have hclk : (waitNs n d).env.clk = later.getLast?.getD (now d).1 := by
    rw [waitNs_eq_spinUntil, hdoes.env]
    show (Env.performAll (((now d).1 :: later).map Action.clockRead ++ [.wait _]) d.env).clk = _
    rw [performAll_append]
    exact clockReads_clk _ _ _
  rw [← waitNs_eq_spinUntil] at hdoes hlasts
  refine ⟨(now d).1 :: later, hdoes, (now d).1, (waitNs n d).env.clk, rfl, ?_, hlasts, fun m => waitNs_clk_le⟩
  rw [List.getLast?_cons, hclk]

/-- Every wait of a script is kept, and none takes up a clock read from before it. -/
theorem play_waitReads (l : List LineAct) (d : Dev) : ∃ ws, (∀ w ∈ ws, WaitKept d.cfg w) ∧
    ∀ rest, waitReads [] (d.actionsSince (play l d) ++ rest) = ws ++ waitReads [] rest := by
  induction l generalizing d with
  | nil =>
    rw [play_nil_actions]
    exact ⟨[], nofun, fun _ => rfl⟩
  | cons a l ih =>
    obtain ⟨ws, hkept, hreads⟩ := ih (a.run d)
    rw [(a.run_envOnly d).cfg] at hkept
    rw [play_cons_actions]
    rcases a.run_cases d with ⟨⟨acts, hdoes, hpins⟩, -⟩ | ⟨n, hrun, -⟩
    · refine ⟨ws, hkept, fun rest => ?_⟩
      rw [hdoes.actionsSince, List.append_assoc, waitReads_pins hpins, hreads]
    · obtain ⟨ts, hdoes, hwait⟩ := waitNs_kept n d
      refine ⟨_ :: ws, List.forall_mem_cons.mpr ⟨hwait, hkept⟩, fun rest => ?_⟩
      rw [hrun] at hreads ⊢
      rw [hdoes.actionsSince, List.append_assoc, waitReads_wait, hreads]
      rfl

theorem played_waitReads (s : State) (e : ErrCode) (x : Option Word) (l : List LineAct) :
    ∀ w ∈ waitReads [] (s.dev.actionsSince (s.played e x l).dev), WaitKept s.dev.cfg w := by
  obtain ⟨ws, hkept, hreads⟩ := play_waitReads l s.dev
  rw [State.played, finish_actions (play_envOnly l s.dev).env, hreads]
  exact fun w hw => hkept w (by simpa [waitReads] using hw)

/-! ## The protocol operations -/

/-- A protocol operation is a script that ends with the line released (rule R200). -/
theorem exec_protocol {s : State} {i : Instr} (hb : s.dev.bus.bound = true)
    (hi : i = .reset ∨ (∃ b, i = .writeBit b) ∨ (∃ v, i = .writeByte v) ∨ i = .readBit ∨ i = .readByte) :
    ∃ e x l, exec i s = .next (s.played e x l) ∧ ∀ line, lineAfter line l = (false, true) := by
  rcases hi with rfl | ⟨b, rfl⟩ | ⟨v, rfl⟩ | rfl | rfl
  · exact ⟨_, _, _, exec_reset hb rfl, fun line => by cases (resetPulse s.dev).1.isLow <;> rfl⟩
  · exact ⟨_, _, _, exec_writeBit hb b, fun line => rfl⟩
  · exact ⟨_, _, _, exec_writeByte hb v, fun line => rfl⟩
  · exact ⟨_, _, _, exec_readBit hb, fun line => rfl⟩
  · exact ⟨_, _, _, exec_readByte hb, fun line => rfl⟩

/-- Settles O52: every protocol operation is a script after which the line is released. -/
theorem protocolOperationsEndReleased : Obligations.ProtocolOperationsEndReleased := by
  intro s i hb hd hi
  obtain ⟨e, x, l, hexec, hafter⟩ := exec_protocol hb hi
  have hline : (s.played e x l).dev.line = (false, true) := (play_line hd l).trans (hafter _)
  obtain ⟨hasserted, hreleased⟩ := Prod.mk.inj hline
  exact ⟨_, hexec, hreleased, hasserted⟩

/-- The answer of `reset` as a word (rule R97). -/
theorem boolWord_eq_one (b : Bool) : boolWord b = 1 ↔ b = true := by cases b <;> decide

/-- Settles O51: each operation is a script, of which `play_segments` gives the line during each wait, `outline_play` the
actions in order, and `play_waitReads` the length of each wait. -/
theorem masterLineTrace : Obligations.MasterLineTrace := by
  refine ⟨rfl, fun s hb hd => ⟨?_, ?_, ?_, fun v => ?_, ?_, ?_⟩,
    fun s hb => ⟨fun b => ?_, ?_, fun v => ?_, ?_, ?_⟩, fun s i hb hi => ?_⟩
  · exact ⟨_, exec_writeBit hb true, played_segments hd ..⟩
  · exact ⟨_, exec_writeBit hb false, played_segments hd ..⟩
  · exact ⟨_, exec_readBit hb, played_segments hd ..⟩
  · exact ⟨_, exec_writeByte hb v, (played_segments hd ..).trans (lineTrace_writeByteScript _ _ v)⟩
  · exact ⟨_, exec_readByte hb, (played_segments hd ..).trans (lineTrace_readByteScript _ _)⟩
  · refine ⟨_, exec_reset hb rfl, (played_segments hd ..).trans ?_⟩
    show _ = _ ++ if boolWord _ = 1 then _ else _
    simp only [boolWord_eq_one]
    cases (resetPulse s.dev).1.isLow <;> rfl
  · exact ⟨_, exec_writeBit hb b, (played_outline ..).trans (writeScript_outline b _)⟩
  · exact ⟨_, exec_readBit hb, (played_outline ..).trans (readScript_outline _)⟩
  · exact ⟨_, exec_writeByte hb v, (played_outline ..).trans (writeByteScript_outline v _)⟩
  · exact ⟨_, exec_readByte hb, (played_outline ..).trans (readByteScript_outline _)⟩
  · refine ⟨_, exec_reset hb rfl, (played_outline ..).trans ((resetScript_outline _ _).trans ?_)⟩
    show _ = _ ++ if boolWord _ = 1 then _ else _
    simp only [boolWord_eq_one]
  · obtain ⟨e, x, l, hexec, -⟩ := exec_protocol hb hi
    exact ⟨_, hexec, fun n ts h => played_waitReads s e x l (n, ts) h⟩

end Sys2Proof.Machine
end

section
/-! PROOFS. What the samples of the protocol operations give (rules R183, R193, R196, R197): where the pin operations of the
drive pin take no draw, the samples are those the environment has queued, in order. -/

namespace Sys2Proof.Machine

open Sys2Proof

/-! ## What takes no sample -/

/-- The queued draws of which samples are made (rule R47). -/
def Draws.samples (x : Draws) : List Word × List ReadChar := (x.ins, x.chars)

theorem drawAdvance_samples (d : Dev) : (drawAdvance d).2.env.draws.samples = d.env.draws.samples := by
  unfold drawAdvance
  split <;> rfl

theorem perform_keeps_draws (a : Action) (d : Dev) : (perform a d).env.draws = d.env.draws := effect_keeps_draws a d.env

theorem spin_samples (t0 dur : Nat) (ns : List Nat) (d : Dev) :
    (spin t0 dur ns d).2.2.env.draws.samples = d.env.draws.samples := by
  induction ns generalizing d with
  | nil => rfl
  | cons n ns ih =>
    simp only [spin]
    split
    · rfl
    · exact ih _

theorem spinFree_samples (t0 dur : Nat) (d : Dev) : (spinFree t0 dur d).env.draws.samples = d.env.draws.samples := by
  have hs := spin_samples t0 dur (Config.freePolls d.env.draws.count) (countDraw d)
  unfold spinFree
  dsimp only
  split
  · exact hs
  · exact hs

theorem spinUntil_samples (t0 dur : Nat) (d : Dev) : (spinUntil t0 dur d).env.draws.samples = d.env.draws.samples := by
  have hs := spin_samples t0 dur d.env.draws.times d
  unfold spinUntil
  dsimp only
  split
  · exact hs
  · exact (spinFree_samples t0 dur _).trans hs

/-- A wait takes draws of the clock only. -/
theorem waitNs_samples (n : Nat) (d : Dev) : (waitNs n d).env.draws.samples = d.env.draws.samples := by
  rw [waitNs_eq_spinUntil]
  exact (spinUntil_samples _ _ _).trans (drawAdvance_samples d)

/-- A bit write in a word with no `in` bit takes no draw (rule R62). -/
theorem regBitWrite_draws {off : Nat} {d : Dev} (h : d.cfg.inMask (off / 32) = 0) (v : Bool) :
    (regBitWrite off v d).env.draws = d.env.draws := by
  unfold regBitWrite memWrite memRead
  dsimp only
  rw [if_pos h]
  rfl

theorem writeBits_draws {ws : List (Nat × Bool)} {d : Dev} (h : ∀ w ∈ ws, d.cfg.inMask (w.1 / 32) = 0) :
    (writeBits ws d).env.draws = d.env.draws := by
  induction ws generalizing d with
  | nil => rfl
  | cons w ws ih =>
    obtain ⟨hw, hws⟩ := List.forall_mem_cons.mp h
    have hcfg := (regBitWrite_envOnly w.1 w.2 d).cfg
    exact (ih (d := regBitWrite w.1 w.2 d) (by rw [hcfg]; exact hws)).trans (regBitWrite_draws hw w.2)

theorem writeFiles_draws (ws : PinWrites) (d : Dev) : (writeFiles ws d).env.draws = d.env.draws := by
  induction ws generalizing d with
  | nil => rfl
  | cons w ws ih => exact (ih _).trans (perform_keeps_draws _ d)

section Quiet
variable {d : Dev} (hq : d.QuietDrive)
include hq

theorem PinSet.bits_quiet {a : PinSet} (ha : a.pin = d.bus.drivePin) :
    ∀ w ∈ a.bits d, d.cfg.inMask (w.1 / 32) = 0 := by
  unfold PinSet.bits
  rw [ha]
  cases hu : usablePin d d.bus.drivePin with
  | none => exact nofun
  | some x =>
    have hquiet := hq x.1 x.2 hu
    simp only [PinEntry.quiet, Bool.and_eq_true, beq_iff_eq] at hquiet
    obtain ⟨⟨hmux, hfsel⟩, hout⟩ := hquiet
    cases a with
    | mode p m => exact List.forall_mem_cons.mpr ⟨hmux, List.forall_mem_singleton.mpr hfsel⟩
    | value p b => exact List.forall_mem_singleton.mpr hout

/-- Settings of a drive pin that is quiet take no draw. -/
theorem setPins_draws {l : List PinSet} (hl : ∀ a ∈ l, a.pin = d.bus.drivePin) :
    (setPins l d).env.draws = d.env.draws := by
  cases hb : d.gpio.backend with
  | none => rw [setPins_unusable l fun a _ => by unfold usablePin; rw [hb]]
  | register =>
    rw [setPins_register l hb, writeBits_draws]
    intro w hw
    obtain ⟨a, ha, hwa⟩ := List.mem_flatMap.mp hw
    exact PinSet.bits_quiet hq (hl a ha) w hwa
  | filesystem => rw [setPins_filesystem l hb, writeFiles_draws]

end Quiet

theorem quietDrive_congr {d d' : Dev} (h : Dev.EnvOnly d d') (hq : d.QuietDrive) : d'.QuietDrive := by
  intro i e hu
  rw [usablePin_congr h.cfg h.gpio, h.bus] at hu
  rw [h.cfg]
  exact hq i e hu

/-! ## What a sample gives -/

theorem drawIn_queued (d : Dev) : (drawIn d).2.env.draws.ins = d.env.draws.ins.tail ∧
    ∀ w rest, d.env.draws.ins = w :: rest → (drawIn d).1 = w := by
  unfold drawIn
  split
  next h => exact ⟨by rw [h]; rfl, fun w' rest' h' => by rw [h] at h'; cases h'; rfl⟩
  next h => exact ⟨h.trans (by rw [h]; rfl), fun _ _ h' => nomatch h.symm.trans h'⟩

theorem drawChar_queued (d : Dev) : (drawChar d).2.env.draws.chars = d.env.draws.chars.tail ∧
    ∀ c rest, d.env.draws.chars = c :: rest → (drawChar d).1 = c := by
  unfold drawChar
  split
  next h => exact ⟨by rw [h]; rfl, fun w' rest' h' => by rw [h] at h'; cases h'; rfl⟩
  next h => exact ⟨h.trans (by rw [h]; rfl), fun _ _ h' => nomatch h.symm.trans h'⟩

theorem sampleAt_congr {d d' : Dev} (h : Dev.EnvOnly d d') (hs : d'.env.draws.samples = d.env.draws.samples) (k : Nat) :
    d'.sampleAt k = d.sampleAt k := by
  obtain ⟨hins, hchars⟩ := Prod.mk.inj hs
  unfold Dev.sampleAt
  rw [usablePin_congr h.cfg h.gpio, h.bus, h.gpio, hins, hchars]

/-- The samples from `d` on are the queue `q` of the draws, read by `f`; the next of them is taken by `owSample`. -/
structure Dev.SamplesFrom {α : Type} (q : Draws → List α) (f : α → Level) (d : Dev) : Prop where
  samples : ∀ d', Dev.EnvOnly d d' → ∀ k, d'.sampleAt k = (q d'.env.draws)[k]?.map f
  taken   : q (owSample d).2.env.draws = (q d.env.draws).tail
  value   : ∀ x rest, q d.env.draws = x :: rest → (owSample d).1 = f x

/-- No sample can be taken, or the samples are those of a queue (rules R138, R183). -/
theorem owSample_cases (d : Dev) : (owSample d = (.unreadable, d) ∧ ∀ k, d.sampleAt k = some .unreadable) ∨
    ∃ (α : Type) (q : Draws → List α) (f : α → Level), Dev.SamplesFrom q f d := by
  cases hu : usablePin d d.bus.pinIo with
  | none => exact .inl ⟨gpioGetValue_unusable hu, fun k => by unfold Dev.sampleAt; rw [hu]⟩
  | some x =>
    obtain ⟨i, e⟩ := x
    have hu' {d' : Dev} (h : Dev.EnvOnly d d') : usablePin d' d'.bus.pinIo = some (i, e) := by
      rw [usablePin_congr h.cfg h.gpio, h.bus, hu]
    rcases usablePin_backend hu with hb | ⟨hb, -⟩
    · have he := ((validPin_eq_some _ _ _ _).mp (usablePin_valid hu)).2
      have hread := gpioGetValue_register hu hb
      have hdraws := (memRead_drawn (d := d) (inMask_inp he)).2
      refine .inr ⟨Word, Draws.ins, fun w => levelOfBit (w.getLsbD (e.inp % 32)), fun d' h k => ?_, ?_, ?_⟩
      · unfold Dev.sampleAt
        simp only [hu' h, h.gpio, hb]
      · exact (congrArg (fun r : Level × Dev => r.2.env.draws.ins) hread).trans
          ((congrArg Draws.ins hdraws).trans (drawIn_queued d).1)
      · intro w rest h
        rw [← (drawIn_queued d).2 w rest h]
        exact congrArg Prod.fst hread
    · cases hv : (d.gpio.pin i).hValue with
      | invalid =>
        refine .inl ⟨?_, fun k => by unfold Dev.sampleAt; simp only [hu, hb, hv]⟩
        unfold owSample gpioGetValue getValueFile
        simp only [hu, hb, hv]
        rfl
      | opened =>
        have hread := gpioGetValue_filesystem hu hb hv
        refine .inr ⟨ReadChar, Draws.chars, levelOfChar, fun d' h k => ?_, ?_, ?_⟩
        · unfold Dev.sampleAt
          simp only [hu' h, h.gpio, hb, hv]
        · exact (congrArg (fun r : Level × Dev => r.2.env.draws.chars) hread).trans
            ((congrArg Draws.chars (getValueFile_draw hv).2).trans (drawChar_queued d).1)
        · intro c rest h
          rw [← (drawChar_queued d).2 c rest h]
          exact congrArg Prod.fst hread

/-- A sample is the one that is next (rule R183). -/
theorem owSample_value {d : Dev} {v : Level} (h : d.sampleAt 0 = some v) : (owSample d).1 = v := by
  rcases owSample_cases d with ⟨hnone, hsample⟩ | ⟨α, q, f, hfrom⟩
  · rw [hsample] at h
    cases h
    rw [hnone]
  · rw [hfrom.samples d (.refl d) 0] at h
    cases hq : q d.env.draws with
    | nil => rw [hq] at h; cases h
    | cons x rest =>
      rw [hq] at h
      cases h
      exact hfrom.value x rest hq

/-- A sample takes one of the samples there are. -/
theorem owSample_sampleAt (d : Dev) (k : Nat) : (owSample d).2.sampleAt k = d.sampleAt (k + 1) := by
  rcases owSample_cases d with ⟨hnone, hsample⟩ | ⟨α, q, f, hfrom⟩
  · rw [hnone, hsample, hsample]
  · rw [hfrom.samples _ (owSample_envOnly d), hfrom.samples d (.refl d), hfrom.taken, List.getElem?_tail]

/-! ## The samples of a script -/

/-- How many samples a step takes. -/
def LineAct.samples : LineAct → Nat
  | .sample => 1
  | _ => 0

theorem LineAct.run_sampleAt {d : Dev} (hq : d.QuietDrive) (a : LineAct) (k : Nat) :
    (a.run d).sampleAt k = d.sampleAt (k + a.samples) := by
  have hE := a.run_envOnly d
  cases a with
  | release =>
    refine sampleAt_congr hE (congrArg Draws.samples ?_) k
    exact (congrArg (fun d : Dev => d.env.draws) (owPullUp_eq_setPins d)).trans (setPins_draws hq (releaseSets_pin d))
  | assert =>
    refine sampleAt_congr hE (congrArg Draws.samples ?_) k
    exact (congrArg (fun d : Dev => d.env.draws) (owPullDown_eq_setPins d)).trans (setPins_draws hq (assertSets_pin d))
  | slot i => exact sampleAt_congr hE (waitNs_samples _ d) k
  | settle => exact sampleAt_congr hE (waitNs_samples _ d) k
  | sample => exact owSample_sampleAt d k

theorem play_sampleAt {d : Dev} (hq : d.QuietDrive) (l : List LineAct) (k : Nat) :
    (play l d).sampleAt k = d.sampleAt (k + (l.map LineAct.samples).sum) := by
  induction l generalizing d with
  | nil => rfl
  | cons a l ih =>
    have hrest := ih (quietDrive_congr (a.run_envOnly d) hq)
    rw [LineAct.run_sampleAt hq, add_assoc, add_comm _ a.samples] at hrest
    exact hrest

/-! ## The operations that sample -/

section Operations
variable {d : Dev} (hq : d.QuietDrive) {v : Level} (hv : d.sampleAt 0 = some v)
include hq hv

theorem readSlot_value : (readSlot d).1 = v :=
  owSample_value ((play_sampleAt hq [.assert, .slot slotA, .release, .slot slotE] 0).trans hv)

theorem resetPulse_value : (resetPulse d).1 = v :=
  owSample_value ((play_sampleAt hq [.release, .slot slotG, .assert, .slot slotH, .release, .slot slotI] 0).trans hv)

end Operations

theorem level_bit (v : Level) : v.bit = decide (v ≠ .low) := by cases v <;> rfl

theorem isLow_eq_false {v : Level} (h : v ≠ .low) : v.isLow = false := by
  cases v with
  | low => exact absurd rfl h
  | _ => rfl

/-- Settles O56: the sample of the read slot is the one that is queued. -/
theorem readBitReturnsTheSample : Obligations.ReadBitReturnsTheSample := by
  intro s v hb hq hv
  have hword : boolWord (readSlot s.dev).1.bit = if v = .low then 0 else 1 := by
    rw [readSlot_value hq hv]
    cases v <;> rfl
  refine ⟨_, exec_readBit hb, ?_, played_units .., played_waits .., played_clk ..⟩
  rw [hword]
  exact played_ends ..

/-- Settles O54: the sample of the reset pulse is the one that is queued, and decides which script `reset` is. -/
theorem resetReportsPresence : Obligations.ResetReportsPresence := by
  intro s v hb hq hv
  have hexec := exec_reset hb (low := v.isLow) (by rw [resetPulse_value hq hv])
  refine ⟨_, hexec, played_units .., fun hlow => ?_, fun hhigh => ?_⟩
  · rw [show v.isLow = true by rw [hlow]; rfl]
    have hclk := played_clk s .ok (some (boolWord true)) (resetScript true)
    have hwaits := played_waits s .ok (some (boolWord true)) (resetScript true)
    rw [hwaits] at hclk
    exact ⟨played_ends .., hwaits, by simpa [resetScript, pulseScript, LineAct.waits, add_assoc] using hclk⟩
  · rw [isLow_eq_false hhigh]
    have hclk := played_clk s .noPresence (some (boolWord false)) (resetScript false)
    have hwaits := played_waits s .noPresence (some (boolWord false)) (resetScript false)
    rw [hwaits] at hclk
    exact ⟨played_ends .., hwaits, by simpa [resetScript, pulseScript, LineAct.waits, add_assoc] using hclk⟩

/-! ## `readByte` -/

theorem putAcc_bit {acc : Byte} {n k : Nat} (hn : n < 8) (b : Bool) (h : acc.getLsbD n = false) :
    (putAcc acc n b).getLsbD k = if k = n then b else acc.getLsbD k := by
  unfold putAcc
  cases b with
  | false =>
    rw [if_neg Bool.false_ne_true]
    split
    next hk => rw [hk, h]
    next => rfl
  | true =>
    have hbit : (1#8 <<< n).getLsbD k = decide (k = n) := by
      rw [← BitVec.twoPow_eq, BitVec.getLsbD_twoPow]
      simp [hn, eq_comm]
    rw [if_pos rfl, BitVec.getLsbD_or, hbit]
    by_cases hk : k = n <;> simp [hk]

theorem readScripts_samples (n : Nat) :
    (((List.range n).flatMap fun _ => readScript).map LineAct.samples).sum = n := by
  induction n with
  | zero => rfl
  | succ n ih =>
    rw [List.range_succ, List.flatMap_append, List.map_append, List.sum_append, ih]
    rfl

/-- The accumulator after rounds of `readByte`: the samples so far, the first one bit 0 (rule R197). -/
theorem readRounds_bits {d : Dev} (hq : d.QuietDrive) {vs : Nat → Level} {n : Nat} (hn : n ≤ 8)
    (hvs : ∀ k, k < 8 → d.sampleAt k = some (vs k)) (k : Nat) :
    ((List.range n).foldl (fun x k => readSlotInto k x) (0, d)).1.getLsbD k = (decide (k < n) && (vs k).bit) := by
  induction n generalizing k with
  | zero => simp
  | succ n ih =>
    have hn' : n ≤ 8 := Nat.le_of_succ_le hn
    have hdev := readRounds_eq_play (List.range n) (0, d)
    rw [List.range_succ, List.foldl_append]
    generalize (List.range n).foldl (fun x k => readSlotInto k x) (0, d) = x at ih hdev ⊢
    have hquiet : x.2.QuietDrive := by
      rw [hdev]
      exact quietDrive_congr (play_envOnly ..) hq
    have hnext : x.2.sampleAt 0 = some (vs n) := by
      rw [hdev, play_sampleAt hq, readScripts_samples, zero_add]
      exact hvs n hn
    have hclear : x.1.getLsbD n = false := by simpa using ih hn' n
    calc (putAcc x.1 n (readSlot x.2).1.bit).getLsbD k
      _ = if k = n then (vs n).bit else decide (k < n) && (vs k).bit := by
        rw [putAcc_bit hn _ hclear, readSlot_value hquiet hnext, ih hn' k]
      _ = (decide (k < n + 1) && (vs k).bit) := by
        by_cases hk : k = n
        · simp [hk]
        · have hlt : k < n + 1 ↔ k < n := by omega
          rw [if_neg hk, decide_eq_decide.mpr hlt]

/-- Settles O57: the bits of the accumulator are the samples, in the order in which they are queued. -/
theorem readByteLsbFirst : Obligations.ReadByteLsbFirst := by
  intro s vs hb hq hvs
  refine ⟨_, _, exec_readByte hb, played_ends .., fun k hk => ?_, played_units .., ?_, played_clk ..⟩
  · rw [← level_bit]
    exact (readRounds_bits hq (le_refl 8) hvs k).trans (by simp [hk])
  · exact (played_waits ..).trans rfl

end Sys2Proof.Machine
end

section
/-! PROOFS. The CRC unit (rules R231 to R237). Bits that are flipped in the accumulator and in the data byte
alike are shifted out by the serial form and leave the rest as it was, so that the update is a function of `c XOR b`, as
the table form is. A round shows in its top bit whether it mixed, so that it can be undone. -/

namespace Sys2Proof.Machine

open Sys2Proof

/-! ## The serial form and the table -/

theorem crcRound_xor_xor (c b x : Byte) : crcRound (c ^^^ x) (b ^^^ x) = crcRound c b ^^^ x >>> 1 := by
  have hmix : (c ^^^ x) ^^^ (b ^^^ x) = c ^^^ b := by
    rw [BitVec.xor_assoc, BitVec.xor_comm b, ← BitVec.xor_assoc x, BitVec.xor_self, BitVec.zero_xor]
  unfold crcRound
  rw [hmix, BitVec.ushiftRight_xor_distrib]
  split
  · rw [BitVec.xor_assoc, BitVec.xor_comm (x >>> 1), ← BitVec.xor_assoc]
  · rfl

theorem crcRounds_xor_xor (n : Nat) (c b x : Byte) :
    crcRounds n (c ^^^ x) (b ^^^ x) = crcRounds n c b ^^^ x >>> n := by
  induction n generalizing c b x with
  | zero => rfl
  | succ n ih =>
    calc crcRounds n (crcRound (c ^^^ x) (b ^^^ x)) ((b ^^^ x) >>> 1)
      _ = crcRounds n (crcRound c b ^^^ x >>> 1) (b >>> 1 ^^^ x >>> 1) := by
        rw [crcRound_xor_xor, BitVec.ushiftRight_xor_distrib]
      _ = crcRounds n (crcRound c b) (b >>> 1) ^^^ x >>> (n + 1) := by
        rw [ih, ← BitVec.shiftRight_add, Nat.add_comm 1 n]

theorem crcStepSerial_eq_zero_xor (c b : Byte) : crcStepSerial c b = crcStepSerial 0 (c ^^^ b) := by
  have h := crcRounds_xor_xor 8 c b c
  rw [BitVec.xor_self, BitVec.ushiftRight_eq_zero (Nat.le_refl 8), BitVec.xor_zero, BitVec.xor_comm b] at h
  exact h.symm

/-- The table as it was produced (rules R232, R237). -/
theorem crcTable_getElem? : ∀ x : Byte, crcTable[x.toNat]? = some (crcStepSerial 0 x) := by decide

theorem crcStep_eq_serial (c b : Byte) : crcStep c b = crcStepSerial c b := by
  unfold crcStep
  rw [List.getD_eq_getElem?_getD, crcTable_getElem?, crcStepSerial_eq_zero_xor c]
  rfl

/-- The lookup of the update never misses the table (rule R231). -/
theorem crcTable_lookup (c b : Byte) : crcTable[(c ^^^ b).toNat]? = some (crcStep c b) := by
  rw [crcTable_getElem?, crcStep_eq_serial, crcStepSerial_eq_zero_xor c]

/-- Settles O58: the serial form is a function of `c XOR b` too, and the table holds its values from 0. -/
theorem crcTableIsTheSerialForm : Obligations.CrcTableIsTheSerialForm := by
  refine ⟨crcStep_eq_serial, fun k hk => ?_⟩
  have h := crcTable_getElem? (BitVec.ofNat 8 k)
  rwa [BitVec.toNat_ofNat, Nat.mod_eq_of_lt hk] at h

/-! ## The update loses nothing -/

/-- The top bit of a round is its mix: 0x8C has bit 7, and the shift clears it. -/
theorem crcRound_top (c b : Byte) : (crcRound c b).getLsbD 7 = (c ^^^ b).getLsbD 0 := by
  unfold crcRound
  split
  next h => rw [h]; simp
  next h => rw [Bool.eq_false_of_not_eq_true h]; simp

theorem crcRound_injective (b : Byte) : Function.Injective (crcRound · b) := by
  intro c c' h
  have hmix : (c ^^^ b).getLsbD 0 = (c' ^^^ b).getLsbD 0 := by
    rw [← crcRound_top, ← crcRound_top]
    exact congrArg (BitVec.getLsbD · 7) h
  have hshift : c >>> 1 = c' >>> 1 := by
    simp only [crcRound, hmix] at h
    split at h
    · exact (BitVec.xor_left_inj _).mp h
    · exact h
  refine BitVec.eq_of_getLsbD_eq fun k _ => ?_
  cases k with
  | zero => simpa using hmix
  | succ k => simpa [Nat.add_comm] using congrArg (BitVec.getLsbD · k) hshift

theorem crcRounds_injective (n : Nat) (b : Byte) : Function.Injective (crcRounds n · b) := by
  induction n generalizing b with
  | zero => exact Function.injective_id
  | succ n ih => exact (ih (b >>> 1)).comp (crcRound_injective b)

theorem crcStep_injective_acc (b : Byte) : Function.Injective (crcStep · b) := by
  simp only [crcStep_eq_serial]
  exact crcRounds_injective 8 b

theorem crcStep_comm (c b : Byte) : crcStep c b = crcStep b c := by
  unfold crcStep
  rw [BitVec.xor_comm]

theorem crcStep_injective (c : Byte) : Function.Injective (crcStep c) := fun x y h =>
  crcStep_injective_acc c (by simpa only [crcStep_comm c] using h)

theorem foldl_crcStep_injective (t : List Byte) : Function.Injective fun c => t.foldl crcStep c := by
  induction t with
  | nil => exact Function.injective_id
  | cons b t ih => exact ih.comp (crcStep_injective_acc b)

/-- `T` is a permutation of 0 to 255 (rule R236 (b)): it repeats no value, so it leaves none out. -/
theorem mem_crcTable (v : Byte) : v ∈ crcTable := by
  obtain ⟨x, rfl⟩ := Finite.surjective_of_injective (crcStep_injective 0) v
  exact List.mem_of_getElem? (crcTable_lookup 0 x)

/-! ## The CRC of a sequence -/

/-- A byte equal to the accumulator clears it, since `T[0] = 0` (rule R236 (a)). -/
theorem crcStep_self (c : Byte) : crcStep c c = 0 := by
  unfold crcStep
  rw [BitVec.xor_self]
  rfl

theorem crc8_append_crc8 (s : List Byte) : crc8 (s ++ [crc8 s]) = 0 := by
  unfold crc8
  rw [List.foldl_append]
  exact crcStep_self _

theorem crc8_ne_of_one_byte (s t : List Byte) {x y : Byte} (h : x ≠ y) : crc8 (s ++ x :: t) ≠ crc8 (s ++ y :: t) := by
  unfold crc8
  rw [List.foldl_append, List.foldl_append]
  exact fun heq => h (crcStep_injective _ (foldl_crcStep_injective t heq))

theorem crc8_zeros (n : Nat) : crc8 (List.replicate n 0) = 0 := by
  induction n with
  | zero => rfl
  | succ n ih =>
    show (List.replicate n 0).foldl crcStep (crcStep 0 0) = 0
    rw [crcStep_self]
    exact ih

/-- Settles O59: a byte that repeats the accumulator clears it, and no update loses a difference. -/
theorem crcProperties : Obligations.CrcProperties :=
  ⟨crc8_append_crc8, fun s t _ _ => crc8_ne_of_one_byte s t, fun c _ _ h => crcStep_injective c h,
    fun _ _ => mem_crcTable _, crc8_zeros, by decide, by decide⟩

/-! ## The commands -/

section Commands
variable (s : State) (v : Byte) (x : Option Word)

theorem setCrc_ends : s.EndsAs (State.finish .ok x none { s with dev := setCrc v s.dev }) .ok (x.getD s.r0) s.r1 :=
  finish_ends (d := setCrc v s.dev) (.refl _) rfl .ok x none

/-- Once the accumulator is set the command only ends. -/
theorem setCrc_noEffect :
    State.NoEffect { s with dev := setCrc v s.dev } (State.finish .ok x none { s with dev := setCrc v s.dev }) .ok
      (x.getD s.r0) s.r1 := finish_noEffect _ .ok x none

variable {s}

theorem crcVerdict_of_zero (h : s.dev.crc = 0) : crcVerdict s.dev = (.ok, some 1, s.dev) := if_pos h

theorem crcVerdict_of_ne_zero (h : s.dev.crc ≠ 0) : crcVerdict s.dev = (.integrityFailure, some 0, s.dev) := if_neg h

end Commands

/-- Settles O60: `crcReset` and `crcUpdate` set the accumulator and end; `crcValid` only ends, by its verdict. -/
theorem crcCommands : Obligations.CrcCommands := by
  intro s
  refine ⟨?reset, fun v => ?update, fun h => ?valid, fun h => ?invalid⟩
  case reset =>
    obtain ⟨-, units, pins, clk, draws, own⟩ := setCrc_noEffect s 0 none
    exact ⟨_, rfl, setCrc_ends s 0 none, rfl, units.gpio, units.bus, pins, clk, draws, own⟩
  case update =>
    have hset := setCrc_noEffect s (crcStep s.dev.crc v) (byteWord (crcStep s.dev.crc v))
    obtain ⟨-, units, pins, clk, draws, own⟩ := hset
    exact ⟨_, rfl, setCrc_ends s _ _, crcTable_lookup .., units.gpio, units.bus, pins, clk, draws, own⟩
  case valid => exact ⟨_, rfl, runWith_noEffect (crcVerdict_of_zero h)⟩
  case invalid => exact ⟨_, rfl, runWith_noEffect (crcVerdict_of_ne_zero h)⟩

end Sys2Proof.Machine
end

section
/-! PROOFS. Reset (rules R49, R320, R321). Reset inside a line looks ahead at what the line would do. The turn of the
reset has been taken off the agenda by then, which makes no difference to the line: no line reads the agenda. -/

namespace Sys2Proof.Machine

open Sys2Proof

/-! ## No line reads the agenda -/

/-- The moves that the agents still have to make are these. -/
def State.withAgenda (g : List Turn) (s : State) : State := { s with agenda := g }

@[simp] theorem withAgenda_dev (g : List Turn) (s : State) : (s.withAgenda g).dev = s.dev := rfl

section Lines
variable (p : Byte) (q : Seq) (s : State) (g : List Turn)

theorem lineIf_withAgenda (c : Bool) : (s.withAgenda g).lineIf q c = (s.lineIf q c).withAgenda g := by
  cases c <;> rfl

theorem lineBound_withAgenda (want : Bool) : (s.withAgenda g).lineBound q want = (s.lineBound q want).withAgenda g := by
  unfold State.lineBound
  dsimp +instances only [withAgenda_dev]
  split <;> rfl

theorem lineInitialize_withAgenda : lineInitialize q (s.withAgenda g) = (lineInitialize q s).withAgenda g := by
  unfold lineInitialize
  dsimp +instances only [withAgenda_dev]
  split
  · exact lineIf_withAgenda ..
  · split <;> rfl
  all_goals rfl

theorem linePins_withAgenda (last : Dev → Dev) :
    linePins q last (s.withAgenda g) = (linePins q last s).withAgenda g := by
  unfold linePins
  dsimp only
  split <;> rfl

theorem lineFinalize_withAgenda : lineFinalize q (s.withAgenda g) = (lineFinalize q s).withAgenda g := by
  unfold lineFinalize
  dsimp +instances only [withAgenda_dev]
  split
  · exact lineIf_withAgenda ..
  · split
    · exact linePins_withAgenda ..
    · rfl
  all_goals rfl

theorem lineExportPin_withAgenda : lineExportPin p q (s.withAgenda g) = (lineExportPin p q s).withAgenda g := by
  unfold lineExportPin
  dsimp +instances only [withAgenda_dev]
  split
  · exact lineIf_withAgenda ..
  · exact lineIf_withAgenda ..
  · exact lineIf_withAgenda ..
  · rfl
  · rfl
  · split
    · rfl
    · split
      · rfl
      · split
        · rfl
        · split <;> rfl
  all_goals rfl

theorem lineUnexportPin_withAgenda : lineUnexportPin p q (s.withAgenda g) = (lineUnexportPin p q s).withAgenda g := by
  unfold lineUnexportPin
  dsimp +instances only [withAgenda_dev]
  split
  · exact lineIf_withAgenda ..
  · exact lineIf_withAgenda ..
  · exact lineIf_withAgenda ..
  all_goals rfl

theorem lineUnexportAll_withAgenda : lineUnexportAll q (s.withAgenda g) = (lineUnexportAll q s).withAgenda g := by
  unfold lineUnexportAll
  split
  · exact linePins_withAgenda ..
  · rfl

theorem linePinWrite_withAgenda (reg : PinEntry → Dev → Dev) (file : Fin 64 → Dev → Dev) :
    linePinWrite p reg file q (s.withAgenda g) = (linePinWrite p reg file q s).withAgenda g := by
  unfold linePinWrite
  dsimp +instances only [withAgenda_dev]
  split
  · exact lineIf_withAgenda ..
  · split <;> rfl
  · split <;> rfl
  · rfl

theorem lineGetValue_withAgenda : lineGetValue p q (s.withAgenda g) = (lineGetValue p q s).withAgenda g := by
  unfold lineGetValue
  dsimp +instances only [withAgenda_dev]
  split
  · split <;> rfl
  · split <;> rfl
  · rfl

theorem lineDelay_withAgenda (f : Bool) : lineDelay f q (s.withAgenda g) = (lineDelay f q s).withAgenda g := by
  unfold lineDelay
  split <;> rfl

theorem lineClockRead_withAgenda : lineClockRead q (s.withAgenda g) = (lineClockRead q s).withAgenda g := by
  unfold lineClockRead
  split <;> rfl

theorem lineOpenSimple_withAgenda (c : BusCfg) (slots : Vector Word 10) :
    lineOpenSimple c p slots q (s.withAgenda g) = (lineOpenSimple c p slots q s).withAgenda g := by
  unfold lineOpenSimple
  split
  · exact lineBound_withAgenda ..
  all_goals rfl

theorem lineOpenBuffered_withAgenda (p' : Byte) :
    lineOpenBuffered p p' q (s.withAgenda g) = (lineOpenBuffered p p' q s).withAgenda g := by
  unfold lineOpenBuffered
  split
  · exact lineBound_withAgenda ..
  all_goals rfl

theorem lineBusClose_withAgenda : lineBusClose q (s.withAgenda g) = (lineBusClose q s).withAgenda g := by
  unfold lineBusClose
  split
  · exact lineBound_withAgenda ..
  all_goals rfl

theorem lineSetSlot_withAgenda (n : BitVec 4) :
    lineSetSlot n q (s.withAgenda g) = (lineSetSlot n q s).withAgenda g := by
  unfold lineSetSlot
  split
  · exact lineBound_withAgenda ..
  · rfl

theorem lineGetSlot_withAgenda (n : BitVec 4) :
    lineGetSlot n q (s.withAgenda g) = (lineGetSlot n q s).withAgenda g := by
  unfold lineGetSlot
  split
  · exact lineBound_withAgenda ..
  · rfl

theorem lineLine_withAgenda (f : Dev → Dev) : lineLine f q (s.withAgenda g) = (lineLine f q s).withAgenda g := by
  unfold lineLine
  split
  · exact lineBound_withAgenda ..
  · rfl

theorem lineReset_withAgenda : lineReset q (s.withAgenda g) = (lineReset q s).withAgenda g := by
  unfold lineReset
  split
  case h_1 => exact lineBound_withAgenda ..
  case h_9 => split <;> rfl
  all_goals rfl

theorem lineWriteBit_withAgenda (b : Bool) : lineWriteBit b q (s.withAgenda g) = (lineWriteBit b q s).withAgenda g := by
  unfold lineWriteBit
  split
  · exact lineBound_withAgenda ..
  · rfl
  · split <;> rfl
  · split <;> rfl
  · rfl

theorem lineWriteByte_withAgenda (v : Byte) :
    lineWriteByte v q (s.withAgenda g) = (lineWriteByte v q s).withAgenda g := by
  unfold lineWriteByte
  dsimp only
  split
  · exact lineBound_withAgenda ..
  · split <;> rfl
  all_goals rfl

theorem lineReadBit_withAgenda : lineReadBit q (s.withAgenda g) = (lineReadBit q s).withAgenda g := by
  unfold lineReadBit
  split
  · exact lineBound_withAgenda ..
  all_goals rfl

theorem lineReadByte_withAgenda : lineReadByte q (s.withAgenda g) = (lineReadByte q s).withAgenda g := by
  unfold lineReadByte
  dsimp only
  split
  · exact lineBound_withAgenda ..
  · rfl
  · split <;> rfl
  · rfl

theorem lineCrcUpdate_withAgenda (v : Byte) :
    lineCrcUpdate v q (s.withAgenda g) = (lineCrcUpdate v q s).withAgenda g := by
  unfold lineCrcUpdate
  split <;> rfl

theorem lineCrcValid_withAgenda : lineCrcValid q (s.withAgenda g) = (lineCrcValid q s).withAgenda g := by
  unfold lineCrcValid
  dsimp +instances only [withAgenda_dev]
  split
  · split <;> rfl
  · rfl

/-- No line reads the agenda or moves it. -/
theorem line_withAgenda (i : Instr) : line i q (s.withAgenda g) = (line i q s).withAgenda g := by
  cases i with
  | initGpio => exact lineInitialize_withAgenda ..
  | finalize => exact lineFinalize_withAgenda ..
  | exportPin p => exact lineExportPin_withAgenda ..
  | unexportPin p => exact lineUnexportPin_withAgenda ..
  | unexportAll => exact lineUnexportAll_withAgenda ..
  | setMode p m => exact linePinWrite_withAgenda ..
  | setPullDisable p => exact linePinWrite_withAgenda ..
  | setPullUp p => exact linePinWrite_withAgenda ..
  | setPullDown p => exact linePinWrite_withAgenda ..
  | setValue p b => exact linePinWrite_withAgenda ..
  | getValue p => exact lineGetValue_withAgenda ..
  | delay f => exact lineDelay_withAgenda ..
  | clockRead => exact lineClockRead_withAgenda ..
  | busOpenLegacy p => exact lineOpenSimple_withAgenda ..
  | busOpenTunable p => exact lineOpenSimple_withAgenda ..
  | busOpenBuffered p p' => exact lineOpenBuffered_withAgenda ..
  | busClose => exact lineBusClose_withAgenda ..
  | setSlot n => exact lineSetSlot_withAgenda ..
  | getSlot n => exact lineGetSlot_withAgenda ..
  | pullUp => exact lineLine_withAgenda ..
  | pullDown => exact lineLine_withAgenda ..
  | reset => exact lineReset_withAgenda ..
  | writeBit b => exact lineWriteBit_withAgenda ..
  | writeByte v => exact lineWriteByte_withAgenda ..
  | readBit => exact lineReadBit_withAgenda ..
  | readByte => exact lineReadByte_withAgenda ..
  | crcReset => rfl
  | crcUpdate v => exact lineCrcUpdate_withAgenda ..
  | crcValid => exact lineCrcValid_withAgenda ..

theorem tick_withAgenda : tick (s.withAgenda g) = (tick s).withAgenda g := by
  cases hq : s.seq with
  | none => rw [tick_idle hq, tick_idle (s := s.withAgenda g) hq]
  | some q =>
    cases hd : decode q.cmd with
    | error e => rw [tick_undecodable hq hd, tick_undecodable (s := s.withAgenda g) hq hd]; rfl
    | ok i => rw [tick_line hq hd, tick_line (s := s.withAgenda g) hq hd]; exact line_withAgenda q s g i

end Lines

/-! ## Reset -/

/-- Right after reset `STATUS` reads 0 (rule R49): idle, unbound, no backend, outcome OK. -/
theorem hardReset_statusWord (s : State) : s.hardReset.statusWord = 0 := by
  show packStatus .ok { } .none false = 0
  decide

/-- Settles O13: `State.hardReset` gives the units their default values and keeps the rest; `pin_default` speaks of the
pins one by one. -/
theorem hardwareReset : Obligations.HardwareReset := by
  refine ⟨fun s => ?_, fun s rest h => ?_, rfl⟩
  · have hpin : ∀ i, s.hardReset.dev.gpio.pin i = { } := pin_default _
    have hslot : ∀ i, s.hardReset.dev.bus.slot i = 0 := fun i => Vector.getElem_replicate i.isLt
    refine ⟨⟨rfl, rfl, rfl, rfl, rfl⟩, hardReset_statusWord s, rfl, rfl, rfl, rfl, fun i => ?_, rfl, rfl, rfl, rfl,
      hslot, rfl, rfl, rfl⟩
    rw [hpin]
    exact ⟨rfl, rfl, rfl, rfl⟩
  · rw [step_eq_turn, h]
    rfl

/-- Of a line cut short the environment keeps the first `n` actions, and the draws are used up (rule R321). -/
theorem hardResetAfter_env (n : Nat) (later s : State) :
    (State.hardResetAfter n later s).dev.env =
      { Env.performAll ((s.dev.actionsSince later.dev).take n) s.dev.env with draws := later.dev.env.draws } := rfl

/-- Where no action is cut off, the world is as the line leaves it. -/
theorem hardResetAfter_sameWorld {n : Nat} {later s : State} (h : Env.Reaches s.dev.env later.dev.env)
    (hn : (s.dev.actionsSince later.dev).length ≤ n) :
    (State.hardResetAfter n later s).dev.env.sameWorld later.dev.env := by
  rw [hardResetAfter_env, List.take_of_length_le hn]
  obtain ⟨hpage, hsettings, hpos, hclk⟩ := h.sameWorld
  exact ⟨hpage.symm, hsettings.symm, hpos.symm, hclk.symm⟩

/-- The step that resets inside a line (rule R321). -/
theorem step_hardResetDuring {s : State} {n : Nat} {rest : List Turn} (h : s.agenda = .hardResetDuring n :: rest) :
    step s = .next ((State.hardResetAfter n (tick s) s).withAgenda rest) := by
  rw [step_eq_turn, h]
  show Host.Outcome.next (State.hardResetAfter n (tick (s.withAgenda rest)) (s.withAgenda rest)) = _
  rw [tick_withAgenda]
  rfl

/-- Settles O14: the registers and units by `State.hardReset`, the history and the world by the actions of the line that
happened, all of them what `tick_reaches` says of the line. -/
theorem resetInsideALine : Obligations.ResetInsideALine := by
  intro s n rest h
  exact ⟨_, step_hardResetDuring h, rfl, rfl, rfl, rfl, hardReset_statusWord _, rfl, rfl, rfl, rfl, rfl, rfl, rfl, rfl,
    rfl, performAll_log .., ⟨rfl, rfl, rfl, rfl⟩, hardResetAfter_sameWorld (tick_reaches s)⟩

end Sys2Proof.Machine
end

section
/-! PROOFS. The words of the spec, written out: the encoding vectors (95_test_vectors.md section 3) decode as they say,
and the encodings of the operation rules are each a field moved to its place in the word (rules R90, R124 to R235). -/

namespace Sys2Proof

/-- Settles O1: the decoder computes, and each vector is a fixed word. -/
theorem vectorWordsDecode : Obligations.VectorWordsDecode := by
  unfold Obligations.VectorWordsDecode
  decide

/-! ## A word as its fields moved to their places -/

section Places
variable (o p q v : Byte)

/-- Rule R90: the word is its four fields, each moved to its place. -/
theorem formatC_eq_or : formatC o p q v =
    (o.setWidth 32 <<< 24) ||| (p.setWidth 32 <<< 16) ||| (q.setWidth 32 <<< 8) ||| v.setWidth 32 :=
  (BitVec.setWidth_eq _).symm.trans BitVec.setWidth_append_append_append_eq_shiftLeft_setWidth_or

/-- The word of a row with the fields `P` and `Q`. -/
theorem formatC_onlyPQ :
    formatC o p q 0 = (o.setWidth 32 <<< 24) ||| (p.setWidth 32 <<< 16) ||| (q.setWidth 32 <<< 8) :=
  (formatC_eq_or o p q 0).trans BitVec.or_zero

/-- The word of a row with the fields `P` and `V`. -/
theorem formatC_onlyPV : formatC o p 0 v = (o.setWidth 32 <<< 24) ||| (p.setWidth 32 <<< 16) ||| v.setWidth 32 := by
  rw [formatC_eq_or]
  simp

/-- The word of a row with the one field `P`. -/
theorem formatC_onlyP : formatC o p 0 0 = (o.setWidth 32 <<< 24) ||| (p.setWidth 32 <<< 16) :=
  (formatC_onlyPV o p 0).trans BitVec.or_zero

/-- The word of a row with the one field `V`. -/
theorem formatC_onlyV : formatC o 0 0 v = (o.setWidth 32 <<< 24) ||| v.setWidth 32 := by
  rw [formatC_onlyPV]
  simp

/-- The word of a row with a slot number, the low half of the field `Q` (rule R90). -/
theorem formatC_slot (n : BitVec 4) : formatC o 0 (slotQ n) 0 = (o.setWidth 32 <<< 24) ||| (n.setWidth 32 <<< 8) := by
  have hn : (slotQ n).setWidth 32 = n.setWidth 32 := BitVec.setWidth_setWidth (by decide)
  rw [formatC_onlyPQ, hn]
  simp

end Places

/-- Settles O2: a word without operands is a constant, the others are of one of the shapes of `formatC_eq_or`. -/
theorem encodingsOfTheRules : Obligations.EncodingsOfTheRules := by
  refine ⟨rfl, rfl, rfl, rfl, rfl, rfl, rfl, rfl, rfl, rfl, rfl, rfl, fun p => ?_, fun p q => formatC_onlyPQ 0x32 p q,
    rfl, rfl, rfl, rfl, fun n => ⟨formatC_slot 0x34 n, formatC_slot 0x35 n⟩,
    fun v => ⟨formatC_onlyV 0x3A v, formatC_onlyV 0x41 v⟩⟩
  exact ⟨formatC_onlyP 0x12 p, formatC_onlyP 0x13 p,
    formatC_onlyP 0x15 p, formatC_onlyPV 0x15 p 1,
    formatC_onlyP 0x16 p, formatC_onlyPV 0x16 p 1, formatC_onlyPV 0x16 p 2,
    formatC_onlyP 0x17 p, formatC_onlyPV 0x17 p 1,
    formatC_onlyP 0x18 p, formatC_onlyP 0x30 p, formatC_onlyP 0x31 p⟩

end Sys2Proof
end
